-- ==== Sys2Proof/Word.lean ====
section
/-! DEFINITION. The words of the bridge block: bytes, line levels, line directions, roles, and the 13 logical lines of a
port (rules R9, R10 and R14 of spec/00_scope.md, R21 of spec/10_state.md). -/

namespace Sys2Proof

/-- A byte: 8 bits, unsigned, bit 0 least significant (R9). -/
abbrev Byte := BitVec 8

/-- An electrical level of a line: `low` is L, `high` is H (R10). -/
inductive Level where
  | low
  | high
  deriving DecidableEq, Repr, Inhabited

/-- The direction of a line at one end: `input` is In ("input/high-impedance"), `output` is Out (R11). -/
inductive Dir where
  | input
  | output
  deriving DecidableEq, Repr

/-- The role of an end (R14, R23). -/
inductive Role where
  | host
  | peripheral
  deriving DecidableEq, Repr

/-- The 13 logical lines of a port (R10, R21). -/
inductive Line where
  | d0
  | d1
  | d2
  | d3
  | d4
  | d5
  | d6
  | d7
  | wait
  | wrsel
  | dstb
  | astb
  | rst
  deriving DecidableEq, Repr

end Sys2Proof
end

