-- ==== Sys2Proof/Config.lean ====
section
/-! DEFINITION. What an implementation of the bridge block fixes (R8 of spec/00_scope.md), and the free values: constants
with no body, of which nothing can be proved (rules R22 and R39 of spec/10_state.md). -/

namespace Sys2Proof

/-- `CAP`: capacity in bytes of the one transfer buffer, the largest transaction and the largest body (R8). -/
def Config.cap : Nat := 128

/-- `ZERO`: the byte `SpiReset` writes to the data register (R8, R28). -/
def Config.zeroByte : Byte := 0x00

/-- `AAI_OP`: the flash command byte of the byte-pair program command (R8, R102). -/
def Config.aaiOp : Byte := 0xAD

/-- `RDSR_OP`: the flash command byte of the read-status command (R8, R102). -/
def Config.rdsrOp : Byte := 0x05

/-- The command letters, as their ASCII codes (R95, D23). -/
def Config.letterA : Byte := 0x41
def Config.letterB : Byte := 0x42
def Config.letterC : Byte := 0x43
def Config.letterE : Byte := 0x45
def Config.letterP : Byte := 0x50
def Config.letterR : Byte := 0x52
def Config.letterW : Byte := 0x57

/-- The reference values of the four open register constants that `State.reset` starts from. DESIGN CHOICE (log entry
3): no rule fixes them (R8, D13), they are fields of State, and no statement rests on these numbers. -/
def Config.idxAddr : Byte := 0x05
def Config.datAddr : Byte := 0x08
def Config.enByte : Byte := 0xFD
def Config.disByte : Byte := 0xFE

/-- The reference `BANNER` of `State.reset`. DESIGN CHOICE (log entry 3): R8 leaves the byte string open. -/
def Config.banner : List Byte := [0x4F, 0x4B]

/-- The reference `T_SETTLE_US` of `State.reset`. DESIGN CHOICE (log entry 3): R280, no rule depends on it. -/
def Config.settleUs : Nat := 1

/-- The reference `ROLE_AT_RESET` of `State.reset`. DESIGN CHOICE (log entry 3): R8 leaves it open; the dispatcher is
fully specified only on a host-role board (R214). -/
def Config.roleAtReset : Role := .host

/-- How many primitives one step of the model runs at most before it answers; an operation that is longer goes on in
the next step. DESIGN CHOICE (log entry 5), safe. -/
def Config.burst : Nat := 1048576

/-- Free value: what the one-byte buffer of a read cycle on its own holds before its byte arrives. DESIGN CHOICE (log entry
9): the spec gives such a cycle no buffer. -/
opaque Config.loneByte : Byte

/-- Free value: the level the `n`-th sample of a floating or contended wire reads (R22, U1, U2). -/
opaque Config.levelDraw : Nat → Level

/-- Free value: the `n`-th unspecified byte (R206: the slot at console entry; R39: an unwritten buffer byte; what an
external target answers when no reply of its own is queued, R7). -/
opaque Config.byteDraw : Nat → Byte

/-- Free values: what register number `k` holds after the block reset that happened at draw number `n` (R39, R262:
"unspecified", never read as zero). -/
opaque Config.resetByte : Nat → Nat → Byte
opaque Config.resetBool : Nat → Nat → Bool
opaque Config.resetNat : Nat → Nat → Nat

end Sys2Proof
end

