-- ==== Sys2Proof/Syntax.lean ====
section
/-! DEFINITION. The operations of the bridge block: one constructor of `Instr` per row of spec/opcode_table.json (rule
R108 of spec/30_encoding.md), with the operands the row names. -/

namespace Sys2Proof

/-- The closed set of operations (R2, R90, R108). A `buf` operand is the contents of the caller-supplied byte buffer and
`n` its length argument, a mathematical integer as the caller passes it (R13, R124). -/
inductive Instr where
  /-- Command 'A', address prefix; header byte 1 is the address (R203). -/
  | cmdA (addr : Byte)
  /-- Command 'B', buffer size query; header byte 1 is N-1 (R205). -/
  | cmdB (lm1 : Byte)
  /-- Command 'C', console mode; header byte 1 is ignored (R206). -/
  | cmdC (ignored : Byte)
  /-- Command 'E', echo (R207). -/
  | cmdE (lm1 : Byte)
  /-- Command 'P', accelerated program (R210). -/
  | cmdP (lm1 : Byte)
  /-- Command 'R', bus read (R208). -/
  | cmdR (lm1 : Byte)
  /-- Command 'W', bus write (R209). -/
  | cmdW (lm1 : Byte)
  /-- Any other header byte 0 (R96, R211). -/
  | unrecognized (code : Byte) (ignored : Byte)
  /-- One address-write cycle; `data` is the byte on the data wires (R97). -/
  | cycleAddressWrite (data : Byte)
  /-- One address-read cycle (R97). -/
  | cycleAddressRead
  /-- One data-write cycle (R97). -/
  | cycleDataWrite (data : Byte)
  /-- One data-read cycle (R97). -/
  | cycleDataRead
  /-- Both strobes asserted, with the level of `WRSEL` (R98, R156). -/
  | cycleReserved (wrsel : Level)
  /-- Both strobes idle, with the level of `WRSEL` (R97). -/
  | noCycle (wrsel : Level)
  /-- `Write(buf, n)` (R132). -/
  | write (buf : List Byte) (n : Int)
  /-- `SetAddress(buf, n)` (R129). -/
  | setAddress (buf : List Byte) (n : Int)
  /-- `Read(buf, n)` (R131). -/
  | read (buf : List Byte) (n : Int)
  /-- `GetAddress(buf, n)` (R130). -/
  | getAddress (buf : List Byte) (n : Int)
  /-- Pass-through chip disable (R101). -/
  | ptChipDisable
  /-- Pass-through data-register clear (R101). -/
  | ptDataClear
  /-- Pass-through chip enable (R101). -/
  | ptChipEnable
  /-- Pass-through payload (R101). -/
  | ptPayload (buf : List Byte) (n : Int) (rd : Bool)
  /-- Flash seed command with its two data bytes (R102, R182). -/
  | flashAaiSeed (d e : Byte)
  /-- Flash increment command with its two data bytes (R102, R183). -/
  | flashAaiIncrement (d e : Byte)
  /-- Flash read-status command and its one-byte reply (R102, R184). -/
  | flashReadStatus
  /-- `PortHiZ` (R120). -/
  | portHiZ
  /-- `Reset(role)` (R121). -/
  | reset (role : Role)
  /-- `Transaction(buf, length, read, addressCycle)` (R124, R125). -/
  | transaction (buf : List Byte) (n : Int) (rd : Bool) (ac : Bool)
  /-- `PeripheralCycle(byteSlot, outRead, outAddr)`; `slot` is the byte slot on entry (R150, R151). -/
  | peripheralCycle (slot : Byte)
  /-- `SpiReset` (R171). -/
  | spiReset
  /-- `SpiTransaction(buf, length, read)` (R172). -/
  | spiTransaction (buf : List Byte) (n : Int) (rd : Bool)
  /-- `FlashProgram(buf, length, initialized)` (R180, R181). -/
  | flashProgram (buf : List Byte) (n : Int) (init : Bool)
  /-- The dispatcher's `abort(r)` (R212). -/
  | abort (r : Int)
  deriving DecidableEq, Repr

end Sys2Proof
end

