-- ==== Sys2Proof/WellFormed.lean ====
section
/-! DEFINITION. Which terms of `Instr` the spec gives operands for: the buffer and length preconditions of R124, the
command codes of R95 and R96, and the negative code of `abort` (R212). -/

namespace Sys2Proof

/-- A caller's buffer and length argument: `0 <= n <= CAP` and a buffer of at least `n` bytes (R124, R187). -/
def WellFormed.bufferArg (buf : List Byte) (n : Int) : Bool :=
  decide (0 ≤ n) && decide (n ≤ Config.cap) && decide (n ≤ buf.length)

/-- Header byte 0 values a board takes as commands; 'C' only on a host-role board (R95, R206). -/
def WellFormed.isCommandCode (board : Role) (code : Byte) : Bool :=
  code == Config.letterA || code == Config.letterB || (code == Config.letterC && board == .host) ||
  code == Config.letterE || code == Config.letterP || code == Config.letterR || code == Config.letterW

/-- The well-formed instructions of a board whose `ROLE_AT_RESET` is `board`. -/
def wellFormed (board : Role) : Instr → Bool
  | .cmdA _ => true
  | .cmdB _ => true
  | .cmdC _ => board == .host
  | .cmdE _ => true
  | .cmdP _ => true
  | .cmdR _ => true
  | .cmdW _ => true
  | .unrecognized code _ => !WellFormed.isCommandCode board code
  | .cycleAddressWrite _ => true
  | .cycleAddressRead => true
  | .cycleDataWrite _ => true
  | .cycleDataRead => true
  | .cycleReserved _ => true
  | .noCycle _ => true
  | .write buf n => WellFormed.bufferArg buf n
  | .setAddress buf n => WellFormed.bufferArg buf n
  | .read buf n => WellFormed.bufferArg buf n
  | .getAddress buf n => WellFormed.bufferArg buf n
  | .ptChipDisable => true
  | .ptDataClear => true
  | .ptChipEnable => true
  | .ptPayload buf n _ => WellFormed.bufferArg buf n
  | .flashAaiSeed _ _ => true
  | .flashAaiIncrement _ _ => true
  | .flashReadStatus => true
  | .portHiZ => true
  | .reset _ => true
  | .transaction buf n _ _ => WellFormed.bufferArg buf n
  | .peripheralCycle _ => true
  | .spiReset => true
  | .spiTransaction buf n _ => WellFormed.bufferArg buf n
  | .flashProgram buf n _ => WellFormed.bufferArg buf n
  | .abort r => decide (r < 0)

end Sys2Proof
end

