-- ==== Sys2Proof/Decode.lean ====
section
/-! DEFINITION. Decoding and encoding of the five formats (rules R90 to R104 and R108 of spec/30_encoding.md). `PT` and
`CALL` rows have no bit-level encoding (R108): they reach the machine as operation-level calls (R4). -/

namespace Sys2Proof

/-- Why bytes are no instruction. -/
inductive Reject where
  /-- A serial header has two bytes (R91) and fewer are there. -/
  | shortHeader
  /-- The payload is none of the three flash commands of R102. -/
  | notAFlashCommand
  deriving DecidableEq, Repr

/-- An encoded instruction, by format (R90). -/
inductive Code where
  /-- `CMD`: the header bytes in order of arrival. -/
  | cmd (bytes : List Byte)
  /-- `CYC`: the levels of `ASTB`, `DSTB`, `WRSEL` and the byte on `D7..D0`. -/
  | cyc (astb dstb wrsel : Level) (data : Byte)
  /-- `SEL`: the selector `(read, addressCycle)` and the two other arguments of `Transaction`. -/
  | sel (rd ac : Bool) (buf : List Byte) (n : Int)
  /-- `SPI`: the payload bytes in order of sending. -/
  | spi (payload : List Byte)
  deriving DecidableEq, Repr

/-- A two-byte header (R91, R95, R96): all 8 bits of byte 0 select the command; 'C' exists only on a host-role board. -/
def decodeHeader (board : Role) (b0 b1 : Byte) : Instr :=
  if b0 = Config.letterA then .cmdA b1
  else if b0 = Config.letterB then .cmdB b1
  else if b0 = Config.letterC then (if board = .host then .cmdC b1 else .unrecognized b0 b1)
  else if b0 = Config.letterE then .cmdE b1
  else if b0 = Config.letterP then .cmdP b1
  else if b0 = Config.letterR then .cmdR b1
  else if b0 = Config.letterW then .cmdW b1
  else .unrecognized b0 b1

/-- The serial stream: the instruction at its head and the bytes after the header (R201). -/
def decodeCmd (board : Role) : List Byte → Except Reject (Instr × List Byte)
  | b0 :: b1 :: rest => .ok (decodeHeader board b0 b1, rest)
  | _ => .error .shortHeader

/-- The cycle tag on the wires (the table of R97; both strobes low is R98). -/
def decodeCyc (astb dstb wrsel : Level) (data : Byte) : Instr :=
  match astb, dstb, wrsel with
  | .low, .high, .low => .cycleAddressWrite data
  | .low, .high, .high => .cycleAddressRead
  | .high, .low, .low => .cycleDataWrite data
  | .high, .low, .high => .cycleDataRead
  | .low, .low, w => .cycleReserved w
  | .high, .high, w => .noCycle w

/-- The selector of `Transaction` (the table of R100). -/
def decodeSel (rd ac : Bool) (buf : List Byte) (n : Int) : Instr :=
  match rd, ac with
  | false, false => .write buf n
  | true, false => .read buf n
  | false, true => .setAddress buf n
  | true, true => .getAddress buf n

/-- The payload of a flash command (R102). -/
def decodeSpi : List Byte → Except Reject Instr
  | [op] => if op = Config.rdsrOp then .ok .flashReadStatus else .error .notAFlashCommand
  | [op, d, e] => if op = Config.aaiOp then .ok (.flashAaiIncrement d e) else .error .notAFlashCommand
  | [op, a2, a1, a0, d, e] =>
    if op = Config.aaiOp ∧ a2 = 0 ∧ a1 = 0 ∧ a0 = 0 then .ok (.flashAaiSeed d e) else .error .notAFlashCommand
  | _ => .error .notAFlashCommand

/-- Decoding of any encoded instruction. -/
def decode (board : Role) : Code → Except Reject Instr
  | .cmd [b0, b1] => .ok (decodeHeader board b0 b1)
  | .cmd _ => .error .shortHeader
  | .cyc a d w data => .ok (decodeCyc a d w data)
  | .sel rd ac buf n => .ok (decodeSel rd ac buf n)
  | .spi payload => decodeSpi payload

/-- The level a character of a `CYC` encoding string stands for: 0 is L, 1 is H (R108). -/
def levelOfBit (b : Bool) : Level := if b then .high else .low

/-- Byte `k` of the number `w`, byte 0 its least significant. -/
def byteOfWord (w k : Nat) : Byte := BitVec.ofNat 8 (w / 256 ^ k)

/-- The instruction of a word numbered as spec/opcode_table.json numbers it: `CMD` rows have header byte 0 in bits 15 to
8 (R108), an `SPI` row's first payload byte is its most significant one, a `CYC` row's three characters are `ASTB`,
`DSTB`, `WRSEL` from bit 2 down, a `SEL` row's two are `read`, `addressCycle` from bit 1 down. Operands the table gives no
bits are 0 or empty. -/
def decodeTableWord (nbits w : Nat) : Option Instr :=
  match nbits with
  | 2 => some (decodeSel (w.testBit 1) (w.testBit 0) [] 0)
  | 3 => some (decodeCyc (levelOfBit (w.testBit 2)) (levelOfBit (w.testBit 1)) (levelOfBit (w.testBit 0)) 0)
  | 8 => (decodeSpi [byteOfWord w 0]).toOption
  | 16 => (decode Config.roleAtReset (.cmd [byteOfWord w 1, byteOfWord w 0])).toOption
  | 24 => (decodeSpi [byteOfWord w 2, byteOfWord w 1, byteOfWord w 0]).toOption
  | 48 =>
    (decodeSpi [byteOfWord w 5, byteOfWord w 4, byteOfWord w 3, byteOfWord w 2, byteOfWord w 1, byteOfWord w 0]).toOption
  | _ => none

/-- The encoding of an instruction that has one (R108): `PT` and `CALL` rows have an empty encoding string. -/
def encode : Instr → Option Code
  | .cmdA addr => some (.cmd [Config.letterA, addr])
  | .cmdB lm1 => some (.cmd [Config.letterB, lm1])
  | .cmdC x => some (.cmd [Config.letterC, x])
  | .cmdE lm1 => some (.cmd [Config.letterE, lm1])
  | .cmdP lm1 => some (.cmd [Config.letterP, lm1])
  | .cmdR lm1 => some (.cmd [Config.letterR, lm1])
  | .cmdW lm1 => some (.cmd [Config.letterW, lm1])
  | .unrecognized code x => some (.cmd [code, x])
  | .cycleAddressWrite data => some (.cyc .low .high .low data)
  | .cycleAddressRead => some (.cyc .low .high .high 0)
  | .cycleDataWrite data => some (.cyc .high .low .low data)
  | .cycleDataRead => some (.cyc .high .low .high 0)
  | .cycleReserved w => some (.cyc .low .low w 0)
  | .noCycle w => some (.cyc .high .high w 0)
  | .write buf n => some (.sel false false buf n)
  | .setAddress buf n => some (.sel false true buf n)
  | .read buf n => some (.sel true false buf n)
  | .getAddress buf n => some (.sel true true buf n)
  | .ptChipDisable => none
  | .ptDataClear => none
  | .ptChipEnable => none
  | .ptPayload _ _ _ => none
  | .flashAaiSeed d e => some (.spi [Config.aaiOp, 0, 0, 0, d, e])
  | .flashAaiIncrement d e => some (.spi [Config.aaiOp, d, e])
  | .flashReadStatus => some (.spi [Config.rdsrOp])
  | .portHiZ => none
  | .reset _ => none
  | .transaction _ _ _ _ => none
  | .peripheralCycle _ => none
  | .spiReset => none
  | .spiTransaction _ _ _ => none
  | .flashProgram _ _ _ => none
  | .abort _ => none

/-- How many body bytes follow a header (R92, R93): `min(byte 1 + 1, 128)` after 'E', 'W' and 'P', none after any other. -/
def bodyLength (b0 b1 : Byte) : Nat :=
  if b0 = Config.letterE ∨ b0 = Config.letterW ∨ b0 = Config.letterP then min (b1.toNat + 1) Config.cap else 0

end Sys2Proof
end

