-- ==== Sys2Proof/Machine/State.lean ====
section
/-! DEFINITION. The state of the bridge block (rules R20 to R41 of spec/10_state.md): one block at the near end of the 13
wires, the party at the far end, and the agents' inputs that are still to come. Plain data throughout. -/

namespace Sys2Proof.Machine

/-- The two pieces of state of one line at one end: `dir(l)` and `lat(l)` (R21). -/
structure LineState where
  dir : Dir
  lat : Level
  deriving DecidableEq, Repr

/-- The 13 lines of one end (R21). -/
structure Lines where
  d0 : LineState
  d1 : LineState
  d2 : LineState
  d3 : LineState
  d4 : LineState
  d5 : LineState
  d6 : LineState
  d7 : LineState
  wait : LineState
  wrsel : LineState
  dstb : LineState
  astb : LineState
  rst : LineState
  deriving DecidableEq, Repr

/-- The transfer buffer `BUF` (R24): the (index, byte) cells written so far, indices strictly rising. A cell that is not
listed has not been written since block reset; reading it gives a fresh free value (R39, log entry 2). -/
abbrev Memory := List Host.Cell

/-- The flash command bytes `CMD[0..5]` (R30). -/
structure CmdBytes where
  b0 : Byte
  b1 : Byte
  b2 : Byte
  b3 : Byte
  b4 : Byte
  b5 : Byte
  deriving DecidableEq, Repr

/-- The buffer a running transfer refers to (R24, R25): `BUF`, `CMD`, `ST`, the one-byte constants of R28, the pending
address, or the buffer of a caller of the operation-level interface. -/
inductive BufRef where
  | buf
  | cmd
  | st
  | idxAddr
  | datAddr
  | enByte
  | disByte
  | zero
  | pendAddr
  | user
  deriving DecidableEq, Repr

/-- `HPH`, the phase of the host transaction (R26, R126). -/
inductive HPhase where
  | idle
  | setup
  | preWait
  | put
  | strobe
  | ackWait
  | get
  | release
  | restore
  | finish
  deriving DecidableEq, Repr

/-- `PPH`, the phase of the peripheral cycle (R27, R152). -/
inductive PPhase where
  | idle
  | check
  | strobeWait
  | decode
  | drive
  | ack
  | releaseWait
  | take
  | done
  deriving DecidableEq, Repr

/-- `SPH`, the step of a running `SpiReset` or `SpiTransaction` (R29, R171, R172). -/
inductive SPhase where
  | idle
  | s1
  | s2
  | s3
  | s4
  deriving DecidableEq, Repr

/-- Which of the two four-step sequences of the SPI layer is running (R171, R172). -/
inductive SKind where
  | reset
  | transfer
  deriving DecidableEq, Repr

/-- `FPH`, the phase of the flash sequencer (R30, R181). -/
inductive FPhase where
  | idle
  | test
  | deselect
  | seed
  | incr
  | pollDeselect
  | pollCmd
  | pollRead
  | pollTest
  | done
  deriving DecidableEq, Repr

/-- What the flash sequencer was started for: the whole of `FlashProgram`, or one flash command of R102 on its own. -/
inductive FOp where
  | program
  | seedOnly
  | incrOnly
  | statusOnly
  deriving DecidableEq, Repr

/-- `DPH`, the phase of the dispatcher (R213). -/
inductive DPhase where
  | header0
  | header1
  | body
  | exec
  | respond
  | console
  | halted
  deriving DecidableEq, Repr

/-- Where in its phase the dispatcher is (rules R200 to R212): one of the register updates of the pseudocode, each a step of
its own (R6), or an operation that the phase has called. -/
inductive DStep where
  /-- `D_HEADER1: c_lm1 <- SerialGet()` (R200). -/
  | lm1
  /-- `D_HEADER1: c_len <- min(c_lm1 + 1, 128)` (R200). -/
  | length
  /-- `D_HEADER1: if c_cmd != 'P': prog_active <- false` (R200, R204). -/
  | clearProg
  /-- `case c_cmd of` (R200). -/
  | decode
  /-- `pend_addr <- c_lm1` of 'A' (R203). -/
  | pendAddr
  /-- `pend_valid <- true` of 'A' (R203). -/
  | pendValid
  /-- `BUF[k] <- ...` of 'B' (R205). -/
  | fill
  /-- The `SetAddress` of 'R' or 'W' (R208, R209). -/
  | setAddress
  /-- The call of the data transfer, after `pend_valid <- false` (R208, R209, R216). -/
  | sendData
  /-- The `Read` or `Write` of 'R' or 'W' (R208, R209). -/
  | transfer
  /-- The `FlashProgram` of 'P' (R210). -/
  | flash
  /-- The test of the result of `FlashProgram`, after `prog_active <- true` (R210, R216). -/
  | flashTest
  /-- The `Reset` of 'C', then its `pslot <- draw` (R206). -/
  | consoleReset
  /-- `D_CONSOLE`: the call of `PeripheralCycle` (R206). -/
  | cycle
  /-- The `PortHiZ` of `abort(r)` (R212). -/
  | aborting (r : Int)
  deriving DecidableEq, Repr

/-- Whether the block is running the line sequence of a `PortHiZ` or a `Reset` (R120, R121). -/
inductive RPhase where
  | idle
  | running
  deriving DecidableEq, Repr

/-- One primitive of R11 that always has an enabled step; the two waits and the serial primitives are phases instead. -/
inductive Prim where
  /-- `SetDir(e, l, d)`. -/
  | setDir (l : Line) (d : Dir)
  /-- `SetLvl(e, l, v)`. -/
  | setLvl (l : Line) (v : Level)
  /-- `Delay(n)`; changes no state. -/
  | delay (us : Nat)
  /-- One `Get` of `DataSample`. -/
  | get (l : Line)
  /-- `t_byte <- v; buf[t_i] <- t_byte` of `H_GET` (R125). -/
  | storeHost
  /-- `pslot <- v` of `P_TAKE` (R151). -/
  | storeSlot
  /-- `p_rd <- (Get(e, WRSEL) = H)` of `P_DECODE` (R151). -/
  | senseWrsel
  /-- `p_ad <- (Get(e, ASTB) = L)` of `P_DECODE` (R151). -/
  | senseAstb
  /-- `ROLE <- role`, the last act of `Reset` (R121). -/
  | setRole (r : Role)
  deriving DecidableEq, Repr

/-- The working registers of the host transaction (R25): `t_rd`, `t_ac`, `t_len`, `t_i`, `t_byte`, the reference to the
caller's buffer, and `HPH`. -/
structure HostRegs where
  rd : Bool
  ac : Bool
  len : Nat
  i : Nat
  byte : Byte
  ref : BufRef
  ph : HPhase
  deriving DecidableEq, Repr

/-- The registers of the peripheral cycle (R27): `PPH`, `pslot`, `p_rd`, `p_ad`, and the Boolean result of the last
cycle (R150). -/
structure PerRegs where
  ph : PPhase
  slot : Byte
  rd : Bool
  ad : Bool
  ok : Bool
  deriving DecidableEq, Repr

/-- The registers of the SPI layer (R29): `SPH`, the sequence that runs, its last step, and the arguments of
`SpiTransaction`. -/
structure SpiRegs where
  ph : SPhase
  kind : SKind
  last : SPhase
  ref : BufRef
  len : Nat
  rd : Bool
  deriving DecidableEq, Repr

/-- The registers of the flash sequencer (R30): `FPH`, `CMD[0..5]`, `ST`, `f_i`, `f_init`, and the arguments `buf` and
`length` of the call. -/
structure FlashRegs where
  ph : FPhase
  op : FOp
  cmd : CmdBytes
  st : Byte
  i : Nat
  len : Nat
  ref : BufRef
  init : Bool
  deriving DecidableEq, Repr

/-- The registers of the dispatcher (R31): `pend_addr`, `pend_valid`, `prog_active`, `c_cmd`, `c_lm1`, `c_len`, `DPH`,
and the byte counter of the phases `D_BODY` and `D_RESPOND` (R213). -/
structure DispRegs where
  pendAddr : Byte
  pendValid : Bool
  progActive : Bool
  cmd : Byte
  lm1 : Byte
  len : Nat
  ph : DPhase
  step : DStep
  k : Nat
  deriving DecidableEq, Repr

/-- The parameters of one block (R8): the register constants of R28, `BANNER`, `T_SETTLE_US` and `ROLE_AT_RESET`. No
operation writes them. -/
structure Params where
  idxAddr : Byte
  datAddr : Byte
  enByte : Byte
  disByte : Byte
  banner : List Byte
  settleUs : Nat
  board : Role
  deriving DecidableEq, Repr

/-- One bus cycle as the host end completed it: `addr` for an address cycle, `read` for a read, and its byte (R60). -/
structure Cycle where
  addr : Bool
  read : Bool
  data : Byte
  deriving DecidableEq, Repr

/-- A request at the operation-level interface (R4): a call with its arguments, or the bits of a format that has an
encoding, numbered as spec/opcode_table.json numbers them. -/
inductive Request where
  | call (i : Instr)
  | word (nbits w : Nat)
  deriving DecidableEq, Repr

/-- One bridge block (R20). Beside the registers the spec names it holds, as the model's own: `todo`, the primitives of
the current phase that are still to be done (the step within a phase); `rph`; `smp`, the levels a `DataSample` has read
so far; `res`, the integer result of the last operation that returned (R13); `ubuf`, the buffer of a caller of the
operation-level interface; `calls`, that interface's pending requests; `bus`, the record of the cycles it completed as
host, oldest first (bookkeeping that nothing reads). -/
structure Block where
  par : Params
  lines : Lines
  role : Role
  buf : Memory
  host : HostRegs
  per : PerRegs
  spi : SpiRegs
  flash : FlashRegs
  disp : DispRegs
  sin : List Byte
  sout : List Byte
  todo : List Prim
  rph : RPhase
  smp : List Level
  res : Int
  ubuf : List Byte
  calls : List Request
  bus : List Cycle
  deriving DecidableEq, Repr

/-- A party at the far end that is no bridge block (D41, R7): its 13 lines, whether it serves cycles by itself, and the
bytes it will answer reads with. -/
structure Target where
  lines : Lines
  live : Bool
  replies : List Byte
  deriving DecidableEq, Repr

/-- The party at the far end of the wires (R14 "end", R245): an external target or a second bridge block. -/
inductive Party where
  | target (t : Target)
  | block (b : Block)
  deriving DecidableEq, Repr

/-- What an agent outside the near block may do (R6, R7, R260). -/
inductive Move where
  /-- An external target or host puts its 13 lines into the given state, which may assert both strobes (log entry 36). -/
  | lines (ls : Lines)
  /-- The far block runs up to `n` primitives. -/
  | far (n : Nat)
  /-- The serial peer of the near block sends a byte. -/
  | serial (b : Byte)
  /-- The serial peer of the far block sends a byte. -/
  | farSerial (b : Byte)
  /-- The near block's caller makes an operation-level request. -/
  | call (q : Request)
  /-- The far block's caller makes an operation-level request. -/
  | farCall (q : Request)
  /-- External reset of the near block. -/
  | resetNear
  /-- External reset of the far block. -/
  | resetFar
  deriving DecidableEq, Repr

/-- When a move happens: after `k` more primitives of the near block (a move due after 0 goes before anything else, R237),
or as soon as the near block has no step. -/
inductive When where
  | after (k : Nat)
  | blocked
  deriving DecidableEq, Repr

/-- One entry of the script of the outside world. An `after` entry whose near block has no step left happens at once. -/
structure Event where
  due : When
  move : Move
  deriving DecidableEq, Repr

/-- The machine: the near block, the far party, what the outside world will still do, how many free values have been
drawn, and `contention_seen` (R33). -/
structure State where
  near : Block
  far : Party
  script : List Event
  drawn : Nat
  contention : Bool
  deriving DecidableEq, Repr

/-- Why the machine stops with a fault. -/
inductive Fault where
  /-- Raised by a transfer or a body read that would index a buffer outside its bounds, which no operation may do (R24);
  unreachable from reset. Safe. -/
  | bufferIndex
  /-- Raised by `step` and by every operation once the dispatcher is at `D_HALTED` and nothing of the outside world is
  still to come (R212, R248: "Fault: a negative result reaching the dispatcher"). Safe. -/
  | halted
  deriving DecidableEq, Repr

/-- Why the machine gives an instruction no meaning. -/
inductive Refusal where
  /-- An instruction the model does not reach yet, by its mnemonic. No arm of `exec` answers it. Safe. -/
  | notModelled (mnemonic : String)
  /-- An operation in the wrong role (R242, U10). Raised where the engine operation starts. Safe. -/
  | wrongRole
  /-- Two blocks in the same role on one bus (R241, R248, U13). Raised where an engine operation starts, and at every step
  of a running one (log entry 16). Safe. -/
  | sameRole
  /-- A length below 0 or above `CAP` (R124, R187, U11). Safe. -/
  | badLength
  /-- A caller's buffer of fewer bytes than the length argument (the precondition of R124). Safe. -/
  | shortBuffer
  /-- An operation called while another runs at the same end (R72, R121, R248, U12). Safe. -/
  | interleaved
  /-- A host-role block asked to assert both strobes (R98, U5); an external host that does it is served (log entry 36).
  Safe. -/
  | reservedTag
  /-- An `abort` with a result that is not negative (R212: abort is entered on a negative result only). Safe. -/
  | notAFailure
  /-- A request word at the operation-level interface that encodes no instruction. Safe. -/
  | badRequest
  deriving DecidableEq, Repr

/-- What one primitive of a block gives: the block moves (with the new draw counter), it has no enabled step, or the run
stops. -/
inductive Tick where
  | moved (b : Block) (n : Nat)
  | waiting (n : Nat)
  | fault (f : Fault)
  | refused (r : Refusal)
  deriving DecidableEq, Repr

/-- What one turn of the whole system gives; `stuck` means that no agent has a step. -/
inductive Turn where
  | moved (s : State)
  | stuck (s : State)
  | fault (f : Fault)
  | refused (r : Refusal)
  deriving DecidableEq, Repr

/-- What a block sees of the party at the other end: its lines, and its role if it is a block. -/
structure Peer where
  lines : Lines
  role : Option Role
  deriving DecidableEq, Repr

/-- What the next step of the machine is. -/
inductive Fetched where
  /-- An instruction, and the state with its words consumed. -/
  | instr (i : Instr) (s : State)
  /-- An operation is under way and goes on. -/
  | busy
  /-- Nothing to run: the outside world moves, or nothing does. -/
  | idle
  /-- The dispatcher has aborted. -/
  | halted
  /-- A request that encodes no instruction. -/
  | undecodable
  deriving DecidableEq, Repr

/-- A line that is neither driven nor pulled (R41, R120). -/
def LineState.free : LineState := ⟨.input, .low⟩
/-- A line that is an input with the pull towards H (R21). -/
def LineState.pulled : LineState := ⟨.input, .high⟩
/-- A line driven H. -/
def LineState.drivenHigh : LineState := ⟨.output, .high⟩
/-- A line driven L. -/
def LineState.drivenLow : LineState := ⟨.output, .low⟩

/-- Every line `dir = In`, `lat = L` (R41; after `PortHiZ`, R120). -/
def Lines.hiZ : Lines :=
  { d0 := .free, d1 := .free, d2 := .free, d3 := .free, d4 := .free, d5 := .free, d6 := .free, d7 := .free,
    wait := .free, wrsel := .free, dstb := .free, astb := .free, rst := .free }

/-- The Host column of R39. -/
def Lines.idleHost : Lines :=
  { d0 := .pulled, d1 := .pulled, d2 := .pulled, d3 := .pulled, d4 := .pulled, d5 := .pulled, d6 := .pulled,
    d7 := .pulled, wait := .free, wrsel := .drivenHigh, dstb := .drivenHigh, astb := .drivenHigh, rst := .drivenHigh }

/-- The Peripheral column of R39. -/
def Lines.idlePeripheral : Lines :=
  { d0 := .pulled, d1 := .pulled, d2 := .pulled, d3 := .pulled, d4 := .pulled, d5 := .pulled, d6 := .pulled,
    d7 := .pulled, wait := .drivenLow, wrsel := .free, dstb := .free, astb := .free, rst := .free }

/-- An external target that is ready for a cycle: it drives `WAIT` L and nothing else (R62, R70). -/
def Lines.targetReady : Lines := { Lines.hiZ with wait := .drivenLow }

/-- The registers a block holds right after block reset has dropped the running operation (R39, R261): phases idle,
flags false, every register the spec leaves unspecified at a free value of draw number `n`. -/
def HostRegs.afterReset (n : Nat) : HostRegs :=
  { rd := Config.resetBool n 0, ac := Config.resetBool n 1, len := Config.resetNat n 0, i := Config.resetNat n 1,
    byte := Config.resetByte n 0, ref := .buf, ph := .idle }

def PerRegs.afterReset (n : Nat) : PerRegs :=
  { ph := .idle, slot := Config.resetByte n 1, rd := Config.resetBool n 2, ad := Config.resetBool n 3, ok := false }

def SpiRegs.afterReset : SpiRegs :=
  { ph := .idle, kind := .reset, last := .s4, ref := .buf, len := 0, rd := false }

def FlashRegs.afterReset (n : Nat) : FlashRegs :=
  { ph := .idle, op := .program,
    cmd := ⟨Config.resetByte n 2, Config.resetByte n 3, Config.resetByte n 4, Config.resetByte n 5,
      Config.resetByte n 6, Config.resetByte n 7⟩,
    st := Config.resetByte n 8, i := Config.resetNat n 2, len := 0, ref := .buf, init := Config.resetBool n 4 }

def DispRegs.afterReset (n : Nat) : DispRegs :=
  { pendAddr := Config.resetByte n 9, pendValid := false, progActive := false, cmd := Config.resetByte n 10,
    lm1 := Config.resetByte n 11, len := Config.resetNat n 3, ph := .header0, step := .decode, k := 0 }

/-- The reference parameters (log entry 3). -/
def Params.reference : Params :=
  { idxAddr := Config.idxAddr, datAddr := Config.datAddr, enByte := Config.enByte, disByte := Config.disByte,
    banner := Config.banner, settleUs := Config.settleUs, board := Config.roleAtReset }

/-- The line state that `Reset(role)` ends in (R39). -/
def Lines.idleOf : Role → Lines
  | .host => .idleHost
  | .peripheral => .idlePeripheral

/-- A block with parameters `par` right after its block reset at draw number `n` (the table of R39). -/
def Block.afterReset (par : Params) (n : Nat) : Block :=
  { par := par, lines := .idleOf par.board, role := par.board, buf := [],
    host := .afterReset n, per := .afterReset n, spi := .afterReset, flash := .afterReset n, disp := .afterReset n,
    sin := [], sout := [], todo := [], rph := .idle, smp := [], res := 0, ubuf := [], calls := [], bus := [] }

/-- The machine right after reset (R39, R261, R262): the near block with the reference parameters, an external target at
the far end that is ready and serves cycles (log entry 4), and an outside world that has sent nothing yet. -/
def State.reset : State :=
  { near := .afterReset .reference 0,
    far := .target { lines := .targetReady, live := true, replies := [] },
    script := [], drawn := 1, contention := false }

end Sys2Proof.Machine
end

