-- ==== Sys2Proof/Machine/Ops.lean ====
section
/-! DEFINITION. The named operations over lines, wires and the transfer buffer, the primitive sequences of R11, the one
abort entry (R212, R235) and the block reset that is the only way back from it (R236, R260, R261). -/

namespace Sys2Proof.Machine

/-! ### Lines of one end (R21) -/

/-- The state of line `l`. -/
def Lines.get (ls : Lines) : Line → LineState
  | .d0 => ls.d0
  | .d1 => ls.d1
  | .d2 => ls.d2
  | .d3 => ls.d3
  | .d4 => ls.d4
  | .d5 => ls.d5
  | .d6 => ls.d6
  | .d7 => ls.d7
  | .wait => ls.wait
  | .wrsel => ls.wrsel
  | .dstb => ls.dstb
  | .astb => ls.astb
  | .rst => ls.rst

/-- The lines with line `l` put into state `x`. -/
def Lines.set (ls : Lines) (l : Line) (x : LineState) : Lines :=
  match l with
  | .d0 => { ls with d0 := x }
  | .d1 => { ls with d1 := x }
  | .d2 => { ls with d2 := x }
  | .d3 => { ls with d3 := x }
  | .d4 => { ls with d4 := x }
  | .d5 => { ls with d5 := x }
  | .d6 => { ls with d6 := x }
  | .d7 => { ls with d7 := x }
  | .wait => { ls with wait := x }
  | .wrsel => { ls with wrsel := x }
  | .dstb => { ls with dstb := x }
  | .astb => { ls with astb := x }
  | .rst => { ls with rst := x }

/-- `dir(l) <- d` (R11, R21). -/
def Lines.setDir (ls : Lines) (l : Line) (d : Dir) : Lines := ls.set l { ls.get l with dir := d }

/-- `lat(l) <- v` (R11, R21). -/
def Lines.setLvl (ls : Lines) (l : Line) (v : Level) : Lines := ls.set l { ls.get l with lat := v }

/-- The eight data lines, `D0` first (R11: ascending order). -/
def dataLines : List Line := [.d0, .d1, .d2, .d3, .d4, .d5, .d6, .d7]

/-- All 13 lines, in the order of R120. -/
def allLines : List Line := dataLines ++ [.wait, .wrsel, .dstb, .astb, .rst]

/-! ### Wires (R22, R33) -/

/-- The value of a wire whose two ends are `a` and `b`, at draw number `n`, and the next draw number: a driver wins, then
a pull; a floating or a contended wire reads a fresh free value at every sample (R22). -/
def wireSample (a b : LineState) (n : Nat) : Level × Nat :=
  match a.dir, b.dir with
  | .output, .input => (a.lat, n)
  | .input, .output => (b.lat, n)
  | .input, .input => if a.lat = .high ∨ b.lat = .high then (.high, n) else (Config.levelDraw n, n + 1)
  | .output, .output => if a.lat = b.lat then (a.lat, n) else (Config.levelDraw n, n + 1)

/-- `Get(e, l)`: what an end with lines `mine` samples on wire `l` against the lines `theirs` (R11, R22). -/
def getWire (mine theirs : Lines) (l : Line) (n : Nat) : Level × Nat := wireSample (mine.get l) (theirs.get l) n

/-- A wire with two drivers of opposite latches (R22). -/
def lineContended (a b : LineState) : Bool := a.dir == .output && b.dir == .output && a.lat != b.lat

/-- Whether some wire is contended (R33). -/
def contended (a b : Lines) : Bool := allLines.any fun l => lineContended (a.get l) (b.get l)

/-- The lines of the far party. -/
def Party.lines : Party → Lines
  | .target t => t.lines
  | .block b => b.lines

/-- The role of the far party, if it is a block. -/
def Party.role : Party → Option Role
  | .target _ => none
  | .block b => some b.role

/-- What a block sees of another block. -/
def Block.asPeer (b : Block) : Peer := ⟨b.lines, some b.role⟩

/-- What the near block sees of the far party. -/
def Party.asPeer (p : Party) : Peer := ⟨p.lines, p.role⟩

/-! ### Bytes on the data lines (R9, R10) -/

/-- The level a bit is carried as: 1 as H, 0 as L. -/
def bitLevel (b : Bool) : Level := if b then .high else .low

/-- The levels of the bits of a byte, bit 0 first. -/
def byteLevels (b : Byte) : List Level :=
  [bitLevel (b.getLsbD 0), bitLevel (b.getLsbD 1), bitLevel (b.getLsbD 2), bitLevel (b.getLsbD 3),
   bitLevel (b.getLsbD 4), bitLevel (b.getLsbD 5), bitLevel (b.getLsbD 6), bitLevel (b.getLsbD 7)]

/-- The number a list of sampled levels stands for, the first of weight 1. -/
def levelsNat : List Level → Nat
  | [] => 0
  | .high :: r => 1 + 2 * levelsNat r
  | .low :: r => 2 * levelsNat r

/-- The byte that `DataSample` returns from the levels it read, `D0` first (R11). -/
def byteOfLevels (ls : List Level) : Byte := BitVec.ofNat 8 (levelsNat ls)

/-! ### The transfer buffer `BUF` (R24) -/

/-- The byte last written to cell `a`, if any. -/
def Memory.read : Memory → Nat → Option Byte
  | [], _ => none
  | (b, v) :: r, a => if b = a then some v else Memory.read r a

/-- `BUF[a] <- v`, keeping the indices strictly rising. -/
def Memory.write : Memory → Nat → Byte → Memory
  | [], a, v => [(a, v)]
  | (b, w) :: r, a, v =>
    if a < b then (a, v) :: (b, w) :: r else if a = b then (a, v) :: r else (b, w) :: Memory.write r a v

/-- Every index of `m` is at least `lo` and below `CAP`, and they rise strictly. -/
def Memory.wfFrom : Nat → Memory → Bool
  | _, [] => true
  | lo, (a, _) :: r => decide (lo ≤ a) && decide (a < Config.cap) && Memory.wfFrom (a + 1) r

/-- The canonical form of the transfer buffer: strictly rising indices below `CAP` (R24). -/
def Memory.wf (m : Memory) : Bool := Memory.wfFrom 0 m

/-- Writes the bytes of a list to consecutive cells from `a` on. -/
def Memory.writeAll : Memory → Nat → List Byte → Memory
  | m, _, [] => m
  | m, a, v :: vs => Memory.writeAll (Memory.write m a v) (a + 1) vs

/-! ### The byte-wide primitives of R11 as sequences of one-line primitives -/

/-- `DataDir(e, d)`. -/
def dataDir (d : Dir) : List Prim := dataLines.map fun l => .setDir l d

/-- `DataIdle(e)`. -/
def dataIdle : List Prim := dataLines.map fun l => .setLvl l .high

/-- `DataDrive(e, b)`. -/
def dataDrive (b : Byte) : List Prim := List.zipWith (fun l v => Prim.setLvl l v) dataLines (byteLevels b)

/-- `DataPullLow(e, b)`: one step per zero bit. -/
def dataPullLow (b : Byte) : List Prim := (dataDrive b).filter fun p => match p with
  | .setLvl _ .low => true
  | _ => false

/-- The eight `Get`s of `DataSample(e)`. -/
def dataSample : List Prim := dataLines.map fun l => .get l

/-- `PortHiZ(e)` (R120): direction In, then latch L, line by line; 26 steps. -/
def portHiZPrims : List Prim := allLines.flatMap fun l => [.setDir l .input, .setLvl l .low]

/-- Stage 2 of `Reset(e, role)` (R122, R123): each latch to its idle level before its direction is turned to Out. -/
def controlStage : Role → List Prim
  | .host =>
    [.setLvl .rst .high, .setDir .rst .output, .setLvl .dstb .high, .setDir .dstb .output,
     .setLvl .astb .high, .setDir .astb .output, .setLvl .wrsel .high, .setDir .wrsel .output]
  | .peripheral => [.setLvl .wait .low, .setDir .wait .output]

/-- Stage 4 of `Reset(e, role)`: the reset pulse, host only (R122). -/
def resetPulse (us : Nat) : Role → List Prim
  | .host => [.setLvl .rst .low, .delay us, .setLvl .rst .high, .delay us]
  | .peripheral => []

/-- `Reset(e, role)` (R121): its five stages in order. -/
def resetPrims (us : Nat) (role : Role) : List Prim :=
  portHiZPrims ++ controlStage role ++ dataIdle ++ resetPulse us role ++ [.setRole role]

/-! ### Abort entry and the way back (R212, R235, R236, R260, R261) -/

/-- `abort(r)`: the port is forced to high-impedance; when that is done the dispatcher goes to `D_HALTED` and `r` is
returned. Nothing is saved, no byte is sent, every other register keeps its value (R235). -/
def Block.enterAbort (r : Int) (b : Block) : Block :=
  { b with todo := portHiZPrims, rph := .running, disp := { b.disp with ph := .exec, step := .aborting r } }

/-- Block reset at draw number `n` (R261): steps (1) and (2) at once, then the primitives of `Reset(ROLE_AT_RESET)`; the
dispatcher stands at `D_HEADER0` and begins when they are done. `SIN` keeps what the peer has sent (R39). -/
def Block.blockReset (n : Nat) (b : Block) : Block :=
  { Block.afterReset b.par n with
    lines := .hiZ, role := b.role, sin := b.sin, todo := resetPrims b.par.settleUs b.par.board, rph := .running }

end Sys2Proof.Machine
end

