-- ==== Sys2Proof/Machine/Operands.lean ====
section
/-! DEFINITION. The operand forms: the assembled length and acknowledge byte (R93, R94), the caller's buffer and length
arguments (R124, R187), the buffers a transfer can refer to (R24), and the flash command bytes (R102). -/

namespace Sys2Proof.Machine

/-- `c_len = min(c_lm1 + 1, 128)`, on mathematical integers (R93). -/
def clampedLength (lm1 : Byte) : Nat := min (lm1.toNat + 1) Config.cap

/-- The acknowledge byte `c_len - 1` of 'W' and 'P' (R94). -/
def ackByte (len : Nat) : Byte := BitVec.ofNat 8 (len - 1)

/-- The byte that 'B' puts into `BUF[k]`: `CAP - 1` into the first, 0 into the others (R94, R205). -/
def sizeQueryByte (k : Nat) : Byte := if k = 0 then BitVec.ofNat 8 (Config.cap - 1) else 0

/-- The length argument of a caller's transfer: refused outside 0 to `CAP` or beyond the caller's buffer (R124, R187). -/
def lengthArg (buf : List Byte) (n : Int) : Except Refusal Nat :=
  if n < 0 ∨ (Config.cap : Int) < n then .error .badLength
  else if buf.length < n.toNat then .error .shortBuffer
  else .ok n.toNat

/-- Byte `i` of `CMD`. -/
def CmdBytes.get (c : CmdBytes) : Nat → Option Byte
  | 0 => some c.b0
  | 1 => some c.b1
  | 2 => some c.b2
  | 3 => some c.b3
  | 4 => some c.b4
  | 5 => some c.b5
  | _ => none

/-- Byte 0 of a one-byte buffer. -/
def oneByte (x : Byte) : Nat → Option Byte
  | 0 => some x
  | _ => none

/-- `buf[i]` of the referred buffer and the next draw number; nothing outside its bounds. A cell of `BUF` that has not
been written since block reset reads a fresh free value (R39). -/
def Block.bufRead (b : Block) (r : BufRef) (i n : Nat) : Option (Byte × Nat) :=
  match r with
  | .buf =>
    if i < Config.cap then
      match b.buf.read i with
      | some v => some (v, n)
      | none => some (Config.byteDraw n, n + 1)
    else none
  | .cmd => (b.flash.cmd.get i).map fun v => (v, n)
  | .st => (oneByte b.flash.st i).map fun v => (v, n)
  | .idxAddr => (oneByte b.par.idxAddr i).map fun v => (v, n)
  | .datAddr => (oneByte b.par.datAddr i).map fun v => (v, n)
  | .enByte => (oneByte b.par.enByte i).map fun v => (v, n)
  | .disByte => (oneByte b.par.disByte i).map fun v => (v, n)
  | .zero => (oneByte Config.zeroByte i).map fun v => (v, n)
  | .pendAddr => (oneByte b.disp.pendAddr i).map fun v => (v, n)
  | .user => b.ubuf[i]?.map fun v => (v, n)

/-- `buf[i] <- v` of the referred buffer; nothing outside its bounds, and the constants are read-only (R28). -/
def Block.bufWrite (b : Block) (r : BufRef) (i : Nat) (v : Byte) : Option Block :=
  match r with
  | .buf => if i < Config.cap then some { b with buf := b.buf.write i v } else none
  | .st => if i = 0 then some { b with flash := { b.flash with st := v } } else none
  | .user => if i < b.ubuf.length then some { b with ubuf := b.ubuf.set i v } else none
  | .cmd => none
  | .idxAddr => none
  | .datAddr => none
  | .enByte => none
  | .disByte => none
  | .zero => none
  | .pendAddr => none

/-- The seed command `[0xAD, 0, 0, 0, d, e]` (R102, R182). -/
def seedCmd (d e : Byte) : CmdBytes := ⟨Config.aaiOp, 0, 0, 0, d, e⟩

/-- `CMD[0..2] <- [0xAD, d, e]`, the increment command (R102, R183). -/
def incrCmd (c : CmdBytes) (d e : Byte) : CmdBytes := { c with b0 := Config.aaiOp, b1 := d, b2 := e }

/-- Whether the status byte means busy: bit 0 (R94, R103). -/
def statusBusy (st : Byte) : Bool := st &&& 0x01 != 0

end Sys2Proof.Machine
end

