-- ==== Sys2Proof/Machine/Flags.lean ====
section
/-! DEFINITION. Every single-bit state and what writes it (the table of R32): the session flags of the dispatcher, the two
outputs of the peripheral decode, `f_init`, and `contention_seen`. -/

namespace Sys2Proof.Machine

/-- `prog_active` at the top of the loop: every header but 'P' clears it, before anything else (R204). -/
def progAfterHeader (code : Byte) (prog : Bool) : Bool := if code = Config.letterP then prog else false

/-- `D_HEADER0: c_cmd <- SerialGet()` (R200, R201). -/
def Block.commandRead (code : Byte) (b : Block) : Block :=
  { b with disp := { b.disp with cmd := code, ph := .header1, step := .lm1 } }

/-- `D_HEADER1: c_lm1 <- SerialGet()` (R200, R201); the other updates of the phase follow. -/
def Block.headerRead (lm1 : Byte) (b : Block) : Block := { b with disp := { b.disp with lm1 := lm1, step := .length } }

/-- `D_HEADER1: c_len <- min(c_lm1 + 1, 128)` (R200, R202). -/
def Block.latchLength (b : Block) : Block :=
  { b with disp := { b.disp with len := clampedLength b.disp.lm1, step := .clearProg } }

/-- `D_HEADER1: if c_cmd != 'P': prog_active <- false`, before `D_EXEC` looks at the command (R200, R204, R237). -/
def Block.clearProg (b : Block) : Block :=
  { b with disp := { b.disp with
      progActive := progAfterHeader b.disp.cmd b.disp.progActive, ph := .exec, step := .decode, k := 0 } }

/-- Both header bytes are read and `D_HEADER1` has a register update to do (R200). -/
def DStep.updatesHeader (t : DStep) : Bool := t == .length || t == .clearProg

/-- The registers once a header has been read and its updates are done, all of the loop before `case c_cmd of` (R200):
`c_cmd`, `c_lm1`, `c_len`, the program flag. -/
def Block.header (code lm1 : Byte) (b : Block) : Block :=
  { b with disp := { b.disp with
      cmd := code, lm1 := lm1, len := clampedLength lm1, progActive := progAfterHeader code b.disp.progActive,
      ph := .exec, step := .decode, k := 0 } }

/-- `pend_addr <- c_lm1` (R203). -/
def Block.setPendAddr (b : Block) : Block := { b with disp := { b.disp with pendAddr := b.disp.lm1 } }

/-- `pend_valid <- true` (R203). -/
def Block.setPendValid (b : Block) : Block := { b with disp := { b.disp with pendValid := true } }

/-- `pend_valid <- false`, leaving the byte in place (R31, R208, R209). -/
def Block.clearPending (b : Block) : Block := { b with disp := { b.disp with pendValid := false } }

/-- `prog_active <- true`, whatever `FlashProgram` returned (R210). -/
def Block.setProgActive (b : Block) : Block := { b with disp := { b.disp with progActive := true } }

/-- `p_rd`: the host reads when `WRSEL` is H at decode (R97, R151). -/
def readOfWrsel (w : Level) : Bool := w == .high

/-- `p_ad`: an address cycle when `ASTB` is L at decode, whatever `DSTB` is (R97, R98). -/
def addressOfAstb (a : Level) : Bool := a == .low

/-- The test that ends the 'C' sub-loop's echo (R206): a completed data-write cycle. -/
def PerRegs.echoes (p : PerRegs) : Bool := p.ok && !p.rd && !p.ad

/-- `contention_seen` after a step: set when some wire has two drivers with opposite latches, never cleared here
(R33). -/
def State.noteContention (s : State) : State :=
  { s with contention := s.contention || contended s.near.lines s.far.lines }

end Sys2Proof.Machine
end

