-- ==== Sys2Proof/Machine/Port.lean ====
section
/-! DEFINITION. The signal line port: what one primitive of R11 does at the end that executes it. -/

namespace Sys2Proof.Machine

/-- An operation's start as a tick of the block that starts it. -/
def Tick.ofBegin (n : Nat) : Except Refusal Block → Tick
  | .ok b => .moved b n
  | .error r => .refused r

/-- One primitive, executed by `b` against the peer `p` at draw number `n` (R11). -/
def Prim.run (x : Prim) (p : Peer) (n : Nat) (b : Block) : Tick :=
  match x with
  | .setDir l d => .moved { b with lines := b.lines.setDir l d } n
  | .setLvl l v => .moved { b with lines := b.lines.setLvl l v } n
  | .delay _ => .moved b n
  | .get l =>
    .moved { b with smp := b.smp ++ [(getWire b.lines p.lines l n).1] } (getWire b.lines p.lines l n).2
  | .storeHost =>
    match ({ b with host := { b.host with byte := byteOfLevels b.smp } } : Block).bufWrite b.host.ref b.host.i
        (byteOfLevels b.smp) with
    | some b' => .moved b' n
    | none => .fault .bufferIndex
  | .storeSlot => .moved { b with per := { b.per with slot := byteOfLevels b.smp } } n
  | .senseWrsel =>
    .moved { b with per := { b.per with rd := readOfWrsel (getWire b.lines p.lines .wrsel n).1 } }
      (getWire b.lines p.lines .wrsel n).2
  | .senseAstb =>
    .moved { b with per := { b.per with ad := addressOfAstb (getWire b.lines p.lines .astb n).1 } }
      (getWire b.lines p.lines .astb n).2
  | .setRole r => .moved { b with role := r } n

end Sys2Proof.Machine
end

