-- ==== Sys2Proof/Machine/Host.lean ====
section
/-! DEFINITION. The Transaction Engine in the host role (rules R124 to R136 of spec/40_engine_host.md). -/

namespace Sys2Proof.Machine

/-- The strobe of a transaction: `ASTB` for address cycles, `DSTB` for data cycles (R125). -/
def strobeOf (ac : Bool) : Line := if ac then .astb else .dstb

/-- The steps of `H_SETUP`, writing only (R125, D7). -/
def setupPrims (rd : Bool) : List Prim := if rd then [] else .setLvl .wrsel .low :: dataDir .output

/-- The steps of `H_FINISH`, writing only (R125). -/
def finishPrims (rd : Bool) : List Prim := if rd then [] else dataDir .input ++ [.setLvl .wrsel .high]

/-- The call of `Transaction(e, ref, len, rd, ac)`, with its preconditions (R124, R242, R248). -/
def Block.beginTransaction (peer : Option Role) (ref : BufRef) (len : Nat) (rd ac : Bool) (b : Block) :
    Except Refusal Block :=
  if b.role ≠ .host then .error .wrongRole
  else if peer = some .host then .error .sameRole
  else if Config.cap < len then .error .badLength
  else .ok { b with
    host := { b.host with rd := rd, ac := ac, len := len, i := 0, ref := ref, ph := .setup },
    todo := setupPrims rd }

/-- The next phase of a running transaction, with that phase's steps (the table of R126). -/
def Block.hostTo (ph : HPhase) (steps : List Prim) (b : Block) : Block :=
  { b with host := { b.host with ph := ph }, todo := steps }

/-- One step of the host transaction between the steps of its phases: the two waits, and the passage from a phase whose
steps are done to the next (R125, R126). Once `HPH` is idle again `t_rd`, `t_ac`, `t_len`, `t_i` and `t_byte` keep what the
transaction left in them, where R25 leaves them undefined: DESIGN CHOICE (log entry 31). -/
def hostTick (p : Peer) (n : Nat) (b : Block) : Tick :=
  match b.host.ph with
  | .idle => .waiting n
  | .setup =>
    if 0 < b.host.len then .moved (b.hostTo .preWait []) n
    else .moved (b.hostTo .finish (finishPrims b.host.rd)) n
  | .preWait =>
    match getWire b.lines p.lines .wait n with
    | (.high, n') => .waiting n'
    | (.low, n') =>
      if b.host.rd then .moved (b.hostTo .put []) n'
      else match b.bufRead b.host.ref b.host.i n' with
        | none => .fault .bufferIndex
        | some (x, n'') =>
          .moved (({ b with host := { b.host with byte := x } } : Block).hostTo .put (dataPullLow x)) n''
  | .put => .moved (b.hostTo .strobe [.setLvl (strobeOf b.host.ac) .low]) n
  | .strobe => .moved (b.hostTo .ackWait []) n
  | .ackWait =>
    match getWire b.lines p.lines .wait n with
    | (.low, n') => .waiting n'
    | (.high, n') =>
      .moved (({ b with smp := [] } : Block).hostTo .get (if b.host.rd then dataSample ++ [.storeHost] else [])) n'
  | .get =>
    .moved (({ b with bus := b.bus ++ [⟨b.host.ac, b.host.rd, b.host.byte⟩] } : Block).hostTo .release
      [.setLvl (strobeOf b.host.ac) .high]) n
  | .release => .moved (b.hostTo .restore (if b.host.rd then [] else dataIdle)) n
  | .restore =>
    if b.host.i + 1 < b.host.len then
      .moved (({ b with host := { b.host with i := b.host.i + 1 } } : Block).hostTo .preWait []) n
    else
      .moved (({ b with host := { b.host with i := b.host.i + 1 } } : Block).hostTo .finish (finishPrims b.host.rd)) n
  | .finish => .moved (({ b with res := b.host.len } : Block).hostTo .idle []) n

end Sys2Proof.Machine
end

