-- ==== Sys2Proof/Machine/Spi.lean ====
section
/-! DEFINITION. The SPI pass-through layer (rules R170 to R176 of spec/42_spi_passthrough.md and R101). -/

namespace Sys2Proof.Machine

/-- The engine call of a step (the code blocks of R171 and R172). -/
def Block.spiEngineCall (peer : Option Role) (kind : SKind) (ph : SPhase) (b : Block) : Except Refusal Block :=
  match ph with
  | .idle => .ok b
  | .s1 => b.beginTransaction peer .idxAddr 1 false true
  | .s2 =>
    match kind with
    | .reset => b.beginTransaction peer .disByte 1 false false
    | .transfer => b.beginTransaction peer .enByte 1 false false
  | .s3 => b.beginTransaction peer .datAddr 1 false true
  | .s4 =>
    match kind with
    | .reset => b.beginTransaction peer .zero 1 false false
    | .transfer => b.beginTransaction peer b.spi.ref b.spi.len b.spi.rd false

/-- Enters a step and starts its engine call (R29, R171, R172). -/
def Block.spiCall (peer : Option Role) (ph : SPhase) (b : Block) : Except Refusal Block :=
  ({ b with spi := { b.spi with ph := ph } } : Block).spiEngineCall peer b.spi.kind ph

/-- `SpiReset(e)` (R171), or the part of it from step `first` to step `last` (the shapes of R101). -/
def Block.beginSpiReset (peer : Option Role) (first last : SPhase) (b : Block) : Except Refusal Block :=
  ({ b with spi := { b.spi with kind := .reset, last := last } } : Block).spiCall peer first

/-- `SpiTransaction(e, ref, len, rd)` (R172), or the part of it from step `first` to step `last` (R101). -/
def Block.beginSpiTransaction (peer : Option Role) (ref : BufRef) (len : Nat) (rd : Bool) (first last : SPhase)
    (b : Block) : Except Refusal Block :=
  if Config.cap < len then .error .badLength
  else ({ b with spi := { ph := .idle, kind := .transfer, last := last, ref := ref, len := len, rd := rd } } : Block).spiCall
    peer first

/-- The step after a step. -/
def SPhase.succ : SPhase → SPhase
  | .idle => .idle
  | .s1 => .s2
  | .s2 => .s3
  | .s3 => .s4
  | .s4 => .idle

/-- One step of the SPI layer: the engine has returned `res`. A negative result ends the operation with that result; the
last step's result is the operation's own (R171 to R173). Once `SPH` is idle the fields `kind`, `last`, `ref`, `len` and `rd`
keep what the call left in them, where R20 and R29 give them no meaning: DESIGN CHOICE (log entry 31). -/
def spiTick (p : Peer) (n : Nat) (b : Block) : Tick :=
  if b.res < 0 ∨ b.spi.ph = b.spi.last then .moved { b with spi := { b.spi with ph := .idle } } n
  else .ofBegin n (b.spiCall p.role b.spi.ph.succ)

end Sys2Proof.Machine
end

