-- ==== Sys2Proof/Machine/Flash.lean ====
section
/-! DEFINITION. The flash programming sequencer (rules R180 to R191 of spec/43_flash_program.md). -/

namespace Sys2Proof.Machine

/-- The next phase of the flash sequencer. -/
def Block.flashTo (ph : FPhase) (b : Block) : Block := { b with flash := { b.flash with ph := ph } }

/-- The call of `FlashProgram(e, ref, len, init)`, with its preconditions: `ROLE = Host` whatever the length (R180, R242,
D20), and the length (R187). -/
def Block.beginFlash (ref : BufRef) (len : Nat) (init : Bool) (b : Block) : Except Refusal Block :=
  if b.role ≠ .host then .error .wrongRole
  else if Config.cap < len then .error .badLength
  else .ok { b with flash := { b.flash with ph := .test, op := .program, i := 0, len := len, ref := ref, init := init } }

/-- `F_DESELECT` of a pair: `SpiReset` before a fresh flash command (R181). -/
def Block.flashDeselect (peer : Option Role) (b : Block) : Except Refusal Block :=
  (b.flashTo .deselect).beginSpiReset peer .s1 .s4

/-- `F_POLL_DESELECT`: the first act of a poll (R184). -/
def Block.flashPoll (peer : Option Role) (b : Block) : Except Refusal Block :=
  (b.flashTo .pollDeselect).beginSpiReset peer .s1 .s4

/-- `F_SEED` (R182): `CMD` takes the seed command of the pair `d`, `e`, which goes out as one `SpiTransaction`. -/
def Block.flashSeed (peer : Option Role) (d e : Byte) (b : Block) : Except Refusal Block :=
  ({ b with flash := { b.flash with cmd := seedCmd d e, ph := .seed } } : Block).beginSpiTransaction peer .cmd 6 false
    .s1 .s4

/-- `F_INCR` (R183). -/
def Block.flashIncr (peer : Option Role) (d e : Byte) (b : Block) : Except Refusal Block :=
  ({ b with flash := { b.flash with cmd := incrCmd b.flash.cmd d e, ph := .incr } } : Block).beginSpiTransaction peer
    .cmd 3 false .s1 .s4

/-- `F_POLL_CMD`: `ST <- 0x05` and the read-status command (R184). -/
def Block.flashPollCmd (peer : Option Role) (b : Block) : Except Refusal Block :=
  ({ b with flash := { b.flash with st := Config.rdsrOp, ph := .pollCmd } } : Block).beginSpiTransaction peer .st 1 false
    .s1 .s4

/-- `F_POLL_READ`: the status reply, with no `SpiReset` before it (R184). -/
def Block.flashPollRead (peer : Option Role) (b : Block) : Except Refusal Block :=
  (b.flashTo .pollRead).beginSpiTransaction peer .st 1 true .s1 .s4

/-- The pair `buf[f_i]`, `buf[f_i+1]` (R102) and the next draw number. -/
def Block.flashPair (b : Block) (n : Nat) : Option (Byte × Byte × Nat) :=
  match b.bufRead b.flash.ref b.flash.i n with
  | none => none
  | some (d, n') =>
    match b.bufRead b.flash.ref (b.flash.i + 1) n' with
    | none => none
    | some (e, n'') => some (d, e, n'')

/-- A negative result ends the sequencer with that result (R186); otherwise it goes on. -/
def flashNext (n : Nat) (b : Block) (next : Except Refusal Block) : Tick :=
  if b.res < 0 then .moved (b.flashTo .idle) n else .ofBegin n next

/-- One step of the flash sequencer: the SPI layer has returned `res` to the phase that called it (R181). Outside a call
`CMD`, `ST`, `f_i` and `f_init` keep what the last call left in them, where R30 and R32 leave them undefined: DESIGN CHOICE
(log entry 31). -/
def flashTick (p : Peer) (n : Nat) (b : Block) : Tick :=
  match b.flash.ph with
  | .idle => .waiting n
  | .test =>
    if b.flash.i + 1 < b.flash.len then .ofBegin n (b.flashDeselect p.role) else .moved (b.flashTo .done) n
  | .deselect =>
    if b.res < 0 then .moved (b.flashTo .idle) n
    else match b.flashPair n with
      | none => .fault .bufferIndex
      | some (d, e, n') => .ofBegin n' (if b.flash.init then b.flashIncr p.role d e else b.flashSeed p.role d e)
  | .seed =>
    flashNext n b
      (if b.flash.op = .seedOnly then .ok (({ b with flash := { b.flash with init := true } } : Block).flashTo .idle)
       else ({ b with flash := { b.flash with init := true } } : Block).flashPoll p.role)
  | .incr => flashNext n b (if b.flash.op = .incrOnly then .ok (b.flashTo .idle) else b.flashPoll p.role)
  | .pollDeselect => flashNext n b (b.flashPollCmd p.role)
  | .pollCmd => flashNext n b (b.flashPollRead p.role)
  | .pollRead => flashNext n b (.ok (if b.flash.op = .statusOnly then b.flashTo .idle else b.flashTo .pollTest))
  | .pollTest =>
    if statusBusy b.flash.st then .ofBegin n (b.flashPoll p.role)
    else .moved (({ b with flash := { b.flash with i := b.flash.i + 2 } } : Block).flashTo .test) n
  | .done => .moved (({ b with res := b.flash.i } : Block).flashTo .idle) n

end Sys2Proof.Machine
end

