-- ==== Sys2Proof/Machine/Peripheral.lean ====
section
/-! DEFINITION. The Transaction Engine in the peripheral role (rules R150 to R158 of spec/41_engine_peripheral.md). -/

namespace Sys2Proof.Machine

/-- The next phase of a running peripheral cycle, with that phase's steps (R152). -/
def Block.perTo (ph : PPhase) (steps : List Prim) (b : Block) : Block :=
  { b with per := { b.per with ph := ph }, todo := steps }

/-- The steps of `P_DRIVE`, when the host reads (R151, D10). -/
def drivePrims (rd : Bool) (slot : Byte) : List Prim := if rd then dataDrive slot ++ dataDir .output else []

/-- The steps of `P_TAKE` (R151): sample a byte the host wrote, or release the data lines. -/
def takePrims (rd : Bool) : List Prim := if rd then dataIdle ++ dataDir .input else dataSample ++ [.storeSlot]

/-- What must hold for the end to act as a peripheral (R150, R242, R248). -/
def Block.peripheralGuard (peer : Option Role) (b : Block) : Except Refusal Block :=
  if b.role ≠ .peripheral then .error .wrongRole
  else if peer = some .peripheral then .error .sameRole
  else .ok b

/-- The call of `PeripheralCycle(e, pslot, p_rd, p_ad)` with the slot the end holds (R150). -/
def Block.beginPeripheralCycle (peer : Option Role) (b : Block) : Except Refusal Block :=
  (b.peripheralGuard peer).map fun b => b.perTo .check []

/-- The cycle from its decode on: the tag says `rd` and `ad` (R97, R151). -/
def Block.serveDecoded (rd ad : Bool) (b : Block) : Block :=
  ({ b with per := { b.per with rd := rd, ad := ad } } : Block).perTo .drive (drivePrims rd b.per.slot)

/-- One step of the peripheral cycle between the steps of its phases (R151, R152). -/
def peripheralTick (p : Peer) (n : Nat) (b : Block) : Tick :=
  match b.per.ph with
  | .idle => .waiting n
  | .check =>
    match getWire b.lines p.lines .rst n with
    | (.low, n') => .moved (({ b with per := { b.per with ok := false } } : Block).perTo .idle []) n'
    | (.high, n') => .moved (b.perTo .strobeWait []) n'
  | .strobeWait =>
    match getWire b.lines p.lines .astb n with
    | (a, n') =>
      match getWire b.lines p.lines .dstb n' with
      | (d, n'') =>
        if a = .low ∨ d = .low then .moved (b.perTo .decode [.senseWrsel, .senseAstb]) n'' else .waiting n''
  | .decode => .moved (b.serveDecoded b.per.rd b.per.ad) n
  | .drive => .moved (b.perTo .ack [.setLvl .wait .high]) n
  | .ack => .moved (b.perTo .releaseWait []) n
  | .releaseWait =>
    match getWire b.lines p.lines .astb n with
    | (a, n') =>
      match getWire b.lines p.lines .dstb n' with
      | (d, n'') =>
        if a = .high ∧ d = .high then .moved (({ b with smp := [] } : Block).perTo .take (takePrims b.per.rd)) n''
        else .waiting n''
  | .take => .moved (b.perTo .done [.setLvl .wait .low]) n
  | .done => .moved (({ b with per := { b.per with ok := true } } : Block).perTo .idle []) n

end Sys2Proof.Machine
end

