-- ==== Sys2Proof/Machine/Commands.lean ====
section
/-! DEFINITION. The commands of the dispatcher after their header (rules R203 to R212 of spec/44_command_dispatcher.md):
one start per command, and the passages between the phases of a command. -/

namespace Sys2Proof.Machine

/-- The dispatcher in phase `ph`, with its byte counter at `k`. -/
def Block.dispTo (ph : DPhase) (step : DStep) (k : Nat) (b : Block) : Block :=
  { b with disp := { b.disp with ph := ph, step := step, k := k } }

/-- The end of a command: back to the top of the loop (R213). -/
def Block.endCommand (b : Block) : Block := b.dispTo .header0 .decode 0

/-- 'A' (R203): its two register updates follow, one a step. -/
def Block.beginA (b : Block) : Block := b.dispTo .exec .pendAddr 0

/-- 'B' (R205): the buffer is filled byte by byte, then sent. -/
def Block.beginB (b : Block) : Block := b.dispTo .exec .fill 0

/-- The unrecognized command (R211): nothing beyond the header's own effect. -/
def Block.beginUnrecognized (b : Block) : Block := b.endCommand

/-- 'C' (R206): the banner first. On a board that is not a host-role board the code is an unrecognized command. -/
def Block.beginC (b : Block) : Block :=
  if b.par.board = .host then b.dispTo .respond .decode 0 else b.beginUnrecognized

/-- 'E', 'W' and 'P' read their body first (R207, R209, R210). -/
def Block.beginBody (b : Block) : Block := b.dispTo .body .decode 0

/-- The data transfer of 'R' or 'W' (R208, R209). -/
def Block.beginBusData (peer : Option Role) (b : Block) : Except Refusal Block :=
  (b.dispTo .exec .transfer 0).beginTransaction peer .buf b.disp.len (b.disp.cmd == Config.letterR) false

/-- The bus activity of 'R' or 'W': the pending address first, if there is one (R208, R209, R216). -/
def Block.beginBus (peer : Option Role) (b : Block) : Except Refusal Block :=
  if b.disp.pendValid then (b.dispTo .exec .setAddress 0).beginTransaction peer .pendAddr 1 false true
  else b.beginBusData peer

/-- The flash program of 'P', with the in-progress flag as `initialized` (R210). -/
def Block.beginProgram (b : Block) : Except Refusal Block :=
  (b.dispTo .exec .flash 0).beginFlash .buf b.disp.len b.disp.progActive

/-- What follows the last byte of a body (R207, R209, R210). -/
def Block.afterBody (peer : Option Role) (b : Block) : Except Refusal Block :=
  if b.disp.cmd = Config.letterW then b.beginBus peer
  else if b.disp.cmd = Config.letterP then b.beginProgram
  else .ok (b.dispTo .respond .decode 0)

/-- The start of the command whose header has been read (R200). -/
def Block.beginCommand (peer : Option Role) (b : Block) : Except Refusal Block :=
  if b.disp.cmd = Config.letterA then .ok b.beginA
  else if b.disp.cmd = Config.letterB then .ok b.beginB
  else if b.disp.cmd = Config.letterC then .ok b.beginC
  else if b.disp.cmd = Config.letterE then .ok b.beginBody
  else if b.disp.cmd = Config.letterP then .ok b.beginBody
  else if b.disp.cmd = Config.letterR then b.beginBus peer
  else if b.disp.cmd = Config.letterW then .ok b.beginBody
  else .ok b.beginUnrecognized

/-- `Reset(e, role)` as a running line sequence (R121). -/
def Block.beginReset (role : Role) (b : Block) : Block :=
  { b with todo := resetPrims b.par.settleUs role, rph := .running }

/-- The phase `D_BODY` (R207, R209, R210): `BUF[k] <- SerialGet()` for each body byte, and then, a step of its own (R6),
what the command does with its body. -/
def bodyTick (p : Peer) (n : Nat) (b : Block) : Tick :=
  if b.disp.k < b.disp.len then
    match b.sin with
    | [] => .waiting n
    | x :: rest =>
      match ({ b with sin := rest } : Block).bufWrite .buf b.disp.k x with
      | none => .fault .bufferIndex
      | some b' => .moved (b'.dispTo .body .decode (b.disp.k + 1)) n
  else .ofBegin n (b.afterBody p.role)

/-- The phase `D_HEADER1` (R200): byte 1 is read, `c_len` is computed and the program flag is cleared, a step each; then
`D_EXEC` begins, at `case c_cmd of`. -/
def header1Tick (n : Nat) (b : Block) : Tick :=
  if b.disp.step = .length then .moved b.latchLength n
  else if b.disp.step = .clearProg then .moved b.clearProg n
  else match b.sin with
    | [] => .waiting n
    | x :: rest => .moved (({ b with sin := rest } : Block).headerRead x) n

/-- One byte of the fill of 'B': `BUF[k] <- ...` (R205). -/
def fillTick (n : Nat) (b : Block) : Tick :=
  match b.bufWrite .buf b.disp.k (sizeQueryByte b.disp.k) with
  | none => .fault .bufferIndex
  | some b' =>
    .moved (if b.disp.k + 1 < b.disp.len then b'.dispTo .exec .fill (b.disp.k + 1) else b'.dispTo .respond .decode 0) n

/-- The phase `D_EXEC`: a register update of the command, or the called operation has returned `res`. A negative one aborts
(R212); the pending flag is cleared after its `SetAddress` (R208, R209); 'P' sets the program flag before the result is
tested (R210, R216). The steps of the other phases do not come up here. The `Reset` and the `pslot <- draw` of 'C' stand in
this phase by DESIGN CHOICE (log entry 33). -/
def execTick (p : Peer) (n : Nat) (b : Block) : Tick :=
  match b.disp.step with
  | .lm1 => .waiting n
  | .length => .waiting n
  | .clearProg => .waiting n
  | .cycle => .waiting n
  | .decode => .ofBegin n (b.beginCommand p.role)
  | .pendAddr => .moved (b.setPendAddr.dispTo .exec .pendValid 0) n
  | .pendValid => .moved b.setPendValid.endCommand n
  | .fill => fillTick n b
  | .setAddress => .moved (if b.res < 0 then b.enterAbort b.res else b.clearPending.dispTo .exec .sendData 0) n
  | .sendData => .ofBegin n (b.beginBusData p.role)
  | .transfer => .moved (if b.res < 0 then b.enterAbort b.res else b.dispTo .respond .decode 0) n
  | .flash => .moved (b.setProgActive.dispTo .exec .flashTest 0) n
  | .flashTest => .moved (if b.res < 0 then b.enterAbort b.res else b.dispTo .respond .decode 0) n
  | .consoleReset =>
    .moved (({ b with per := { b.per with slot := Config.byteDraw n } } : Block).dispTo .console .cycle 0) (n + 1)
  | .aborting r => .moved (({ b with res := r } : Block).dispTo .halted .decode 0) n

/-- The phase `D_RESPOND` (R104): a data response of 'B', 'E', 'R'; the acknowledge of 'W', 'P'; the banner of 'C', after
which the engine is switched to the peripheral role (R206). DESIGN CHOICE (log entry 33): the banner is written in
`D_RESPOND`, which goes on to `D_EXEC` for the `Reset` and the draw of `pslot` and so to `D_CONSOLE`; the code block of R206
puts no phase before the banner or the `Reset`, and R213 names only `D_HEADER0` as the phase after `D_RESPOND`. -/
def respondTick (n : Nat) (b : Block) : Tick :=
  if b.disp.cmd = Config.letterC then
    match b.par.banner[b.disp.k]? with
    | some x => .moved (({ b with sout := b.sout ++ [x] } : Block).dispTo .respond .decode (b.disp.k + 1)) n
    | none => .moved ((b.dispTo .exec .consoleReset 0).beginReset .peripheral) n
  else if b.disp.cmd = Config.letterW ∨ b.disp.cmd = Config.letterP then
    .moved ({ b with sout := b.sout ++ [ackByte b.disp.len] } : Block).endCommand n
  else if b.disp.k < b.disp.len then
    match b.bufRead .buf b.disp.k n with
    | none => .fault .bufferIndex
    | some (x, n') => .moved (({ b with sout := b.sout ++ [x] } : Block).dispTo .respond .decode (b.disp.k + 1)) n'
  else .moved b.endCommand n

/-- The 'C' sub-loop outside a cycle (R206): the call of `PeripheralCycle`, and, once it has returned, the test of the
cycle with the `SerialPut` of a completed data-write cycle, a step of its own (R6). -/
def consoleTick (p : Peer) (n : Nat) (b : Block) : Tick :=
  if b.disp.step = .cycle then .ofBegin n ((b.dispTo .console .decode 0).beginPeripheralCycle p.role)
  else .moved
    ((if b.per.echoes then { b with sout := b.sout ++ [b.per.slot] } else b : Block).dispTo .console .cycle 0) n

end Sys2Proof.Machine
end

