-- ==== Sys2Proof/Machine/Calls.lean ====
section
/-! DEFINITION. How each operation of the table starts at an end (R2, R4, R97 to R102): the operation-level interface and
the commands with their header. -/

namespace Sys2Proof.Machine

/-- A transfer of a caller's buffer (R124): the buffer is taken as it is and the transaction runs over it. -/
def Block.callTransaction (peer : Option Role) (buf : List Byte) (n : Int) (rd ac : Bool) (b : Block) :
    Except Refusal Block :=
  match lengthArg buf n with
  | .error r => .error r
  | .ok len => ({ b with ubuf := buf } : Block).beginTransaction peer .user len rd ac

/-- `SpiTransaction` over a caller's buffer, from step `first` to step `last` (R172, R101). -/
def Block.callSpiTransaction (peer : Option Role) (buf : List Byte) (n : Int) (rd : Bool) (first last : SPhase)
    (b : Block) : Except Refusal Block :=
  match lengthArg buf n with
  | .error r => .error r
  | .ok len => ({ b with ubuf := buf } : Block).beginSpiTransaction peer .user len rd first last

/-- `FlashProgram` over a caller's buffer (R180). -/
def Block.callFlashProgram (buf : List Byte) (n : Int) (init : Bool) (b : Block) : Except Refusal Block :=
  match lengthArg buf n with
  | .error r => .error r
  | .ok len => ({ b with ubuf := buf } : Block).beginFlash .user len init

/-- One cycle of a kind (R97). In the host role the end issues it, as the transaction of one byte that it is (R100). In
the peripheral role the end has sampled this tag and serves the cycle (R151); `data` is then what the wires carry. -/
def Block.callCycle (peer : Option Role) (rd ad : Bool) (data : Byte) (b : Block) : Except Refusal Block :=
  match b.role with
  | .host => ({ b with ubuf := [data] } : Block).beginTransaction peer .user 1 rd ad
  | .peripheral => (b.peripheralGuard peer).map (Block.serveDecoded rd ad)

/-- Both strobes asserted (R98, R156): a host-role end refuses it (log entry 9); a peripheral-role end that has sampled it from
an external host serves it as an address cycle (D11), which is not refused: DESIGN CHOICE, unsafe (log entry 36). -/
def Block.callReserved (peer : Option Role) (wrsel : Level) (b : Block) : Except Refusal Block :=
  match b.role with
  | .host => .error .reservedTag
  | .peripheral => (b.peripheralGuard peer).map (Block.serveDecoded (readOfWrsel wrsel) true)

/-- One pair as a seed command on its own: deselect, then the command (R182). The spec gives the lone command no `buf` and no
`f_i` to take its pair from (R102): DESIGN CHOICE (log entry 11), the pair becomes the caller's buffer `ubuf`, which is
overwritten, with `f_i` 0. -/
def Block.callSeed (peer : Option Role) (d e : Byte) (b : Block) : Except Refusal Block :=
  ({ b with
    ubuf := [d, e],
    flash := { b.flash with op := .seedOnly, i := 0, len := 2, ref := .user, init := false } } : Block).flashDeselect peer

/-- One pair as an increment command on its own (R183), its pair taken from `ubuf` at `f_i` 0 as in `callSeed`: DESIGN CHOICE
(log entry 11). -/
def Block.callIncr (peer : Option Role) (d e : Byte) (b : Block) : Except Refusal Block :=
  ({ b with
    ubuf := [d, e],
    flash := { b.flash with op := .incrOnly, i := 0, len := 2, ref := .user, init := true } } : Block).flashDeselect peer

/-- One pass of the status poll on its own (R184). -/
def Block.callStatus (peer : Option Role) (b : Block) : Except Refusal Block :=
  ({ b with flash := { b.flash with op := .statusOnly } } : Block).flashPoll peer

/-- `PortHiZ(e)` (R120). -/
def Block.callPortHiZ (b : Block) : Block := { b with todo := portHiZPrims, rph := .running }

/-- `PeripheralCycle` with the caller's byte slot (R150). -/
def Block.callPeripheralCycle (peer : Option Role) (slot : Byte) (b : Block) : Except Refusal Block :=
  ({ b with per := { b.per with slot := slot } } : Block).beginPeripheralCycle peer

/-- `abort(r)`, entered on a negative result only (R212). -/
def Block.callAbort (r : Int) (b : Block) : Except Refusal Block :=
  if r < 0 then .ok (b.enterAbort r) else .error .notAFailure

/-- Command 'A' from its header on: the loop's `case c_cmd of` comes next (R200, R203). -/
def Block.startCmdA (addr : Byte) (b : Block) : Except Refusal Block :=
  .ok (b.header Config.letterA addr)

/-- Command 'B' from its header on: the loop's `case c_cmd of` comes next (R200, R205). -/
def Block.startCmdB (lm1 : Byte) (b : Block) : Except Refusal Block :=
  .ok (b.header Config.letterB lm1)

/-- Command 'C' from its header on: the loop's `case c_cmd of` comes next (R200, R206). -/
def Block.startCmdC (x : Byte) (b : Block) : Except Refusal Block :=
  .ok (b.header Config.letterC x)

/-- Command 'E' from its header on: the loop's `case c_cmd of` comes next (R200, R207). -/
def Block.startCmdE (lm1 : Byte) (b : Block) : Except Refusal Block :=
  .ok (b.header Config.letterE lm1)

/-- Command 'P' from its header on: the loop's `case c_cmd of` comes next (R200, R210). -/
def Block.startCmdP (lm1 : Byte) (b : Block) : Except Refusal Block :=
  .ok (b.header Config.letterP lm1)

/-- Command 'R' from its header on: the loop's `case c_cmd of` comes next (R200, R208). -/
def Block.startCmdR (lm1 : Byte) (b : Block) : Except Refusal Block :=
  .ok (b.header Config.letterR lm1)

/-- Command 'W' from its header on: the loop's `case c_cmd of` comes next (R200, R209). -/
def Block.startCmdW (lm1 : Byte) (b : Block) : Except Refusal Block :=
  .ok (b.header Config.letterW lm1)

/-- An unrecognized command from its header on: the loop's `case c_cmd of` comes next (R200, R211). It looks at the code:
a term that is not well-formed, with the code of a command, runs that command. -/
def Block.startUnrecognized (code x : Byte) (b : Block) : Except Refusal Block :=
  .ok (b.header code x)

/-- An address-write cycle (R97). -/
def Block.startCycleAddressWrite (peer : Option Role) (data : Byte) (b : Block) : Except Refusal Block :=
  b.callCycle peer false true data

/-- An address-read cycle (R97). In the host role its one-byte buffer holds a free value until the byte arrives (DESIGN
CHOICE, log entry 9). -/
def Block.startCycleAddressRead (peer : Option Role) (b : Block) : Except Refusal Block :=
  b.callCycle peer true true Config.loneByte

/-- A data-write cycle (R97). -/
def Block.startCycleDataWrite (peer : Option Role) (data : Byte) (b : Block) : Except Refusal Block :=
  b.callCycle peer false false data

/-- A data-read cycle (R97). In the host role its one-byte buffer holds a free value until the byte arrives (DESIGN
CHOICE, log entry 9). -/
def Block.startCycleDataRead (peer : Option Role) (b : Block) : Except Refusal Block :=
  b.callCycle peer true false Config.loneByte

/-- Both strobes asserted (R98, R156). -/
def Block.startCycleReserved (peer : Option Role) (w : Level) (b : Block) : Except Refusal Block :=
  b.callReserved peer w

/-- Both strobes idle, whatever `WRSEL` is: no cycle is in progress and nothing changes (R97). -/
def Block.startNoCycle (_w : Level) (b : Block) : Except Refusal Block :=
  .ok b

/-- `Write` (R132). -/
def Block.startWrite (peer : Option Role) (buf : List Byte) (n : Int) (b : Block) : Except Refusal Block :=
  b.callTransaction peer buf n false false

/-- `SetAddress` (R129). -/
def Block.startSetAddress (peer : Option Role) (buf : List Byte) (n : Int) (b : Block) : Except Refusal Block :=
  b.callTransaction peer buf n false true

/-- `Read` (R131). -/
def Block.startRead (peer : Option Role) (buf : List Byte) (n : Int) (b : Block) : Except Refusal Block :=
  b.callTransaction peer buf n true false

/-- `GetAddress` (R130). -/
def Block.startGetAddress (peer : Option Role) (buf : List Byte) (n : Int) (b : Block) : Except Refusal Block :=
  b.callTransaction peer buf n true true

/-- Chip disable: steps 1 and 2 of `SpiReset` (R101). -/
def Block.startPtChipDisable (peer : Option Role) (b : Block) : Except Refusal Block :=
  b.beginSpiReset peer .s1 .s2

/-- Data-register clear: steps 3 and 4 of `SpiReset` (R101). -/
def Block.startPtDataClear (peer : Option Role) (b : Block) : Except Refusal Block :=
  b.beginSpiReset peer .s3 .s4

/-- Chip enable: steps 1 and 2 of `SpiTransaction` (R101), with no payload to come (log entry 10). -/
def Block.startPtChipEnable (peer : Option Role) (b : Block) : Except Refusal Block :=
  b.beginSpiTransaction peer .user 0 false .s1 .s2

/-- Payload: steps 3 and 4 of `SpiTransaction` (R101). -/
def Block.startPtPayload (peer : Option Role) (buf : List Byte) (n : Int) (rd : Bool) (b : Block) : Except Refusal Block :=
  b.callSpiTransaction peer buf n rd .s3 .s4

/-- The seed command (R182). -/
def Block.startFlashAaiSeed (peer : Option Role) (d e : Byte) (b : Block) : Except Refusal Block :=
  b.callSeed peer d e

/-- The increment command (R183). -/
def Block.startFlashAaiIncrement (peer : Option Role) (d e : Byte) (b : Block) : Except Refusal Block :=
  b.callIncr peer d e

/-- The read-status command and its reply (R184). -/
def Block.startFlashReadStatus (peer : Option Role) (b : Block) : Except Refusal Block :=
  b.callStatus peer

/-- `PortHiZ` (R120). -/
def Block.startPortHiZ (b : Block) : Except Refusal Block :=
  .ok b.callPortHiZ

/-- `Reset` (R121). -/
def Block.startReset (role : Role) (b : Block) : Except Refusal Block :=
  .ok (b.beginReset role)

/-- `Transaction` (R124). -/
def Block.startTransaction (peer : Option Role) (buf : List Byte) (n : Int) (rd ac : Bool) (b : Block) : Except Refusal Block :=
  b.callTransaction peer buf n rd ac

/-- `PeripheralCycle` (R150). -/
def Block.startPeripheralCycle (peer : Option Role) (slot : Byte) (b : Block) : Except Refusal Block :=
  b.callPeripheralCycle peer slot

/-- `SpiReset` (R171). -/
def Block.startSpiReset (peer : Option Role) (b : Block) : Except Refusal Block :=
  b.beginSpiReset peer .s1 .s4

/-- `SpiTransaction` (R172). -/
def Block.startSpiTransaction (peer : Option Role) (buf : List Byte) (n : Int) (rd : Bool) (b : Block) : Except Refusal Block :=
  b.callSpiTransaction peer buf n rd .s1 .s4

/-- `FlashProgram` (R180). -/
def Block.startFlashProgram (buf : List Byte) (n : Int) (init : Bool) (b : Block) : Except Refusal Block :=
  b.callFlashProgram buf n init

/-- The dispatcher's `abort` (R212). -/
def Block.startAbort (r : Int) (b : Block) : Except Refusal Block :=
  b.callAbort r

/-- The start of any operation at an end. -/
def Block.start (peer : Option Role) (i : Instr) (b : Block) : Except Refusal Block :=
  match i with
  | .cmdA addr => b.startCmdA addr
  | .cmdB lm1 => b.startCmdB lm1
  | .cmdC x => b.startCmdC x
  | .cmdE lm1 => b.startCmdE lm1
  | .cmdP lm1 => b.startCmdP lm1
  | .cmdR lm1 => b.startCmdR lm1
  | .cmdW lm1 => b.startCmdW lm1
  | .unrecognized code x => b.startUnrecognized code x
  | .cycleAddressWrite data => b.startCycleAddressWrite peer data
  | .cycleAddressRead => b.startCycleAddressRead peer
  | .cycleDataWrite data => b.startCycleDataWrite peer data
  | .cycleDataRead => b.startCycleDataRead peer
  | .cycleReserved w => b.startCycleReserved peer w
  | .noCycle w => b.startNoCycle w
  | .write buf n => b.startWrite peer buf n
  | .setAddress buf n => b.startSetAddress peer buf n
  | .read buf n => b.startRead peer buf n
  | .getAddress buf n => b.startGetAddress peer buf n
  | .ptChipDisable => b.startPtChipDisable peer
  | .ptDataClear => b.startPtDataClear peer
  | .ptChipEnable => b.startPtChipEnable peer
  | .ptPayload buf n rd => b.startPtPayload peer buf n rd
  | .flashAaiSeed d e => b.startFlashAaiSeed peer d e
  | .flashAaiIncrement d e => b.startFlashAaiIncrement peer d e
  | .flashReadStatus => b.startFlashReadStatus peer
  | .portHiZ => b.startPortHiZ
  | .reset role => b.startReset role
  | .transaction buf n rd ac => b.startTransaction peer buf n rd ac
  | .peripheralCycle slot => b.startPeripheralCycle peer slot
  | .spiReset => b.startSpiReset peer
  | .spiTransaction buf n rd => b.startSpiTransaction peer buf n rd
  | .flashProgram buf n init => b.startFlashProgram buf n init
  | .abort r => b.startAbort r

/-- The instruction of a request at the operation-level interface. -/
def Request.instr : Request → Option Instr
  | .call i => some i
  | .word nbits w => decodeTableWord nbits w

end Sys2Proof.Machine
end

