-- ==== Sys2Proof/Machine/Tick.lean ====
section
/-! DEFINITION. One primitive step of a bridge block (R6): the deepest running sequencer moves (R26: the phases are
nested, not concurrent). -/

namespace Sys2Proof.Machine

/-- The dispatcher's own steps (R200, R213). At the top of its loop a pending operation-level request goes first
(log entry 6). -/
def dispTick (p : Peer) (n : Nat) (b : Block) : Tick :=
  match b.disp.ph with
  | .header0 =>
    match b.calls with
    | q :: rest =>
      match q.instr with
      | some i => .ofBegin n (({ b with calls := rest } : Block).start p.role i)
      | none => .refused .badRequest
    | [] =>
      match b.sin with
      | [] => .waiting n
      | x :: rest => .moved (({ b with sin := rest } : Block).commandRead x) n
  | .header1 => header1Tick n b
  | .body => bodyTick p n b
  | .exec => execTick p n b
  | .respond => respondTick n b
  | .console => consoleTick p n b
  | .halted => .waiting n

/-- An engine operation runs at this end while the party at the other end is a block in the same role: an arrangement no
source defines (R241, R248, U13; log entry 16). -/
def Block.clashes (p : Peer) (b : Block) : Bool :=
  (b.host.ph != .idle && p.role == some .host) || (b.per.ph != .idle && p.role == some .peripheral)

/-- The next primitive of the running phase, or the passage of the deepest running sequencer to its next phase. -/
def Block.advance (p : Peer) (n : Nat) (b : Block) : Tick :=
  match b.todo with
  | x :: rest => x.run p n { b with todo := rest }
  | [] =>
    if b.rph = .running then .moved { b with rph := .idle } n
    else if b.host.ph ≠ .idle then hostTick p n b
    else if b.per.ph ≠ .idle then peripheralTick p n b
    else if b.spi.ph ≠ .idle then spiTick p n b
    else if b.flash.ph ≠ .idle then flashTick p n b
    else dispTick p n b

/-- One step of a block against the peer `p` at draw number `n` (R6); refused while the two ends clash (R248). -/
def Block.tick (p : Peer) (n : Nat) (b : Block) : Tick :=
  if b.clashes p then .refused .sameRole else b.advance p n

/-- No operation is running at the end below the dispatcher: every phase register but `DPH` is idle. -/
def Block.idleBelow (b : Block) : Bool :=
  b.todo.isEmpty && b.rph == .idle && b.host.ph == .idle && b.per.ph == .idle && b.spi.ph == .idle &&
  b.flash.ph == .idle

/-- No operation is running at the end, and the dispatcher is at the top of its loop or halted: the instruction that ran
has ended, and a step of the model ends with it (log entry 5). It does not say that the run is over, which is
`State.over`. -/
def Block.atRest (b : Block) : Bool := b.idleBelow && (b.disp.ph == .header0 || b.disp.ph == .halted)

/-- This end's share of a run that is over (R248): the dispatcher at `D_HEADER0`, `SIN` empty, every other phase idle, and
no operation-level request pending (log entry 6). A block at `D_CONSOLE` or `D_HALTED` never is. -/
def Block.over (b : Block) : Bool := b.idleBelow && b.disp.ph == .header0 && b.sin.isEmpty && b.calls.isEmpty

end Sys2Proof.Machine
end

