-- ==== Sys2Proof/Machine/System.lean ====
section
/-! DEFINITION. The whole system: the near block, the far party, and the outside world (R6, R7, R20, R245). One turn moves
one agent; a run takes turns until the near block is at rest. -/

namespace Sys2Proof.Machine

/-- A line an end drives L. -/
def LineState.assertedLow (x : LineState) : Bool := x.dir == .output && x.lat == .low

/-- A driven data line carrying a bit. -/
def LineState.drivenBit (v : Bool) : LineState := ⟨.output, bitLevel v⟩

/-- An external target that has acknowledged a cycle: `WAIT` asserted. -/
def Lines.targetAck : Lines := { Lines.hiZ with wait := .drivenHigh }

/-- An external target that has acknowledged a read with the byte `x` on the data lines (R70, R99). -/
def Lines.targetReply (x : Byte) : Lines :=
  { Lines.targetAck with
    d0 := .drivenBit (x.getLsbD 0), d1 := .drivenBit (x.getLsbD 1), d2 := .drivenBit (x.getLsbD 2),
    d3 := .drivenBit (x.getLsbD 3), d4 := .drivenBit (x.getLsbD 4), d5 := .drivenBit (x.getLsbD 5),
    d6 := .drivenBit (x.getLsbD 6), d7 := .drivenBit (x.getLsbD 7) }

/-- What a live target does next, seeing the near lines, at draw number `n` (R70, R282 `PERIPHERAL_LIVE`; log entry 4): it
acknowledges an asserted strobe, with its next reply on the data lines when the host reads, and it releases everything but
`WAIT`, deasserted, once both strobes are released. A reply it has not been given is a free value (R7). A strobe that the
near end does not drive (after `PortHiZ`, an abort or a block reset in mid-cycle) counts as released, with no draw, where
R272 says what a block would see there and gives an external target no behaviour: DESIGN CHOICE, unsafe (log entry 4). -/
def Target.react (near : Lines) (n : Nat) (t : Target) : Option (Target × Nat) :=
  if !t.live then none
  else if near.astb.assertedLow || near.dstb.assertedLow then
    if t.lines.wait = .drivenHigh then none
    else if near.wrsel.assertedLow then some ({ t with lines := .targetAck }, n)
    else match t.replies with
      | x :: rest => some ({ t with lines := .targetReply x, replies := rest }, n)
      | [] => some ({ t with lines := .targetReply (Config.byteDraw n) }, n + 1)
  else if t.lines.wait = .drivenHigh then some ({ t with lines := .targetReady }, n)
  else none

/-- The move a far party makes by itself, if it makes one. -/
def Party.react (near : Lines) (n : Nat) : Party → Option (Party × Nat)
  | .target t => (t.react near n).map fun x => (.target x.1, x.2)
  | .block _ => none

/-- The near block takes one primitive step. -/
def State.tickNear (s : State) : Turn :=
  match s.near.tick s.far.asPeer s.drawn with
  | .moved b n => .moved ({ s with near := b, drawn := n } : State).noteContention
  | .waiting n => .stuck { s with drawn := n }
  | .fault f => .fault f
  | .refused r => .refused r

/-- A block at the far end takes one primitive step, and goes on with `k` more as the next move. A far block without a
step ends the move; an external target has no primitives. -/
def State.moveFar (k : Nat) (s : State) : Turn :=
  match s.far with
  | .target _ => .moved s
  | .block b =>
    match b.tick s.near.asPeer s.drawn with
    | .moved b' n =>
      .moved ({ s with far := .block b', drawn := n, script := ⟨.after 0, .far k⟩ :: s.script } : State).noteContention
    | .waiting n => .moved { s with drawn := n }
    | .fault f => .fault f
    | .refused r => .refused r

/-- Changes a far block and leaves an external target alone. -/
def Party.mapBlock (f : Block → Block) : Party → Party
  | .target t => .target t
  | .block b => .block (f b)

/-- One move of an agent outside the near block (R6, R7, R34, R260). An external host may put any levels on its lines, both
strobes asserted among them: R98 and U5 would have a model refuse such a host, and D11, R156 and T29 say how a peripheral
serves it. Going on with that service is DESIGN CHOICE, unsafe (log entry 36). -/
def Move.apply (m : Move) (s : State) : Turn :=
  match m with
  | .lines ls =>
    match s.far with
    | .target t => .moved ({ s with far := .target { t with lines := ls } } : State).noteContention
    | .block _ => .moved s
  | .far 0 => .moved s
  | .far (k + 1) => s.moveFar k
  | .serial x => .moved { s with near := { s.near with sin := s.near.sin ++ [x] } }
  | .farSerial x => .moved { s with far := s.far.mapBlock fun b => { b with sin := b.sin ++ [x] } }
  | .call q => .moved { s with near := { s.near with calls := s.near.calls ++ [q] } }
  | .farCall q => .moved { s with far := s.far.mapBlock fun b => { b with calls := b.calls ++ [q] } }
  | .resetNear =>
    .moved { s with near := s.near.blockReset s.drawn, drawn := s.drawn + 1, contention := false }
  | .resetFar => .moved { s with far := s.far.mapBlock (Block.blockReset s.drawn), drawn := s.drawn + 1 }

/-- The far party makes the move it makes by itself, if it makes one. -/
def State.react (s : State) : Option State :=
  (s.far.react s.near.lines s.drawn).map fun x => ({ s with far := x.1, drawn := x.2 } : State).noteContention

/-- One turn of the system: the outside world moves if its next move is due, which an external reset must not wait for
(R237, R260); else a live target reacts; else the near block takes a step. A near block without a step lets the outside
world's next move happen at once, and the system is stuck when there is none. -/
def State.turn (s : State) : Turn :=
  match s.script with
  | [] =>
    match s.react with
    | some t => .moved t
    | none => s.tickNear
  | ⟨.after 0, m⟩ :: rest => m.apply { s with script := rest }
  | ⟨.after (k + 1), m⟩ :: rest =>
    match s.react with
    | some t => .moved t
    | none =>
      match s.tickNear with
      | .moved t => .moved { t with script := ⟨.after k, m⟩ :: rest }
      | .stuck t => m.apply { t with script := rest }
      | .fault f => .fault f
      | .refused r => .refused r
  | ⟨.blocked, m⟩ :: rest =>
    match s.react with
    | some t => .moved t
    | none =>
      match s.tickNear with
      | .moved t => .moved t
      | .stuck t => m.apply { t with script := rest }
      | .fault f => .fault f
      | .refused r => .refused r

/-- Whether a run is over (R248): the dispatcher at `D_HEADER0` with `SIN` empty and every other phase idle, at both ends.
An external target has no dispatcher and no phase (log entry 32). -/
def State.over (s : State) : Bool :=
  s.near.over && match s.far with
    | .target _ => true
    | .block b => b.over

/-- Turns of the system until the near block is at rest, at most `fuel` of them. A system that is stuck stays where it is:
a wait is never a fault (R127, R238, R248). -/
def State.run : Nat → State → Host.Outcome State Fault Refusal
  | 0, s => .next s
  | fuel + 1, s =>
    if s.near.atRest then .next s
    else match s.turn with
      | .moved t => State.run fuel t
      | .stuck t => .next t
      | .fault f => .fault f
      | .refused r => .refused r

/-- Starts an operation at the near block, which must be at rest (R72, R121), and runs it. -/
def State.launch (s : State) (b : Except Refusal Block) : Host.Outcome State Fault Refusal :=
  if s.near.disp.ph = .halted then .fault .halted
  else if s.near.atRest then
    match b with
    | .ok b => State.run Config.burst { s with near := b }
    | .error r => .refused r
  else .refused .interleaved

end Sys2Proof.Machine
end

