-- ==== Sys2Proof/Machine/ExecCalls.lean ====
section
/-! DEFINITION. The meanings of the `CALL` rows: the operations of rule R2 that have no bit-level encoding. Each meaning starts its operation at the near block and
runs the system until the block is at rest or stuck. -/

namespace Sys2Proof.Machine

/-- `PortHiZ` (R120). -/
def execPortHiZ (s : State) : Host.Outcome State Fault Refusal :=
  s.launch (s.near.startPortHiZ)

/-- `Reset` (R121). -/
def execReset (role : Role) (s : State) : Host.Outcome State Fault Refusal :=
  s.launch (s.near.startReset role)

/-- `Transaction` (R124). -/
def execTransaction (buf : List Byte) (n : Int) (rd ac : Bool) (s : State) : Host.Outcome State Fault Refusal :=
  s.launch (s.near.startTransaction s.far.role buf n rd ac)

/-- `PeripheralCycle` (R150). -/
def execPeripheralCycle (slot : Byte) (s : State) : Host.Outcome State Fault Refusal :=
  s.launch (s.near.startPeripheralCycle s.far.role slot)

/-- `SpiReset` (R171). -/
def execSpiReset (s : State) : Host.Outcome State Fault Refusal :=
  s.launch (s.near.startSpiReset s.far.role)

/-- `SpiTransaction` (R172). -/
def execSpiTransaction (buf : List Byte) (n : Int) (rd : Bool) (s : State) : Host.Outcome State Fault Refusal :=
  s.launch (s.near.startSpiTransaction s.far.role buf n rd)

/-- `FlashProgram` (R180). -/
def execFlashProgram (buf : List Byte) (n : Int) (init : Bool) (s : State) : Host.Outcome State Fault Refusal :=
  s.launch (s.near.startFlashProgram buf n init)

/-- The dispatcher's `abort` (R212). -/
def execAbort (r : Int) (s : State) : Host.Outcome State Fault Refusal :=
  s.launch (s.near.startAbort r)

end Sys2Proof.Machine
end

