-- ==== Sys2Proof/Machine/ExecCommands.lean ====
section
/-! DEFINITION. The meanings of the `CMD` rows: the commands of the dispatcher (rules R200 to R217 of spec/44_command_dispatcher.md). Each meaning starts its operation at the near block and
runs the system until the block is at rest or stuck. -/

namespace Sys2Proof.Machine

/-- Command 'A' from its header on (R203). -/
def execCmdA (addr : Byte) (s : State) : Host.Outcome State Fault Refusal :=
  s.launch (s.near.startCmdA addr)

/-- Command 'B' from its header on (R205). -/
def execCmdB (lm1 : Byte) (s : State) : Host.Outcome State Fault Refusal :=
  s.launch (s.near.startCmdB lm1)

/-- Command 'C' from its header on (R206). -/
def execCmdC (x : Byte) (s : State) : Host.Outcome State Fault Refusal :=
  s.launch (s.near.startCmdC x)

/-- Command 'E' from its header on (R207). -/
def execCmdE (lm1 : Byte) (s : State) : Host.Outcome State Fault Refusal :=
  s.launch (s.near.startCmdE lm1)

/-- Command 'P' from its header on (R210). -/
def execCmdP (lm1 : Byte) (s : State) : Host.Outcome State Fault Refusal :=
  s.launch (s.near.startCmdP lm1)

/-- Command 'R' from its header on (R208). -/
def execCmdR (lm1 : Byte) (s : State) : Host.Outcome State Fault Refusal :=
  s.launch (s.near.startCmdR lm1)

/-- Command 'W' from its header on (R209). -/
def execCmdW (lm1 : Byte) (s : State) : Host.Outcome State Fault Refusal :=
  s.launch (s.near.startCmdW lm1)

/-- An unrecognized command from its header on (R211). -/
def execUnrecognized (code x : Byte) (s : State) : Host.Outcome State Fault Refusal :=
  s.launch (s.near.startUnrecognized code x)

end Sys2Proof.Machine
end

