-- ==== Sys2Proof/Machine/ExecCycles.lean ====
section
/-! DEFINITION. The meanings of the `CYC` rows: one cycle on the wires (rules R97 to R99). Each meaning starts its operation at the near block and
runs the system until the block is at rest or stuck. -/

namespace Sys2Proof.Machine

/-- An address-write cycle (R97). -/
def execCycleAddressWrite (data : Byte) (s : State) : Host.Outcome State Fault Refusal :=
  s.launch (s.near.startCycleAddressWrite s.far.role data)

/-- An address-read cycle (R97). -/
def execCycleAddressRead (s : State) : Host.Outcome State Fault Refusal :=
  s.launch (s.near.startCycleAddressRead s.far.role)

/-- A data-write cycle (R97). -/
def execCycleDataWrite (data : Byte) (s : State) : Host.Outcome State Fault Refusal :=
  s.launch (s.near.startCycleDataWrite s.far.role data)

/-- A data-read cycle (R97). -/
def execCycleDataRead (s : State) : Host.Outcome State Fault Refusal :=
  s.launch (s.near.startCycleDataRead s.far.role)

/-- Both strobes asserted (R98, R156). -/
def execCycleReserved (w : Level) (s : State) : Host.Outcome State Fault Refusal :=
  s.launch (s.near.startCycleReserved s.far.role w)

/-- Both strobes idle, whatever `WRSEL` is: no cycle is in progress and nothing changes (R97). -/
def execNoCycle (w : Level) (s : State) : Host.Outcome State Fault Refusal :=
  s.launch (s.near.startNoCycle w)

end Sys2Proof.Machine
end

