-- ==== Sys2Proof/Machine/ExecFlashCommands.lean ====
section
/-! DEFINITION. The meanings of the `SPI` rows: the three flash commands (rules R102, R182 to R184). Each meaning starts its operation at the near block and
runs the system until the block is at rest or stuck. -/

namespace Sys2Proof.Machine

/-- The seed command (R182). -/
def execFlashAaiSeed (d e : Byte) (s : State) : Host.Outcome State Fault Refusal :=
  s.launch (s.near.startFlashAaiSeed s.far.role d e)

/-- The increment command (R183). -/
def execFlashAaiIncrement (d e : Byte) (s : State) : Host.Outcome State Fault Refusal :=
  s.launch (s.near.startFlashAaiIncrement s.far.role d e)

/-- The read-status command and its reply (R184). -/
def execFlashReadStatus (s : State) : Host.Outcome State Fault Refusal :=
  s.launch (s.near.startFlashReadStatus s.far.role)

end Sys2Proof.Machine
end

