-- ==== Sys2Proof/Machine/ExecPassThrough.lean ====
section
/-! DEFINITION. The meanings of the `PT` rows: the four pass-through register writes (rule R101). Each meaning starts its operation at the near block and
runs the system until the block is at rest or stuck. -/

namespace Sys2Proof.Machine

/-- Chip disable: steps 1 and 2 of `SpiReset` (R101). -/
def execPtChipDisable (s : State) : Host.Outcome State Fault Refusal :=
  s.launch (s.near.startPtChipDisable s.far.role)

/-- Data-register clear: steps 3 and 4 of `SpiReset` (R101). -/
def execPtDataClear (s : State) : Host.Outcome State Fault Refusal :=
  s.launch (s.near.startPtDataClear s.far.role)

/-- Chip enable: steps 1 and 2 of `SpiTransaction` (R101). -/
def execPtChipEnable (s : State) : Host.Outcome State Fault Refusal :=
  s.launch (s.near.startPtChipEnable s.far.role)

/-- Payload: steps 3 and 4 of `SpiTransaction` (R101). -/
def execPtPayload (buf : List Byte) (n : Int) (rd : Bool) (s : State) : Host.Outcome State Fault Refusal :=
  s.launch (s.near.startPtPayload s.far.role buf n rd)

end Sys2Proof.Machine
end

