-- ==== Sys2Proof/Machine/ExecTransfers.lean ====
section
/-! DEFINITION. The meanings of the `SEL` rows: the four derived operations of `Transaction` (rules R100, R129 to R132). Each meaning starts its operation at the near block and
runs the system until the block is at rest or stuck. -/

namespace Sys2Proof.Machine

/-- `Write` (R132). -/
def execWrite (buf : List Byte) (n : Int) (s : State) : Host.Outcome State Fault Refusal :=
  s.launch (s.near.startWrite s.far.role buf n)

/-- `SetAddress` (R129). -/
def execSetAddress (buf : List Byte) (n : Int) (s : State) : Host.Outcome State Fault Refusal :=
  s.launch (s.near.startSetAddress s.far.role buf n)

/-- `Read` (R131). -/
def execRead (buf : List Byte) (n : Int) (s : State) : Host.Outcome State Fault Refusal :=
  s.launch (s.near.startRead s.far.role buf n)

/-- `GetAddress` (R130). -/
def execGetAddress (buf : List Byte) (n : Int) (s : State) : Host.Outcome State Fault Refusal :=
  s.launch (s.near.startGetAddress s.far.role buf n)

end Sys2Proof.Machine
end

