-- ==== Sys2Proof/Machine/Dispatch.lean ====
section
/-! DEFINITION. The dispatch of instructions to their meanings: one arm per constructor of `Instr`, in the order of
spec/opcode_table.json. -/

namespace Sys2Proof.Machine

def exec (i : Instr) (s : State) : Host.Outcome State Fault Refusal :=
  match i with
  | .cmdA addr => Sys2Proof.Machine.execCmdA addr s
  | .cmdB lm1 => Sys2Proof.Machine.execCmdB lm1 s
  | .cmdC x => Sys2Proof.Machine.execCmdC x s
  | .cmdE lm1 => Sys2Proof.Machine.execCmdE lm1 s
  | .cmdP lm1 => Sys2Proof.Machine.execCmdP lm1 s
  | .cmdR lm1 => Sys2Proof.Machine.execCmdR lm1 s
  | .cmdW lm1 => Sys2Proof.Machine.execCmdW lm1 s
  | .unrecognized code x => Sys2Proof.Machine.execUnrecognized code x s
  | .cycleAddressWrite data => Sys2Proof.Machine.execCycleAddressWrite data s
  | .cycleAddressRead => Sys2Proof.Machine.execCycleAddressRead s
  | .cycleDataWrite data => Sys2Proof.Machine.execCycleDataWrite data s
  | .cycleDataRead => Sys2Proof.Machine.execCycleDataRead s
  | .cycleReserved w => Sys2Proof.Machine.execCycleReserved w s
  | .noCycle w => Sys2Proof.Machine.execNoCycle w s
  | .write buf n => Sys2Proof.Machine.execWrite buf n s
  | .setAddress buf n => Sys2Proof.Machine.execSetAddress buf n s
  | .read buf n => Sys2Proof.Machine.execRead buf n s
  | .getAddress buf n => Sys2Proof.Machine.execGetAddress buf n s
  | .ptChipDisable => Sys2Proof.Machine.execPtChipDisable s
  | .ptDataClear => Sys2Proof.Machine.execPtDataClear s
  | .ptChipEnable => Sys2Proof.Machine.execPtChipEnable s
  | .ptPayload buf n rd => Sys2Proof.Machine.execPtPayload buf n rd s
  | .flashAaiSeed d e => Sys2Proof.Machine.execFlashAaiSeed d e s
  | .flashAaiIncrement d e => Sys2Proof.Machine.execFlashAaiIncrement d e s
  | .flashReadStatus => Sys2Proof.Machine.execFlashReadStatus s
  | .portHiZ => Sys2Proof.Machine.execPortHiZ s
  | .reset role => Sys2Proof.Machine.execReset role s
  | .transaction buf n rd ac => Sys2Proof.Machine.execTransaction buf n rd ac s
  | .peripheralCycle slot => Sys2Proof.Machine.execPeripheralCycle slot s
  | .spiReset => Sys2Proof.Machine.execSpiReset s
  | .spiTransaction buf n rd => Sys2Proof.Machine.execSpiTransaction buf n rd s
  | .flashProgram buf n init => Sys2Proof.Machine.execFlashProgram buf n init s
  | .abort r => Sys2Proof.Machine.execAbort r s

end Sys2Proof.Machine
end

