-- ==== Sys2Proof/Machine/Fetch.lean ====
section
/-! DEFINITION. What the machine does next: the fetch of an instruction (rules R75, R91, R200, R201 and the
operation-level interface of R4), or the operation that is under way. -/

namespace Sys2Proof.Machine

/-- Nothing outside the near block moves before it has taken `k` primitives: no live target reacts, and the next move of the
outside world is not due before then. -/
def State.clearFor (k : Nat) (s : State) : Bool :=
  s.react.isNone && match s.script with
    | ⟨.after j, _⟩ :: _ => decide (k ≤ j)
    | _ => true

/-- The script of the outside world after `k` primitives of the near block. -/
def countdown (k : Nat) : List Event → List Event
  | ⟨.after j, m⟩ :: rest => ⟨.after (j - k), m⟩ :: rest
  | es => es

/-- `s` with the near block at `b`, `k` primitives of it later. -/
def State.fetched (k : Nat) (b : Block) (s : State) : State := { s with near := b, script := countdown k s.script }

/-- The fetch. A running operation goes on. Else, whatever outside the block is due comes first, so an external reset beats
the fetch (R237, R260). Else, at the top of the dispatcher's loop, a pending operation-level request goes first (log entry
6), then a header whose two bytes are on the serial stream, removed from it (R201). The header is fetched in one step of the
model only when nothing outside falls between its four primitives: the two `SerialGet`s, `c_len` and the program flag
(R200). When something does, and after byte 0 alone, the block takes them one a turn; a header whose two bytes are read is
an operation under way. -/
def State.fetch (s : State) : Fetched :=
  if !s.near.idleBelow then .busy
  else if !s.clearFor 1 then .idle
  else match s.near.disp.ph with
    | .halted => .halted
    | .header0 =>
      match s.near.calls with
      | q :: rest =>
        match q.instr with
        | some i => .instr i (s.fetched 1 { s.near with calls := rest })
        | none => .undecodable
      | [] =>
        match s.near.sin with
        | b0 :: b1 :: rest =>
          if s.clearFor 4 then .instr (decodeHeader s.near.par.board b0 b1) (s.fetched 4 { s.near with sin := rest })
          else .idle
        | _ => .idle
    | .header1 =>
      if s.near.disp.step.updatesHeader then .busy
      else match s.near.sin with
      | b1 :: rest =>
        if s.clearFor 3 then
          .instr (decodeHeader s.near.par.board s.near.disp.cmd b1)
            (s.fetched 3 { s.near with sin := rest, disp := { s.near.disp with ph := .header0 } })
        else .idle
      | [] => .idle
    | .body => .busy
    | .exec => .busy
    | .respond => .busy
    | .console => .busy

/-- One turn as an outcome: the outside world moves, the near block takes one primitive of a header, or the machine waits
where it is. -/
def State.idleTurn (s : State) : Host.Outcome State Fault Refusal :=
  match s.turn with
  | .moved t => .next t
  | .stuck t => .next t
  | .fault f => .fault f
  | .refused r => .refused r

/-- A halted dispatcher has no step (R212, R248); only the outside world, by a block reset, can still change that. -/
def State.haltedTurn (s : State) : Host.Outcome State Fault Refusal :=
  if s.script = [] then .fault .halted else s.idleTurn

/-- `s` with the instruction of the table word `w` where the next step fetches it: a header goes to the head of the
serial stream, with a body of zeros if its command has one; any other word becomes the next operation-level request. It runs there at the next step when nothing outside is due. -/
def State.placeWord (s : State) (nbits w : Nat) : State :=
  if nbits = 16 then
    { s with near := { s.near with
        calls := [],
        sin := byteOfWord w 1 :: byteOfWord w 0 ::
          (List.replicate (bodyLength (byteOfWord w 1) (byteOfWord w 0)) 0 ++ s.near.sin) } }
  else { s with near := { s.near with calls := .word nbits w :: s.near.calls } }

end Sys2Proof.Machine
end

