-- ==== Sys2Proof/Machine/Step.lean ====
section
/-! DEFINITION. One step of the machine: the fetched instruction runs, or the operation under way goes on, or the outside
world moves. -/

namespace Sys2Proof.Machine

/-- One step (log entry 5 says how a step of the model relates to the primitives of R6). -/
def step (s : State) : Host.Outcome State Fault Refusal :=
  match s.fetch with
  | .instr i t => exec i t
  | .busy => State.run Config.burst s
  | .idle => s.idleTurn
  | .halted => s.haltedTurn
  | .undecodable => .refused .badRequest

/-- `s` with the instruction of a table word placed where `step` fetches its next instruction. -/
def State.withFetchWord (s : State) (nbits w : Nat) : State := s.placeWord nbits w

end Sys2Proof.Machine
end

