-- ==== Sys2Proof/Safety.lean ====
section
/-! DEFINITION. What counts as a safe state, in the terms claims use: the invariants of the line state (R21, R40), of the
buffer bounds (R24), and the named premises of R282 as far as one state shows them. -/

namespace Sys2Proof.Machine

/-! ### The data lines move together (R21) -/

/-- The directions of the eight data lines are equal (R21: "all-input or all-output, never mixed"). -/
def Lines.dataUniform (ls : Lines) : Prop := ∀ l ∈ dataLines, (ls.get l).dir = ls.d0.dir

/-- What a primitive does to the lines. -/
def Prim.onLines (x : Prim) (ls : Lines) : Lines :=
  match x with
  | .setDir l d => ls.setDir l d
  | .setLvl l v => ls.setLvl l v
  | .delay _ => ls
  | .get _ => ls
  | .storeHost => ls
  | .storeSlot => ls
  | .senseWrsel => ls
  | .senseAstb => ls
  | .setRole _ => ls

/-- What a primitive does to the role. -/
def Prim.onRole (x : Prim) (r : Role) : Role :=
  match x with
  | .setRole r' => r'
  | _ => r

/-- The lines after a list of primitives. -/
def linesAfter (todo : List Prim) (ls : Lines) : Lines := todo.foldl (fun ls x => x.onLines ls) ls

/-- The role after a list of primitives. -/
def roleAfter (todo : List Prim) (r : Role) : Role := todo.foldl (fun r x => x.onRole r) r

/-- The data directions of a block are uniform whenever no `DataDir` is part-way: once the steps of the running phase are
done (R21). -/
def Block.Uniform (b : Block) : Prop := (linesAfter b.todo b.lines).dataUniform

/-! ### The line state of each phase (R40, R97, R99, R125, R151) -/

/-- A host end with the levels `a` on `ASTB` and `d` on `DSTB`, not writing. -/
def Lines.hostRead (a d : Level) : Lines := { Lines.idleHost with astb := ⟨.output, a⟩, dstb := ⟨.output, d⟩ }

/-- A host end that drives the byte `x`, write-select asserted. -/
def Lines.hostWrite (x : Byte) (a d : Level) : Lines :=
  { d0 := .drivenBit (x.getLsbD 0), d1 := .drivenBit (x.getLsbD 1), d2 := .drivenBit (x.getLsbD 2),
    d3 := .drivenBit (x.getLsbD 3), d4 := .drivenBit (x.getLsbD 4), d5 := .drivenBit (x.getLsbD 5),
    d6 := .drivenBit (x.getLsbD 6), d7 := .drivenBit (x.getLsbD 7), wait := .free, wrsel := .drivenLow,
    dstb := ⟨.output, d⟩, astb := ⟨.output, a⟩, rst := .drivenHigh }

/-- A peripheral end that drives the byte `x`, with the level `w` on `WAIT`. -/
def Lines.peripheralDrive (x : Byte) (w : Level) : Lines :=
  { d0 := .drivenBit (x.getLsbD 0), d1 := .drivenBit (x.getLsbD 1), d2 := .drivenBit (x.getLsbD 2),
    d3 := .drivenBit (x.getLsbD 3), d4 := .drivenBit (x.getLsbD 4), d5 := .drivenBit (x.getLsbD 5),
    d6 := .drivenBit (x.getLsbD 6), d7 := .drivenBit (x.getLsbD 7), wait := ⟨.output, w⟩, wrsel := .free,
    dstb := .free, astb := .free, rst := .free }

/-- The level of `ASTB` while the strobe of a transaction is asserted. -/
def astbLevel (ac : Bool) : Level := if ac then .low else .high

/-- The level of `DSTB` while the strobe of a transaction is asserted. -/
def dstbLevel (ac : Bool) : Level := if ac then .high else .low

/-- The lines of a host end once the steps of a phase are done (R125, R126). -/
def HostRegs.picture (h : HostRegs) : Lines :=
  match h.ph, h.rd with
  | .idle, _ => .idleHost
  | .finish, _ => .idleHost
  | .setup, true => .idleHost
  | .preWait, true => .idleHost
  | .put, true => .idleHost
  | .restore, true => .idleHost
  | .release, true => .idleHost
  | .setup, false => .hostWrite 0xFF .high .high
  | .preWait, false => .hostWrite 0xFF .high .high
  | .restore, false => .hostWrite 0xFF .high .high
  | .put, false => .hostWrite h.byte .high .high
  | .release, false => .hostWrite h.byte .high .high
  | .strobe, true => .hostRead (astbLevel h.ac) (dstbLevel h.ac)
  | .ackWait, true => .hostRead (astbLevel h.ac) (dstbLevel h.ac)
  | .get, true => .hostRead (astbLevel h.ac) (dstbLevel h.ac)
  | .strobe, false => .hostWrite h.byte (astbLevel h.ac) (dstbLevel h.ac)
  | .ackWait, false => .hostWrite h.byte (astbLevel h.ac) (dstbLevel h.ac)
  | .get, false => .hostWrite h.byte (astbLevel h.ac) (dstbLevel h.ac)

/-- The lines of a peripheral end once the steps of a phase are done (R151, R152). -/
def PerRegs.picture (p : PerRegs) : Lines :=
  match p.ph, p.rd with
  | .drive, true => .peripheralDrive p.slot .low
  | .ack, true => .peripheralDrive p.slot .high
  | .releaseWait, true => .peripheralDrive p.slot .high
  | .ack, false => { Lines.idlePeripheral with wait := .drivenHigh }
  | .releaseWait, false => { Lines.idlePeripheral with wait := .drivenHigh }
  | .take, _ => { Lines.idlePeripheral with wait := .drivenHigh }
  | _, _ => .idlePeripheral

/-- The lines a block that has been `Reset` should show once the steps of its running phase are done. -/
def Block.picture (b : Block) : Lines :=
  if b.rph = .running then .idleOf (roleAfter b.todo b.role)
  else match b.role with
    | .host => b.host.picture
    | .peripheral => b.per.picture

/-- Where the primitives that touch a register may stand: each belongs to one phase (R125, R151, R121). -/
def Block.Allows (b : Block) : Prim → Prop
  | .storeHost => b.host.ph = .get ∧ b.host.rd = true
  | .storeSlot => b.per.ph = .take ∧ b.per.rd = false
  | .senseWrsel => b.per.ph = .decode
  | .senseAstb => b.per.ph = .decode
  | .setRole _ => b.rph = .running
  | _ => True

/-- A block whose lines are as its role and its phases say (R40, R97, R99): it holds from block reset on until a
`PortHiZ` or an abort. A sequencer runs only in its role, and no line sequence runs beside one. -/
def Block.Settled (b : Block) : Prop :=
  linesAfter b.todo b.lines = b.picture ∧
  (b.host.ph ≠ .idle → b.role = .host ∧ b.rph = .idle) ∧
  (b.per.ph ≠ .idle → b.role = .peripheral ∧ b.rph = .idle) ∧
  (∀ r, b.disp.step = .aborting r → b.disp.ph ≠ .exec) ∧
  (∀ x ∈ b.todo, b.Allows x)

/-! ### Buffer bounds (R24) -/

/-- A buffer reference that a transfer of `len` bytes stays inside of; only `BUF`, `ST` and a caller's buffer are
written. -/
def Block.Fits (b : Block) (r : BufRef) (len : Nat) (rd : Bool) : Prop :=
  match r with
  | .buf => len ≤ Config.cap
  | .user => len ≤ b.ubuf.length
  | .st => len ≤ 1
  | .cmd => len ≤ 6 ∧ rd = false
  | .idxAddr => len ≤ 1 ∧ rd = false
  | .datAddr => len ≤ 1 ∧ rd = false
  | .enByte => len ≤ 1 ∧ rd = false
  | .disByte => len ≤ 1 ∧ rd = false
  | .zero => len ≤ 1 ∧ rd = false
  | .pendAddr => len ≤ 1 ∧ rd = false

/-- The running transaction stays inside its buffer and its capacity, and a byte is stored only for a cycle it runs. -/
def Block.HostInBounds (b : Block) : Prop :=
  (b.host.ph ≠ .idle → b.host.len ≤ Config.cap ∧ b.Fits b.host.ref b.host.len b.host.rd) ∧
  (b.host.ph = .setup → b.host.i = 0) ∧
  (b.host.ph ≠ .idle → b.host.ph ≠ .setup → b.host.ph ≠ .finish → b.host.i < b.host.len) ∧
  (.storeHost ∈ b.todo → b.host.ph = .get ∧ b.host.rd = true)

/-- The transfer an `SpiTransaction` is going to run stays inside its buffer. -/
def Block.SpiInBounds (b : Block) : Prop :=
  b.spi.ph ≠ .idle → b.spi.kind = .transfer →
    b.spi.len ≤ Config.cap ∧ b.Fits b.spi.ref b.spi.len b.spi.rd

/-- The phases of the status poll that can run on their own, for the read-status command (R184). -/
abbrev pollPhases : List FPhase := [.pollDeselect, .pollCmd, .pollRead]

/-- The pairs the flash sequencer is going to send lie inside its buffer; a status poll on its own sends none. -/
def Block.FlashInBounds (b : Block) : Prop :=
  b.flash.ph ≠ .idle → b.flash.op ≠ .statusOnly ∨ b.flash.ph ∉ pollPhases →
    b.flash.len ≤ Config.cap ∧ (b.flash.ref = .buf ∨ b.flash.ref = .user) ∧ b.Fits b.flash.ref b.flash.len false ∧
    (b.flash.ph = .deselect → b.flash.i + 1 < b.flash.len)

/-- The dispatcher is between the computation of `c_len` and the end of the command (R200). -/
abbrev DispRegs.HasLength (d : DispRegs) : Prop :=
  (d.ph = .header1 ∧ d.step = .clearProg) ∨ d.ph = .body ∨ (d.ph = .exec ∧ ∀ r, d.step ≠ .aborting r) ∨ d.ph = .respond

/-- The dispatcher's fill, body and response stay inside `BUF`: once `c_len` has been computed it lies in 1 to `CAP`. -/
def Block.DispInBounds (b : Block) : Prop :=
  (b.disp.HasLength → 0 < b.disp.len ∧ b.disp.len ≤ Config.cap) ∧
  (b.disp.ph = .exec ∧ b.disp.step = .fill → b.disp.k < b.disp.len)

/-- No operation of the block is about to index a buffer outside its bounds (R24), and `BUF` is in canonical form. -/
def Block.InBounds (b : Block) : Prop :=
  b.buf.wf = true ∧ b.HostInBounds ∧ b.SpiInBounds ∧ b.FlashInBounds ∧ b.DispInBounds

/-! ### The bus traffic of the layers above the engine (R101, R102, R171, R172, R181 to R184) -/

/-- The cycles of the first three steps of `SpiTransaction` (R172). -/
abbrev Params.openCycles (p : Params) : List Cycle :=
  [⟨true, false, p.idxAddr⟩, ⟨false, false, p.enByte⟩, ⟨true, false, p.datAddr⟩]

/-- The cycles of `SpiReset` (R171). -/
abbrev Params.resetCycles (p : Params) : List Cycle :=
  [⟨true, false, p.idxAddr⟩, ⟨false, false, p.disByte⟩, ⟨true, false, p.datAddr⟩, ⟨false, false, Config.zeroByte⟩]

/-- The cycles of one pass of the status poll that reads `st` (R184). -/
abbrev Params.pollCycles (p : Params) (st : Byte) : List Cycle :=
  p.resetCycles ++ (p.openCycles ++ [⟨false, false, Config.rdsrOp⟩]) ++ (p.openCycles ++ [⟨false, true, st⟩])

/-- The bytes of the flash command for a pair (R102). -/
abbrev pairBytes (init : Bool) (d e : Byte) : List Byte :=
  if init then [Config.aaiOp, d, e] else [Config.aaiOp, 0, 0, 0, d, e]

/-- The cycles of a pair up to its poll (R181). -/
abbrev Params.pairCycles (p : Params) (init : Bool) (d e : Byte) : List Cycle :=
  p.resetCycles ++ p.openCycles ++ (pairBytes init d e).map fun x => ⟨false, false, x⟩

/-- The cycles of the pairs of a flash program: `polls` holds, for each pair, the status bytes that said busy and the one
that did not (R181, R185). -/
def Params.programCycles (p : Params) : Bool → List Byte → List (List Byte × Byte) → List Cycle
  | init, d :: e :: xs, (sts, y) :: polls =>
    p.pairCycles init d e ++ (sts ++ [y]).flatMap p.pollCycles ++ p.programCycles true xs polls
  | _, _, _ => []

/-- The status bytes of all polls, in the order the target gives them. -/
def pollReplies (polls : List (List Byte × Byte)) : List Byte := polls.flatMap fun q => q.1 ++ [q.2]

/-! ### Invariants of the machine -/

/-- A property of every block of the system. -/
def State.Blocks (P : Block → Prop) (s : State) : Prop :=
  P s.near ∧ match s.far with
    | .target _ => True
    | .block b => P b

/-- The invariant of the machine that every step keeps: buffers are indexed inside their bounds and data directions are
uniform, at both ends. -/
def State.Inv (s : State) : Prop := s.Blocks Block.InBounds ∧ s.Blocks Block.Uniform

/-! ### The outside world of a claim -/

/-- A move that touches no register of the near block: it belongs to the far party. -/
def Move.isFar : Move → Bool
  | .lines _ => true
  | .far _ => true
  | .serial _ => false
  | .farSerial _ => true
  | .call _ => false
  | .farCall _ => true
  | .resetNear => false
  | .resetFar => true

/-- Nothing but the far party will move in the outside world. -/
def State.FarOnly (s : State) : Prop := ∀ e ∈ s.script, e.move.isFar = true

/-- An SPI operation is running at the end and the engine call of its step has returned a negative result (R173). -/
def Block.SpiFailed (b : Block) : Prop :=
  b.spi.ph ≠ .idle ∧ b.res < 0 ∧ b.todo = [] ∧ b.rph = .idle ∧ b.host.ph = .idle ∧ b.per.ph = .idle

/-- A live external target at the far end, ready for a cycle, that will answer with `replies`; nothing else will happen
outside. It stands for four premises of R282: `PERIPHERAL_LIVE`; `EXCLUSIVE`; `TURNAROUND_OK`, since such a target releases
the data lines in the turn after its strobe is released, before the near block moves; and `HOLD_OK`, since it keeps no byte.
A claim with this premise shows none of the hazards R266 to R268 (log entry 35). -/
def State.LiveTarget (s : State) (replies : List Byte) : Prop :=
  s.far = .target { lines := .targetReady, live := true, replies := replies } ∧ s.script = []

/-- The near block is idle and its dispatcher is at the top of its loop: an operation can start (R72, R121). -/
def State.Idle (s : State) : Prop := s.near.atRest = true ∧ s.near.disp.ph = .header0

/-- The near block has been reset in the host role, is idle and its dispatcher is at the top of its loop (R40, R124). -/
def State.HostReady (s : State) : Prop :=
  s.near.atRest = true ∧ s.near.disp.ph = .header0 ∧ s.near.role = .host ∧ s.near.lines = .idleHost

/-- The near block has been reset in the peripheral role and is idle (R150). -/
def State.PeripheralReady (s : State) : Prop :=
  s.near.atRest = true ∧ s.near.disp.ph = .header0 ∧ s.near.role = .peripheral ∧ s.near.lines = .idlePeripheral

/-- Nothing outside the near block will move by itself: no script, and no live target (R127: an absent or dead
peripheral). -/
def State.Alone (s : State) : Prop := s.script = [] ∧ ∀ ls n, s.far.react ls n = none

/-- Nothing outside the near block will move while the near block leaves its lines as they are, and no wire is contended:
the premise of an operation that uses no line. -/
def State.Calm (s : State) : Prop :=
  s.script = [] ∧ (∀ n, s.far.react s.near.lines n = none) ∧ contended s.near.lines s.far.lines = false

/-- An external target that is ready in the role opposite to `r`: it drives the control lines of that role at their idle
levels, and nothing else (R39, R62, R263). -/
def Lines.readyFor (ls : Lines) : Role → Prop
  | .host => ls.wait = .drivenLow ∧ ∀ l ∈ dataLines ++ [.wrsel, .dstb, .astb, .rst], (ls.get l).dir = .input
  | .peripheral => (∀ l ∈ [Line.wrsel, .dstb, .astb, .rst], ls.get l = .drivenHigh) ∧
    ∀ l ∈ dataLines ++ [.wait], (ls.get l).dir = .input

/-- `RESET_DONE` of R282: both ends ready in opposite roles, and all phases idle. -/
def State.ResetDone (s : State) : Prop :=
  s.near.idleBelow = true ∧ s.near.lines = .idleOf s.near.role ∧
  match s.far with
  | .target t => t.lines.readyFor s.near.role
  | .block b => b.idleBelow = true ∧ b.lines = .idleOf b.role ∧ b.role ≠ s.near.role

/-- The run of the instruction `i` from `s` passes through a state with the property `P`. -/
def State.Passes (s : State) (i : Instr) (P : State → Prop) : Prop :=
  ∃ b k u, s.near.start s.far.role i = .ok b ∧ k ≤ Config.burst ∧ State.run k { s with near := b } = .next u ∧ P u

/-- The host end has its strobe asserted, is done with the steps of `H_STROBE`, waits for the acknowledge, and shows the
lines `ls` (R97, R99, R125). -/
def State.HostStrobes (ls : Lines) (u : State) : Prop :=
  u.near.host.ph = .ackWait ∧ u.near.todo = [] ∧ u.near.lines = ls

/-- The peripheral end has acknowledged, waits for the release of the strobes, and shows the lines `ls` (R99, R151). -/
def State.PeripheralAcks (ls : Lines) (u : State) : Prop :=
  u.near.per.ph = .releaseWait ∧ u.near.todo = [] ∧ u.near.lines = ls

/-- A block in the 'C' sub-loop: at `D_CONSOLE`, in the peripheral role, with no `ROLE` write to come (R206, R275). -/
def Block.InConsole (b : Block) : Prop :=
  b.disp.ph = .console ∧ b.role = .peripheral ∧ ∀ r, Prim.setRole r ∉ b.todo

/-- An end's share of `NO_FAULT` (R282, R231): no operation has returned a negative result, no abort is under way with one,
and the dispatcher is not `D_HALTED`. -/
def Block.NoFault (b : Block) : Prop := 0 ≤ b.res ∧ (∀ r, b.disp.step ≠ .aborting r) ∧ b.disp.ph ≠ .halted

/-- `NO_FAULT` of R282. -/
def State.NoFault (s : State) : Prop := s.Blocks Block.NoFault

/-- A peripheral end that serves a write cycle of the other end, whose lines are `host`, and still has a `Get` of its `P_TAKE`
to do: from the decode of the tag, before `P_ACK` lets the host go on, to the last of the eight `Get`s (R151, R157). While the
tag is being decoded the write is told by the `WRSEL` of the host. -/
def Block.AwaitsByte (host : Lines) (b : Block) : Prop :=
  match b.per.ph with
  | .idle => False
  | .check => False
  | .strobeWait => False
  | .decode => host.wrsel.assertedLow = true
  | .drive => b.per.rd = false
  | .ack => b.per.rd = false
  | .releaseWait => b.per.rd = false
  | .take => b.per.rd = false ∧ ∃ l, Prim.get l ∈ b.todo
  | .done => False

/-- A host end that is putting the data wires of a write cycle back to H, the first `SetLvl` done (R125 `H_RESTORE`). -/
def Block.Restoring (b : Block) : Prop := b.host.ph = .restore ∧ b.host.rd = false ∧ b.todo ≠ dataIdle

/-- The data lines of the far end after the turn are those before it. -/
def State.FarKeepsData (s : State) : Prop :=
  ∀ u, s.turn = .moved u → ∀ l ∈ dataLines, u.far.lines.get l = s.far.lines.get l

/-- `HOLD_OK` of R282 at one state (R157, R266). A claim that names it assumes it of every state of a run. Between two blocks,
whichever is the host: the first `SetLvl` of `H_RESTORE` is not done while the peripheral end still has a `Get` of that cycle
to do; the state after that `SetLvl` is the one this excludes. An external host has no phases: it restores when it moves its
data lines, so while the near peripheral still has a `Get` to do no turn changes them (log entry 35). An external target that
is written to samples nothing that the model holds. -/
def State.HoldOk (s : State) : Prop :=
  match s.far with
  | .target t => s.near.AwaitsByte t.lines → s.FarKeepsData
  | .block b => ¬ (s.near.Restoring ∧ b.AwaitsByte s.near.lines) ∧ ¬ (b.Restoring ∧ s.near.AwaitsByte b.lines)

/-- `TURNAROUND_OK` of R282 at one state (R267): no end drives a data line while the other end drives one, so a peripheral has
turned all eight to In, which ends its `P_TAKE` of a read, before the host turns the first to Out. A claim that names it
assumes it of every state of a run. -/
def State.TurnaroundOk (s : State) : Prop :=
  ∀ l ∈ dataLines, ∀ l' ∈ dataLines, ¬ ((s.near.lines.get l).dir = .output ∧ (s.far.lines.get l').dir = .output)

end Sys2Proof.Machine
end

