-- ==== Sys2Proof/Certificates/Slice0/Obligations.lean ====
section
/-! DEFINITION. The statements for the provers. Each docstring names the rules of spec/ it formalises, and the log entry of
notes/assumptions/ wherever it rests on a choice of the model. -/

section

open Sys2Proof Sys2Proof.Machine

/-! ### Encodings and operand arithmetic -/

/-- R91, R95, R96, R108: all 8 bits of header byte 0 select the command; 'C' exists only on a host-role board; every other
code is the unrecognized command with both header bytes as its operands. Every header is the encoding of the well-formed
instruction it decodes to, so no code is dropped and none has two meanings.
Rests on the decisions D18, D23 of spec/92_eei_decisions.md. -/
def Obligations.HeaderCodes : Prop :=
  ∀ (board : Role) (b1 : Byte),
    decodeHeader board 0x41 b1 = .cmdA b1 ∧ decodeHeader board 0x42 b1 = .cmdB b1 ∧
    decodeHeader .host 0x43 b1 = .cmdC b1 ∧ decodeHeader .peripheral 0x43 b1 = .unrecognized 0x43 b1 ∧
    decodeHeader board 0x45 b1 = .cmdE b1 ∧ decodeHeader board 0x50 b1 = .cmdP b1 ∧
    decodeHeader board 0x52 b1 = .cmdR b1 ∧ decodeHeader board 0x57 b1 = .cmdW b1 ∧
    ∀ b0 : Byte, (b0 ∉ [0x41, 0x42, 0x43, 0x45, 0x50, 0x52, 0x57] → decodeHeader board b0 b1 = .unrecognized b0 b1) ∧
      wellFormed board (decodeHeader board b0 b1) = true ∧ encode (decodeHeader board b0 b1) = some (.cmd [b0, b1])

/-- R97, R98: the table of the cycle tag, with the two outputs the peripheral computes from the levels.
Rests on the decisions D11, D12 of spec/92_eei_decisions.md. -/
def Obligations.CycleTags : Prop :=
  (∀ x : Byte, decodeCyc .low .high .low x = .cycleAddressWrite x ∧ decodeCyc .low .high .high x = .cycleAddressRead ∧
    decodeCyc .high .low .low x = .cycleDataWrite x ∧ decodeCyc .high .low .high x = .cycleDataRead ∧
    ∀ w, decodeCyc .high .high w x = .noCycle w ∧ decodeCyc .low .low w x = .cycleReserved w) ∧
  addressOfAstb .low = true ∧ addressOfAstb .high = false ∧ readOfWrsel .high = true ∧ readOfWrsel .low = false

/-- R102: the three flash commands are told apart by their payload, and nothing else is a flash command: a payload that
decodes is one of the three. -/
def Obligations.FlashPayloads : Prop :=
  (∀ d e : Byte, decodeSpi [0xAD, 0x00, 0x00, 0x00, d, e] = .ok (.flashAaiSeed d e) ∧
    decodeSpi [0xAD, d, e] = .ok (.flashAaiIncrement d e)) ∧
  decodeSpi [0x05] = .ok .flashReadStatus ∧
  ∀ (bytes : List Byte) (i : Instr), decodeSpi bytes = .ok i →
    bytes = [0x05] ∨ (∃ d e, bytes = [0xAD, d, e]) ∨ ∃ d e, bytes = [0xAD, 0x00, 0x00, 0x00, d, e]

/-- R90, R108: words of spec/opcode_table.json written out bit by bit, one of each format that has bits. The operands that
the table gives no bits (the empty buffers and the length 0 of the `SEL` rows) and the board on which a 16-bit word is read
are the model's choice (log entry 1). -/
def Obligations.SampleWords : Prop :=
  decodeTableWord 16 0b0100000100010000 = some (.cmdA 0x10) ∧
  decodeTableWord 16 0b0101001000000010 = some (.cmdR 0x02) ∧
  decodeTableWord 16 0b0101101000000101 = some (.unrecognized 0x5A 0x05) ∧
  decodeTableWord 3 0b011 = some .cycleAddressRead ∧
  decodeTableWord 3 0b101 = some .cycleDataRead ∧
  decodeTableWord 2 0b10 = some (.read [] 0) ∧
  decodeTableWord 2 0b01 = some (.setAddress [] 0) ∧
  decodeTableWord 8 0b00000101 = some .flashReadStatus ∧
  decodeTableWord 24 0xAD1122 = some (.flashAaiIncrement 0x11 0x22) ∧
  decodeTableWord 48 0xAD0000001122 = some (.flashAaiSeed 0x11 0x22)

/-- R90, R95, R97, R100, R102, R108: decoding the encoding of a well-formed instruction gives it back, for every
instruction that has an encoding and every value of its operands, on either board. -/
def Obligations.RoundTrip : Prop :=
  ∀ (board : Role) (i : Instr) (c : Code), wellFormed board i = true → encode i = some c → decode board c = .ok i

/-- R93: `c_len = min(zext(c_lm1) + 1, 128)` on mathematical integers, in 1 to 128, with the values the rule lists; and of
R94 the acknowledge byte `c_len - 1`, which lies in 0 to 127 and equals `c_lm1` exactly when `c_lm1 <= 127`.
Rests on the decisions D17, D40 of spec/92_eei_decisions.md. -/
def Obligations.ClampedLength : Prop :=
  (∀ lm1 : Byte, clampedLength lm1 = min (lm1.toNat + 1) 128 ∧ 1 ≤ clampedLength lm1 ∧ clampedLength lm1 ≤ 128 ∧
    (ackByte (clampedLength lm1)).toNat = clampedLength lm1 - 1 ∧ (ackByte (clampedLength lm1)).toNat ≤ 127 ∧
    (ackByte (clampedLength lm1) = lm1 ↔ lm1.toNat ≤ 127)) ∧
  clampedLength 0x00 = 1 ∧ clampedLength 0x03 = 4 ∧ clampedLength 0x7F = 128 ∧ clampedLength 0x80 = 128 ∧
  clampedLength 0xFF = 128

/-- R103: bit 0 of the status byte alone says busy, whatever the other bits are, and the poll ends once it is clear: the test
after a status reply starts another pass when it is 1 and leaves the poll when it is 0. -/
def Obligations.BusyBit : Prop :=
  (∀ st : Byte, statusBusy st = st.getLsbD 0) ∧
  ∀ (b : Block) (p : Peer) (n : Nat), b.flash.ph = .pollTest →
    (b.flash.st.getLsbD 0 = true → flashTick p n b = .ofBegin n (b.flashPoll p.role)) ∧
    (b.flash.st.getLsbD 0 = false → ∃ b', flashTick p n b = .moved b' n ∧ b'.flash.ph = .test ∧
      b'.flash.st = b.flash.st)

/-! ### Wires -/

/-- R22: the value of a wire at a `Get`. One driver: its latch. No driver and a pull: H. No driver and no pull: a fresh
draw. Two drivers: their common level, or a fresh draw when their latches differ. `Config.levelDraw` is the free value.
Rests on the decision D4 of spec/92_eei_decisions.md. -/
def Obligations.WireValue : Prop :=
  ∀ (mine theirs : Lines) (l : Line) (n : Nat),
    ((mine.get l).dir = .output → (theirs.get l).dir = .input → getWire mine theirs l n = ((mine.get l).lat, n)) ∧
    ((mine.get l).dir = .input → (theirs.get l).dir = .output → getWire mine theirs l n = ((theirs.get l).lat, n)) ∧
    ((mine.get l).dir = .input → (theirs.get l).dir = .input → (mine.get l).lat = .high ∨ (theirs.get l).lat = .high →
      getWire mine theirs l n = (.high, n)) ∧
    ((mine.get l).dir = .input → (theirs.get l).dir = .input → (mine.get l).lat = .low → (theirs.get l).lat = .low →
      getWire mine theirs l n = (Config.levelDraw n, n + 1)) ∧
    ((mine.get l).dir = .output → (theirs.get l).dir = .output → (mine.get l).lat = (theirs.get l).lat →
      getWire mine theirs l n = ((mine.get l).lat, n)) ∧
    ((mine.get l).dir = .output → (theirs.get l).dir = .output → (mine.get l).lat ≠ (theirs.get l).lat →
      getWire mine theirs l n = (Config.levelDraw n, n + 1))

/-- R33: `contention_seen` becomes true at any turn after which some wire has two drivers with opposite latches, and no
turn of any kind clears it but the one at which an external reset of the near block falls; a state whose flag already covers
its wires is the premise. That a block reset of the far end leaves the flag as it is, is the model's choice (log entry 27).
Rests on the decisions D4, D19 of spec/92_eei_decisions.md. -/
def Obligations.ContentionSeen : Prop :=
  (∀ s t : State, (contended s.near.lines s.far.lines = true → s.contention = true) → s.turn = .moved t →
    t.contention = (s.contention || contended t.near.lines t.far.lines) ∨
    ∃ d, s.script = ⟨d, .resetNear⟩ :: t.script ∧ t.contention = false) ∧
  ∀ s t : State, Move.resetNear.apply s = .moved t → t.contention = false

/-- R10, R11, R63, R99: data line `Dk` carries bit k, a 1 as H and a 0 as L. `DataDrive` puts the bits of a byte on the eight
latches, and `DataPullLow` does so from latches at H; neither touches a direction or another line. `DataSample` is one `Get`
a line, `D0` first (the ascending order that R11 marks as this spec's own choice, D8), and reads a driven byte back. The data
lines of two idle ends, in any roles, read H and so 0xFF: R39's latches at H (D37 for a peripheral) on the pull reading of
R21 (D4).
Rests on the decisions D4, D8, D37 of spec/92_eei_decisions.md. -/
def Obligations.ByteOnWires : Prop :=
  (∀ (x : Byte) (ls : Lines) (l : Line) (k : Nat),
    (l, k) ∈ [(Line.d0, 0), (.d1, 1), (.d2, 2), (.d3, 3), (.d4, 4), (.d5, 5), (.d6, 6), (.d7, 7)] →
    (linesAfter (dataDrive x) ls).get l = ⟨(ls.get l).dir, if x.getLsbD k then .high else .low⟩ ∧
    ((ls.get l).lat = .high →
      (linesAfter (dataPullLow x) ls).get l = ⟨(ls.get l).dir, if x.getLsbD k then .high else .low⟩)) ∧
  (∀ (x : Byte) (ls : Lines), ∀ l ∈ [Line.wait, .wrsel, .dstb, .astb, .rst],
    (linesAfter (dataDrive x) ls).get l = ls.get l ∧ (linesAfter (dataPullLow x) ls).get l = ls.get l) ∧
  dataSample = [.get .d0, .get .d1, .get .d2, .get .d3, .get .d4, .get .d5, .get .d6, .get .d7] ∧
  (∀ (x : Byte) (mine theirs : Lines) (n : Nat),
    (∀ l ∈ dataLines, (mine.get l).dir = .input ∧ (theirs.get l).dir = .output) →
    byteOfLevels (dataLines.map fun l => (getWire mine (linesAfter (dataDrive x) theirs) l n).1) = x ∧
    ((∀ l ∈ dataLines, (theirs.get l).lat = .high) →
      byteOfLevels (dataLines.map fun l => (getWire mine (linesAfter (dataPullLow x) theirs) l n).1) = x)) ∧
  ∀ (r r' : Role) (n : Nat), (∀ l ∈ dataLines, getWire (.idleOf r) (.idleOf r') l n = (.high, n)) ∧
    byteOfLevels (dataLines.map fun l => (getWire (.idleOf r) (.idleOf r') l n).1) = 0xFF

/-! ### Reset and the port -/

/-- R39, R260 to R262: from any state of the near block, whatever runs there, a block reset with nothing moving outside
(`Alone`: no script, and no live target) ends with the registers at the values the spec gives: the lines, the role, no
pending address, no program, every phase idle and the dispatcher at `D_HEADER0`, `SOUT` empty, `SIN` as it was, no cell of
`BUF` written and `contention_seen` false until a wire is contended again. An unwritten cell of `BUF` then reads a fresh free
value (log entry 2). The equality of the whole block also states choices of the model: the free values of the unspecified
registers, the result 0 and the empty caller's buffer (log entry 7), the empty record of cycles (log entry 26), and that the
caller's pending requests are dropped (log entry 27).
Rests on the decisions D19, D24, D37 of spec/92_eei_decisions.md. -/
def Obligations.BlockReset : Prop :=
  ∀ (s t : State), s.Alone → Move.resetNear.apply s = .moved t →
    t.contention = false ∧ t.near.lines = .hiZ ∧
    ∃ u, State.run Config.burst t = .next u ∧ u.near = { Block.afterReset s.near.par s.drawn with sin := s.near.sin } ∧
      u.far = s.far ∧
      u.near.lines = .idleOf s.near.par.board ∧ u.near.role = s.near.par.board ∧
      u.near.disp.pendValid = false ∧ u.near.disp.progActive = false ∧ u.near.atRest = true ∧
      u.near.disp.ph = .header0 ∧ u.near.sout = [] ∧ u.near.sin = s.near.sin ∧
      (∀ a, u.near.buf.read a = none) ∧
      ∀ a n, a < 128 → u.near.bufRead .buf a n = some (Config.byteDraw n, n + 1)

/-- R39: the line state of the two columns, line by line, and the machine right after reset, on the board of log entry
3.
Rests on the decisions D24, D37 of spec/92_eei_decisions.md. -/
def Obligations.ResetState : Prop :=
  (∀ r : Role, ∀ l ∈ dataLines, (Lines.idleOf r).get l = ⟨.input, .high⟩) ∧
  (∀ l ∈ [Line.astb, .dstb, .wrsel, .rst], Lines.idleHost.get l = ⟨.output, .high⟩ ∧
    Lines.idlePeripheral.get l = ⟨.input, .low⟩) ∧
  Lines.idleHost.get .wait = ⟨.input, .low⟩ ∧ Lines.idlePeripheral.get .wait = ⟨.output, .low⟩ ∧
  State.reset.Idle ∧ State.reset.near.lines = .idleOf State.reset.near.par.board ∧
  State.reset.near.role = State.reset.near.par.board ∧ State.reset.near.disp.pendValid = false ∧
  State.reset.near.disp.progActive = false ∧ State.reset.near.sout = [] ∧ State.reset.near.buf = [] ∧
  State.reset.contention = false ∧ State.reset.NoFault

/-- R120: the 26 primitives of `PortHiZ` in their order, and its effect in either role from any line state: all 13
directions In and all 13 latches L, and nothing else of the block changes (the working registers of an engine that does not
run keep their values: log entry 31).
Rests on the decision D6 of spec/92_eei_decisions.md. -/
def Obligations.PortHiZEffect : Prop :=
  portHiZPrims = [.setDir .d0 .input, .setLvl .d0 .low, .setDir .d1 .input, .setLvl .d1 .low,
    .setDir .d2 .input, .setLvl .d2 .low, .setDir .d3 .input, .setLvl .d3 .low, .setDir .d4 .input, .setLvl .d4 .low,
    .setDir .d5 .input, .setLvl .d5 .low, .setDir .d6 .input, .setLvl .d6 .low, .setDir .d7 .input, .setLvl .d7 .low,
    .setDir .wait .input, .setLvl .wait .low, .setDir .wrsel .input, .setLvl .wrsel .low,
    .setDir .dstb .input, .setLvl .dstb .low, .setDir .astb .input, .setLvl .astb .low,
    .setDir .rst .input, .setLvl .rst .low] ∧
  ∀ s : State, s.Idle → s.Alone → ∃ c, (s.contention = true → c = true) ∧
    exec .portHiZ s = .next { s with near := { s.near with lines := .hiZ }, contention := c }

/-- R121 to R123: the primitives of `Reset` in their order, and its effect in either role and with either argument, from
any line state: the column of R39 for the role, the role, and nothing else of the block changes (the working registers of an
engine that does not run keep their values: log entry 31).
Rests on the decisions D6, D24, D35, D37 of spec/92_eei_decisions.md. -/
def Obligations.ResetEffect : Prop :=
  (∀ us, resetPrims us .host = portHiZPrims ++
    [.setLvl .rst .high, .setDir .rst .output, .setLvl .dstb .high, .setDir .dstb .output, .setLvl .astb .high,
      .setDir .astb .output, .setLvl .wrsel .high, .setDir .wrsel .output] ++ dataIdle ++
    [.setLvl .rst .low, .delay us, .setLvl .rst .high, .delay us] ++ [.setRole .host]) ∧
  (∀ us, resetPrims us .peripheral = portHiZPrims ++ [.setLvl .wait .low, .setDir .wait .output] ++ dataIdle ++
    [.setRole .peripheral]) ∧
  ∀ (s : State) (r : Role), s.Idle → s.Alone → ∃ c, (s.contention = true → c = true) ∧
    exec (.reset r) s = .next { s with near := { s.near with lines := .idleOf r, role := r }, contention := c }

/-- R122: "Each latch is set to its idle level before its direction is turned to Out so that no line is driven to its
asserted level by accident": once `PortHiZ` is done, no strobe is driven L at any later step of a `Reset`, in either
role.
Rests on the decision D6 of spec/92_eei_decisions.md. -/
def Obligations.ResetNeverStrobes : Prop :=
  ∀ (us : Nat) (r : Role) (ls : Lines) (k : Nat), 26 ≤ k →
    (linesAfter ((resetPrims us r).take k) ls).astb.assertedLow = false ∧
    (linesAfter ((resetPrims us r).take k) ls).dstb.assertedLow = false ∧
    (linesAfter ((resetPrims us r).take k) ls).wrsel.assertedLow = false

/-! ### The host engine -/

/-- R100: each derived operation is exactly one `Transaction` call and adds nothing, in every state; and where the call
completes (a ready host, and the live target of log entry 4 as `PERIPHERAL_LIVE`) it issues `n` cycles of the kind of the
rule's table. -/
def Obligations.DerivedOperations : Prop :=
  (∀ (buf : List Byte) (n : Int) (s : State),
    exec (.write buf n) s = exec (.transaction buf n false false) s ∧
    exec (.read buf n) s = exec (.transaction buf n true false) s ∧
    exec (.setAddress buf n) s = exec (.transaction buf n false true) s ∧
    exec (.getAddress buf n) s = exec (.transaction buf n true true) s) ∧
  ∀ (s : State) (rs buf : List Byte) (i : Instr) (rd ac : Bool), s.HostReady → s.LiveTarget rs → rs.length ≤ 128 →
    rs.length ≤ buf.length →
    (i, rd, ac) ∈ [(.write buf rs.length, false, false), (.read buf rs.length, true, false),
      (.setAddress buf rs.length, false, true), (.getAddress buf rs.length, true, true)] →
    ∃ t cycles, exec i s = .next t ∧ t.near.bus = s.near.bus ++ cycles ∧ cycles.length = rs.length ∧
      ∀ c ∈ cycles, c.addr = ac ∧ c.read = rd

/-- R124, R125, R128, R129, R132, R133 under `PERIPHERAL_LIVE` and `EXCLUSIVE` (R282; the live target is log entry 4): a
write transaction of `n` bytes, 0 included, completes: `n` cycles carry `buf[0..n-1]` in order, the result is `n`, the
lines are back at idle, no wire was contended, and neither the caller's buffer nor anything of the upper layers changed.
Rests on the decisions D9, D21 of spec/92_eei_decisions.md. -/
def Obligations.WriteTransactions : Prop :=
  ∀ (s : State) (rs buf : List Byte) (n : Nat) (ac : Bool), s.HostReady → s.LiveTarget rs → n ≤ 128 → n ≤ buf.length →
    ∃ t, exec (.transaction buf n false ac) s = .next t ∧
      exec (if ac then .setAddress buf n else .write buf n) s = .next t ∧
      t.HostReady ∧ t.LiveTarget rs ∧ t.contention = s.contention ∧ t.near.res = n ∧ t.near.ubuf = buf ∧
      t.near.bus = s.near.bus ++ (buf.take n).map (fun x => ⟨ac, false, x⟩) ∧
      t.near.buf = s.near.buf ∧ t.near.disp = s.near.disp ∧ t.near.sin = s.near.sin ∧ t.near.sout = s.near.sout

/-- R124, R125, R128, R130, R131, R135 under the same premises: a read transaction of `n` bytes stores the target's next
`n` replies in `buf[0..n-1]`, leaves the rest of the buffer unchanged, and returns `n`.
Rests on the decisions D9, D21 of spec/92_eei_decisions.md. -/
def Obligations.ReadTransactions : Prop :=
  ∀ (s : State) (rs rest buf : List Byte) (ac : Bool), s.HostReady → s.LiveTarget (rs ++ rest) → rs.length ≤ 128 →
    rs.length ≤ buf.length →
    ∃ t, exec (.transaction buf rs.length true ac) s = .next t ∧
      exec (if ac then .getAddress buf rs.length else .read buf rs.length) s = .next t ∧
      t.HostReady ∧ t.LiveTarget rest ∧ t.contention = s.contention ∧ t.near.res = rs.length ∧
      t.near.ubuf = rs ++ buf.drop rs.length ∧
      t.near.bus = s.near.bus ++ rs.map (fun x => ⟨ac, true, x⟩) ∧
      t.near.buf = s.near.buf ∧ t.near.disp = s.near.disp ∧ t.near.sin = s.near.sin ∧ t.near.sout = s.near.sout

/-- R97, R99, R125 in the host role, against the live target of log entry 4, each kind on its own as log entry 9 runs it: one
cycle of each kind completes with its tag and its byte. While the strobe is asserted the lines carry the tag of R97 on
`ASTB`, `DSTB` and `WRSEL`, a written byte stands on the data lines, and for a read the data lines are released and the byte
the target has put there is the one that is taken.
Rests on the decision D9 of spec/92_eei_decisions.md. -/
def Obligations.HostCycles : Prop :=
  ∀ (s : State) (x : Byte) (rs : List Byte), s.HostReady → s.LiveTarget (x :: rs) →
    (∀ y : Byte, s.Passes (.cycleAddressWrite y) (State.HostStrobes (.hostWrite y .low .high)) ∧
      ∃ t, exec (.cycleAddressWrite y) s = .next t ∧ t.HostReady ∧ t.LiveTarget (x :: rs) ∧
      t.near.res = 1 ∧ t.near.bus = s.near.bus ++ [⟨true, false, y⟩] ∧ t.contention = s.contention) ∧
    (∀ y : Byte, s.Passes (.cycleDataWrite y) (State.HostStrobes (.hostWrite y .high .low)) ∧
      ∃ t, exec (.cycleDataWrite y) s = .next t ∧ t.HostReady ∧ t.LiveTarget (x :: rs) ∧
      t.near.res = 1 ∧ t.near.bus = s.near.bus ++ [⟨false, false, y⟩] ∧ t.contention = s.contention) ∧
    (s.Passes .cycleAddressRead (fun u => u.HostStrobes (.hostRead .low .high) ∧ u.far.lines = .targetReply x) ∧
      ∃ t, exec .cycleAddressRead s = .next t ∧ t.HostReady ∧ t.LiveTarget rs ∧ t.near.res = 1 ∧
      t.near.ubuf = [x] ∧ t.near.bus = s.near.bus ++ [⟨true, true, x⟩] ∧ t.contention = s.contention) ∧
    s.Passes .cycleDataRead (fun u => u.HostStrobes (.hostRead .high .low) ∧ u.far.lines = .targetReply x) ∧
    ∃ t, exec .cycleDataRead s = .next t ∧ t.HostReady ∧ t.LiveTarget rs ∧ t.near.res = 1 ∧
      t.near.ubuf = [x] ∧ t.near.bus = s.near.bus ++ [⟨false, true, x⟩] ∧ t.contention = s.contention

/-- R97: both strobes idle, whatever `WRSEL` is: no cycle is in progress. That the row, run as an operation, completes and
changes nothing at either end is the model's choice (log entry 9). -/
def Obligations.NoCycleInProgress : Prop :=
  ∀ (s : State) (w : Level), s.Idle → exec (.noCycle w) s = .next s

/-- R125, R127, R151, R155, R238: the four unbounded waits of the engine, before a far end that is no block in the same role
(log entry 16). In `H_PREWAIT` and `H_ACKWAIT` the host has a step only when its sample of `WAIT` gives the level it waits for;
otherwise it has none and keeps every register. A host that waits for an acknowledge no one will give stays where it is at
every step. In `P_STROBEWAIT` the peripheral has no step until a strobe is low, and in `P_RELEASEWAIT` none until both are
high. -/
def Obligations.EngineWaits : Prop :=
  (∀ (b : Block) (p : Peer) (n : Nat), b.clashes p = false → b.todo = [] → b.rph = .idle →
    (b.host.ph = .preWait → (getWire b.lines p.lines .wait n).1 = .high → ∃ m, b.tick p n = .waiting m) ∧
    (b.host.ph = .ackWait → (getWire b.lines p.lines .wait n).1 = .low → ∃ m, b.tick p n = .waiting m) ∧
    (b.host.ph = .ackWait → (getWire b.lines p.lines .wait n).1 = .high →
      ∃ b' m, b.tick p n = .moved b' m ∧ b'.host = { b.host with ph := .get }) ∧
    (b.host.ph = .preWait → b.HostInBounds → (getWire b.lines p.lines .wait n).1 = .low →
      ∃ b' m, b.tick p n = .moved b' m ∧ b'.host.ph = .put ∧ b'.host.i = b.host.i)) ∧
  (∀ s : State, s.Alone → s.near.clashes s.far.asPeer = false → s.near.todo = [] → s.near.rph = .idle →
    s.near.host.ph = .ackWait → s.near.lines.wait.dir = .input → s.far.lines.wait = ⟨.output, .low⟩ → step s = .next s) ∧
  ∀ (b : Block) (p : Peer) (n : Nat), b.clashes p = false → b.todo = [] → b.rph = .idle → b.host.ph = .idle →
    p.lines.astb.dir = .output → p.lines.dstb.dir = .output → b.lines.astb.dir = .input → b.lines.dstb.dir = .input →
    (b.per.ph = .strobeWait → (b.tick p n = .waiting n ↔ p.lines.astb.lat = .high ∧ p.lines.dstb.lat = .high)) ∧
    (b.per.ph = .releaseWait → (b.tick p n = .waiting n ↔ p.lines.astb.lat = .low ∨ p.lines.dstb.lat = .low))

/-- R97, R99, R151 to R153, R158: a peripheral that is idle and is called with slot `y` serves the cycle a far end makes by
asserting the strobe of `ac` with byte `x` on the data lines and then releasing it, the data held until after the release
(`HOLD_OK`, R266). It takes the byte of a writing host; for a reading one it keeps its slot, which stands on the driven data
lines from the acknowledge until the release; and it returns to the idle lines. For a writing host the data lines stay
released throughout the acknowledge.
Rests on the decisions D9, D10, D12, D27 of spec/92_eei_decisions.md. -/
def Obligations.PeripheralCycleServes : Prop :=
  ∀ (s : State) (x y : Byte) (ac : Bool), s.PeripheralReady →
    (s.far = .target ⟨.idleHost, false, []⟩ →
      s.script = [⟨.blocked, .lines (.hostWrite x (astbLevel ac) (dstbLevel ac))⟩,
        ⟨.blocked, .lines (.hostWrite x .high .high)⟩] →
      s.Passes (.peripheralCycle y) (State.PeripheralAcks { Lines.idlePeripheral with wait := .drivenHigh }) ∧
      ∃ t, exec (.peripheralCycle y) s = .next t ∧ t.PeripheralReady ∧ t.script = [] ∧
        t.near.per = { ph := .idle, slot := x, rd := false, ad := ac, ok := true } ∧ t.contention = s.contention) ∧
    (s.far = .target ⟨.idleHost, false, []⟩ →
      s.script = [⟨.blocked, .lines (.hostRead (astbLevel ac) (dstbLevel ac))⟩, ⟨.blocked, .lines .idleHost⟩] →
      s.Passes (.peripheralCycle y) (State.PeripheralAcks (.peripheralDrive y .high)) ∧
      ∃ t, exec (.peripheralCycle y) s = .next t ∧ t.PeripheralReady ∧ t.script = [] ∧
        t.near.per = { ph := .idle, slot := y, rd := true, ad := ac, ok := true } ∧ t.contention = s.contention)

/-- R97, R98, R99, R151, R156: the cycle kinds at a peripheral-role end, from the tag it has decoded on (log entry 9). The
far end still asserts the tag and releases it once it sees the acknowledge. A reading host finds the slot byte on the driven
data lines from the acknowledge until the release. With both strobes asserted the cycle counts as an address cycle (D11); that
the model serves an external host that does so, where U5 would refuse it, is log entry 36.
Rests on the decisions D11, D12 of spec/92_eei_decisions.md. -/
def Obligations.PeripheralServesTag : Prop :=
  ∀ (s : State) (x : Byte), s.PeripheralReady →
    (s.script = [⟨.blocked, .lines (.hostWrite x .high .high)⟩] →
      (s.far = .target ⟨.hostWrite x .low .high, false, []⟩ → ∃ t, exec (.cycleAddressWrite x) s = .next t ∧
        t.PeripheralReady ∧ t.near.per = { ph := .idle, slot := x, rd := false, ad := true, ok := true }) ∧
      (s.far = .target ⟨.hostWrite x .high .low, false, []⟩ → ∃ t, exec (.cycleDataWrite x) s = .next t ∧
        t.PeripheralReady ∧ t.near.per = { ph := .idle, slot := x, rd := false, ad := false, ok := true }) ∧
      (s.far = .target ⟨.hostWrite x .low .low, false, []⟩ → ∃ t, exec (.cycleReserved .low) s = .next t ∧
        t.PeripheralReady ∧ t.near.per = { ph := .idle, slot := x, rd := false, ad := true, ok := true })) ∧
    (s.script = [⟨.blocked, .lines .idleHost⟩] →
      (s.far = .target ⟨.hostRead .low .high, false, []⟩ →
        s.Passes .cycleAddressRead (State.PeripheralAcks (.peripheralDrive s.near.per.slot .high)) ∧
        ∃ t, exec .cycleAddressRead s = .next t ∧
        t.PeripheralReady ∧ t.near.per = { ph := .idle, slot := s.near.per.slot, rd := true, ad := true, ok := true }) ∧
      (s.far = .target ⟨.hostRead .high .low, false, []⟩ →
        s.Passes .cycleDataRead (State.PeripheralAcks (.peripheralDrive s.near.per.slot .high)) ∧
        ∃ t, exec .cycleDataRead s = .next t ∧
        t.PeripheralReady ∧ t.near.per = { ph := .idle, slot := s.near.per.slot, rd := true, ad := false, ok := true }) ∧
      (s.far = .target ⟨.hostRead .low .low, false, []⟩ →
        s.Passes (.cycleReserved .high) (State.PeripheralAcks (.peripheralDrive s.near.per.slot .high)) ∧
        ∃ t, exec (.cycleReserved .high) s = .next t ∧
        t.PeripheralReady ∧ t.near.per = { ph := .idle, slot := s.near.per.slot, rd := true, ad := true, ok := true }))

/-- R154, R247: the not-ready exit. With `RST` driven L the call returns false at once: no line is touched, and it is no
failure. Nothing else of the state changes; that the working registers of the layers that do not run (`t_*`, `CMD`, `ST`,
`f_i`, `f_init`), undefined outside their calls (R25, R30, R32), stay as well is log entry 31.
Rests on the decision D36 of spec/92_eei_decisions.md. -/
def Obligations.NotReadyExit : Prop :=
  ∀ (s : State) (y : Byte), s.Idle → s.near.role = .peripheral → s.far.role ≠ some .peripheral → s.Calm →
    s.near.lines.rst.dir = .input → s.far.lines.rst = ⟨.output, .low⟩ →
    exec (.peripheralCycle y) s = .next { s with near := { s.near with per := { s.near.per with slot := y, ok := false } } }

/-! ### The SPI layer and the flash sequencer -/

/-- R173: "any negative return from an inner step aborts immediately and propagates the same negative code". In every SPI
operation whose engine call has returned a negative result, the very next step of the end ends the operation with that same
result: no later step of it is started and no line is touched. A step of the machine from there ends with that result and
those lines as well, whatever the far party does meanwhile. -/
def Obligations.SpiFailFast : Prop :=
  (∀ (b : Block) (p : Peer) (n : Nat), b.SpiFailed →
    ∃ b', b.tick p n = .moved b' n ∧ b'.spi.ph = .idle ∧ b'.res = b.res ∧ b'.lines = b.lines ∧ b'.host.ph = .idle ∧
      b'.todo = []) ∧
  ∀ s t : State, s.FarOnly → s.near.SpiFailed → s.near.flash.ph = .idle → s.near.disp.ph = .header0 → step s = .next t →
    t.near.res = s.near.res ∧ t.near.lines = s.near.lines ∧ t.near.host.ph = .idle ∧ t.near.todo = []

/-- R101, R171, R175 under the premises of `WriteTransactions`: `SpiReset` completes with exactly its four cycles and the
result 1. The three register-write shapes of R101 (chip disable, data clear, chip enable) complete with their two cycles each;
that a shape can be run on its own is the model's choice (log entry 10).
Rests on the decision D32 of spec/92_eei_decisions.md. -/
def Obligations.SpiResetCycles : Prop :=
  ∀ (s : State) (rs : List Byte), s.HostReady → s.LiveTarget rs →
    (∃ t, exec .spiReset s = .next t ∧ t.HostReady ∧ t.LiveTarget rs ∧ t.contention = s.contention ∧ t.near.res = 1 ∧
      t.near.bus = s.near.bus ++ [⟨true, false, s.near.par.idxAddr⟩, ⟨false, false, s.near.par.disByte⟩,
        ⟨true, false, s.near.par.datAddr⟩, ⟨false, false, 0x00⟩]) ∧
    (∃ t, exec .ptChipDisable s = .next t ∧ t.HostReady ∧ t.LiveTarget rs ∧ t.contention = s.contention ∧
      t.near.bus = s.near.bus ++ [⟨true, false, s.near.par.idxAddr⟩, ⟨false, false, s.near.par.disByte⟩]) ∧
    (∃ t, exec .ptDataClear s = .next t ∧ t.HostReady ∧ t.LiveTarget rs ∧ t.contention = s.contention ∧
      t.near.bus = s.near.bus ++ [⟨true, false, s.near.par.datAddr⟩, ⟨false, false, 0x00⟩]) ∧
    ∃ t, exec .ptChipEnable s = .next t ∧ t.HostReady ∧ t.LiveTarget rs ∧ t.contention = s.contention ∧
      t.near.bus = s.near.bus ++ [⟨true, false, s.near.par.idxAddr⟩, ⟨false, false, s.near.par.enByte⟩]

/-- R101, R172, R174, R176 under the same premises: `SpiTransaction` issues the three bracket cycles and then its payload,
all writes or all reads, whatever came before. The result is the length, 0 included. The payload shape on its own issues its
address and the payload, without the enable: that it runs on its own at all is the model's choice (log entry 10), and R174's
"no payload cycle is ever issued without them" is said here of `SpiTransaction` alone.
Rests on the decision D32 of spec/92_eei_decisions.md. -/
def Obligations.SpiTransactionCycles : Prop :=
  ∀ (s : State) (rs rest buf : List Byte), s.HostReady → s.LiveTarget (rs ++ rest) → rs.length ≤ 128 →
    rs.length ≤ buf.length →
    (∃ t, exec (.spiTransaction buf rs.length false) s = .next t ∧ t.HostReady ∧ t.LiveTarget (rs ++ rest) ∧
      t.contention = s.contention ∧ t.near.res = rs.length ∧ t.near.ubuf = buf ∧
      t.near.bus = s.near.bus ++ s.near.par.openCycles ++ (buf.take rs.length).map (fun x => ⟨false, false, x⟩)) ∧
    (∃ t, exec (.spiTransaction buf rs.length true) s = .next t ∧ t.HostReady ∧ t.LiveTarget rest ∧
      t.contention = s.contention ∧ t.near.res = rs.length ∧ t.near.ubuf = rs ++ buf.drop rs.length ∧
      t.near.bus = s.near.bus ++ s.near.par.openCycles ++ rs.map (fun x => ⟨false, true, x⟩)) ∧
    (∃ t, exec (.ptPayload buf rs.length false) s = .next t ∧ t.HostReady ∧ t.LiveTarget (rs ++ rest) ∧
      t.contention = s.contention ∧ t.near.res = rs.length ∧ t.near.ubuf = buf ∧
      t.near.bus = s.near.bus ++ [⟨true, false, s.near.par.datAddr⟩] ++
        (buf.take rs.length).map (fun x => ⟨false, false, x⟩)) ∧
    ∃ t, exec (.ptPayload buf rs.length true) s = .next t ∧ t.HostReady ∧ t.LiveTarget rest ∧
      t.contention = s.contention ∧ t.near.res = rs.length ∧ t.near.ubuf = rs ++ buf.drop rs.length ∧
      t.near.bus = s.near.bus ++ [⟨true, false, s.near.par.datAddr⟩] ++ rs.map (fun x => ⟨false, true, x⟩)

/-- R102, R182 to R184 under the same premises: each flash command on its own (log entry 11) goes out after a deselect, and
the read-status command fetches its reply into `ST` with no deselect between the two. That `CMD`, `ST` and `f_init` can be
read after the command, as the clauses on them do, is the model's choice (log entry 31). -/
def Obligations.FlashCommandCycles : Prop :=
  ∀ (s : State) (st : Byte) (rs : List Byte), s.HostReady → s.LiveTarget (st :: rs) →
    (∀ d e : Byte, ∃ t, exec (.flashAaiSeed d e) s = .next t ∧ t.HostReady ∧ t.LiveTarget (st :: rs) ∧
      t.contention = s.contention ∧ t.near.flash.init = true ∧
      t.near.flash.cmd = ⟨0xAD, 0x00, 0x00, 0x00, d, e⟩ ∧
      t.near.bus = s.near.bus ++ s.near.par.resetCycles ++ s.near.par.openCycles ++
        [⟨false, false, 0xAD⟩, ⟨false, false, 0x00⟩, ⟨false, false, 0x00⟩, ⟨false, false, 0x00⟩, ⟨false, false, d⟩,
          ⟨false, false, e⟩]) ∧
    (∀ d e : Byte, ∃ t, exec (.flashAaiIncrement d e) s = .next t ∧ t.HostReady ∧ t.LiveTarget (st :: rs) ∧
      t.contention = s.contention ∧
      t.near.flash.cmd = { s.near.flash.cmd with b0 := 0xAD, b1 := d, b2 := e } ∧
      t.near.bus = s.near.bus ++ s.near.par.resetCycles ++ s.near.par.openCycles ++
        [⟨false, false, 0xAD⟩, ⟨false, false, d⟩, ⟨false, false, e⟩]) ∧
    ∃ t, exec .flashReadStatus s = .next t ∧ t.HostReady ∧ t.LiveTarget rs ∧ t.contention = s.contention ∧
      t.near.flash.st = st ∧
      t.near.bus = s.near.bus ++ s.near.par.resetCycles ++ s.near.par.openCycles ++ [⟨false, false, 0x05⟩] ++
        s.near.par.openCycles ++ [⟨false, true, st⟩]

/-- R180 to R187 under the same premises and `FLASH_LIVE` (R282): `FlashProgram` sends the pairs of its buffer in order,
the first one seeded unless `initialized`, polls after each pair until bit 0 of the status is clear, and returns
`2 * floor(length / 2)`; an odd last byte is not sent, and a length of 0 or 1 issues no cycle. `polls` holds, for each
pair, the busy status bytes and the one that ends the poll; their number is bounded because one step of the model runs a
bounded number of primitives (log entry 5). `f_i` advances by 2 when a poll ends, which R181 marks as its own choice; that
`f_init` can be read after the call is the model's (log entry 31).
Rests on the decisions D28, D33 of spec/92_eei_decisions.md. -/
def Obligations.FlashProgramRuns : Prop :=
  (∀ (s : State) (buf rest : List Byte) (n : Nat) (init : Bool) (polls : List (List Byte × Byte)), s.HostReady →
    s.LiveTarget (pollReplies polls ++ rest) → n ≤ 128 → n ≤ buf.length → polls.length = n / 2 →
    (∀ q ∈ polls, (∀ x ∈ q.1, x.getLsbD 0 = true) ∧ q.2.getLsbD 0 = false) → (pollReplies polls).length ≤ 1000 →
    ∃ t, exec (.flashProgram buf n init) s = .next t ∧ t.HostReady ∧ t.LiveTarget rest ∧ t.contention = s.contention ∧
      t.near.res = 2 * (n / 2 : Nat) ∧ t.near.flash.init = (init || decide (2 ≤ n)) ∧ t.near.ubuf = buf ∧
      t.near.bus = s.near.bus ++ s.near.par.programCycles init (buf.take n) polls ∧
      t.near.disp = s.near.disp) ∧
  ∀ (b : Block) (p : Peer) (n : Nat), b.flash.ph = .pollTest → b.flash.st.getLsbD 0 = false →
    flashTick p n b = .moved { b with flash := { b.flash with i := b.flash.i + 2, ph := .test } } n

/-- R173, R186, R232: fail-fast. At a settled step of the SPI layer, of the flash sequencer or of the dispatcher whose
called operation has returned a negative result, the layer ends with that same result and starts nothing; at the
dispatcher that is the abort entry. When the command is 'P', `prog_active` is set first and the result tested next (R210,
R212, R216). The flash clause is D38, which R186 marks as the spec's own decision. Each clause gives the whole block after the
step: that `CMD`, `ST`, `f_i`, `f_init` and the arguments of the SPI layer keep their values when `FPH` or `SPH` goes idle,
where R30 and R186 let `f_init` not outlive the call, is log entry 31.
Rests on the decisions D26, D38 of spec/92_eei_decisions.md. -/
def Obligations.NegativeResultsPropagate : Prop :=
  ∀ (b : Block) (p : Peer) (n : Nat), b.res < 0 →
    spiTick p n b = .moved { b with spi := { b.spi with ph := .idle } } n ∧
    (b.flash.ph ∈ [.deselect, .seed, .incr, .pollDeselect, .pollCmd, .pollRead] →
      flashTick p n b = .moved { b with flash := { b.flash with ph := .idle } } n) ∧
    (b.disp.step ∈ [.setAddress, .transfer, .flashTest] → execTick p n b = .moved (b.enterAbort b.res) n) ∧
    (b.disp.step = .flash → execTick p n b = .moved { b with disp := { b.disp with
      progActive := true, ph := .exec, step := .flashTest, k := 0 } } n)

/-! ### The dispatcher -/

/-- R203: 'A' makes byte 1 the pending address, whatever was pending, sets the flag, clears the program flag, and does
nothing else: no body, no response, no bus activity. The address stays pending across 'B', 'E', 'P', 'C' and unrecognized
commands. That 'A' clears the program flag is the spec's own choice (D16); that the working registers of the layers below
keep their values is the model's (log entry 31).
Rests on the decision D16 of spec/92_eei_decisions.md. -/
def Obligations.AddressPrefix : Prop :=
  (∀ (s : State) (a : Byte), s.Idle → s.Calm →
    exec (.cmdA a) s = .next { s with near := { s.near with disp := { s.near.disp with
      cmd := 0x41, lm1 := a, len := clampedLength a, progActive := false, pendAddr := a, pendValid := true,
      ph := .header0, step := .decode, k := 0 } } }) ∧
  ∀ (s t : State) (i : Instr) (x y : Byte), s.FarOnly → i ∈ [.cmdB x, .cmdE x, .cmdP x, .cmdC x, .unrecognized y x] →
    (i = .unrecognized y x → wellFormed s.near.par.board i = true) → exec i s = .next t →
    t.near.disp.pendValid = s.near.disp.pendValid ∧ t.near.disp.pendAddr = s.near.disp.pendAddr

/-- R96, R211: an unrecognized command writes `c_cmd`, `c_lm1`, `c_len` and clears the program flag, and nothing else (the
working registers of the layers below keep their values: log entry 31). Met at the top of the loop, with no operation-level
request pending (log entry 6), it consumes its two header bytes and nothing else of `SIN`; on a board without 'C' that
includes the code 0x43 (D18, log entry 21).
Rests on the decision D18 of spec/92_eei_decisions.md. -/
def Obligations.UnrecognizedCommand : Prop :=
  (∀ (s : State) (code x : Byte), s.Idle → s.Calm → wellFormed s.near.par.board (.unrecognized code x) = true →
    exec (.unrecognized code x) s = .next { s with near := { s.near with disp := { s.near.disp with
      cmd := code, lm1 := x, len := clampedLength x, progActive := false, ph := .header0, step := .decode, k := 0 } } }) ∧
  ∀ (s : State) (code x : Byte) (rest : List Byte), s.Idle → s.Calm → s.near.calls = [] → s.near.sin = code :: x :: rest →
    code ∉ [0x41, 0x42, 0x45, 0x50, 0x52, 0x57] → (code = 0x43 → s.near.par.board = .peripheral) →
    step s = .next { s with near := { s.near with sin := rest, disp := { s.near.disp with
      cmd := code, lm1 := x, len := clampedLength x, progActive := false, ph := .header0, step := .decode, k := 0 } } }

/-- R104, R205: 'B' fills `BUF[0..c_len-1]` with 127 and zeros, sends those bytes, consumes no body, and clears the program
flag. That it consumes no body is the spec's reading of "ignores any input payload" (R92, D39).
Rests on the decision D39 of spec/92_eei_decisions.md. -/
def Obligations.BufferSizeQuery : Prop :=
  ∀ (s : State) (lm1 : Byte), s.Idle → s.Calm →
    ∃ t, exec (.cmdB lm1) s = .next t ∧ t.near.sout = s.near.sout ++ 0x7F :: List.replicate (clampedLength lm1 - 1) 0x00 ∧
      t.near.buf.read 0 = some 0x7F ∧
      (∀ a, 0 < a → a < clampedLength lm1 → t.near.buf.read a = some 0x00) ∧
      (∀ a, clampedLength lm1 ≤ a → t.near.buf.read a = s.near.buf.read a) ∧
      t.near.sin = s.near.sin ∧ t.near.disp.progActive = false ∧ t.near.disp.pendValid = s.near.disp.pendValid ∧
      t.near.disp.pendAddr = s.near.disp.pendAddr ∧ t.near.bus = s.near.bus ∧ t.near.lines = s.near.lines ∧ t.Idle

/-- R207: 'E' reads its body into `BUF` and sends the same bytes back, in order. -/
def Obligations.EchoCommand : Prop :=
  ∀ (s : State) (lm1 : Byte) (body rest : List Byte), s.Idle → s.Calm → body.length = clampedLength lm1 →
    s.near.sin = body ++ rest →
    ∃ t, exec (.cmdE lm1) s = .next t ∧ t.near.sout = s.near.sout ++ body ∧ t.near.sin = rest ∧
      (∀ a, a < clampedLength lm1 → t.near.buf.read a = body[a]?) ∧
      (∀ a, clampedLength lm1 ≤ a → t.near.buf.read a = s.near.buf.read a) ∧
      t.near.disp.progActive = false ∧ t.near.disp.pendValid = s.near.disp.pendValid ∧
      t.near.disp.pendAddr = s.near.disp.pendAddr ∧ t.near.bus = s.near.bus ∧ t.near.lines = s.near.lines ∧ t.Idle

/-- R208, R216, R274 under the premises of `WriteTransactions`: 'R' sends a pending address first, as one address-write
cycle, and clears the flag; then it reads `c_len` bytes into `BUF` and sends them. Without a pending address it sends
none. -/
def Obligations.ReadCommand : Prop :=
  ∀ (s : State) (lm1 : Byte) (rs rest : List Byte), s.HostReady → s.LiveTarget (rs ++ rest) →
    rs.length = clampedLength lm1 →
    ∃ t, exec (.cmdR lm1) s = .next t ∧ t.HostReady ∧ t.LiveTarget rest ∧ t.contention = s.contention ∧
      t.near.sout = s.near.sout ++ rs ∧ t.near.sin = s.near.sin ∧
      t.near.bus = s.near.bus ++ (if s.near.disp.pendValid then [⟨true, false, s.near.disp.pendAddr⟩] else []) ++
        rs.map (fun x => ⟨false, true, x⟩) ∧
      (∀ a, a < clampedLength lm1 → t.near.buf.read a = rs[a]?) ∧
      (∀ a, clampedLength lm1 ≤ a → t.near.buf.read a = s.near.buf.read a) ∧
      t.near.disp.pendValid = false ∧ t.near.disp.pendAddr = s.near.disp.pendAddr ∧ t.near.disp.progActive = false

/-- R209, R216 under the same premises: 'W' reads its body into `BUF` before any bus activity, sends a pending address
first, writes the body to the bus and acknowledges with `c_len - 1`.
Rests on the decision D40 of spec/92_eei_decisions.md. -/
def Obligations.WriteCommand : Prop :=
  ∀ (s : State) (lm1 : Byte) (body rest rs : List Byte), s.HostReady → s.LiveTarget rs →
    body.length = clampedLength lm1 → s.near.sin = body ++ rest →
    ∃ t, exec (.cmdW lm1) s = .next t ∧ t.HostReady ∧ t.LiveTarget rs ∧ t.contention = s.contention ∧
      t.near.sout = s.near.sout ++ [BitVec.ofNat 8 (clampedLength lm1 - 1)] ∧ t.near.sin = rest ∧
      t.near.bus = s.near.bus ++ (if s.near.disp.pendValid then [⟨true, false, s.near.disp.pendAddr⟩] else []) ++
        body.map (fun x => ⟨false, false, x⟩) ∧
      (∀ a, a < clampedLength lm1 → t.near.buf.read a = body[a]?) ∧
      (∀ a, clampedLength lm1 ≤ a → t.near.buf.read a = s.near.buf.read a) ∧
      t.near.disp.pendValid = false ∧ t.near.disp.pendAddr = s.near.disp.pendAddr ∧ t.near.disp.progActive = false

/-- R188, R210 under the same premises and `FLASH_LIVE`: 'P' reads its body, runs `FlashProgram` over it with the
in-progress flag as `initialized`, sets the flag, acknowledges with `c_len - 1` even when a byte was dropped, and leaves
the pending address alone.
Rests on the decisions D15, D28, D40 of spec/92_eei_decisions.md. -/
def Obligations.ProgramCommand : Prop :=
  ∀ (s : State) (lm1 : Byte) (body rest tail : List Byte) (polls : List (List Byte × Byte)), s.HostReady →
    s.LiveTarget (pollReplies polls ++ tail) → body.length = clampedLength lm1 → s.near.sin = body ++ rest →
    polls.length = clampedLength lm1 / 2 →
    (∀ q ∈ polls, (∀ x ∈ q.1, x.getLsbD 0 = true) ∧ q.2.getLsbD 0 = false) → (pollReplies polls).length ≤ 1000 →
    ∃ t, exec (.cmdP lm1) s = .next t ∧ t.HostReady ∧ t.LiveTarget tail ∧ t.contention = s.contention ∧
      t.near.sout = s.near.sout ++ [BitVec.ofNat 8 (clampedLength lm1 - 1)] ∧ t.near.sin = rest ∧
      t.near.bus = s.near.bus ++ s.near.par.programCycles s.near.disp.progActive body polls ∧
      (∀ a, a < clampedLength lm1 → t.near.buf.read a = body[a]?) ∧
      (∀ a, clampedLength lm1 ≤ a → t.near.buf.read a = s.near.buf.read a) ∧
      t.near.disp.progActive = true ∧ t.near.disp.pendValid = s.near.disp.pendValid ∧
      t.near.disp.pendAddr = s.near.disp.pendAddr

/-- R206: 'C' on a host-role board, before a far end that releases `RST` and its strobes: the banner goes out, the block is
`Reset` in the peripheral role, and the console waits in its first cycle for a strobe. `SIN`, `BUF` and the pending
address are left alone. On a board that is not a host-role board 'C' has the effect of the unrecognized command (D18 for the
code, log entry 21 for the term), and nothing else of the state changes: that the working registers of the layers that do not
run keep their values is log entry 31.
Rests on the decisions D18, D29 of spec/92_eei_decisions.md. -/
def Obligations.ConsoleCommand : Prop :=
  (∀ (s : State) (x : Byte), s.HostReady → s.near.par.board = .host → s.script = [] →
    s.far = .target ⟨.idleHost, false, []⟩ → s.near.par.banner.length ≤ 1000 →
    ∃ t, exec (.cmdC x) s = .next t ∧ t.near.sout = s.near.sout ++ s.near.par.banner ∧ t.near.InConsole ∧
      t.near.lines = .idlePeripheral ∧ t.near.per.ph = .strobeWait ∧
      t.near.disp.progActive = false ∧ t.near.disp.pendValid = s.near.disp.pendValid ∧
      t.near.disp.pendAddr = s.near.disp.pendAddr ∧ t.near.sin = s.near.sin ∧ t.near.buf = s.near.buf ∧
      t.contention = s.contention) ∧
  ∀ (s : State) (x : Byte), s.Idle → s.Calm → s.near.par.board = .peripheral →
    exec (.cmdC x) s = .next { s with near := { s.near with disp := { s.near.disp with
      cmd := 0x43, lm1 := x, len := clampedLength x, progActive := false, ph := .header0, step := .decode, k := 0 } } }

/-- R6, R206, R246, R275: the console outside a cycle. Once a cycle has returned, a completed data-write cycle is echoed and no
other is, and the next step calls another cycle, with no back-off; the console has no exit. That the test is a step of its own
where nothing is echoed is log entry 12; that the working registers of the layers that do not run stay at these steps is log
entry 31.
Rests on the decisions D18, D29 of spec/92_eei_decisions.md. -/
def Obligations.ConsoleEchoes : Prop :=
  ∀ (b : Block) (p : Peer) (n : Nat), b.idleBelow = true → b.disp.ph = .console →
    (b.disp.step ≠ .cycle → b.tick p n = .moved { b with
      sout := b.sout ++ (if b.per.ok = true ∧ b.per.rd = false ∧ b.per.ad = false then [b.per.slot] else []),
      disp := { b.disp with step := .cycle, k := 0 } } n) ∧
    (b.disp.step = .cycle → b.role = .peripheral → p.role ≠ some .peripheral →
      b.tick p n = .moved { b with
        per := { b.per with ph := .check }, disp := { b.disp with step := .decode, k := 0 } } n)

/-- R206, R275: the 'C' sub-loop is a one-way door. No turn of any kind takes an end out of it but the external reset of the
end: whatever the far party, the serial peer or a caller does, it stays a peripheral at `D_CONSOLE`, reads no header, and loses
no byte of `SIN`. That `DPH` is `D_HEADER0` at the very turn of that reset is log entry 27 (R261 sets it only after the
`Reset`). No instruction can be started at an end in the sub-loop, whose thread is taken: it is refused as interleaved (R72,
R248).
Rests on the decisions D26, D29 of spec/92_eei_decisions.md. -/
def Obligations.ConsoleOneWay : Prop :=
  (∀ s t : State, s.near.InConsole → s.turn = .moved t →
    (t.near.InConsole ∧ s.near.sin <+: t.near.sin ∧ t.near.disp.cmd = s.near.disp.cmd ∧
      t.near.disp.lm1 = s.near.disp.lm1) ∨
    ∃ d, s.script = ⟨d, .resetNear⟩ :: t.script ∧ t.near.disp.ph = .header0) ∧
  (∀ s t : State, s.near.InConsole → (∀ e ∈ s.script, e.move ≠ .resetNear) → step s = .next t →
    t.near.InConsole ∧ s.near.sin <+: t.near.sin) ∧
  ∀ (s : State) (i : Instr), s.near.InConsole → exec i s = .refused .interleaved

/-- R212, R235: the abort entry. The port goes to high-impedance, the dispatcher halts, the code is returned; nothing is
sent and every other register keeps its value (the working registers that R25 and R30 leave undefined: log entry 31).
Rests on the decision D26 of spec/92_eei_decisions.md. -/
def Obligations.AbortEntry : Prop :=
  ∀ (s : State) (r : Int), r < 0 → s.Idle → s.Alone → ∃ c, (s.contention = true → c = true) ∧
    exec (.abort r) s = .next { s with
      near := { s.near with lines := .hiZ, res := r, disp := { s.near.disp with ph := .halted, step := .decode, k := 0 } },
      contention := c }

/-- R212, R236, R248: a halted dispatcher runs no operation, and it has no step while nothing moves outside: an operation or
a step asked of it then is the fault `halted` (log entry 17). Whatever does move outside (a serial byte, a call, the far
party), it stays halted, with nothing running at the end: only the external reset of the end leaves `D_HALTED`. A run is over
when the dispatcher is at `D_HEADER0` with `SIN` empty and every other phase idle, at both ends (with no request pending, and
with an external target counted as idle: log entry 32); then a step changes nothing. An end at `D_HALTED` or `D_CONSOLE` is
never over.
Rests on the decision D26 of spec/92_eei_decisions.md. -/
def Obligations.HaltedForGood : Prop :=
  (∀ s : State, s.near.disp.ph = .halted → (∀ i, exec i s = .fault .halted) ∧
    (s.near.idleBelow = true → s.script = [] → s.react = none → step s = .fault .halted)) ∧
  (∀ b : Block, b.over = true ↔ b.disp.ph = .header0 ∧ b.sin = [] ∧ b.calls = [] ∧ b.host.ph = .idle ∧ b.per.ph = .idle ∧
    b.spi.ph = .idle ∧ b.flash.ph = .idle ∧ b.rph = .idle ∧ b.todo = []) ∧
  (∀ (s : State) (b : Block), s.far = .block b → (s.over = true ↔ s.near.over = true ∧ b.over = true)) ∧
  (∀ (s : State) (t : Target), s.far = .target t → (s.over = true ↔ s.near.over = true)) ∧
  (∀ s : State, s.near.disp.ph = .halted ∨ s.near.disp.ph = .console → s.over = false) ∧
  (∀ s : State, s.over = true → s.script = [] → s.react = none → step s = .next s) ∧
  ∀ s t : State, s.near.disp.ph = .halted → s.near.idleBelow = true → s.turn = .moved t →
    (t.near.disp.ph = .halted ∧ t.near.idleBelow = true) ∨ ∃ d, s.script = ⟨d, .resetNear⟩ :: t.script

/-- R204, R32: every command but 'P' clears the in-progress flag, whatever else becomes of it, and no operation below the
dispatcher touches it or the pending address. Only the far party moves outside. 'A' has written the pending address once it
has ended.
Rests on the decision D16 of spec/92_eei_decisions.md. -/
def Obligations.FlagWriters : Prop :=
  ∀ (s t : State) (i : Instr), s.FarOnly → exec i s = .next t →
    (match i with
    | .cmdA _ | .cmdB _ | .cmdC _ | .cmdE _ | .cmdR _ | .cmdW _ => t.near.disp.progActive = false
    | .unrecognized code _ => code ≠ 0x50 → t.near.disp.progActive = false
    | .cmdP _ => t.near.disp.progActive = s.near.disp.progActive ∨ t.near.disp.progActive = true
    | _ => t.near.disp.progActive = s.near.disp.progActive) ∧
    (match i with
    | .cmdA a => (t.near.disp.pendAddr = s.near.disp.pendAddr ∨ t.near.disp.pendAddr = a) ∧
        (t.near.disp.pendValid = s.near.disp.pendValid ∨ t.near.disp.pendValid = true) ∧
        (t.near.atRest = true → t.near.disp.pendValid = true ∧ t.near.disp.pendAddr = a)
    | .cmdR _ | .cmdW _ => t.near.disp.pendAddr = s.near.disp.pendAddr ∧
        (t.near.disp.pendValid = s.near.disp.pendValid ∨ t.near.disp.pendValid = false)
    | .unrecognized _ _ => wellFormed s.near.par.board i = true →
        t.near.disp.pendAddr = s.near.disp.pendAddr ∧ t.near.disp.pendValid = s.near.disp.pendValid
    | _ => t.near.disp.pendAddr = s.near.disp.pendAddr ∧ t.near.disp.pendValid = s.near.disp.pendValid)

/-! ### Where operations stop -/

/-- R176, R242: the operations of the host role, and `PeripheralCycle`, in the wrong role are refused; the cycles of a
peripheral follow the tag instead. `FlashProgram` is refused at every length. 'R' is refused at its first operation, 'W' and
'P' after their body, where that operation comes (log entry 22).
Rests on the decision D20 of spec/92_eei_decisions.md. -/
def Obligations.WrongRole : Prop :=
  (∀ (s : State) (buf : List Byte) (n : Nat), s.Idle → s.near.role = .peripheral → n ≤ 128 → n ≤ buf.length →
    (∀ rd ac, exec (.transaction buf n rd ac) s = .refused .wrongRole) ∧
    (∀ rd, exec (.spiTransaction buf n rd) s = .refused .wrongRole ∧ exec (.ptPayload buf n rd) s = .refused .wrongRole) ∧
    exec .spiReset s = .refused .wrongRole ∧ exec .ptChipDisable s = .refused .wrongRole ∧
    exec .ptDataClear s = .refused .wrongRole ∧ exec .ptChipEnable s = .refused .wrongRole ∧
    exec .flashReadStatus s = .refused .wrongRole ∧
    (∀ d e, exec (.flashAaiSeed d e) s = .refused .wrongRole ∧ exec (.flashAaiIncrement d e) s = .refused .wrongRole) ∧
    (∀ init, exec (.flashProgram buf n init) s = .refused .wrongRole) ∧
    (s.Calm → ∀ x, exec (.cmdR x) s = .refused .wrongRole) ∧
    (s.Calm → ∀ (x : Byte) (body rest : List Byte), body.length = clampedLength x → s.near.sin = body ++ rest →
      exec (.cmdW x) s = .refused .wrongRole ∧ exec (.cmdP x) s = .refused .wrongRole)) ∧
  ∀ (s : State) (y : Byte), s.Idle → s.near.role = .host → exec (.peripheralCycle y) s = .refused .wrongRole

/-- R124, R187: a length below 0 or above `CAP` is refused; and a buffer of fewer bytes than the length, which breaks the
operand condition of R124 and which R248 does not list, is refused by the model's choice (log entry 15).
Rests on the decision D21 of spec/92_eei_decisions.md. -/
def Obligations.BadLengths : Prop :=
  ∀ (s : State) (buf : List Byte) (n : Int) (r : Refusal), s.Idle →
    ((n < 0 ∨ 128 < n) ∧ r = .badLength ∨ (0 ≤ n ∧ n ≤ 128 ∧ buf.length < n.toNat) ∧ r = .shortBuffer) →
    (∀ rd ac, exec (.transaction buf n rd ac) s = .refused r) ∧ exec (.write buf n) s = .refused r ∧
    exec (.read buf n) s = .refused r ∧ exec (.setAddress buf n) s = .refused r ∧ exec (.getAddress buf n) s = .refused r ∧
    (∀ rd, exec (.spiTransaction buf n rd) s = .refused r ∧ exec (.ptPayload buf n rd) s = .refused r) ∧
    ∀ init, exec (.flashProgram buf n init) s = .refused r

/-- R72, R98, R241, R248: two ends in one role, interleaved operations at one end, and a host asked to assert both strobes
are refused. Two ends in one role are refused where an engine operation starts and at every step of a running one, so an end
that is turned into the other's role in mid-operation is refused too (log entry 16).
Rests on the decision D11 of spec/92_eei_decisions.md. -/
def Obligations.Exclusive : Prop :=
  (∀ (s : State) (i : Instr), s.near.disp.ph ≠ .halted → s.near.atRest = false → exec i s = .refused .interleaved) ∧
  (∀ (s : State) (buf : List Byte) (n : Nat) (rd ac : Bool), s.Idle → s.near.role = .host → s.far.role = some .host →
    n ≤ 128 → n ≤ buf.length → exec (.transaction buf n rd ac) s = .refused .sameRole) ∧
  (∀ (s : State) (y : Byte), s.Idle → s.near.role = .peripheral → s.far.role = some .peripheral →
    exec (.peripheralCycle y) s = .refused .sameRole) ∧
  (∀ (b : Block) (p : Peer) (n : Nat),
    (b.host.ph ≠ .idle ∧ p.role = some .host) ∨ (b.per.ph ≠ .idle ∧ p.role = some .peripheral) →
    b.tick p n = .refused .sameRole) ∧
  ∀ (s : State) (w : Level), s.Idle → s.near.role = .host → exec (.cycleReserved w) s = .refused .reservedTag

/-! ### Frames: what an instruction leaves unchanged, whatever the far party does -/

/-- R25, R32, R97, R128, R135: the transfers, and the cycle kinds in the host role. Only the engine's working registers, the
lines, the result and, when reading, the first `n` bytes of the caller's buffer change; every cell of `BUF`, every flag and
every register of the other layers stays (of those, the working registers of a layer that does not run by log entry 31). The
caller's buffer is the field `ubuf` (log entry 15), of one byte for a lone cycle (log entry 9). -/
def Obligations.TransferFrame : Prop :=
  ∀ (s t : State) (i : Instr), s.FarOnly →
    ((∃ buf n, i = .write buf n ∨ i = .setAddress buf n ∨ i = .read buf n ∨ i = .getAddress buf n ∨
      ∃ rd ac, i = .transaction buf n rd ac) ∨ (s.near.role = .host ∧ ((∃ y, i = .cycleAddressWrite y) ∨
      i = .cycleAddressRead ∨ (∃ y, i = .cycleDataWrite y) ∨ i = .cycleDataRead))) → exec i s = .next t →
    t.near.par = s.near.par ∧ t.near.role = s.near.role ∧ (∀ a, t.near.buf.read a = s.near.buf.read a) ∧
    t.near.per = s.near.per ∧ t.near.spi = s.near.spi ∧ t.near.flash = s.near.flash ∧ t.near.disp = s.near.disp ∧
    t.near.sin = s.near.sin ∧ t.near.sout = s.near.sout ∧ t.near.calls = s.near.calls ∧
    (∀ buf n, (i = .write buf n ∨ i = .setAddress buf n ∨ ∃ ac, i = .transaction buf n false ac) → t.near.ubuf = buf) ∧
    (∀ y, (i = .cycleAddressWrite y ∨ i = .cycleDataWrite y) → t.near.ubuf = [y]) ∧
    ∀ buf n, (i = .read buf n ∨ i = .getAddress buf n ∨ ∃ ac, i = .transaction buf n true ac) →
      t.near.ubuf.length = buf.length ∧ ∀ a, n.toNat ≤ a → t.near.ubuf[a]? = buf[a]?

/-- R27, R98, R153: the peripheral cycle, and the cycle kinds in the peripheral role. Only the registers of the peripheral
cycle and the lines change; the working registers of the other layers stay by log entry 31. -/
def Obligations.PeripheralFrame : Prop :=
  ∀ (s t : State) (i : Instr), s.FarOnly →
    ((∃ y, i = .peripheralCycle y) ∨ (s.near.role = .peripheral ∧ ((∃ y, i = .cycleAddressWrite y) ∨
      i = .cycleAddressRead ∨ (∃ y, i = .cycleDataWrite y) ∨ i = .cycleDataRead)) ∨ (∃ w, i = .cycleReserved w) ∨
      ∃ w, i = .noCycle w) →
    exec i s = .next t →
    t.near.par = s.near.par ∧ t.near.role = s.near.role ∧ (∀ a, t.near.buf.read a = s.near.buf.read a) ∧
    t.near.host = s.near.host ∧ t.near.spi = s.near.spi ∧ t.near.flash = s.near.flash ∧ t.near.disp = s.near.disp ∧
    t.near.sin = s.near.sin ∧ t.near.sout = s.near.sout ∧ t.near.calls = s.near.calls ∧ t.near.res = s.near.res ∧
    t.near.ubuf = s.near.ubuf ∧ t.near.bus = s.near.bus

/-- R29, R32, R171, R172, R190: the SPI layer, the pass-through shapes and the flash operations leave every flag and
register of the dispatcher, both serial streams, the peripheral's registers and every cell of `BUF` unchanged; those that
are not flash operations leave the sequencer's registers unchanged too. That `CMD`, `ST` and the other working registers
stay outside a call is log entry 31; that a lone seed or increment command leaves its pair in the caller's buffer is log entry
11, and that any other call leaves its buffer argument there is log entry 15. -/
def Obligations.PassThroughFrame : Prop :=
  ∀ (s t : State) (i : Instr), s.FarOnly →
    (i = .spiReset ∨ i = .ptChipDisable ∨ i = .ptDataClear ∨ i = .ptChipEnable ∨ i = .flashReadStatus ∨
      (∃ d e, i = .flashAaiSeed d e ∨ i = .flashAaiIncrement d e) ∨
      ∃ buf n, (∃ rd, i = .spiTransaction buf n rd ∨ i = .ptPayload buf n rd) ∨ ∃ init, i = .flashProgram buf n init) →
    exec i s = .next t →
    t.near.par = s.near.par ∧ t.near.role = s.near.role ∧ (∀ a, t.near.buf.read a = s.near.buf.read a) ∧
    t.near.per = s.near.per ∧ t.near.disp = s.near.disp ∧ t.near.sin = s.near.sin ∧ t.near.sout = s.near.sout ∧
    t.near.calls = s.near.calls ∧
    ((i = .spiReset ∨ i = .ptChipDisable ∨ i = .ptDataClear ∨ i = .ptChipEnable) →
      t.near.flash = s.near.flash ∧ t.near.ubuf = s.near.ubuf) ∧
    (∀ buf n rd, i = .spiTransaction buf n rd ∨ i = .ptPayload buf n rd → t.near.flash = s.near.flash ∧
      t.near.ubuf.length = buf.length ∧ ∀ a, (rd = false ∨ n.toNat ≤ a) → t.near.ubuf[a]? = buf[a]?) ∧
    (i = .flashReadStatus → t.near.ubuf = s.near.ubuf ∧ t.near.flash.cmd = s.near.flash.cmd) ∧
    (∀ d e, i = .flashAaiSeed d e ∨ i = .flashAaiIncrement d e → t.near.ubuf = [d, e] ∧
      t.near.flash.st = s.near.flash.st) ∧
    ∀ buf n init, i = .flashProgram buf n init → t.near.ubuf = buf

/-- R203, R205, R207, R211, R217: the commands without bus activity leave the lines, the role, the other layers (their
working registers by log entry 31) and the cells of `BUF` at and beyond `c_len` unchanged; 'A' and an unrecognized command
leave all of `BUF` unchanged. -/
def Obligations.QuietCommandFrame : Prop :=
  ∀ (s t : State) (i : Instr), s.FarOnly →
    ((∃ a, i = .cmdA a) ∨ (∃ c x, i = .unrecognized c x ∧ wellFormed s.near.par.board i = true) ∨ (∃ x, i = .cmdB x) ∨
      ∃ x, i = .cmdE x) →
    exec i s = .next t →
    t.near.par = s.near.par ∧ t.near.role = s.near.role ∧ t.near.lines = s.near.lines ∧ t.near.host = s.near.host ∧
    t.near.per = s.near.per ∧ t.near.spi = s.near.spi ∧ t.near.flash = s.near.flash ∧ t.near.res = s.near.res ∧
    t.near.ubuf = s.near.ubuf ∧ t.near.calls = s.near.calls ∧ t.near.bus = s.near.bus ∧
    (∀ x, i = .cmdB x ∨ i = .cmdE x → ∀ a, clampedLength x ≤ a → t.near.buf.read a = s.near.buf.read a) ∧
    ((∃ a, i = .cmdA a) ∨ (∃ c x, i = .unrecognized c x) → t.near.buf = s.near.buf ∧ t.near.sin = s.near.sin ∧
      t.near.sout = s.near.sout)

/-- R208 to R210, R217: the bus commands leave the parameters, the role, the peripheral's registers, a caller's buffer and
the cells of `BUF` at and beyond `c_len` unchanged; 'R' and 'W' leave the layers above the engine unchanged too (their
working registers by log entry 31). -/
def Obligations.BusCommandFrame : Prop :=
  ∀ (s t : State) (i : Instr) (x : Byte), s.FarOnly → (i = .cmdR x ∨ i = .cmdW x ∨ i = .cmdP x) → exec i s = .next t →
    t.near.par = s.near.par ∧ t.near.role = s.near.role ∧ t.near.per = s.near.per ∧ t.near.ubuf = s.near.ubuf ∧
    t.near.calls = s.near.calls ∧ (∀ a, clampedLength x ≤ a → t.near.buf.read a = s.near.buf.read a) ∧
    (i = .cmdR x ∨ i = .cmdW x → t.near.spi = s.near.spi ∧ t.near.flash = s.near.flash) ∧
    (i = .cmdR x → t.near.sin = s.near.sin)

/-- R206: 'C' leaves the parameters, the host engine, the SPI layer, the flash sequencer, `BUF`, `SIN` and a caller's
buffer unchanged (working registers by log entry 31). -/
def Obligations.ConsoleFrame : Prop :=
  ∀ (s t : State) (x : Byte), s.FarOnly → exec (.cmdC x) s = .next t →
    t.near.par = s.near.par ∧ t.near.host = s.near.host ∧ t.near.spi = s.near.spi ∧ t.near.flash = s.near.flash ∧
    (∀ a, t.near.buf.read a = s.near.buf.read a) ∧ t.near.sin = s.near.sin ∧ t.near.res = s.near.res ∧
    t.near.ubuf = s.near.ubuf ∧ t.near.calls = s.near.calls ∧ t.near.bus = s.near.bus

/-- R120, R121, R235: `PortHiZ` changes lines alone, `Reset` lines and `ROLE`, `abort` lines, the dispatcher's phase and
the result; working registers stay by log entry 31. -/
def Obligations.PortFrame : Prop :=
  ∀ (s t : State) (i : Instr), s.FarOnly → (i = .portHiZ ∨ (∃ r, i = .reset r) ∨ ∃ r, i = .abort r) →
    exec i s = .next t →
    t.near.par = s.near.par ∧ t.near.buf = s.near.buf ∧ t.near.host = s.near.host ∧ t.near.per = s.near.per ∧
    t.near.spi = s.near.spi ∧ t.near.flash = s.near.flash ∧ t.near.sin = s.near.sin ∧ t.near.sout = s.near.sout ∧
    t.near.ubuf = s.near.ubuf ∧ t.near.calls = s.near.calls ∧ t.near.bus = s.near.bus ∧
    t.near.disp.pendAddr = s.near.disp.pendAddr ∧ t.near.disp.pendValid = s.near.disp.pendValid ∧
    t.near.disp.progActive = s.near.disp.progActive ∧ t.near.disp.cmd = s.near.disp.cmd ∧
    t.near.disp.lm1 = s.near.disp.lm1 ∧ t.near.disp.len = s.near.disp.len ∧
    ((¬∃ r, i = .abort r) → t.near.disp = s.near.disp ∧ t.near.res = s.near.res) ∧
    ((¬∃ r, i = .reset r) → t.near.role = s.near.role)

/-! ### Steps and whole-machine rules -/

/-- R4, R6, R91, R200, R201, R237: a step runs the decoded instruction. At the top of the loop the two header bytes at the
head of `SIN` are removed and their instruction runs; after byte 0 alone, byte 1 completes it; a pending operation-level
request goes first (log entry 6). An operation under way goes on. The fetch counts as the four primitives of R200 that it is
(two `SerialGet`s, `c_len`, the program flag), and is one step of the model only when nothing outside falls within them;
taken one a turn they end in the same state (log entry 5): the first three leave the dispatcher at `D_HEADER1`, where `c_len`
is computed and then the program flag is cleared, and the fourth enters `D_EXEC`. When something does fall within them a step
is one turn, and an external reset that is due goes before everything else at any state. -/
def Obligations.StepRunsDecoded : Prop :=
  (∀ (s : State) (b0 b1 : Byte) (rest : List Byte), s.near.idleBelow = true → s.near.disp.ph = .header0 →
    s.near.calls = [] → s.near.sin = b0 :: b1 :: rest → s.clearFor 4 = true →
    step s = exec (decodeHeader s.near.par.board b0 b1) (s.fetched 4 { s.near with sin := rest }) ∧
    ((contended s.near.lines s.far.lines = true → s.contention = true) → ∃ b s1 s2 s3,
      ({ s.near with sin := rest } : Block).start s.far.role (decodeHeader s.near.par.board b0 b1) = .ok b ∧
      s.turn = .moved s1 ∧ s1.turn = .moved s2 ∧ s2.turn = .moved s3 ∧ s3.turn = .moved (s.fetched 4 b) ∧
      s1.near.disp.ph = .header1 ∧ s2.near.disp.ph = .header1 ∧ s3.near.disp.ph = .header1 ∧
      s3.near.disp.len = clampedLength b1 ∧ s3.near.disp.progActive = s.near.disp.progActive ∧ b.disp.ph = .exec)) ∧
  (∀ (s : State) (b1 : Byte) (rest : List Byte), s.near.idleBelow = true → s.near.disp.ph = .header1 →
    s.near.disp.step.updatesHeader = false → s.near.sin = b1 :: rest → s.clearFor 3 = true →
    step s = exec (decodeHeader s.near.par.board s.near.disp.cmd b1)
      (s.fetched 3 { s.near with sin := rest, disp := { s.near.disp with ph := .header0 } })) ∧
  (∀ (s : State) (i : Instr) (rest : List Request), s.near.idleBelow = true → s.near.disp.ph = .header0 →
    s.near.calls = .call i :: rest → s.clearFor 1 = true → step s = exec i (s.fetched 1 { s.near with calls := rest })) ∧
  (∀ (s : State) (nbits w : Nat) (i : Instr) (rest : List Request), s.near.idleBelow = true → s.near.disp.ph = .header0 →
    s.near.calls = .word nbits w :: rest → decodeTableWord nbits w = some i → s.clearFor 1 = true →
    step s = exec i (s.fetched 1 { s.near with calls := rest })) ∧
  (∀ s : State, s.near.idleBelow = false ∨ (s.clearFor 1 = true ∧ (s.near.disp.ph ∈ [.body, .exec, .respond, .console] ∨
      (s.near.disp.ph = .header1 ∧ s.near.disp.step.updatesHeader = true))) →
    step s = State.run Config.burst s) ∧
  (∀ s : State, s.near.idleBelow = true →
    s.clearFor 1 = false ∨ (s.clearFor 4 = false ∧ s.near.disp.ph = .header0 ∧ s.near.calls = []) ∨
      (s.clearFor 3 = false ∧ s.near.disp.ph = .header1 ∧ s.near.disp.step.updatesHeader = false) →
    step s = s.idleTurn) ∧
  ∀ (s : State) (rest : List Event), s.script = ⟨.after 0, .resetNear⟩ :: rest →
    ∃ u, Move.resetNear.apply { s with script := rest } = .moved u ∧ s.turn = .moved u ∧
      (s.near.idleBelow = true → step s = .next u)

/-- R34, R75, R217: `SIN` loses bytes only from its head and `SOUT` only grows at its end, whatever instruction runs and
whatever the far party does.
Rests on the decision D22 of spec/92_eei_decisions.md. -/
def Obligations.SerialStreams : Prop :=
  ∀ (s t : State) (i : Instr), s.FarOnly → exec i s = .next t →
    t.near.sin <:+ s.near.sin ∧ s.near.sout <+: t.near.sout

/-- R24, R21: the invariant that every step keeps, from every state that meets it: `BUF` is in canonical form and its
indices are below 128, every running operation stays inside the buffer it refers to, and the data directions of each end
are equal once the steps of its running phase are done. -/
def Obligations.StepKeepsInv : Prop :=
  ∀ s t : State, s.Inv → step s = .next t → t.Inv

/-- The invariant holds at reset (R24, R21, R39). -/
def Obligations.ResetInv : Prop := State.reset.Inv

/-- R24: "No operation may index it at or beyond 128": from a state that meets the invariant no step and no instruction
ends in the buffer-index fault. -/
def Obligations.NoBufferFault : Prop :=
  ∀ s : State, s.Inv → step s ≠ .fault .bufferIndex ∧ ∀ i, exec i s ≠ .fault .bufferIndex

/-- R40, R97, R99, R125, R151: the lines in every phase, and the invariant between operations. `Block.Settled` says which
lines an end shows in each phase once its steps are done: the tag of R97 on the strobes and `WRSEL` of a host while its
strobe is asserted and the byte it writes on the data lines, and the slot byte on the data lines of a peripheral that a host
reads. Block reset of any block leaves it, with the primitives of its `Reset` to come, and so does the reset of the machine;
every operation but `PortHiZ` and `abort` starts in it at an idle end, and every step of a
block keeps it, but for the start of a pending request.
Whatever operation runs at a block whose lines are at the idle state of its role, and whatever the far party does, once
nothing runs at the end any more its lines are at the idle state of its role; `PortHiZ` and `abort` are the exceptions the
rule and R120 name. The premise on the result says that no failure is pending; the base engine never produces one (R128), so
no command ends in the abort (R212).
Rests on the decision D10 of spec/92_eei_decisions.md. -/
def Obligations.IdleLinesBetweenOperations : Prop :=
  (∀ (b b' : Block) (p : Peer) (n n' : Nat), b.Settled → 0 ≤ b.res → b.atRest = false ∨ b.calls = [] →
    b.tick p n = .moved b' n' → b'.Settled) ∧
  (∀ (b b' : Block) (r : Option Role) (i : Instr), b.atRest = true → b.lines = .idleOf b.role → i ≠ .portHiZ →
    (∀ c, i ≠ .abort c) → b.start r i = .ok b' → b'.Settled) ∧
  (∀ (b : Block) (n : Nat), (b.blockReset n).Settled) ∧ State.reset.near.Settled ∧
  ∀ (s t : State) (i : Instr), s.FarOnly → s.Idle → s.near.lines = .idleOf s.near.role → 0 ≤ s.near.res →
    i ≠ .portHiZ → (∀ r, i ≠ .abort r) → exec i s = .next t → t.near.atRest = true →
    t.near.lines = .idleOf t.near.role ∧ 0 ≤ t.near.res ∧ t.near.disp.ph = .header0

/-- R8, R28: no step of any kind, block reset included, changes the parameters of either block. -/
def Obligations.ParametersAreConstant : Prop :=
  ∀ s t : State, step s = .next t → t.near.par = s.near.par ∧
    ∀ b b', s.far = .block b → t.far = .block b' → b'.par = b.par

end
end

