-- ==== Sys2Proof/Laws/State.lean ====
section
/-! SUPPORT. One lemma per field per named update of a block, true by computation, so that no later proof unfolds a record
update; and the same for the lines of an end. -/

namespace Sys2Proof.Machine

/-! ### `Block.hostTo` -/

@[simp] theorem Block.hostTo_par (b : Block) (ph : HPhase) (steps : List Prim) : (b.hostTo ph steps).par = b.par := rfl
@[simp] theorem Block.hostTo_lines (b : Block) (ph : HPhase) (steps : List Prim) : (b.hostTo ph steps).lines = b.lines := rfl
@[simp] theorem Block.hostTo_role (b : Block) (ph : HPhase) (steps : List Prim) : (b.hostTo ph steps).role = b.role := rfl
@[simp] theorem Block.hostTo_buf (b : Block) (ph : HPhase) (steps : List Prim) : (b.hostTo ph steps).buf = b.buf := rfl
@[simp] theorem Block.hostTo_host (b : Block) (ph : HPhase) (steps : List Prim) : (b.hostTo ph steps).host = { b.host with ph := ph } := rfl
@[simp] theorem Block.hostTo_per (b : Block) (ph : HPhase) (steps : List Prim) : (b.hostTo ph steps).per = b.per := rfl
@[simp] theorem Block.hostTo_spi (b : Block) (ph : HPhase) (steps : List Prim) : (b.hostTo ph steps).spi = b.spi := rfl
@[simp] theorem Block.hostTo_flash (b : Block) (ph : HPhase) (steps : List Prim) : (b.hostTo ph steps).flash = b.flash := rfl
@[simp] theorem Block.hostTo_disp (b : Block) (ph : HPhase) (steps : List Prim) : (b.hostTo ph steps).disp = b.disp := rfl
@[simp] theorem Block.hostTo_sin (b : Block) (ph : HPhase) (steps : List Prim) : (b.hostTo ph steps).sin = b.sin := rfl
@[simp] theorem Block.hostTo_sout (b : Block) (ph : HPhase) (steps : List Prim) : (b.hostTo ph steps).sout = b.sout := rfl
@[simp] theorem Block.hostTo_todo (b : Block) (ph : HPhase) (steps : List Prim) : (b.hostTo ph steps).todo = steps := rfl
@[simp] theorem Block.hostTo_rph (b : Block) (ph : HPhase) (steps : List Prim) : (b.hostTo ph steps).rph = b.rph := rfl
@[simp] theorem Block.hostTo_smp (b : Block) (ph : HPhase) (steps : List Prim) : (b.hostTo ph steps).smp = b.smp := rfl
@[simp] theorem Block.hostTo_res (b : Block) (ph : HPhase) (steps : List Prim) : (b.hostTo ph steps).res = b.res := rfl
@[simp] theorem Block.hostTo_ubuf (b : Block) (ph : HPhase) (steps : List Prim) : (b.hostTo ph steps).ubuf = b.ubuf := rfl
@[simp] theorem Block.hostTo_calls (b : Block) (ph : HPhase) (steps : List Prim) : (b.hostTo ph steps).calls = b.calls := rfl
@[simp] theorem Block.hostTo_bus (b : Block) (ph : HPhase) (steps : List Prim) : (b.hostTo ph steps).bus = b.bus := rfl

/-! ### `Block.perTo` -/

@[simp] theorem Block.perTo_par (b : Block) (ph : PPhase) (steps : List Prim) : (b.perTo ph steps).par = b.par := rfl
@[simp] theorem Block.perTo_lines (b : Block) (ph : PPhase) (steps : List Prim) : (b.perTo ph steps).lines = b.lines := rfl
@[simp] theorem Block.perTo_role (b : Block) (ph : PPhase) (steps : List Prim) : (b.perTo ph steps).role = b.role := rfl
@[simp] theorem Block.perTo_buf (b : Block) (ph : PPhase) (steps : List Prim) : (b.perTo ph steps).buf = b.buf := rfl
@[simp] theorem Block.perTo_host (b : Block) (ph : PPhase) (steps : List Prim) : (b.perTo ph steps).host = b.host := rfl
@[simp] theorem Block.perTo_per (b : Block) (ph : PPhase) (steps : List Prim) : (b.perTo ph steps).per = { b.per with ph := ph } := rfl
@[simp] theorem Block.perTo_spi (b : Block) (ph : PPhase) (steps : List Prim) : (b.perTo ph steps).spi = b.spi := rfl
@[simp] theorem Block.perTo_flash (b : Block) (ph : PPhase) (steps : List Prim) : (b.perTo ph steps).flash = b.flash := rfl
@[simp] theorem Block.perTo_disp (b : Block) (ph : PPhase) (steps : List Prim) : (b.perTo ph steps).disp = b.disp := rfl
@[simp] theorem Block.perTo_sin (b : Block) (ph : PPhase) (steps : List Prim) : (b.perTo ph steps).sin = b.sin := rfl
@[simp] theorem Block.perTo_sout (b : Block) (ph : PPhase) (steps : List Prim) : (b.perTo ph steps).sout = b.sout := rfl
@[simp] theorem Block.perTo_todo (b : Block) (ph : PPhase) (steps : List Prim) : (b.perTo ph steps).todo = steps := rfl
@[simp] theorem Block.perTo_rph (b : Block) (ph : PPhase) (steps : List Prim) : (b.perTo ph steps).rph = b.rph := rfl
@[simp] theorem Block.perTo_smp (b : Block) (ph : PPhase) (steps : List Prim) : (b.perTo ph steps).smp = b.smp := rfl
@[simp] theorem Block.perTo_res (b : Block) (ph : PPhase) (steps : List Prim) : (b.perTo ph steps).res = b.res := rfl
@[simp] theorem Block.perTo_ubuf (b : Block) (ph : PPhase) (steps : List Prim) : (b.perTo ph steps).ubuf = b.ubuf := rfl
@[simp] theorem Block.perTo_calls (b : Block) (ph : PPhase) (steps : List Prim) : (b.perTo ph steps).calls = b.calls := rfl
@[simp] theorem Block.perTo_bus (b : Block) (ph : PPhase) (steps : List Prim) : (b.perTo ph steps).bus = b.bus := rfl

/-! ### `Block.flashTo` -/

@[simp] theorem Block.flashTo_par (b : Block) (ph : FPhase) : (b.flashTo ph).par = b.par := rfl
@[simp] theorem Block.flashTo_lines (b : Block) (ph : FPhase) : (b.flashTo ph).lines = b.lines := rfl
@[simp] theorem Block.flashTo_role (b : Block) (ph : FPhase) : (b.flashTo ph).role = b.role := rfl
@[simp] theorem Block.flashTo_buf (b : Block) (ph : FPhase) : (b.flashTo ph).buf = b.buf := rfl
@[simp] theorem Block.flashTo_host (b : Block) (ph : FPhase) : (b.flashTo ph).host = b.host := rfl
@[simp] theorem Block.flashTo_per (b : Block) (ph : FPhase) : (b.flashTo ph).per = b.per := rfl
@[simp] theorem Block.flashTo_spi (b : Block) (ph : FPhase) : (b.flashTo ph).spi = b.spi := rfl
@[simp] theorem Block.flashTo_flash (b : Block) (ph : FPhase) : (b.flashTo ph).flash = { b.flash with ph := ph } := rfl
@[simp] theorem Block.flashTo_disp (b : Block) (ph : FPhase) : (b.flashTo ph).disp = b.disp := rfl
@[simp] theorem Block.flashTo_sin (b : Block) (ph : FPhase) : (b.flashTo ph).sin = b.sin := rfl
@[simp] theorem Block.flashTo_sout (b : Block) (ph : FPhase) : (b.flashTo ph).sout = b.sout := rfl
@[simp] theorem Block.flashTo_todo (b : Block) (ph : FPhase) : (b.flashTo ph).todo = b.todo := rfl
@[simp] theorem Block.flashTo_rph (b : Block) (ph : FPhase) : (b.flashTo ph).rph = b.rph := rfl
@[simp] theorem Block.flashTo_smp (b : Block) (ph : FPhase) : (b.flashTo ph).smp = b.smp := rfl
@[simp] theorem Block.flashTo_res (b : Block) (ph : FPhase) : (b.flashTo ph).res = b.res := rfl
@[simp] theorem Block.flashTo_ubuf (b : Block) (ph : FPhase) : (b.flashTo ph).ubuf = b.ubuf := rfl
@[simp] theorem Block.flashTo_calls (b : Block) (ph : FPhase) : (b.flashTo ph).calls = b.calls := rfl
@[simp] theorem Block.flashTo_bus (b : Block) (ph : FPhase) : (b.flashTo ph).bus = b.bus := rfl

/-! ### `Block.dispTo` -/

@[simp] theorem Block.dispTo_par (b : Block) (ph : DPhase) (step : DStep) (k : Nat) : (b.dispTo ph step k).par = b.par := rfl
@[simp] theorem Block.dispTo_lines (b : Block) (ph : DPhase) (step : DStep) (k : Nat) : (b.dispTo ph step k).lines = b.lines := rfl
@[simp] theorem Block.dispTo_role (b : Block) (ph : DPhase) (step : DStep) (k : Nat) : (b.dispTo ph step k).role = b.role := rfl
@[simp] theorem Block.dispTo_buf (b : Block) (ph : DPhase) (step : DStep) (k : Nat) : (b.dispTo ph step k).buf = b.buf := rfl
@[simp] theorem Block.dispTo_host (b : Block) (ph : DPhase) (step : DStep) (k : Nat) : (b.dispTo ph step k).host = b.host := rfl
@[simp] theorem Block.dispTo_per (b : Block) (ph : DPhase) (step : DStep) (k : Nat) : (b.dispTo ph step k).per = b.per := rfl
@[simp] theorem Block.dispTo_spi (b : Block) (ph : DPhase) (step : DStep) (k : Nat) : (b.dispTo ph step k).spi = b.spi := rfl
@[simp] theorem Block.dispTo_flash (b : Block) (ph : DPhase) (step : DStep) (k : Nat) : (b.dispTo ph step k).flash = b.flash := rfl
@[simp] theorem Block.dispTo_disp (b : Block) (ph : DPhase) (step : DStep) (k : Nat) : (b.dispTo ph step k).disp = { b.disp with ph := ph, step := step, k := k } := rfl
@[simp] theorem Block.dispTo_sin (b : Block) (ph : DPhase) (step : DStep) (k : Nat) : (b.dispTo ph step k).sin = b.sin := rfl
@[simp] theorem Block.dispTo_sout (b : Block) (ph : DPhase) (step : DStep) (k : Nat) : (b.dispTo ph step k).sout = b.sout := rfl
@[simp] theorem Block.dispTo_todo (b : Block) (ph : DPhase) (step : DStep) (k : Nat) : (b.dispTo ph step k).todo = b.todo := rfl
@[simp] theorem Block.dispTo_rph (b : Block) (ph : DPhase) (step : DStep) (k : Nat) : (b.dispTo ph step k).rph = b.rph := rfl
@[simp] theorem Block.dispTo_smp (b : Block) (ph : DPhase) (step : DStep) (k : Nat) : (b.dispTo ph step k).smp = b.smp := rfl
@[simp] theorem Block.dispTo_res (b : Block) (ph : DPhase) (step : DStep) (k : Nat) : (b.dispTo ph step k).res = b.res := rfl
@[simp] theorem Block.dispTo_ubuf (b : Block) (ph : DPhase) (step : DStep) (k : Nat) : (b.dispTo ph step k).ubuf = b.ubuf := rfl
@[simp] theorem Block.dispTo_calls (b : Block) (ph : DPhase) (step : DStep) (k : Nat) : (b.dispTo ph step k).calls = b.calls := rfl
@[simp] theorem Block.dispTo_bus (b : Block) (ph : DPhase) (step : DStep) (k : Nat) : (b.dispTo ph step k).bus = b.bus := rfl

/-! ### `Block.endCommand` -/

@[simp] theorem Block.endCommand_par (b : Block) : (b.endCommand).par = b.par := rfl
@[simp] theorem Block.endCommand_lines (b : Block) : (b.endCommand).lines = b.lines := rfl
@[simp] theorem Block.endCommand_role (b : Block) : (b.endCommand).role = b.role := rfl
@[simp] theorem Block.endCommand_buf (b : Block) : (b.endCommand).buf = b.buf := rfl
@[simp] theorem Block.endCommand_host (b : Block) : (b.endCommand).host = b.host := rfl
@[simp] theorem Block.endCommand_per (b : Block) : (b.endCommand).per = b.per := rfl
@[simp] theorem Block.endCommand_spi (b : Block) : (b.endCommand).spi = b.spi := rfl
@[simp] theorem Block.endCommand_flash (b : Block) : (b.endCommand).flash = b.flash := rfl
@[simp] theorem Block.endCommand_disp (b : Block) : (b.endCommand).disp = { b.disp with ph := .header0, step := .decode, k := 0 } := rfl
@[simp] theorem Block.endCommand_sin (b : Block) : (b.endCommand).sin = b.sin := rfl
@[simp] theorem Block.endCommand_sout (b : Block) : (b.endCommand).sout = b.sout := rfl
@[simp] theorem Block.endCommand_todo (b : Block) : (b.endCommand).todo = b.todo := rfl
@[simp] theorem Block.endCommand_rph (b : Block) : (b.endCommand).rph = b.rph := rfl
@[simp] theorem Block.endCommand_smp (b : Block) : (b.endCommand).smp = b.smp := rfl
@[simp] theorem Block.endCommand_res (b : Block) : (b.endCommand).res = b.res := rfl
@[simp] theorem Block.endCommand_ubuf (b : Block) : (b.endCommand).ubuf = b.ubuf := rfl
@[simp] theorem Block.endCommand_calls (b : Block) : (b.endCommand).calls = b.calls := rfl
@[simp] theorem Block.endCommand_bus (b : Block) : (b.endCommand).bus = b.bus := rfl

/-! ### `Block.header` -/

@[simp] theorem Block.header_par (b : Block) (code lm1 : Byte) : (b.header code lm1).par = b.par := rfl
@[simp] theorem Block.header_lines (b : Block) (code lm1 : Byte) : (b.header code lm1).lines = b.lines := rfl
@[simp] theorem Block.header_role (b : Block) (code lm1 : Byte) : (b.header code lm1).role = b.role := rfl
@[simp] theorem Block.header_buf (b : Block) (code lm1 : Byte) : (b.header code lm1).buf = b.buf := rfl
@[simp] theorem Block.header_host (b : Block) (code lm1 : Byte) : (b.header code lm1).host = b.host := rfl
@[simp] theorem Block.header_per (b : Block) (code lm1 : Byte) : (b.header code lm1).per = b.per := rfl
@[simp] theorem Block.header_spi (b : Block) (code lm1 : Byte) : (b.header code lm1).spi = b.spi := rfl
@[simp] theorem Block.header_flash (b : Block) (code lm1 : Byte) : (b.header code lm1).flash = b.flash := rfl
@[simp] theorem Block.header_disp (b : Block) (code lm1 : Byte) : (b.header code lm1).disp = { b.disp with
        cmd := code, lm1 := lm1, len := clampedLength lm1, progActive := progAfterHeader code b.disp.progActive,
        ph := .exec, step := .decode, k := 0 } := rfl
@[simp] theorem Block.header_sin (b : Block) (code lm1 : Byte) : (b.header code lm1).sin = b.sin := rfl
@[simp] theorem Block.header_sout (b : Block) (code lm1 : Byte) : (b.header code lm1).sout = b.sout := rfl
@[simp] theorem Block.header_todo (b : Block) (code lm1 : Byte) : (b.header code lm1).todo = b.todo := rfl
@[simp] theorem Block.header_rph (b : Block) (code lm1 : Byte) : (b.header code lm1).rph = b.rph := rfl
@[simp] theorem Block.header_smp (b : Block) (code lm1 : Byte) : (b.header code lm1).smp = b.smp := rfl
@[simp] theorem Block.header_res (b : Block) (code lm1 : Byte) : (b.header code lm1).res = b.res := rfl
@[simp] theorem Block.header_ubuf (b : Block) (code lm1 : Byte) : (b.header code lm1).ubuf = b.ubuf := rfl
@[simp] theorem Block.header_calls (b : Block) (code lm1 : Byte) : (b.header code lm1).calls = b.calls := rfl
@[simp] theorem Block.header_bus (b : Block) (code lm1 : Byte) : (b.header code lm1).bus = b.bus := rfl

/-! ### `Block.commandRead` -/

@[simp] theorem Block.commandRead_par (b : Block) (code : Byte) : (b.commandRead code).par = b.par := rfl
@[simp] theorem Block.commandRead_lines (b : Block) (code : Byte) : (b.commandRead code).lines = b.lines := rfl
@[simp] theorem Block.commandRead_role (b : Block) (code : Byte) : (b.commandRead code).role = b.role := rfl
@[simp] theorem Block.commandRead_buf (b : Block) (code : Byte) : (b.commandRead code).buf = b.buf := rfl
@[simp] theorem Block.commandRead_host (b : Block) (code : Byte) : (b.commandRead code).host = b.host := rfl
@[simp] theorem Block.commandRead_per (b : Block) (code : Byte) : (b.commandRead code).per = b.per := rfl
@[simp] theorem Block.commandRead_spi (b : Block) (code : Byte) : (b.commandRead code).spi = b.spi := rfl
@[simp] theorem Block.commandRead_flash (b : Block) (code : Byte) : (b.commandRead code).flash = b.flash := rfl
@[simp] theorem Block.commandRead_disp (b : Block) (code : Byte) : (b.commandRead code).disp = { b.disp with cmd := code, ph := .header1, step := .lm1 } := rfl
@[simp] theorem Block.commandRead_sin (b : Block) (code : Byte) : (b.commandRead code).sin = b.sin := rfl
@[simp] theorem Block.commandRead_sout (b : Block) (code : Byte) : (b.commandRead code).sout = b.sout := rfl
@[simp] theorem Block.commandRead_todo (b : Block) (code : Byte) : (b.commandRead code).todo = b.todo := rfl
@[simp] theorem Block.commandRead_rph (b : Block) (code : Byte) : (b.commandRead code).rph = b.rph := rfl
@[simp] theorem Block.commandRead_smp (b : Block) (code : Byte) : (b.commandRead code).smp = b.smp := rfl
@[simp] theorem Block.commandRead_res (b : Block) (code : Byte) : (b.commandRead code).res = b.res := rfl
@[simp] theorem Block.commandRead_ubuf (b : Block) (code : Byte) : (b.commandRead code).ubuf = b.ubuf := rfl
@[simp] theorem Block.commandRead_calls (b : Block) (code : Byte) : (b.commandRead code).calls = b.calls := rfl
@[simp] theorem Block.commandRead_bus (b : Block) (code : Byte) : (b.commandRead code).bus = b.bus := rfl

/-! ### `Block.headerRead` -/

@[simp] theorem Block.headerRead_par (b : Block) (lm1 : Byte) : (b.headerRead lm1).par = b.par := rfl
@[simp] theorem Block.headerRead_lines (b : Block) (lm1 : Byte) : (b.headerRead lm1).lines = b.lines := rfl
@[simp] theorem Block.headerRead_role (b : Block) (lm1 : Byte) : (b.headerRead lm1).role = b.role := rfl
@[simp] theorem Block.headerRead_buf (b : Block) (lm1 : Byte) : (b.headerRead lm1).buf = b.buf := rfl
@[simp] theorem Block.headerRead_host (b : Block) (lm1 : Byte) : (b.headerRead lm1).host = b.host := rfl
@[simp] theorem Block.headerRead_per (b : Block) (lm1 : Byte) : (b.headerRead lm1).per = b.per := rfl
@[simp] theorem Block.headerRead_spi (b : Block) (lm1 : Byte) : (b.headerRead lm1).spi = b.spi := rfl
@[simp] theorem Block.headerRead_flash (b : Block) (lm1 : Byte) : (b.headerRead lm1).flash = b.flash := rfl
@[simp] theorem Block.headerRead_disp (b : Block) (lm1 : Byte) : (b.headerRead lm1).disp = { b.disp with lm1 := lm1, step := .length } := rfl
@[simp] theorem Block.headerRead_sin (b : Block) (lm1 : Byte) : (b.headerRead lm1).sin = b.sin := rfl
@[simp] theorem Block.headerRead_sout (b : Block) (lm1 : Byte) : (b.headerRead lm1).sout = b.sout := rfl
@[simp] theorem Block.headerRead_todo (b : Block) (lm1 : Byte) : (b.headerRead lm1).todo = b.todo := rfl
@[simp] theorem Block.headerRead_rph (b : Block) (lm1 : Byte) : (b.headerRead lm1).rph = b.rph := rfl
@[simp] theorem Block.headerRead_smp (b : Block) (lm1 : Byte) : (b.headerRead lm1).smp = b.smp := rfl
@[simp] theorem Block.headerRead_res (b : Block) (lm1 : Byte) : (b.headerRead lm1).res = b.res := rfl
@[simp] theorem Block.headerRead_ubuf (b : Block) (lm1 : Byte) : (b.headerRead lm1).ubuf = b.ubuf := rfl
@[simp] theorem Block.headerRead_calls (b : Block) (lm1 : Byte) : (b.headerRead lm1).calls = b.calls := rfl
@[simp] theorem Block.headerRead_bus (b : Block) (lm1 : Byte) : (b.headerRead lm1).bus = b.bus := rfl

/-! ### `Block.latchLength` -/

@[simp] theorem Block.latchLength_par (b : Block) : (b.latchLength).par = b.par := rfl
@[simp] theorem Block.latchLength_lines (b : Block) : (b.latchLength).lines = b.lines := rfl
@[simp] theorem Block.latchLength_role (b : Block) : (b.latchLength).role = b.role := rfl
@[simp] theorem Block.latchLength_buf (b : Block) : (b.latchLength).buf = b.buf := rfl
@[simp] theorem Block.latchLength_host (b : Block) : (b.latchLength).host = b.host := rfl
@[simp] theorem Block.latchLength_per (b : Block) : (b.latchLength).per = b.per := rfl
@[simp] theorem Block.latchLength_spi (b : Block) : (b.latchLength).spi = b.spi := rfl
@[simp] theorem Block.latchLength_flash (b : Block) : (b.latchLength).flash = b.flash := rfl
@[simp] theorem Block.latchLength_disp (b : Block) : (b.latchLength).disp = { b.disp with len := clampedLength b.disp.lm1, step := .clearProg } := rfl
@[simp] theorem Block.latchLength_sin (b : Block) : (b.latchLength).sin = b.sin := rfl
@[simp] theorem Block.latchLength_sout (b : Block) : (b.latchLength).sout = b.sout := rfl
@[simp] theorem Block.latchLength_todo (b : Block) : (b.latchLength).todo = b.todo := rfl
@[simp] theorem Block.latchLength_rph (b : Block) : (b.latchLength).rph = b.rph := rfl
@[simp] theorem Block.latchLength_smp (b : Block) : (b.latchLength).smp = b.smp := rfl
@[simp] theorem Block.latchLength_res (b : Block) : (b.latchLength).res = b.res := rfl
@[simp] theorem Block.latchLength_ubuf (b : Block) : (b.latchLength).ubuf = b.ubuf := rfl
@[simp] theorem Block.latchLength_calls (b : Block) : (b.latchLength).calls = b.calls := rfl
@[simp] theorem Block.latchLength_bus (b : Block) : (b.latchLength).bus = b.bus := rfl

/-! ### `Block.clearProg` -/

@[simp] theorem Block.clearProg_par (b : Block) : (b.clearProg).par = b.par := rfl
@[simp] theorem Block.clearProg_lines (b : Block) : (b.clearProg).lines = b.lines := rfl
@[simp] theorem Block.clearProg_role (b : Block) : (b.clearProg).role = b.role := rfl
@[simp] theorem Block.clearProg_buf (b : Block) : (b.clearProg).buf = b.buf := rfl
@[simp] theorem Block.clearProg_host (b : Block) : (b.clearProg).host = b.host := rfl
@[simp] theorem Block.clearProg_per (b : Block) : (b.clearProg).per = b.per := rfl
@[simp] theorem Block.clearProg_spi (b : Block) : (b.clearProg).spi = b.spi := rfl
@[simp] theorem Block.clearProg_flash (b : Block) : (b.clearProg).flash = b.flash := rfl
@[simp] theorem Block.clearProg_disp (b : Block) : (b.clearProg).disp = { b.disp with progActive := progAfterHeader b.disp.cmd b.disp.progActive, ph := .exec, step := .decode, k := 0 } := rfl
@[simp] theorem Block.clearProg_sin (b : Block) : (b.clearProg).sin = b.sin := rfl
@[simp] theorem Block.clearProg_sout (b : Block) : (b.clearProg).sout = b.sout := rfl
@[simp] theorem Block.clearProg_todo (b : Block) : (b.clearProg).todo = b.todo := rfl
@[simp] theorem Block.clearProg_rph (b : Block) : (b.clearProg).rph = b.rph := rfl
@[simp] theorem Block.clearProg_smp (b : Block) : (b.clearProg).smp = b.smp := rfl
@[simp] theorem Block.clearProg_res (b : Block) : (b.clearProg).res = b.res := rfl
@[simp] theorem Block.clearProg_ubuf (b : Block) : (b.clearProg).ubuf = b.ubuf := rfl
@[simp] theorem Block.clearProg_calls (b : Block) : (b.clearProg).calls = b.calls := rfl
@[simp] theorem Block.clearProg_bus (b : Block) : (b.clearProg).bus = b.bus := rfl

/-! ### `Block.setPendAddr` -/

@[simp] theorem Block.setPendAddr_par (b : Block) : (b.setPendAddr).par = b.par := rfl
@[simp] theorem Block.setPendAddr_lines (b : Block) : (b.setPendAddr).lines = b.lines := rfl
@[simp] theorem Block.setPendAddr_role (b : Block) : (b.setPendAddr).role = b.role := rfl
@[simp] theorem Block.setPendAddr_buf (b : Block) : (b.setPendAddr).buf = b.buf := rfl
@[simp] theorem Block.setPendAddr_host (b : Block) : (b.setPendAddr).host = b.host := rfl
@[simp] theorem Block.setPendAddr_per (b : Block) : (b.setPendAddr).per = b.per := rfl
@[simp] theorem Block.setPendAddr_spi (b : Block) : (b.setPendAddr).spi = b.spi := rfl
@[simp] theorem Block.setPendAddr_flash (b : Block) : (b.setPendAddr).flash = b.flash := rfl
@[simp] theorem Block.setPendAddr_disp (b : Block) : (b.setPendAddr).disp = { b.disp with pendAddr := b.disp.lm1 } := rfl
@[simp] theorem Block.setPendAddr_sin (b : Block) : (b.setPendAddr).sin = b.sin := rfl
@[simp] theorem Block.setPendAddr_sout (b : Block) : (b.setPendAddr).sout = b.sout := rfl
@[simp] theorem Block.setPendAddr_todo (b : Block) : (b.setPendAddr).todo = b.todo := rfl
@[simp] theorem Block.setPendAddr_rph (b : Block) : (b.setPendAddr).rph = b.rph := rfl
@[simp] theorem Block.setPendAddr_smp (b : Block) : (b.setPendAddr).smp = b.smp := rfl
@[simp] theorem Block.setPendAddr_res (b : Block) : (b.setPendAddr).res = b.res := rfl
@[simp] theorem Block.setPendAddr_ubuf (b : Block) : (b.setPendAddr).ubuf = b.ubuf := rfl
@[simp] theorem Block.setPendAddr_calls (b : Block) : (b.setPendAddr).calls = b.calls := rfl
@[simp] theorem Block.setPendAddr_bus (b : Block) : (b.setPendAddr).bus = b.bus := rfl

/-! ### `Block.setPendValid` -/

@[simp] theorem Block.setPendValid_par (b : Block) : (b.setPendValid).par = b.par := rfl
@[simp] theorem Block.setPendValid_lines (b : Block) : (b.setPendValid).lines = b.lines := rfl
@[simp] theorem Block.setPendValid_role (b : Block) : (b.setPendValid).role = b.role := rfl
@[simp] theorem Block.setPendValid_buf (b : Block) : (b.setPendValid).buf = b.buf := rfl
@[simp] theorem Block.setPendValid_host (b : Block) : (b.setPendValid).host = b.host := rfl
@[simp] theorem Block.setPendValid_per (b : Block) : (b.setPendValid).per = b.per := rfl
@[simp] theorem Block.setPendValid_spi (b : Block) : (b.setPendValid).spi = b.spi := rfl
@[simp] theorem Block.setPendValid_flash (b : Block) : (b.setPendValid).flash = b.flash := rfl
@[simp] theorem Block.setPendValid_disp (b : Block) : (b.setPendValid).disp = { b.disp with pendValid := true } := rfl
@[simp] theorem Block.setPendValid_sin (b : Block) : (b.setPendValid).sin = b.sin := rfl
@[simp] theorem Block.setPendValid_sout (b : Block) : (b.setPendValid).sout = b.sout := rfl
@[simp] theorem Block.setPendValid_todo (b : Block) : (b.setPendValid).todo = b.todo := rfl
@[simp] theorem Block.setPendValid_rph (b : Block) : (b.setPendValid).rph = b.rph := rfl
@[simp] theorem Block.setPendValid_smp (b : Block) : (b.setPendValid).smp = b.smp := rfl
@[simp] theorem Block.setPendValid_res (b : Block) : (b.setPendValid).res = b.res := rfl
@[simp] theorem Block.setPendValid_ubuf (b : Block) : (b.setPendValid).ubuf = b.ubuf := rfl
@[simp] theorem Block.setPendValid_calls (b : Block) : (b.setPendValid).calls = b.calls := rfl
@[simp] theorem Block.setPendValid_bus (b : Block) : (b.setPendValid).bus = b.bus := rfl

/-! ### `Block.clearPending` -/

@[simp] theorem Block.clearPending_par (b : Block) : (b.clearPending).par = b.par := rfl
@[simp] theorem Block.clearPending_lines (b : Block) : (b.clearPending).lines = b.lines := rfl
@[simp] theorem Block.clearPending_role (b : Block) : (b.clearPending).role = b.role := rfl
@[simp] theorem Block.clearPending_buf (b : Block) : (b.clearPending).buf = b.buf := rfl
@[simp] theorem Block.clearPending_host (b : Block) : (b.clearPending).host = b.host := rfl
@[simp] theorem Block.clearPending_per (b : Block) : (b.clearPending).per = b.per := rfl
@[simp] theorem Block.clearPending_spi (b : Block) : (b.clearPending).spi = b.spi := rfl
@[simp] theorem Block.clearPending_flash (b : Block) : (b.clearPending).flash = b.flash := rfl
@[simp] theorem Block.clearPending_disp (b : Block) : (b.clearPending).disp = { b.disp with pendValid := false } := rfl
@[simp] theorem Block.clearPending_sin (b : Block) : (b.clearPending).sin = b.sin := rfl
@[simp] theorem Block.clearPending_sout (b : Block) : (b.clearPending).sout = b.sout := rfl
@[simp] theorem Block.clearPending_todo (b : Block) : (b.clearPending).todo = b.todo := rfl
@[simp] theorem Block.clearPending_rph (b : Block) : (b.clearPending).rph = b.rph := rfl
@[simp] theorem Block.clearPending_smp (b : Block) : (b.clearPending).smp = b.smp := rfl
@[simp] theorem Block.clearPending_res (b : Block) : (b.clearPending).res = b.res := rfl
@[simp] theorem Block.clearPending_ubuf (b : Block) : (b.clearPending).ubuf = b.ubuf := rfl
@[simp] theorem Block.clearPending_calls (b : Block) : (b.clearPending).calls = b.calls := rfl
@[simp] theorem Block.clearPending_bus (b : Block) : (b.clearPending).bus = b.bus := rfl

/-! ### `Block.setProgActive` -/

@[simp] theorem Block.setProgActive_par (b : Block) : (b.setProgActive).par = b.par := rfl
@[simp] theorem Block.setProgActive_lines (b : Block) : (b.setProgActive).lines = b.lines := rfl
@[simp] theorem Block.setProgActive_role (b : Block) : (b.setProgActive).role = b.role := rfl
@[simp] theorem Block.setProgActive_buf (b : Block) : (b.setProgActive).buf = b.buf := rfl
@[simp] theorem Block.setProgActive_host (b : Block) : (b.setProgActive).host = b.host := rfl
@[simp] theorem Block.setProgActive_per (b : Block) : (b.setProgActive).per = b.per := rfl
@[simp] theorem Block.setProgActive_spi (b : Block) : (b.setProgActive).spi = b.spi := rfl
@[simp] theorem Block.setProgActive_flash (b : Block) : (b.setProgActive).flash = b.flash := rfl
@[simp] theorem Block.setProgActive_disp (b : Block) : (b.setProgActive).disp = { b.disp with progActive := true } := rfl
@[simp] theorem Block.setProgActive_sin (b : Block) : (b.setProgActive).sin = b.sin := rfl
@[simp] theorem Block.setProgActive_sout (b : Block) : (b.setProgActive).sout = b.sout := rfl
@[simp] theorem Block.setProgActive_todo (b : Block) : (b.setProgActive).todo = b.todo := rfl
@[simp] theorem Block.setProgActive_rph (b : Block) : (b.setProgActive).rph = b.rph := rfl
@[simp] theorem Block.setProgActive_smp (b : Block) : (b.setProgActive).smp = b.smp := rfl
@[simp] theorem Block.setProgActive_res (b : Block) : (b.setProgActive).res = b.res := rfl
@[simp] theorem Block.setProgActive_ubuf (b : Block) : (b.setProgActive).ubuf = b.ubuf := rfl
@[simp] theorem Block.setProgActive_calls (b : Block) : (b.setProgActive).calls = b.calls := rfl
@[simp] theorem Block.setProgActive_bus (b : Block) : (b.setProgActive).bus = b.bus := rfl

/-! ### `Block.enterAbort` -/

@[simp] theorem Block.enterAbort_par (b : Block) (r : Int) : (b.enterAbort r).par = b.par := rfl
@[simp] theorem Block.enterAbort_lines (b : Block) (r : Int) : (b.enterAbort r).lines = b.lines := rfl
@[simp] theorem Block.enterAbort_role (b : Block) (r : Int) : (b.enterAbort r).role = b.role := rfl
@[simp] theorem Block.enterAbort_buf (b : Block) (r : Int) : (b.enterAbort r).buf = b.buf := rfl
@[simp] theorem Block.enterAbort_host (b : Block) (r : Int) : (b.enterAbort r).host = b.host := rfl
@[simp] theorem Block.enterAbort_per (b : Block) (r : Int) : (b.enterAbort r).per = b.per := rfl
@[simp] theorem Block.enterAbort_spi (b : Block) (r : Int) : (b.enterAbort r).spi = b.spi := rfl
@[simp] theorem Block.enterAbort_flash (b : Block) (r : Int) : (b.enterAbort r).flash = b.flash := rfl
@[simp] theorem Block.enterAbort_disp (b : Block) (r : Int) : (b.enterAbort r).disp = { b.disp with ph := .exec, step := .aborting r } := rfl
@[simp] theorem Block.enterAbort_sin (b : Block) (r : Int) : (b.enterAbort r).sin = b.sin := rfl
@[simp] theorem Block.enterAbort_sout (b : Block) (r : Int) : (b.enterAbort r).sout = b.sout := rfl
@[simp] theorem Block.enterAbort_todo (b : Block) (r : Int) : (b.enterAbort r).todo = portHiZPrims := rfl
@[simp] theorem Block.enterAbort_rph (b : Block) (r : Int) : (b.enterAbort r).rph = .running := rfl
@[simp] theorem Block.enterAbort_smp (b : Block) (r : Int) : (b.enterAbort r).smp = b.smp := rfl
@[simp] theorem Block.enterAbort_res (b : Block) (r : Int) : (b.enterAbort r).res = b.res := rfl
@[simp] theorem Block.enterAbort_ubuf (b : Block) (r : Int) : (b.enterAbort r).ubuf = b.ubuf := rfl
@[simp] theorem Block.enterAbort_calls (b : Block) (r : Int) : (b.enterAbort r).calls = b.calls := rfl
@[simp] theorem Block.enterAbort_bus (b : Block) (r : Int) : (b.enterAbort r).bus = b.bus := rfl

/-! ### `Block.beginReset` -/

@[simp] theorem Block.beginReset_par (b : Block) (role : Role) : (b.beginReset role).par = b.par := rfl
@[simp] theorem Block.beginReset_lines (b : Block) (role : Role) : (b.beginReset role).lines = b.lines := rfl
@[simp] theorem Block.beginReset_role (b : Block) (role : Role) : (b.beginReset role).role = b.role := rfl
@[simp] theorem Block.beginReset_buf (b : Block) (role : Role) : (b.beginReset role).buf = b.buf := rfl
@[simp] theorem Block.beginReset_host (b : Block) (role : Role) : (b.beginReset role).host = b.host := rfl
@[simp] theorem Block.beginReset_per (b : Block) (role : Role) : (b.beginReset role).per = b.per := rfl
@[simp] theorem Block.beginReset_spi (b : Block) (role : Role) : (b.beginReset role).spi = b.spi := rfl
@[simp] theorem Block.beginReset_flash (b : Block) (role : Role) : (b.beginReset role).flash = b.flash := rfl
@[simp] theorem Block.beginReset_disp (b : Block) (role : Role) : (b.beginReset role).disp = b.disp := rfl
@[simp] theorem Block.beginReset_sin (b : Block) (role : Role) : (b.beginReset role).sin = b.sin := rfl
@[simp] theorem Block.beginReset_sout (b : Block) (role : Role) : (b.beginReset role).sout = b.sout := rfl
@[simp] theorem Block.beginReset_todo (b : Block) (role : Role) : (b.beginReset role).todo = resetPrims b.par.settleUs role := rfl
@[simp] theorem Block.beginReset_rph (b : Block) (role : Role) : (b.beginReset role).rph = .running := rfl
@[simp] theorem Block.beginReset_smp (b : Block) (role : Role) : (b.beginReset role).smp = b.smp := rfl
@[simp] theorem Block.beginReset_res (b : Block) (role : Role) : (b.beginReset role).res = b.res := rfl
@[simp] theorem Block.beginReset_ubuf (b : Block) (role : Role) : (b.beginReset role).ubuf = b.ubuf := rfl
@[simp] theorem Block.beginReset_calls (b : Block) (role : Role) : (b.beginReset role).calls = b.calls := rfl
@[simp] theorem Block.beginReset_bus (b : Block) (role : Role) : (b.beginReset role).bus = b.bus := rfl

/-! ### `Block.callPortHiZ` -/

@[simp] theorem Block.callPortHiZ_par (b : Block) : (b.callPortHiZ).par = b.par := rfl
@[simp] theorem Block.callPortHiZ_lines (b : Block) : (b.callPortHiZ).lines = b.lines := rfl
@[simp] theorem Block.callPortHiZ_role (b : Block) : (b.callPortHiZ).role = b.role := rfl
@[simp] theorem Block.callPortHiZ_buf (b : Block) : (b.callPortHiZ).buf = b.buf := rfl
@[simp] theorem Block.callPortHiZ_host (b : Block) : (b.callPortHiZ).host = b.host := rfl
@[simp] theorem Block.callPortHiZ_per (b : Block) : (b.callPortHiZ).per = b.per := rfl
@[simp] theorem Block.callPortHiZ_spi (b : Block) : (b.callPortHiZ).spi = b.spi := rfl
@[simp] theorem Block.callPortHiZ_flash (b : Block) : (b.callPortHiZ).flash = b.flash := rfl
@[simp] theorem Block.callPortHiZ_disp (b : Block) : (b.callPortHiZ).disp = b.disp := rfl
@[simp] theorem Block.callPortHiZ_sin (b : Block) : (b.callPortHiZ).sin = b.sin := rfl
@[simp] theorem Block.callPortHiZ_sout (b : Block) : (b.callPortHiZ).sout = b.sout := rfl
@[simp] theorem Block.callPortHiZ_todo (b : Block) : (b.callPortHiZ).todo = portHiZPrims := rfl
@[simp] theorem Block.callPortHiZ_rph (b : Block) : (b.callPortHiZ).rph = .running := rfl
@[simp] theorem Block.callPortHiZ_smp (b : Block) : (b.callPortHiZ).smp = b.smp := rfl
@[simp] theorem Block.callPortHiZ_res (b : Block) : (b.callPortHiZ).res = b.res := rfl
@[simp] theorem Block.callPortHiZ_ubuf (b : Block) : (b.callPortHiZ).ubuf = b.ubuf := rfl
@[simp] theorem Block.callPortHiZ_calls (b : Block) : (b.callPortHiZ).calls = b.calls := rfl
@[simp] theorem Block.callPortHiZ_bus (b : Block) : (b.callPortHiZ).bus = b.bus := rfl

/-! ### `Block.serveDecoded` -/

@[simp] theorem Block.serveDecoded_par (b : Block) (rd ad : Bool) : (b.serveDecoded rd ad).par = b.par := rfl
@[simp] theorem Block.serveDecoded_lines (b : Block) (rd ad : Bool) : (b.serveDecoded rd ad).lines = b.lines := rfl
@[simp] theorem Block.serveDecoded_role (b : Block) (rd ad : Bool) : (b.serveDecoded rd ad).role = b.role := rfl
@[simp] theorem Block.serveDecoded_buf (b : Block) (rd ad : Bool) : (b.serveDecoded rd ad).buf = b.buf := rfl
@[simp] theorem Block.serveDecoded_host (b : Block) (rd ad : Bool) : (b.serveDecoded rd ad).host = b.host := rfl
@[simp] theorem Block.serveDecoded_per (b : Block) (rd ad : Bool) : (b.serveDecoded rd ad).per = { b.per with rd := rd, ad := ad, ph := .drive } := rfl
@[simp] theorem Block.serveDecoded_spi (b : Block) (rd ad : Bool) : (b.serveDecoded rd ad).spi = b.spi := rfl
@[simp] theorem Block.serveDecoded_flash (b : Block) (rd ad : Bool) : (b.serveDecoded rd ad).flash = b.flash := rfl
@[simp] theorem Block.serveDecoded_disp (b : Block) (rd ad : Bool) : (b.serveDecoded rd ad).disp = b.disp := rfl
@[simp] theorem Block.serveDecoded_sin (b : Block) (rd ad : Bool) : (b.serveDecoded rd ad).sin = b.sin := rfl
@[simp] theorem Block.serveDecoded_sout (b : Block) (rd ad : Bool) : (b.serveDecoded rd ad).sout = b.sout := rfl
@[simp] theorem Block.serveDecoded_todo (b : Block) (rd ad : Bool) : (b.serveDecoded rd ad).todo = drivePrims rd b.per.slot := rfl
@[simp] theorem Block.serveDecoded_rph (b : Block) (rd ad : Bool) : (b.serveDecoded rd ad).rph = b.rph := rfl
@[simp] theorem Block.serveDecoded_smp (b : Block) (rd ad : Bool) : (b.serveDecoded rd ad).smp = b.smp := rfl
@[simp] theorem Block.serveDecoded_res (b : Block) (rd ad : Bool) : (b.serveDecoded rd ad).res = b.res := rfl
@[simp] theorem Block.serveDecoded_ubuf (b : Block) (rd ad : Bool) : (b.serveDecoded rd ad).ubuf = b.ubuf := rfl
@[simp] theorem Block.serveDecoded_calls (b : Block) (rd ad : Bool) : (b.serveDecoded rd ad).calls = b.calls := rfl
@[simp] theorem Block.serveDecoded_bus (b : Block) (rd ad : Bool) : (b.serveDecoded rd ad).bus = b.bus := rfl

/-! ### `Block.beginBody` -/

@[simp] theorem Block.beginBody_par (b : Block) : (b.beginBody).par = b.par := rfl
@[simp] theorem Block.beginBody_lines (b : Block) : (b.beginBody).lines = b.lines := rfl
@[simp] theorem Block.beginBody_role (b : Block) : (b.beginBody).role = b.role := rfl
@[simp] theorem Block.beginBody_buf (b : Block) : (b.beginBody).buf = b.buf := rfl
@[simp] theorem Block.beginBody_host (b : Block) : (b.beginBody).host = b.host := rfl
@[simp] theorem Block.beginBody_per (b : Block) : (b.beginBody).per = b.per := rfl
@[simp] theorem Block.beginBody_spi (b : Block) : (b.beginBody).spi = b.spi := rfl
@[simp] theorem Block.beginBody_flash (b : Block) : (b.beginBody).flash = b.flash := rfl
@[simp] theorem Block.beginBody_disp (b : Block) : (b.beginBody).disp = { b.disp with ph := .body, step := .decode, k := 0 } := rfl
@[simp] theorem Block.beginBody_sin (b : Block) : (b.beginBody).sin = b.sin := rfl
@[simp] theorem Block.beginBody_sout (b : Block) : (b.beginBody).sout = b.sout := rfl
@[simp] theorem Block.beginBody_todo (b : Block) : (b.beginBody).todo = b.todo := rfl
@[simp] theorem Block.beginBody_rph (b : Block) : (b.beginBody).rph = b.rph := rfl
@[simp] theorem Block.beginBody_smp (b : Block) : (b.beginBody).smp = b.smp := rfl
@[simp] theorem Block.beginBody_res (b : Block) : (b.beginBody).res = b.res := rfl
@[simp] theorem Block.beginBody_ubuf (b : Block) : (b.beginBody).ubuf = b.ubuf := rfl
@[simp] theorem Block.beginBody_calls (b : Block) : (b.beginBody).calls = b.calls := rfl
@[simp] theorem Block.beginBody_bus (b : Block) : (b.beginBody).bus = b.bus := rfl

/-! ### Lines of one end -/

theorem Lines.get_set_same (ls : Lines) (l : Line) (x : LineState) : (ls.set l x).get l = x := by
  cases l <;> rfl

theorem Lines.get_set_other (ls : Lines) (l m : Line) (x : LineState) (h : m ≠ l) :
    (ls.set l x).get m = ls.get m := by
  cases l <;> cases m <;> first | rfl | exact absurd rfl h

theorem Lines.set_get (ls : Lines) (l : Line) : ls.set l (ls.get l) = ls := by
  cases l <;> rfl

theorem Lines.ext_get {a b : Lines} (h : ∀ l, a.get l = b.get l) : a = b := by
  have e := fun l => h l
  cases a
  cases b
  simp only [Lines.mk.injEq]
  exact ⟨e .d0, e .d1, e .d2, e .d3, e .d4, e .d5, e .d6, e .d7, e .wait, e .wrsel, e .dstb, e .astb, e .rst⟩

theorem Lines.get_setDir (ls : Lines) (l m : Line) (d : Dir) :
    (ls.setDir l d).get m = if m = l then { ls.get l with dir := d } else ls.get m := by
  split
  · next h => subst h; exact ls.get_set_same m _
  · next h => exact ls.get_set_other l m _ h

theorem Lines.get_setLvl (ls : Lines) (l m : Line) (v : Level) :
    (ls.setLvl l v).get m = if m = l then { ls.get l with lat := v } else ls.get m := by
  split
  · next h => subst h; exact ls.get_set_same m _
  · next h => exact ls.get_set_other l m _ h

/-! ### States -/

@[simp] theorem State.noteContention_near (s : State) : s.noteContention.near = s.near := rfl
@[simp] theorem State.noteContention_far (s : State) : s.noteContention.far = s.far := rfl
@[simp] theorem State.noteContention_script (s : State) : s.noteContention.script = s.script := rfl
@[simp] theorem State.noteContention_drawn (s : State) : s.noteContention.drawn = s.drawn := rfl

@[simp] theorem Party.lines_target (t : Target) : (Party.target t).lines = t.lines := rfl
@[simp] theorem Party.lines_block (b : Block) : (Party.block b).lines = b.lines := rfl
@[simp] theorem Party.role_target (t : Target) : (Party.target t).role = none := rfl
@[simp] theorem Party.role_block (b : Block) : (Party.block b).role = some b.role := rfl
@[simp] theorem Party.asPeer_lines (p : Party) : p.asPeer.lines = p.lines := rfl
@[simp] theorem Party.asPeer_role (p : Party) : p.asPeer.role = p.role := rfl

end Sys2Proof.Machine
end

