-- ==== Sys2Proof/Laws/Run.lean ====
section
/-! SUPPORT. Running the system: one turn at a time, sequences of turns, invariants of a run, and how a run ends. -/

namespace Sys2Proof.Machine

/-! ### When a block is not at rest -/

theorem Block.idleBelow_iff (b : Block) :
    b.idleBelow = true ↔
      b.todo = [] ∧ b.rph = .idle ∧ b.host.ph = .idle ∧ b.per.ph = .idle ∧ b.spi.ph = .idle ∧ b.flash.ph = .idle := by
  simp [Block.idleBelow, and_assoc]

theorem Block.atRest_iff (b : Block) :
    b.atRest = true ↔ b.idleBelow = true ∧ (b.disp.ph = .header0 ∨ b.disp.ph = .halted) := by
  simp [Block.atRest]

theorem Block.not_atRest_of_todo {b : Block} {x : Prim} {r : List Prim} (h : b.todo = x :: r) : b.atRest = false := by
  simp [Block.atRest, Block.idleBelow, h]

theorem Block.not_atRest_of_rph {b : Block} (h : b.rph = .running) : b.atRest = false := by
  simp [Block.atRest, Block.idleBelow, h]

theorem Block.not_atRest_of_host {b : Block} (h : b.host.ph ≠ .idle) : b.atRest = false := by
  simp [Block.atRest, Block.idleBelow, h]

theorem Block.not_atRest_of_per {b : Block} (h : b.per.ph ≠ .idle) : b.atRest = false := by
  simp [Block.atRest, Block.idleBelow, h]

theorem Block.not_atRest_of_spi {b : Block} (h : b.spi.ph ≠ .idle) : b.atRest = false := by
  simp [Block.atRest, Block.idleBelow, h]

theorem Block.not_atRest_of_flash {b : Block} (h : b.flash.ph ≠ .idle) : b.atRest = false := by
  simp [Block.atRest, Block.idleBelow, h]

theorem Block.not_atRest_of_disp {b : Block} (h : b.disp.ph ≠ .header0) (h' : b.disp.ph ≠ .halted) :
    b.atRest = false := by
  simp [Block.atRest, h, h']

/-! ### Which sequencer moves -/

/-- Two ends in opposite roles, or an external target at the far end: the step is the block's own. -/
theorem Block.tick_advance {b : Block} {p : Peer} {n : Nat} (h : b.clashes p = false) : b.tick p n = b.advance p n := by
  simp [Block.tick, h]

/-- A step that moves the block is a step of its own. -/
theorem Block.advance_of_moved {b b' : Block} {p : Peer} {n m : Nat} (h : b.tick p n = .moved b' m) :
    b.advance p n = .moved b' m := by
  rw [Block.tick] at h
  split at h
  · cases h
  · exact h

/-- A block that runs no engine operation clashes with nothing. -/
theorem Block.clashes_idle {b : Block} {p : Peer} (hh : b.host.ph = .idle) (hp : b.per.ph = .idle) :
    b.clashes p = false := by
  simp [Block.clashes, hh, hp]

/-- An external target has no role to clash with. -/
theorem Block.clashes_target {b : Block} {p : Peer} (h : p.role = none) : b.clashes p = false := by
  simp [Block.clashes, h]

theorem Block.advance_todo {b : Block} {x : Prim} {r : List Prim} (p : Peer) (n : Nat) (h : b.todo = x :: r) :
    b.advance p n = x.run p n { b with todo := r } := by
  simp [Block.advance, h]

theorem Block.tick_disp {b : Block} (p : Peer) (n : Nat) (h : b.idleBelow = true) : b.tick p n = dispTick p n b := by
  obtain ⟨h, hr, hh, hp, hs, hf⟩ := b.idleBelow_iff.mp h
  rw [Block.tick_advance (Block.clashes_idle hh hp)]
  simp [Block.advance, h, hr, hh, hp, hs, hf]

theorem Block.advance_rph {b : Block} (p : Peer) (n : Nat) (h : b.todo = []) (hr : b.rph = .running) :
    b.advance p n = .moved { b with rph := .idle } n := by
  simp [Block.advance, h, hr]

theorem Block.advance_host {b : Block} (p : Peer) (n : Nat) (h : b.todo = []) (hr : b.rph = .idle)
    (hh : b.host.ph ≠ .idle) : b.advance p n = hostTick p n b := by
  simp [Block.advance, h, hr, hh]

theorem Block.advance_per {b : Block} (p : Peer) (n : Nat) (h : b.todo = []) (hr : b.rph = .idle)
    (hh : b.host.ph = .idle) (hp : b.per.ph ≠ .idle) : b.advance p n = peripheralTick p n b := by
  simp [Block.advance, h, hr, hh, hp]

theorem Block.advance_spi {b : Block} (p : Peer) (n : Nat) (h : b.todo = []) (hr : b.rph = .idle)
    (hh : b.host.ph = .idle) (hp : b.per.ph = .idle) (hs : b.spi.ph ≠ .idle) : b.advance p n = spiTick p n b := by
  simp [Block.advance, h, hr, hh, hp, hs]

theorem Block.advance_flash {b : Block} (p : Peer) (n : Nat) (h : b.todo = []) (hr : b.rph = .idle)
    (hh : b.host.ph = .idle) (hp : b.per.ph = .idle) (hs : b.spi.ph = .idle) (hf : b.flash.ph ≠ .idle) :
    b.advance p n = flashTick p n b := by
  simp [Block.advance, h, hr, hh, hp, hs, hf]

/-! ### Sequences of turns -/

/-- `k` turns lead from `s` to `t`, whatever is run afterwards. -/
def Reaches (k : Nat) (s t : State) : Prop := ∀ f, State.run (k + f) s = State.run f t

theorem Reaches.refl (s : State) : Reaches 0 s s := fun f => by rw [Nat.zero_add]

theorem Reaches.trans {k m : Nat} {s t u : State} (h : Reaches k s t) (h' : Reaches m t u) : Reaches (k + m) s u :=
  fun f => by rw [Nat.add_assoc, h, h']

/-- One turn of a block that is not at rest. -/
theorem Reaches.of_turn {s t : State} (hr : s.near.atRest = false) (ht : s.turn = .moved t) : Reaches 1 s t :=
  fun f => by
    rw [Nat.add_comm, State.run, hr, ht]
    simp

/-- `s` leads to `t` in at most `k` turns. -/
def ReachesWithin (k : Nat) (s t : State) : Prop := ∃ m, m ≤ k ∧ Reaches m s t

theorem ReachesWithin.refl (s : State) : ReachesWithin 0 s s := ⟨0, le_refl _, .refl s⟩

theorem ReachesWithin.trans {k m : Nat} {s t u : State} (h : ReachesWithin k s t) (h' : ReachesWithin m t u) :
    ReachesWithin (k + m) s u := by
  obtain ⟨a, ha, h⟩ := h
  obtain ⟨b, hb, h'⟩ := h'
  exact ⟨a + b, by omega, h.trans h'⟩

theorem ReachesWithin.mono {k m : Nat} {s t : State} (h : ReachesWithin k s t) (hk : k ≤ m) : ReachesWithin m s t := by
  obtain ⟨a, ha, h⟩ := h
  exact ⟨a, by omega, h⟩

theorem Reaches.within {k : Nat} {s t : State} (h : Reaches k s t) : ReachesWithin k s t := ⟨k, le_refl _, h⟩

/-- A run that reaches a state at rest in time ends there. -/
theorem run_of_reaches {k f : Nat} {s t : State} (h : ReachesWithin k s t) (hf : k ≤ f) (hr : t.near.atRest = true) :
    State.run f s = .next t := by
  obtain ⟨m, hm, h⟩ := h
  obtain ⟨d, rfl⟩ := Nat.exists_eq_add_of_le (Nat.le_trans hm hf)
  rw [h]
  cases d <;> simp [State.run, hr]

/-- A run that reaches a stuck state in time stays there (R127). -/
theorem run_of_stuck {k f : Nat} {s t u : State} (h : ReachesWithin k s t) (hf : k < f) (hr : t.near.atRest = false)
    (ht : t.turn = .stuck u) : State.run f s = .next u := by
  obtain ⟨m, hm, h⟩ := h
  obtain ⟨d, rfl⟩ := Nat.exists_eq_add_of_le (show m + 1 ≤ f by omega)
  rw [show m + 1 + d = m + (d + 1) by omega, h]
  simp [State.run, hr, ht]

/-- A run that reaches a refused turn in time is refused. -/
theorem run_of_refused {k f : Nat} {s t : State} {r : Refusal} (h : ReachesWithin k s t) (hf : k < f)
    (hr : t.near.atRest = false) (ht : t.turn = .refused r) : State.run f s = .refused r := by
  obtain ⟨m, hm, h⟩ := h
  obtain ⟨d, rfl⟩ := Nat.exists_eq_add_of_le (show m + 1 ≤ f by omega)
  rw [show m + 1 + d = m + (d + 1) by omega, h]
  simp [State.run, hr, ht]

/-- A property that every turn keeps holds at the end of a run. -/
theorem run_keeps {P : State → Prop}
    (hm : ∀ s t, P s → s.near.atRest = false → s.turn = .moved t → P t)
    (hs : ∀ s t, P s → s.near.atRest = false → s.turn = .stuck t → P t) :
    ∀ f s t, P s → State.run f s = .next t → P t := by
  intro f
  induction f with
  | zero =>
    intro s t h e
    simp only [State.run, Host.Outcome.next.injEq] at e
    exact e ▸ h
  | succ f ih =>
    intro s t h e
    simp only [State.run] at e
    split at e
    · simp only [Host.Outcome.next.injEq] at e
      exact e ▸ h
    · next hr =>
      have hr : s.near.atRest = false := by simpa using hr
      split at e
      · next u hu => exact ih u t (hm s u h hr hu) e
      · next u hu =>
        simp only [Host.Outcome.next.injEq] at e
        exact e ▸ hs s u h hr hu
      · cases e
      · cases e

/-- What a launch does: it runs the started block, or it stops. -/
theorem State.launch_ok {s : State} {b : Block} (hr : s.near.atRest = true) (hd : s.near.disp.ph = .header0) :
    s.launch (.ok b) = State.run Config.burst { s with near := b } := by
  simp [State.launch, hr, hd]

theorem State.launch_error {s : State} {r : Refusal} (hr : s.near.atRest = true) (hd : s.near.disp.ph = .header0) :
    s.launch (.error r) = .refused r := by
  simp [State.launch, hr, hd]

theorem State.launch_next {s t : State} {b : Except Refusal Block} (h : s.launch b = .next t) :
    s.near.atRest = true ∧ s.near.disp.ph = .header0 ∧
      ∃ b', b = .ok b' ∧ State.run Config.burst { s with near := b' } = .next t := by
  simp only [State.launch] at h
  split at h
  · cases h
  · next hd =>
    split at h
    · next hr =>
      cases b with
      | error r => cases h
      | ok b' =>
        refine ⟨hr, ?_, b', rfl, h⟩
        have := (s.near.atRest_iff.mp hr).2
        tauto
    · cases h

/-! ### Turns without the outside world -/

/-- With no script and a far party that does not move by itself, a turn is the near block's tick. -/
theorem State.turn_near {s : State} (hs : s.script = []) (hr : s.far.react s.near.lines s.drawn = none) :
    s.turn = s.tickNear := by
  simp [State.turn, State.react, hs, hr]

/-- A tick of the near block that moves it. -/
theorem State.tickNear_moved {s : State} {b : Block} {n : Nat} (h : s.near.tick s.far.asPeer s.drawn = .moved b n) :
    s.tickNear = .moved
      { s with near := b, drawn := n, contention := s.contention || contended b.lines s.far.lines } := by
  simp [State.tickNear, h, State.noteContention]

/-! ### What a turn can do -/

/-- A move of the outside world always happens. -/
theorem Move.apply_not_stuck {m : Move} {u v : State} : m.apply u ≠ .stuck v := by
  intro e
  cases m with
  | lines ls => simp only [Move.apply] at e; split at e <;> cases e
  | far k =>
    cases k with
    | zero => cases e
    | succ k =>
      simp only [Move.apply, State.moveFar] at e
      split at e
      · cases e
      · split at e <;> cases e
  | _ => cases e

/-- The far party moves by itself: an external target changes, and nothing of the near block or the script does. -/
theorem State.react_some {s t : State} (h : s.react = some t) :
    t.near = s.near ∧ t.script = s.script ∧ ∃ x y, s.far = .target x ∧ t.far = .target y := by
  simp only [State.react, Option.map_eq_some_iff] at h
  obtain ⟨a, ha, rfl⟩ := h
  refine ⟨rfl, rfl, ?_⟩
  cases hf : s.far with
  | block b => rw [hf] at ha; cases ha
  | target x =>
    rw [hf] at ha
    simp only [Party.react, Option.map_eq_some_iff] at ha
    obtain ⟨y, -, rfl⟩ := ha
    exact ⟨x, y.1, rfl, rfl⟩

/-- What a turn that moves is: the far party moves by itself, the near block takes a step and the outside world's next move
comes one primitive nearer, or that move happens. -/
theorem State.turn_moved {s t : State} (h : s.turn = .moved t) :
    s.react = some t ∨
    (∃ u, s.tickNear = .moved u ∧ (t = u ∨ ∃ k m rest, s.script = ⟨.after (k + 1), m⟩ :: rest ∧
      t = { u with script := ⟨.after k, m⟩ :: rest })) ∨
    ∃ e rest u, s.script = e :: rest ∧ (u = s ∨ s.tickNear = .stuck u) ∧
      e.move.apply { u with script := rest } = .moved t := by
  simp only [State.turn] at h
  split at h
  · split at h
    · next hr =>
      simp only [Turn.moved.injEq] at h
      exact .inl (h ▸ hr)
    · exact .inr (.inl ⟨t, h, .inl rfl⟩)
  · next m rest hs => exact .inr (.inr ⟨_, rest, s, hs, .inl rfl, h⟩)
  · next k m rest hs =>
    split at h
    · next hr =>
      simp only [Turn.moved.injEq] at h
      exact .inl (h ▸ hr)
    · split at h
      · next u hu =>
        simp only [Turn.moved.injEq] at h
        exact .inr (.inl ⟨u, hu, .inr ⟨k, m, rest, hs, h.symm⟩⟩)
      · next u hu => exact .inr (.inr ⟨_, rest, u, hs, .inr hu, h⟩)
      all_goals cases h
  · next m rest hs =>
    split at h
    · next hr =>
      simp only [Turn.moved.injEq] at h
      exact .inl (h ▸ hr)
    · split at h
      · next u hu =>
        simp only [Turn.moved.injEq] at h
        exact .inr (.inl ⟨u, hu, .inl h.symm⟩)
      · next u hu => exact .inr (.inr ⟨_, rest, u, hs, .inr hu, h⟩)
      all_goals cases h

/-- A turn is stuck when the near block is and nothing outside is still to come. -/
theorem State.turn_stuck {s t : State} (h : s.turn = .stuck t) : s.script = [] ∧ s.tickNear = .stuck t := by
  simp only [State.turn] at h
  split at h
  · next hs =>
    split at h
    · cases h
    · exact ⟨hs, h⟩
  · exact absurd h Move.apply_not_stuck
  all_goals
    split at h
    · cases h
    · split at h
      · cases h
      · exact absurd h Move.apply_not_stuck
      all_goals cases h

/-- What a tick of the near block is, as a turn. -/
theorem State.tickNear_cases {s t : State} (h : s.tickNear = .moved t) :
    (∃ n, s.near.tick s.far.asPeer s.drawn = .moved t.near n) ∧ t.script = s.script ∧ t.far = s.far := by
  simp only [State.tickNear] at h
  split at h
  · next b n hb =>
    simp only [Turn.moved.injEq] at h
    exact h ▸ ⟨⟨n, hb⟩, rfl, rfl⟩
  all_goals cases h

/-- A near block without a step stays as it is. -/
theorem State.tickNear_stuck {s t : State} (h : s.tickNear = .stuck t) :
    t.near = s.near ∧ t.script = s.script ∧ t.far = s.far := by
  simp only [State.tickNear] at h
  split at h
  · cases h
  · simp only [Turn.stuck.injEq] at h
    exact h ▸ ⟨rfl, rfl, rfl⟩
  all_goals cases h

end Sys2Proof.Machine
end

