-- ==== Sys2Proof/Laws/Blocks.lean ====
section
/-! SUPPORT. A property of a block that its own steps, its reset and what the outside world may hand it keep, holds of every
block of the system after every turn and every run. -/

namespace Sys2Proof.Machine

/-- What keeps a property of a block through anything a turn can do to it. -/
structure Block.Stable (P : Block → Prop) : Prop where
  tick : ∀ (p : Peer) (n m : Nat) (b b' : Block), P b → b.tick p n = .moved b' m → P b'
  sin : ∀ (b : Block) (x : List Byte), P b → P { b with sin := x }
  calls : ∀ (b : Block) (x : List Request), P b → P { b with calls := x }
  reset : ∀ (n : Nat) (b : Block), P b → P (b.blockReset n)

theorem Party.map_blocks {P : Block → Prop} {f : Block → Block} (hf : ∀ b, P b → P (f b)) {p : Party}
    (h : match p with | .target _ => True | .block b => P b) :
    match p.mapBlock f with | .target _ => True | .block b => P b := by
  cases p with
  | target t => trivial
  | block b => exact hf b h

theorem Move.apply_blocks {P : Block → Prop} (hP : Block.Stable P) {m : Move} {s t : State} (hs : s.Blocks P)
    (h : m.apply s = .moved t) : t.Blocks P := by
  cases m with
  | lines ls =>
    simp only [Move.apply] at h
    split at h
    · simp only [Turn.moved.injEq] at h; exact h ▸ ⟨hs.1, trivial⟩
    · simp only [Turn.moved.injEq] at h; exact h ▸ hs
  | far k =>
    cases k with
    | zero => simp only [Move.apply, Turn.moved.injEq] at h; exact h ▸ hs
    | succ k =>
      simp only [Move.apply, State.moveFar] at h
      split at h
      · simp only [Turn.moved.injEq] at h; exact h ▸ hs
      · next b hb =>
        have hb' : P b := by have := hs.2; rw [hb] at this; exact this
        split at h
        · next b' n ht =>
          simp only [Turn.moved.injEq] at h
          exact h ▸ ⟨hs.1, hP.tick _ _ _ _ _ hb' ht⟩
        · simp only [Turn.moved.injEq] at h; exact h ▸ hs
        · cases h
        · cases h
  | serial x => simp only [Move.apply, Turn.moved.injEq] at h; exact h ▸ ⟨hP.sin _ _ hs.1, hs.2⟩
  | farSerial x =>
    simp only [Move.apply, Turn.moved.injEq] at h
    exact h ▸ ⟨hs.1, Party.map_blocks (fun b hb => hP.sin b _ hb) hs.2⟩
  | call q => simp only [Move.apply, Turn.moved.injEq] at h; exact h ▸ ⟨hP.calls _ _ hs.1, hs.2⟩
  | farCall q =>
    simp only [Move.apply, Turn.moved.injEq] at h
    exact h ▸ ⟨hs.1, Party.map_blocks (fun b hb => hP.calls b _ hb) hs.2⟩
  | resetNear => simp only [Move.apply, Turn.moved.injEq] at h; exact h ▸ ⟨hP.reset _ _ hs.1, hs.2⟩
  | resetFar =>
    simp only [Move.apply, Turn.moved.injEq] at h
    exact h ▸ ⟨hs.1, Party.map_blocks (fun b hb => hP.reset _ b hb) hs.2⟩

/-- A turn keeps the property at both ends. -/
theorem State.turn_blocks {P : Block → Prop} (hP : Block.Stable P) {s t : State} (hs : s.Blocks P)
    (h : s.turn = .moved t ∨ s.turn = .stuck t) : t.Blocks P := by
  have tick : ∀ {u : State}, s.tickNear = .moved u → u.Blocks P := by
    intro u hu
    obtain ⟨⟨n, hn⟩, -, hf⟩ := State.tickNear_cases hu
    exact ⟨hP.tick _ _ _ _ _ hs.1 hn, hf ▸ hs.2⟩
  have wait : ∀ {u : State}, s.tickNear = .stuck u → u.Blocks P := by
    intro u hu
    obtain ⟨hn, -, hf⟩ := State.tickNear_stuck hu
    exact ⟨hn ▸ hs.1, hf ▸ hs.2⟩
  rcases h with h | h
  · rcases State.turn_moved h with hr | ⟨u, hu, e⟩ | ⟨e, rest, u, -, hu, hm⟩
    · obtain ⟨hn, -, x, y, -, hy⟩ := State.react_some hr
      refine ⟨hn ▸ hs.1, ?_⟩
      rw [hy]
      trivial
    · rcases e with rfl | ⟨k, m, rest, -, rfl⟩
      · exact tick hu
      · exact (tick hu : State.Blocks P u)
    · refine Move.apply_blocks hP (s := { u with script := rest }) ?_ hm
      rcases hu with rfl | hu
      · exact hs
      · exact (wait hu : State.Blocks P u)
  · exact wait (State.turn_stuck h).2

/-- A run keeps the property at both ends. -/
theorem run_blocks {P : Block → Prop} (hP : Block.Stable P) {f : Nat} {s t : State} (hs : s.Blocks P)
    (h : State.run f s = .next t) : t.Blocks P :=
  run_keeps (P := fun s => s.Blocks P) (fun _ _ hu _ hv => State.turn_blocks hP hu (.inl hv))
    (fun _ _ hu _ hv => State.turn_blocks hP hu (.inr hv)) f s t hs h

end Sys2Proof.Machine
end

