-- ==== Sys2Proof/Laws/Memory.lean ====
section
/-! SUPPORT. The laws of the transfer buffer `BUF` (R24): a read after a write, and that every operation keeps the
canonical form. -/

namespace Sys2Proof.Machine

theorem Memory.read_write_same (m : Memory) (a : Nat) (v : Byte) : (Memory.write m a v).read a = some v := by
  induction m with
  | nil => simp [Memory.write, Memory.read]
  | cons c r ih =>
    obtain ⟨b, w⟩ := c
    simp only [Memory.write]
    split
    · simp [Memory.read]
    · split
      · simp [Memory.read]
      · next _ h =>
        simp only [Memory.read]
        rw [if_neg (fun e => h e.symm), ih]

theorem Memory.read_write_other (m : Memory) (a c : Nat) (v : Byte) (h : c ≠ a) :
    (Memory.write m a v).read c = m.read c := by
  induction m with
  | nil => simp [Memory.write, Memory.read, Ne.symm h]
  | cons x r ih =>
    obtain ⟨b, w⟩ := x
    simp only [Memory.write]
    split
    · simp [Memory.read, Ne.symm h]
    · split
      · next _ e =>
        subst e
        simp [Memory.read, Ne.symm h]
      · simp only [Memory.read, ih]

theorem Memory.wfFrom_mono {lo lo' : Nat} {m : Memory} (hle : lo' ≤ lo) (h : Memory.wfFrom lo m = true) :
    Memory.wfFrom lo' m = true := by
  cases m with
  | nil => rfl
  | cons x r =>
    obtain ⟨b, w⟩ := x
    simp only [Memory.wfFrom, Bool.and_eq_true, decide_eq_true_eq] at h ⊢
    exact ⟨⟨by omega, h.1.2⟩, h.2⟩

theorem Memory.wfFrom_write {lo a : Nat} {m : Memory} {v : Byte} (hlo : lo ≤ a) (ha : a < Config.cap)
    (h : Memory.wfFrom lo m = true) : Memory.wfFrom lo (Memory.write m a v) = true := by
  induction m generalizing lo with
  | nil => simp [Memory.write, Memory.wfFrom, hlo, ha]
  | cons x r ih =>
    obtain ⟨b, w⟩ := x
    simp only [Memory.wfFrom, Bool.and_eq_true, decide_eq_true_eq] at h
    simp only [Memory.write]
    split
    · next hab => simp [Memory.wfFrom, hlo, ha, h.1.2, h.2, Nat.succ_le_of_lt hab]
    · split
      · next e => subst e; simp [Memory.wfFrom, hlo, ha, h.2]
      · next hab hne =>
        simp only [Memory.wfFrom, Bool.and_eq_true, decide_eq_true_eq]
        exact ⟨h.1, ih (by omega) h.2⟩

/-- A write inside the buffer keeps the canonical form. -/
theorem Memory.wf_write {m : Memory} {a : Nat} {v : Byte} (ha : a < Config.cap) (h : m.wf = true) :
    (Memory.write m a v).wf = true :=
  Memory.wfFrom_write (Nat.zero_le a) ha h

/-- Writing a list of bytes inside the buffer keeps the canonical form. -/
theorem Memory.wf_writeAll {m : Memory} {a : Nat} {vs : List Byte} (ha : a + vs.length ≤ Config.cap)
    (h : m.wf = true) : (Memory.writeAll m a vs).wf = true := by
  induction vs generalizing m a with
  | nil => exact h
  | cons v vs ih =>
    simp only [List.length_cons] at ha
    exact ih (by omega) (Memory.wf_write (by omega) h)

theorem Memory.read_writeAll_other {m : Memory} {a c : Nat} {vs : List Byte} (h : c < a ∨ a + vs.length ≤ c) :
    (Memory.writeAll m a vs).read c = m.read c := by
  induction vs generalizing m a with
  | nil => rfl
  | cons v vs ih =>
    simp only [List.length_cons] at h
    simp only [Memory.writeAll]
    rw [ih (by omega), Memory.read_write_other _ _ _ _ (by omega)]

/-- After a list of bytes is written from cell `a` on, cell `a + i` reads byte `i` of the list. -/
theorem Memory.read_writeAll {m : Memory} {a i : Nat} {vs : List Byte} (h : i < vs.length) :
    (Memory.writeAll m a vs).read (a + i) = vs[i]? := by
  induction vs generalizing m a i with
  | nil => simp at h
  | cons v vs ih =>
    simp only [Memory.writeAll]
    cases i with
    | zero =>
      rw [Memory.read_writeAll_other (by omega)]
      simp [Memory.read_write_same]
    | succ i =>
      have e : a + (i + 1) = a + 1 + i := by omega
      rw [e, ih (by simpa using h)]
      simp

theorem reset_buf_wf : State.reset.near.buf.wf = true := rfl

end Sys2Proof.Machine
end

