-- ==== Sys2Proof/Laws/Bounds.lean ====
section
/-! SUPPORT. No operation indexes a buffer outside its bounds (R24): every primitive of a block keeps `Block.InBounds`,
and none of them faults. -/

namespace Sys2Proof.Machine

theorem Block.fits_length {b b' : Block} {r : BufRef} {len : Nat} {rd : Bool} (h : b'.ubuf.length = b.ubuf.length) :
    b'.Fits r len rd ↔ b.Fits r len rd := by
  cases r <;> simp only [Block.Fits, h]

theorem pull_no_store (x : Byte) : Prim.storeHost ∉ dataPullLow x := by
  revert x
  decide +kernel

theorem drive_no_store (rd : Bool) (x : Byte) : Prim.storeHost ∉ drivePrims rd x := by
  revert rd x
  decide +kernel

theorem reset_no_store (us : Nat) (r : Role) : Prim.storeHost ∉ resetPrims us r := by
  cases r <;> simp [resetPrims, resetPulse, portHiZPrims, controlStage, dataIdle, dataLines, allLines]

/-- A buffer write changes only the buffer it refers to, and keeps the length of a caller's buffer. -/
theorem Block.bufWrite_inBounds {b b' : Block} {r : BufRef} {i : Nat} {v : Byte} (h : b.InBounds)
    (hw : b.bufWrite r i v = some b') : b'.InBounds := by
  obtain ⟨hm, hh, hs, hf, hd⟩ := h
  cases r <;> simp only [Block.bufWrite] at hw
  case buf =>
    split at hw
    · next hi =>
      simp only [Option.some.injEq] at hw
      subst hw
      exact ⟨Memory.wf_write hi hm, hh, hs, hf, hd⟩
    · cases hw
  case st =>
    split at hw
    · simp only [Option.some.injEq] at hw
      subst hw
      exact ⟨hm, hh, hs, hf, hd⟩
    · cases hw
  case user =>
    split at hw
    · simp only [Option.some.injEq] at hw
      subst hw
      have hl : ∀ r len rd, ({ b with ubuf := b.ubuf.set i v } : Block).Fits r len rd ↔ b.Fits r len rd :=
        fun _ _ _ => Block.fits_length (by simp)
      refine ⟨hm, ⟨fun hp => ⟨(hh.1 hp).1, (hl _ _ _).2 (hh.1 hp).2⟩, hh.2⟩, fun hp hk => ⟨(hs hp hk).1, (hl _ _ _).2 (hs hp hk).2⟩,
        fun hp ho => ?_, hd⟩
      obtain ⟨h1, h2, h3, h4⟩ := hf hp ho
      exact ⟨h1, h2, (hl _ _ _).2 h3, h4⟩
    · cases hw
  all_goals cases hw

/-- A started transaction over a buffer it fits in. -/
theorem Block.begin_inBounds {b b' : Block} {peer : Option Role} {ref : BufRef} {len : Nat} {rd ac : Bool}
    (h : b.InBounds) (hf : b.Fits ref len rd) (hb : b.beginTransaction peer ref len rd ac = .ok b') : b'.InBounds := by
  simp only [Block.beginTransaction] at hb
  split at hb
  · cases hb
  · split at hb
    · cases hb
    · split at hb
      · cases hb
      · next hl =>
        simp only [Except.ok.injEq] at hb
        subst hb
        have hst : Prim.storeHost ∉ setupPrims rd := by cases rd <;> decide
        exact ⟨h.1, ⟨fun _ => ⟨Nat.le_of_not_lt hl, hf⟩, fun _ => rfl, fun _ hp => absurd rfl hp, fun hm => absurd hm hst⟩, h.2.2⟩

theorem spiCall_inBounds {b b' : Block} {peer : Option Role} {ph : SPhase} (h : b.InBounds)
    (ht : b.spi.kind = .transfer → b.spi.len ≤ Config.cap ∧ b.Fits b.spi.ref b.spi.len b.spi.rd)
    (hb : b.spiCall peer ph = .ok b') : b'.InBounds := by
  have h' : ({ b with spi := { b.spi with ph := ph } } : Block).InBounds :=
    ⟨h.1, h.2.1, fun _ hk => ht hk, h.2.2.2⟩
  cases ph <;> simp only [Block.spiCall, Block.spiEngineCall] at hb
  case idle =>
    simp only [Except.ok.injEq] at hb
    exact hb ▸ h'
  case s1 => exact Block.begin_inBounds h' (by exact ⟨by decide, rfl⟩) hb
  case s2 => split at hb <;> exact Block.begin_inBounds h' (by exact ⟨by decide, rfl⟩) hb
  case s3 => exact Block.begin_inBounds h' (by exact ⟨by decide, rfl⟩) hb
  case s4 =>
    split at hb
    · exact Block.begin_inBounds h' (by exact ⟨by decide, rfl⟩) hb
    · next hk => exact Block.begin_inBounds h' (ht hk).2 hb

theorem beginSpiReset_inBounds {b b' : Block} {peer : Option Role} {first last : SPhase} (h : b.InBounds)
    (hb : b.beginSpiReset peer first last = .ok b') : b'.InBounds := by
  refine spiCall_inBounds (b := { b with spi := { b.spi with kind := .reset, last := last } }) ?_ ?_ hb
  · exact ⟨h.1, h.2.1, (fun _ hk => nomatch hk), h.2.2.2⟩
  · intro hk
    cases hk

theorem beginSpiTransaction_inBounds {b b' : Block} {peer : Option Role} {ref : BufRef} {len : Nat} {rd : Bool}
    {first last : SPhase} (h : b.InBounds) (hf : b.Fits ref len rd)
    (hb : b.beginSpiTransaction peer ref len rd first last = .ok b') : b'.InBounds := by
  simp only [Block.beginSpiTransaction] at hb
  split at hb
  · cases hb
  · next hl =>
    refine spiCall_inBounds ?_ ?_ hb
    · exact ⟨h.1, h.2.1, fun hp => absurd rfl hp, h.2.2.2⟩
    · exact fun _ => ⟨Nat.le_of_not_lt hl, hf⟩

theorem spiTick_inBounds {b b' : Block} {p : Peer} {n n' : Nat} (h : b.InBounds) (hs : b.spi.ph ≠ .idle)
    (hb : spiTick p n b = .moved b' n') : b'.InBounds := by
  simp only [spiTick] at hb
  split at hb
  · simp only [Tick.moved.injEq] at hb
    obtain ⟨rfl, -⟩ := hb
    exact ⟨h.1, h.2.1, fun hp => absurd rfl hp, h.2.2.2⟩
  · cases hc : b.spiCall p.role b.spi.ph.succ with
    | error r => rw [hc] at hb; cases hb
    | ok b1 =>
      rw [hc] at hb
      simp only [Tick.ofBegin, Tick.moved.injEq] at hb
      obtain ⟨rfl, -⟩ := hb
      exact spiCall_inBounds h (fun hk => h.2.2.1 hs hk) hc

theorem hostTick_inBounds {b b' : Block} {p : Peer} {n n' : Nat} (h : b.InBounds)
    (hb : hostTick p n b = .moved b' n') : b'.InBounds := by
  obtain ⟨hm, ⟨h1, h2, h3, h4⟩, hs, hf, hd⟩ := h
  have hfin : Prim.storeHost ∉ finishPrims b.host.rd := by cases b.host.rd <;> decide
  simp only [hostTick] at hb
  split at hb
  · cases hb
  · next hp =>
    split at hb <;> simp only [Tick.moved.injEq] at hb <;> obtain ⟨rfl, -⟩ := hb
    · next hpos =>
      exact ⟨hm, ⟨fun _ => h1 (by simp [hp]), (fun e => nomatch e), fun _ _ _ => (h2 hp).symm ▸ hpos, fun e => by simp [Block.hostTo] at e⟩, hs, hf, hd⟩
    · exact ⟨hm, ⟨fun _ => h1 (by simp [hp]), (fun e => nomatch e), fun _ _ e => absurd rfl e, fun e => absurd e hfin⟩, hs, hf, hd⟩
  · next hp =>
    split at hb
    · cases hb
    · split at hb
      · simp only [Tick.moved.injEq] at hb
        obtain ⟨rfl, -⟩ := hb
        exact ⟨hm, ⟨fun _ => h1 (by simp [hp]), (fun e => nomatch e), fun _ _ _ => h3 (by simp [hp]) (by simp [hp]) (by simp [hp]), fun e => by simp [Block.hostTo] at e⟩, hs, hf, hd⟩
      · split at hb
        · cases hb
        · next x _ _ =>
          simp only [Tick.moved.injEq] at hb
          obtain ⟨rfl, -⟩ := hb
          have hpull : Prim.storeHost ∉ dataPullLow x := pull_no_store x
          exact ⟨hm, ⟨fun _ => h1 (by simp [hp]), (fun e => nomatch e), fun _ _ _ => h3 (by simp [hp]) (by simp [hp]) (by simp [hp]), fun e => absurd e hpull⟩, hs, hf, hd⟩
  · next hp =>
    simp only [Tick.moved.injEq] at hb
    obtain ⟨rfl, -⟩ := hb
    exact ⟨hm, ⟨fun _ => h1 (by simp [hp]), (fun e => nomatch e), fun _ _ _ => h3 (by simp [hp]) (by simp [hp]) (by simp [hp]), fun e => by simp [Block.hostTo] at e⟩, hs, hf, hd⟩
  · next hp =>
    simp only [Tick.moved.injEq] at hb
    obtain ⟨rfl, -⟩ := hb
    exact ⟨hm, ⟨fun _ => h1 (by simp [hp]), (fun e => nomatch e), fun _ _ _ => h3 (by simp [hp]) (by simp [hp]) (by simp [hp]), fun e => by simp [Block.hostTo] at e⟩, hs, hf, hd⟩
  · next hp =>
    split at hb
    · cases hb
    · simp only [Tick.moved.injEq] at hb
      obtain ⟨rfl, -⟩ := hb
      refine ⟨hm, ⟨fun _ => h1 (by simp [hp]), (fun e => nomatch e), fun _ _ _ => h3 (by simp [hp]) (by simp [hp]) (by simp [hp]), fun e => ?_⟩, hs, hf, hd⟩
      refine ⟨rfl, ?_⟩
      show b.host.rd = true
      cases hrd : b.host.rd with
      | true => rfl
      | false => rw [Block.hostTo_todo, hrd] at e; simp at e
  · next hp =>
    simp only [Tick.moved.injEq] at hb
    obtain ⟨rfl, -⟩ := hb
    exact ⟨hm, ⟨fun _ => h1 (by simp [hp]), (fun e => nomatch e), fun _ _ _ => h3 (by simp [hp]) (by simp [hp]) (by simp [hp]), fun e => by simp [Block.hostTo] at e⟩, hs, hf, hd⟩
  · next hp =>
    simp only [Tick.moved.injEq] at hb
    obtain ⟨rfl, -⟩ := hb
    have hi : Prim.storeHost ∉ (if b.host.rd then [] else dataIdle) := by cases b.host.rd <;> decide
    exact ⟨hm, ⟨fun _ => h1 (by simp [hp]), (fun e => nomatch e), fun _ _ _ => h3 (by simp [hp]) (by simp [hp]) (by simp [hp]), fun e => absurd e hi⟩, hs, hf, hd⟩
  · next hp =>
    split at hb <;> simp only [Tick.moved.injEq] at hb <;> obtain ⟨rfl, -⟩ := hb
    · next hlt => exact ⟨hm, ⟨fun _ => h1 (by simp [hp]), (fun e => nomatch e), fun _ _ _ => hlt, fun e => by simp [Block.hostTo] at e⟩, hs, hf, hd⟩
    · exact ⟨hm, ⟨fun _ => h1 (by simp [hp]), (fun e => nomatch e), fun _ _ e => absurd rfl e, fun e => absurd e hfin⟩, hs, hf, hd⟩
  · simp only [Tick.moved.injEq] at hb
    obtain ⟨rfl, -⟩ := hb
    exact ⟨hm, ⟨fun e => absurd rfl e, (fun e => nomatch e), fun e => absurd rfl e, fun e => by simp [Block.hostTo] at e⟩, hs, hf, hd⟩

/-- A block whose host engine is idle and has no steps left. -/
theorem Block.hostInBounds_idle {b : Block} (hh : b.host.ph = .idle) (ht : Prim.storeHost ∉ b.todo) : b.HostInBounds :=
  ⟨fun e => absurd hh e, fun e => by simp [hh] at e, fun e => absurd hh e, fun e => absurd e ht⟩

theorem peripheralTick_inBounds {b b' : Block} {p : Peer} {n n' : Nat} (h : b.InBounds)
    (hh : b.host.ph = .idle) (hb : peripheralTick p n b = .moved b' n') : b'.InBounds := by
  obtain ⟨hm, -, hs, hf, hd⟩ := h
  simp only [peripheralTick] at hb
  split at hb
  · cases hb
  · split at hb <;> simp only [Tick.moved.injEq] at hb <;> obtain ⟨rfl, -⟩ := hb <;>
      exact ⟨hm, Block.hostInBounds_idle hh (by simp [Block.perTo]), hs, hf, hd⟩
  · split at hb
    · simp only [Tick.moved.injEq] at hb
      obtain ⟨rfl, -⟩ := hb
      exact ⟨hm, Block.hostInBounds_idle hh (by simp [Block.perTo]), hs, hf, hd⟩
    · cases hb
  · simp only [Tick.moved.injEq] at hb
    obtain ⟨rfl, -⟩ := hb
    refine ⟨hm, Block.hostInBounds_idle hh ?_, hs, hf, hd⟩
    exact drive_no_store _ _
  · simp only [Tick.moved.injEq] at hb
    obtain ⟨rfl, -⟩ := hb
    exact ⟨hm, Block.hostInBounds_idle hh (by simp [Block.perTo]), hs, hf, hd⟩
  · simp only [Tick.moved.injEq] at hb
    obtain ⟨rfl, -⟩ := hb
    exact ⟨hm, Block.hostInBounds_idle hh (by simp [Block.perTo]), hs, hf, hd⟩
  · split at hb
    · simp only [Tick.moved.injEq] at hb
      obtain ⟨rfl, -⟩ := hb
      refine ⟨hm, Block.hostInBounds_idle hh ?_, hs, hf, hd⟩
      show Prim.storeHost ∉ takePrims b.per.rd
      cases b.per.rd <;> decide
    · cases hb
  · simp only [Tick.moved.injEq] at hb
    obtain ⟨rfl, -⟩ := hb
    exact ⟨hm, Block.hostInBounds_idle hh (by simp [Block.perTo]), hs, hf, hd⟩
  · simp only [Tick.moved.injEq] at hb
    obtain ⟨rfl, -⟩ := hb
    exact ⟨hm, Block.hostInBounds_idle hh (by simp [Block.perTo]), hs, hf, hd⟩

/-- Where the sequencer has its bounds, so has the phase it goes to. -/
def Block.FlashGoes (b : Block) (ph : FPhase) : Prop :=
  b.flash.op ≠ .statusOnly ∨ ph ∉ pollPhases → b.flash.op ≠ .statusOnly ∨ b.flash.ph ∉ pollPhases

/-- A change of phase of the flash sequencer that needs no pair. -/
theorem flashTo_inBounds {b : Block} {ph : FPhase} (h : b.InBounds) (hf : b.flash.ph ≠ .idle) (hg : b.FlashGoes ph)
    (hp : ph ≠ .deselect) : (b.flashTo ph).InBounds :=
  ⟨h.1, h.2.1, h.2.2.1, fun _ ho => ⟨(h.2.2.2.1 hf (hg ho)).1, (h.2.2.2.1 hf (hg ho)).2.1, (h.2.2.2.1 hf (hg ho)).2.2.1,
    fun e => absurd e hp⟩, h.2.2.2.2⟩

theorem flashEnd_inBounds {b : Block} (h : b.InBounds) : (b.flashTo .idle).InBounds :=
  ⟨h.1, h.2.1, h.2.2.1, fun e => absurd rfl e, h.2.2.2.2⟩

theorem flashPoll_inBounds {b b' : Block} {peer : Option Role} (h : b.InBounds) (hf : b.flash.ph ≠ .idle)
    (hg : b.FlashGoes .pollDeselect) (hb : b.flashPoll peer = .ok b') : b'.InBounds :=
  beginSpiReset_inBounds (flashTo_inBounds h hf hg (by decide)) hb

theorem flashNext_inBounds {b b' : Block} {n n' : Nat} {next : Except Refusal Block} (h : b.InBounds)
    (hn : ∀ b1, next = .ok b1 → b1.InBounds) (hb : flashNext n b next = .moved b' n') :
    b'.InBounds := by
  simp only [flashNext] at hb
  split at hb
  · simp only [Tick.moved.injEq] at hb
    obtain ⟨rfl, -⟩ := hb
    exact flashEnd_inBounds h
  · cases next with
    | error r => cases hb
    | ok b1 =>
      simp only [Tick.ofBegin, Tick.moved.injEq] at hb
      obtain ⟨rfl, -⟩ := hb
      exact hn _ rfl

theorem ofBegin_inBounds {b' : Block} {n n' : Nat} {next : Except Refusal Block}
    (hn : ∀ b1, next = .ok b1 → b1.InBounds) (hb : Tick.ofBegin n next = .moved b' n') : b'.InBounds := by
  cases next with
  | error r => cases hb
  | ok b1 =>
    simp only [Tick.ofBegin, Tick.moved.injEq] at hb
    obtain ⟨rfl, -⟩ := hb
    exact hn _ rfl

theorem flashTick_inBounds {b b' : Block} {p : Peer} {n n' : Nat} (h : b.InBounds) (hf : b.flash.ph ≠ .idle)
    (hb : flashTick p n b = .moved b' n') : b'.InBounds := by
  have hfl := h.2.2.2.1 hf
  have hin : ∀ {ph : FPhase}, b.flash.ph ∉ pollPhases → b.FlashGoes ph := fun e _ => .inr e
  have hpoll : ∀ {ph : FPhase}, ph ∈ pollPhases → b.FlashGoes ph := fun e ho => ho.elim .inl fun e' => absurd e e'
  simp only [flashTick] at hb
  split at hb
  · cases hb
  · next hp =>
    have hq : b.flash.ph ∉ pollPhases := by rw [hp]; decide
    split at hb
    · next hi =>
      refine ofBegin_inBounds (fun b1 e => beginSpiReset_inBounds ?_ e) hb
      have hfl := hfl (.inr hq)
      exact ⟨h.1, h.2.1, h.2.2.1, fun _ _ => ⟨hfl.1, hfl.2.1, hfl.2.2.1, fun _ => hi⟩, h.2.2.2.2⟩
    · simp only [Tick.moved.injEq] at hb
      obtain ⟨rfl, -⟩ := hb
      exact flashTo_inBounds h hf (hin hq) (by decide)
  · next hp =>
    have hq : b.flash.ph ∉ pollPhases := by rw [hp]; decide
    have hfl := hfl (.inr hq)
    split at hb
    · simp only [Tick.moved.injEq] at hb
      obtain ⟨rfl, -⟩ := hb
      exact flashEnd_inBounds h
    · split at hb
      · cases hb
      · next d e _ _ =>
        refine ofBegin_inBounds (fun b1 eq => ?_) hb
        split at eq
        · refine beginSpiTransaction_inBounds (b := { b with flash := { b.flash with cmd := incrCmd b.flash.cmd d e, ph := .incr } }) ?_
            (by exact ⟨by decide, rfl⟩) eq
          exact ⟨h.1, h.2.1, h.2.2.1, fun _ _ => ⟨hfl.1, hfl.2.1, hfl.2.2.1, fun e => nomatch e⟩, h.2.2.2.2⟩
        · refine beginSpiTransaction_inBounds (b := { b with flash := { b.flash with cmd := seedCmd d e, ph := .seed } }) ?_
            (by exact ⟨by decide, rfl⟩) eq
          exact ⟨h.1, h.2.1, h.2.2.1, fun _ _ => ⟨hfl.1, hfl.2.1, hfl.2.2.1, fun e => nomatch e⟩, h.2.2.2.2⟩
  · next hp =>
    have hq : b.flash.ph ∉ pollPhases := by rw [hp]; decide
    have h' : ({ b with flash := { b.flash with init := true } } : Block).InBounds := ⟨h.1, h.2.1, h.2.2.1, h.2.2.2.1, h.2.2.2.2⟩
    refine flashNext_inBounds h (fun b1 e => ?_) hb
    split at e
    · simp only [Except.ok.injEq] at e
      exact e ▸ flashEnd_inBounds h'
    · exact flashPoll_inBounds h' hf (fun _ => .inr hq) e
  · next hp =>
    have hq : b.flash.ph ∉ pollPhases := by rw [hp]; decide
    refine flashNext_inBounds h (fun b1 e => ?_) hb
    split at e
    · simp only [Except.ok.injEq] at e
      exact e ▸ flashEnd_inBounds h
    · exact flashPoll_inBounds h hf (hin hq) e
  · refine flashNext_inBounds h (fun b1 e => ?_) hb
    refine beginSpiTransaction_inBounds (b := { b with flash := { b.flash with st := Config.rdsrOp, ph := .pollCmd } }) ?_ (by exact Nat.le_refl 1) e
    refine ⟨h.1, h.2.1, h.2.2.1, fun _ ho => ?_, h.2.2.2.2⟩
    have hfl := hfl (hpoll (ph := .pollCmd) (by decide) ho)
    exact ⟨hfl.1, hfl.2.1, hfl.2.2.1, fun e => nomatch e⟩
  · refine flashNext_inBounds h (fun b1 e => ?_) hb
    exact beginSpiTransaction_inBounds (flashTo_inBounds h hf (hpoll (by decide)) (by decide)) (by exact Nat.le_refl 1) e
  · refine flashNext_inBounds h (fun b1 e => ?_) hb
    simp only [Except.ok.injEq] at e
    subst e
    split
    · exact flashEnd_inBounds h
    · next hop => exact flashTo_inBounds h hf (fun _ => .inl hop) (by decide)
  · next hp =>
    have hq : b.flash.ph ∉ pollPhases := by rw [hp]; decide
    split at hb
    · exact ofBegin_inBounds (fun b1 e => flashPoll_inBounds h hf (hin hq) e) hb
    · simp only [Tick.moved.injEq] at hb
      obtain ⟨rfl, -⟩ := hb
      have hfl := hfl (.inr hq)
      exact ⟨h.1, h.2.1, h.2.2.1, fun _ _ => ⟨hfl.1, hfl.2.1, hfl.2.2.1, fun e => nomatch e⟩, h.2.2.2.2⟩
  · simp only [Tick.moved.injEq] at hb
    obtain ⟨rfl, -⟩ := hb
    exact ⟨h.1, h.2.1, h.2.2.1, fun e => absurd rfl e, h.2.2.2.2⟩

/-! ### The dispatcher and the starts of operations -/

@[simp] theorem DispRegs.hasLength_iff (d : DispRegs) :
    d.HasLength ↔ (d.ph = .header1 ∧ d.step = .clearProg) ∨ d.ph = .body ∨ (d.ph = .exec ∧ ∀ r, d.step ≠ .aborting r) ∨
      d.ph = .respond := Iff.rfl

/-- A passage of the dispatcher whose new phase indexes nothing. -/
theorem dispTo_inBounds {b : Block} {ph : DPhase} {st : DStep} {k : Nat} (h : b.InBounds)
    (hd : ((b.dispTo ph st k).disp.HasLength → 0 < b.disp.len ∧ b.disp.len ≤ Config.cap) ∧
      (ph = .exec ∧ st = .fill → k < b.disp.len)) : (b.dispTo ph st k).InBounds :=
  ⟨h.1, h.2.1, h.2.2.1, h.2.2.2.1, hd⟩

/-- The dispatcher's registers replaced by some that keep the length, in a phase that indexes nothing. -/
theorem disp_inBounds {b : Block} {d : DispRegs} (h : b.InBounds)
    (hl : d.HasLength → 0 < d.len ∧ d.len ≤ Config.cap) (hp : ¬(d.ph = .exec ∧ d.step = .fill)) :
    ({ b with disp := d } : Block).InBounds :=
  ⟨h.1, h.2.1, h.2.2.1, h.2.2.2.1, hl, fun e => absurd e hp⟩

/-- The length a header assembles is legal (R93). -/
theorem clampedLength_legal (y : Byte) : 0 < clampedLength y ∧ clampedLength y ≤ Config.cap :=
  ⟨by simp [clampedLength, Config.cap], Nat.min_le_right _ _⟩

theorem endCommand_inBounds {b : Block} (h : b.InBounds) : b.endCommand.InBounds :=
  dispTo_inBounds h ⟨fun e => by simp at e, fun e => by simp at e⟩

/-- A block of a command whose length is legal. -/
theorem dispTo_len_inBounds {b : Block} {ph : DPhase} {st : DStep} {k : Nat} (h : b.InBounds)
    (hl : 0 < b.disp.len ∧ b.disp.len ≤ Config.cap) (hp : ¬(ph = .exec ∧ st = .fill) ∨ k = 0) :
    (b.dispTo ph st k).InBounds :=
  dispTo_inBounds h ⟨fun _ => hl, fun e => by
    rcases hp with hp | hp
    · exact absurd e hp
    · exact hp ▸ hl.1⟩

theorem beginBusData_inBounds {b b' : Block} {peer : Option Role} (h : b.InBounds)
    (hl : 0 < b.disp.len ∧ b.disp.len ≤ Config.cap) (hb : b.beginBusData peer = .ok b') : b'.InBounds :=
  Block.begin_inBounds (dispTo_len_inBounds h hl (.inl (by decide))) (by exact hl.2) hb

theorem beginBus_inBounds {b b' : Block} {peer : Option Role} (h : b.InBounds)
    (hl : 0 < b.disp.len ∧ b.disp.len ≤ Config.cap) (hb : b.beginBus peer = .ok b') : b'.InBounds := by
  simp only [Block.beginBus] at hb
  split at hb
  · exact Block.begin_inBounds (dispTo_len_inBounds h hl (.inl (by decide))) (by exact ⟨by decide, rfl⟩) hb
  · exact beginBusData_inBounds h hl hb

theorem beginFlash_inBounds {b b' : Block} {ref : BufRef} {len : Nat} {init : Bool} (h : b.InBounds)
    (hr : ref = .buf ∨ ref = .user) (hf : b.Fits ref len false) (hb : b.beginFlash ref len init = .ok b') : b'.InBounds := by
  simp only [Block.beginFlash] at hb
  split at hb
  · cases hb
  · split at hb
    · cases hb
    · next hl =>
      simp only [Except.ok.injEq] at hb
      subst hb
      exact ⟨h.1, h.2.1, h.2.2.1, fun _ _ => ⟨Nat.le_of_not_lt hl, hr, hf, fun e => nomatch e⟩, h.2.2.2.2⟩

theorem afterBody_inBounds {b b' : Block} {peer : Option Role} (h : b.InBounds)
    (hl : 0 < b.disp.len ∧ b.disp.len ≤ Config.cap) (hb : b.afterBody peer = .ok b') : b'.InBounds := by
  simp only [Block.afterBody] at hb
  split at hb
  · exact beginBus_inBounds h hl hb
  · split at hb
    · exact beginFlash_inBounds (dispTo_len_inBounds h hl (.inl (by decide))) (.inl rfl) (by exact hl.2) hb
    · simp only [Except.ok.injEq] at hb
      exact hb ▸ dispTo_len_inBounds h hl (.inl (by decide))

theorem beginB_inBounds {b : Block} (h : b.InBounds) (hl : 0 < b.disp.len ∧ b.disp.len ≤ Config.cap) :
    b.beginB.InBounds := dispTo_len_inBounds h hl (.inr rfl)

theorem beginC_inBounds {b : Block} (h : b.InBounds) (hl : 0 < b.disp.len ∧ b.disp.len ≤ Config.cap) :
    b.beginC.InBounds := by
  simp only [Block.beginC]
  split
  · exact dispTo_len_inBounds h hl (.inl (by decide))
  · exact endCommand_inBounds h

theorem beginCommand_inBounds {b b' : Block} {peer : Option Role} (h : b.InBounds)
    (hl : 0 < b.disp.len ∧ b.disp.len ≤ Config.cap) (hb : b.beginCommand peer = .ok b') : b'.InBounds := by
  have hbody : b.beginBody.InBounds := dispTo_len_inBounds h hl (.inr rfl)
  simp only [Block.beginCommand] at hb
  repeat' split at hb
  all_goals first
    | exact beginBus_inBounds h hl hb
    | (simp only [Except.ok.injEq] at hb
       subst hb
       first
         | exact hbody
         | exact beginB_inBounds h hl
         | exact dispTo_len_inBounds h hl (.inl (by decide))
         | exact beginC_inBounds h hl)

theorem header_inBounds {b : Block} {x y : Byte} (h : b.InBounds) :
    (b.header x y).InBounds ∧ 0 < (b.header x y).disp.len ∧ (b.header x y).disp.len ≤ Config.cap := by
  have hl := clampedLength_legal y
  exact ⟨disp_inBounds h (fun _ => hl) (by simp), hl⟩

theorem lengthArg_ok {buf : List Byte} {n : Int} {len : Nat} (h : lengthArg buf n = .ok len) :
    len ≤ Config.cap ∧ len ≤ buf.length ∧ n = len := by
  simp only [lengthArg] at h
  split at h
  · cases h
  · next h1 =>
    split at h
    · cases h
    · next h2 =>
      simp only [Except.ok.injEq] at h
      subst h
      rw [not_or] at h1
      exact ⟨by omega, by omega, by omega⟩

/-- A caller's buffer put in place at a block with nothing running. -/
theorem ubuf_inBounds {b : Block} {buf : List Byte} (h : b.InBounds) (hi : b.idleBelow = true) :
    ({ b with ubuf := buf } : Block).InBounds := by
  obtain ⟨ht, -, hh, -, hs, hf⟩ := b.idleBelow_iff.mp hi
  exact ⟨h.1, Block.hostInBounds_idle hh (by simp [ht]), fun e => absurd hs e, fun e => absurd hf e, h.2.2.2.2⟩

theorem callTransaction_inBounds {b b' : Block} {peer : Option Role} {buf : List Byte} {n : Int} {rd ac : Bool}
    (h : b.InBounds) (hi : b.idleBelow = true) (hb : b.callTransaction peer buf n rd ac = .ok b') : b'.InBounds := by
  simp only [Block.callTransaction] at hb
  split at hb
  · cases hb
  · next len hl => exact Block.begin_inBounds (ubuf_inBounds h hi) (by exact (lengthArg_ok hl).2.1) hb

theorem callSpiTransaction_inBounds {b b' : Block} {peer : Option Role} {buf : List Byte} {n : Int} {rd : Bool}
    {first last : SPhase} (h : b.InBounds) (hi : b.idleBelow = true)
    (hb : b.callSpiTransaction peer buf n rd first last = .ok b') : b'.InBounds := by
  simp only [Block.callSpiTransaction] at hb
  split at hb
  · cases hb
  · next len hl => exact beginSpiTransaction_inBounds (ubuf_inBounds h hi) (by exact (lengthArg_ok hl).2.1) hb

theorem serve_inBounds {b b' : Block} {peer : Option Role} {rd ad : Bool} (h : b.InBounds) (hi : b.idleBelow = true)
    (hb : (b.peripheralGuard peer).map (Block.serveDecoded rd ad) = .ok b') : b'.InBounds := by
  obtain ⟨-, -, hh, -, -, -⟩ := b.idleBelow_iff.mp hi
  simp only [Block.peripheralGuard] at hb
  split at hb
  · cases hb
  · split at hb
    · cases hb
    · simp only [Except.map, Except.ok.injEq] at hb
      subst hb
      exact ⟨h.1, Block.hostInBounds_idle hh (drive_no_store _ _), h.2.2⟩

theorem callCycle_inBounds {b b' : Block} {peer : Option Role} {rd ad : Bool} {x : Byte} (h : b.InBounds)
    (hi : b.idleBelow = true) (hb : b.callCycle peer rd ad x = .ok b') : b'.InBounds := by
  simp only [Block.callCycle] at hb
  split at hb
  · exact Block.begin_inBounds (ubuf_inBounds h hi) (by exact Nat.le_refl 1) hb
  · exact serve_inBounds h hi hb

theorem beginPeripheralCycle_inBounds {b b' : Block} {peer : Option Role} (h : b.InBounds) (hh : b.host.ph = .idle)
    (hb : b.beginPeripheralCycle peer = .ok b') : b'.InBounds := by
  simp only [Block.beginPeripheralCycle, Block.peripheralGuard] at hb
  split at hb
  · cases hb
  · split at hb
    · cases hb
    · simp only [Except.map, Except.ok.injEq] at hb
      subst hb
      exact ⟨h.1, Block.hostInBounds_idle hh (by simp [Block.perTo]), h.2.2⟩

/-- The primitives of a line sequence put in place at a block whose host engine is idle. -/
theorem lineSequence_inBounds {b : Block} {todo : List Prim} (h : b.InBounds) (hh : b.host.ph = .idle)
    (ht : Prim.storeHost ∉ todo) : ({ b with todo := todo, rph := .running } : Block).InBounds :=
  ⟨h.1, Block.hostInBounds_idle hh ht, h.2.2⟩

theorem enterAbort_inBounds {b : Block} {r : Int} (h : b.InBounds) (hh : b.host.ph = .idle) :
    (b.enterAbort r).InBounds :=
  ⟨h.1, Block.hostInBounds_idle hh (by show Prim.storeHost ∉ portHiZPrims; decide), h.2.2.1, h.2.2.2.1, by
    constructor
    · rintro (⟨e, -⟩ | e | ⟨-, e⟩ | e)
      · cases e
      · cases e
      · exact absurd rfl (e r)
      · cases e
    · rintro ⟨-, e⟩
      cases e⟩

/-- The start of any operation keeps the bounds. -/
theorem start_inBounds {b b' : Block} {peer : Option Role} {i : Instr} (h : b.InBounds) (hi : b.idleBelow = true)
    (hb : b.start peer i = .ok b') : b'.InBounds := by
  obtain ⟨-, -, hh, -, hs, hf⟩ := b.idleBelow_iff.mp hi
  have hfl : ∀ fl : FlashRegs, fl.ph = .idle → ({ b with flash := fl } : Block).InBounds := fun fl e =>
    ⟨h.1, h.2.1, h.2.2.1, fun e' => absurd e e', h.2.2.2.2⟩
  have hok : ∀ b1 : Block, b1.InBounds → Except.ok b1 = Except.ok (ε := Refusal) b' → b'.InBounds := by
    intro b1 h1 e
    simp only [Except.ok.injEq] at e
    exact e ▸ h1
  cases i <;> simp only [Block.start] at hb
  case cmdA a => exact hok _ (header_inBounds h).1 hb
  case cmdB x => exact hok _ (header_inBounds h).1 hb
  case cmdC x => exact hok _ (header_inBounds h).1 hb
  case cmdE x => exact hok _ (header_inBounds h).1 hb
  case cmdP x => exact hok _ (header_inBounds h).1 hb
  case cmdR x => exact hok _ (header_inBounds h).1 hb
  case cmdW x => exact hok _ (header_inBounds h).1 hb
  case unrecognized c x => exact hok _ (header_inBounds h).1 hb
  case cycleAddressWrite x => exact callCycle_inBounds h hi hb
  case cycleAddressRead => exact callCycle_inBounds h hi hb
  case cycleDataWrite x => exact callCycle_inBounds h hi hb
  case cycleDataRead => exact callCycle_inBounds h hi hb
  case cycleReserved w =>
    simp only [Block.startCycleReserved, Block.callReserved] at hb
    split at hb
    · cases hb
    · exact serve_inBounds h hi hb
  case noCycle w => exact hok _ h hb
  case write buf n => exact callTransaction_inBounds h hi hb
  case setAddress buf n => exact callTransaction_inBounds h hi hb
  case read buf n => exact callTransaction_inBounds h hi hb
  case getAddress buf n => exact callTransaction_inBounds h hi hb
  case ptChipDisable => exact beginSpiReset_inBounds h hb
  case ptDataClear => exact beginSpiReset_inBounds h hb
  case ptChipEnable => exact beginSpiTransaction_inBounds h (by exact Nat.zero_le _) hb
  case ptPayload buf n rd => exact callSpiTransaction_inBounds h hi hb
  case flashAaiSeed d e =>
    simp only [Block.startFlashAaiSeed, Block.callSeed, Block.flashDeselect] at hb
    refine beginSpiReset_inBounds ?_ hb
    have h1 := ubuf_inBounds (buf := [d, e]) h hi
    exact ⟨h1.1, h1.2.1, h1.2.2.1, fun _ _ => ⟨show 2 ≤ Config.cap by decide, .inr rfl, Nat.le_refl 2, fun _ => show 0 + 1 < 2 by decide⟩, h1.2.2.2.2⟩
  case flashAaiIncrement d e =>
    simp only [Block.startFlashAaiIncrement, Block.callIncr, Block.flashDeselect] at hb
    refine beginSpiReset_inBounds ?_ hb
    have h1 := ubuf_inBounds (buf := [d, e]) h hi
    exact ⟨h1.1, h1.2.1, h1.2.2.1, fun _ _ => ⟨show 2 ≤ Config.cap by decide, .inr rfl, Nat.le_refl 2, fun _ => show 0 + 1 < 2 by decide⟩, h1.2.2.2.2⟩
  case flashReadStatus =>
    simp only [Block.startFlashReadStatus, Block.callStatus, Block.flashPoll] at hb
    refine beginSpiReset_inBounds ?_ hb
    exact ⟨h.1, h.2.1, h.2.2.1, fun _ e => e.elim (absurd rfl) (absurd (show FPhase.pollDeselect ∈ pollPhases by decide)), h.2.2.2.2⟩
  case portHiZ => exact hok _ (lineSequence_inBounds h hh (by decide)) hb
  case reset r => exact hok _ (lineSequence_inBounds h hh (reset_no_store _ _)) hb
  case transaction buf n rd ac => exact callTransaction_inBounds h hi hb
  case peripheralCycle x =>
    simp only [Block.startPeripheralCycle, Block.callPeripheralCycle] at hb
    exact beginPeripheralCycle_inBounds (by exact ⟨h.1, h.2.1, h.2.2⟩) (by exact hh) hb
  case spiReset => exact beginSpiReset_inBounds h hb
  case spiTransaction buf n rd => exact callSpiTransaction_inBounds h hi hb
  case flashProgram buf n init =>
    simp only [Block.startFlashProgram, Block.callFlashProgram] at hb
    split at hb
    · cases hb
    · next len hl => exact beginFlash_inBounds (ubuf_inBounds h hi) (.inr rfl) (by exact (lengthArg_ok hl).2.1) hb
  case abort r =>
    simp only [Block.startAbort, Block.callAbort] at hb
    split at hb
    · exact hok _ (enterAbort_inBounds h hh) hb
    · cases hb

/-- One byte of the fill of 'B' keeps the bounds. -/
theorem fillTick_inBounds {b b' : Block} {n n' : Nat} (h : b.InBounds)
    (hl : 0 < b.disp.len ∧ b.disp.len ≤ Config.cap) (hb : fillTick n b = .moved b' n') : b'.InBounds := by
  simp only [fillTick] at hb
  split at hb
  · cases hb
  · next b1 hw =>
    have h1 := Block.bufWrite_inBounds h hw
    have hd : b1.disp = b.disp := by
      simp only [Block.bufWrite] at hw
      split at hw
      · simp only [Option.some.injEq] at hw
        rw [← hw]
      · cases hw
    simp only [Tick.moved.injEq] at hb
    obtain ⟨rfl, -⟩ := hb
    split
    · next hk => exact dispTo_inBounds h1 ⟨fun _ => hd ▸ hl, fun _ => hd ▸ hk⟩
    · exact dispTo_len_inBounds h1 (hd ▸ hl) (.inl (by decide))

theorem execTick_inBounds {b b' : Block} {p : Peer} {n n' : Nat} (h : b.InBounds) (hi : b.idleBelow = true)
    (hp : b.disp.ph = .exec) (hb : execTick p n b = .moved b' n') : b'.InBounds := by
  obtain ⟨-, -, hh, -, -, -⟩ := b.idleBelow_iff.mp hi
  have hl : (∀ r, b.disp.step ≠ .aborting r) → 0 < b.disp.len ∧ b.disp.len ≤ Config.cap :=
    fun e => h.2.2.2.2.1 (.inr (.inr (.inl ⟨hp, e⟩)))
  have moved : ∀ {b1 : Block}, b1.InBounds → Tick.moved b1 n = .moved b' n' → b'.InBounds := by
    intro b1 h1 e
    simp only [Tick.moved.injEq] at e
    exact e.1 ▸ h1
  simp only [execTick] at hb
  split at hb
  · cases hb
  · cases hb
  · cases hb
  · cases hb
  · next hs => exact ofBegin_inBounds (fun b1 e => beginCommand_inBounds h (hl (by simp [hs])) e) hb
  · next hs => exact moved (disp_inBounds (d := (b.setPendAddr.dispTo .exec .pendValid 0).disp) h (fun _ => hl (by simp [hs])) (by simp)) hb
  · exact moved (disp_inBounds (d := b.setPendValid.endCommand.disp) h (fun e => by simp at e) (by simp)) hb
  · next hs => exact fillTick_inBounds h (hl (by simp [hs])) hb
  · next hs =>
    refine moved ?_ hb
    split
    · exact enterAbort_inBounds h hh
    · exact disp_inBounds (d := (b.clearPending.dispTo .exec .sendData 0).disp) h (fun _ => hl (by simp [hs])) (by simp)
  · next hs => exact ofBegin_inBounds (fun b1 e => beginBusData_inBounds h (hl (by simp [hs])) e) hb
  · next hs =>
    refine moved ?_ hb
    split
    · exact enterAbort_inBounds h hh
    · exact dispTo_len_inBounds h (hl (by simp [hs])) (.inl (by decide))
  · next hs => exact moved (disp_inBounds (d := (b.setProgActive.dispTo .exec .flashTest 0).disp) h (fun _ => hl (by simp [hs])) (by simp)) hb
  · next hs =>
    refine moved ?_ hb
    split
    · exact enterAbort_inBounds h hh
    · exact dispTo_len_inBounds h (hl (by simp [hs])) (.inl (by decide))
  · next hs =>
    simp only [Tick.moved.injEq] at hb
    obtain ⟨rfl, -⟩ := hb
    exact dispTo_len_inBounds (by exact ⟨h.1, h.2.1, h.2.2⟩) (hl (by simp [hs])) (.inl (by decide))
  · exact moved (dispTo_inBounds (by exact ⟨h.1, h.2.1, h.2.2⟩) ⟨fun e => by simp at e, fun e => by simp at e⟩) hb

/-- Every step of `D_HEADER1` keeps the bounds. -/
theorem header1Tick_inBounds {b b' : Block} {n n' : Nat} (h : b.InBounds) (hp : b.disp.ph = .header1)
    (hb : header1Tick n b = .moved b' n') : b'.InBounds := by
  simp only [header1Tick] at hb
  split at hb
  · simp only [Tick.moved.injEq] at hb
    obtain ⟨rfl, -⟩ := hb
    exact disp_inBounds (d := b.latchLength.disp) h (fun _ => clampedLength_legal _) (by simp [hp])
  · split at hb
    · next hs =>
      simp only [Tick.moved.injEq] at hb
      obtain ⟨rfl, -⟩ := hb
      exact disp_inBounds (d := b.clearProg.disp) h (fun _ => h.2.2.2.2.1 (.inl ⟨hp, hs⟩)) (by simp)
    · split at hb
      · cases hb
      · next x rest _ =>
        simp only [Tick.moved.injEq] at hb
        obtain ⟨rfl, -⟩ := hb
        exact disp_inBounds (b := { b with sin := rest }) (d := (b.headerRead x).disp) ⟨h.1, h.2.1, h.2.2⟩
          (fun e => by simp [hp] at e) (by simp [hp])

/-- Every step of `D_BODY` keeps the bounds. -/
theorem bodyTick_inBounds {b b' : Block} {p : Peer} {n n' : Nat} (h : b.InBounds) (hp : b.disp.ph = .body)
    (hb : bodyTick p n b = .moved b' n') : b'.InBounds := by
  have hl := h.2.2.2.2.1 (.inr (.inl hp))
  simp only [bodyTick] at hb
  split at hb
  · split at hb
    · cases hb
    · next x rest _ =>
      split at hb
      · cases hb
      · next b1 hw =>
        have h1 : b1.InBounds := Block.bufWrite_inBounds (b := { b with sin := rest }) ⟨h.1, h.2.1, h.2.2⟩ hw
        have hd : b1.disp = b.disp := by
          simp only [Block.bufWrite] at hw
          split at hw
          · simp only [Option.some.injEq] at hw
            rw [← hw]
          · cases hw
        simp only [Tick.moved.injEq] at hb
        obtain ⟨rfl, -⟩ := hb
        exact dispTo_len_inBounds h1 (hd ▸ hl) (.inl (by decide))
  · exact ofBegin_inBounds (fun b2 e => afterBody_inBounds h hl e) hb

/-- Every step of the console between its cycles keeps the bounds. -/
theorem consoleTick_inBounds {b b' : Block} {p : Peer} {n n' : Nat} (h : b.InBounds) (hh : b.host.ph = .idle)
    (hb : consoleTick p n b = .moved b' n') : b'.InBounds := by
  have hto : ∀ {b1 : Block} (st : DStep), b1.InBounds → (b1.dispTo .console st 0).InBounds := fun st h1 =>
    dispTo_inBounds h1 ⟨fun e => by simp at e, fun e => by simp at e⟩
  simp only [consoleTick] at hb
  split at hb
  · exact ofBegin_inBounds (fun b1 e => beginPeripheralCycle_inBounds (hto _ h) hh e) hb
  · simp only [Tick.moved.injEq] at hb
    obtain ⟨rfl, -⟩ := hb
    refine hto _ ?_
    split
    · exact ⟨h.1, h.2.1, h.2.2⟩
    · exact h

theorem respondTick_inBounds {b b' : Block} {n n' : Nat} (h : b.InBounds) (hi : b.idleBelow = true)
    (hp : b.disp.ph = .respond) (hb : respondTick n b = .moved b' n') : b'.InBounds := by
  obtain ⟨-, -, hh, -, -, -⟩ := b.idleBelow_iff.mp hi
  have hl := h.2.2.2.2.1 (.inr (.inr (.inr hp)))
  have h' : ∀ x, ({ b with sout := x } : Block).InBounds := fun x => ⟨h.1, h.2.1, h.2.2⟩
  simp only [respondTick] at hb
  repeat' split at hb
  all_goals first
    | cases hb
      done
    | skip
  all_goals
    simp only [Tick.moved.injEq] at hb
    obtain ⟨rfl, -⟩ := hb
  · exact dispTo_len_inBounds (h' _) hl (.inl (by decide))
  · exact lineSequence_inBounds (dispTo_len_inBounds h hl (.inl (by decide))) hh (reset_no_store _ _)
  · exact endCommand_inBounds (h' _)
  · exact dispTo_len_inBounds (h' _) hl (.inl (by decide))
  · exact endCommand_inBounds h

theorem dispTick_inBounds {b b' : Block} {p : Peer} {n n' : Nat} (h : b.InBounds) (hi : b.idleBelow = true)
    (hb : dispTick p n b = .moved b' n') : b'.InBounds := by
  obtain ⟨-, -, hh, -, -, -⟩ := b.idleBelow_iff.mp hi
  simp only [dispTick] at hb
  split at hb
  · split at hb
    · split at hb
      · exact ofBegin_inBounds (fun b1 e => start_inBounds (b := { b with calls := _ }) (by exact ⟨h.1, h.2.1, h.2.2⟩) (by exact hi) e) hb
      · cases hb
    · split at hb
      · cases hb
      · simp only [Tick.moved.injEq] at hb
        obtain ⟨rfl, -⟩ := hb
        exact ⟨h.1, h.2.1, h.2.2.1, h.2.2.2.1, fun e => by simp at e, fun e => by simp at e⟩
  · next hp => exact header1Tick_inBounds h hp hb
  · next hp => exact bodyTick_inBounds h hp hb
  · next hp => exact execTick_inBounds h hi hp hb
  · next hp => exact respondTick_inBounds h hi hp hb
  · exact consoleTick_inBounds h hh hb
  · cases hb

theorem prim_inBounds {b b' : Block} {p : Peer} {n n' : Nat} {x : Prim} {r : List Prim} (h : b.InBounds)
    (ht : b.todo = x :: r) (hb : x.run p n { b with todo := r } = .moved b' n') : b'.InBounds := by
  have h0 : ({ b with todo := r } : Block).InBounds :=
    ⟨h.1, ⟨h.2.1.1, h.2.1.2.1, h.2.1.2.2.1, fun e => h.2.1.2.2.2 (by rw [ht]; exact List.mem_cons_of_mem _ e)⟩, h.2.2⟩
  cases x <;> simp only [Prim.run] at hb
  case storeHost =>
    split at hb
    · next hw =>
      simp only [Tick.moved.injEq] at hb
      obtain ⟨rfl, -⟩ := hb
      exact Block.bufWrite_inBounds (by exact ⟨h0.1, h0.2.1, h0.2.2⟩) hw
    · cases hb
  all_goals
    simp only [Tick.moved.injEq] at hb
    obtain ⟨rfl, -⟩ := hb
    exact ⟨h0.1, h0.2.1, h0.2.2⟩

/-- Every primitive of a block keeps the bounds (R24). -/
theorem tick_inBounds {b b' : Block} {p : Peer} {n n' : Nat} (h : b.InBounds) (hb : b.tick p n = .moved b' n') :
    b'.InBounds := by
  replace hb := Block.advance_of_moved hb
  rw [Block.advance] at hb
  split at hb
  · next ht => exact prim_inBounds h ht hb
  · next ht =>
    split at hb
    · simp only [Tick.moved.injEq] at hb
      obtain ⟨rfl, -⟩ := hb
      exact ⟨h.1, h.2.1, h.2.2⟩
    · next hr =>
      split at hb
      · exact hostTick_inBounds h hb
      · next hh =>
        have hh : b.host.ph = .idle := by simpa using hh
        split at hb
        · exact peripheralTick_inBounds h hh hb
        · next hp =>
          split at hb
          · next hs => exact spiTick_inBounds h hs hb
          · next hs =>
            split at hb
            · next hf => exact flashTick_inBounds h hf hb
            · next hf =>
              refine dispTick_inBounds h ?_ hb
              rw [Block.idleBelow_iff]
              refine ⟨ht, ?_, hh, by simpa using hp, by simpa using hs, by simpa using hf⟩
              cases hr' : b.rph with
              | idle => rfl
              | running => exact absurd hr' hr

/-- Block reset keeps the bounds. -/
theorem blockReset_inBounds (n : Nat) (b : Block) : (b.blockReset n).InBounds :=
  ⟨rfl, Block.hostInBounds_idle rfl (reset_no_store _ _), fun e => absurd rfl e, fun e => absurd rfl e,
    fun e => by simp [Block.blockReset, Block.afterReset, DispRegs.afterReset] at e,
    fun e => by simp [Block.blockReset, Block.afterReset, DispRegs.afterReset] at e⟩

end Sys2Proof.Machine
end

