-- ==== Sys2Proof/Laws/Live.lean ====
section
/-! SUPPORT. Runs of the host engine against a live external target: one tick, the steps of a phase, one cycle, and the
whole transaction (R125, R126). -/

namespace Sys2Proof.Machine

/-- The machine with a live target at the far end and nothing else to happen outside. -/
def live (b : Block) (T : Lines) (rs : List Byte) (n : Nat) (c : Bool) : State :=
  { near := b, far := .target { lines := T, live := true, replies := rs }, script := [], drawn := n, contention := c }

/-- What the near block sees of an external target with lines `T`. -/
def targetPeer (T : Lines) : Peer := ⟨T, none⟩

/-- Against an external target every step is the block's own. -/
theorem live_own {b : Block} {T : Lines} {n : Nat} : b.tick (targetPeer T) n = b.advance (targetPeer T) n :=
  Block.tick_advance (Block.clashes_target rfl)

/-- A live target with lines `T` has nothing to react to. -/
def Lines.still (L T : Lines) : Bool :=
  if L.astb.assertedLow || L.dstb.assertedLow then T.wait == .drivenHigh else T.wait != .drivenHigh

theorem Target.react_still {L T : Lines} {rs : List Byte} {n : Nat} (h : L.still T = true) :
    Target.react L n ⟨T, true, rs⟩ = none := by
  simp only [Lines.still] at h
  simp only [Target.react]
  split at h <;> simp_all

theorem live_turn {b : Block} {T : Lines} {rs : List Byte} {n : Nat} {c : Bool} (h : b.lines.still T = true) :
    (live b T rs n c).turn = (live b T rs n c).tickNear :=
  State.turn_near rfl (by simp [live, Party.react, Target.react_still h])

/-- One tick of the near block against a live target that has nothing to react to. -/
theorem live_tick {b b' : Block} {T : Lines} {rs : List Byte} {n n' : Nat} {c : Bool} (hr : b.atRest = false)
    (hs : b.lines.still T = true) (ht : b.tick (targetPeer T) n = .moved b' n')
    (hc : contended b'.lines T = false) : Reaches 1 (live b T rs n c) (live b' T rs n' c) := by
  refine .of_turn hr ?_
  rw [live_turn hs, State.tickNear_moved (b := b') (n := n') (by exact ht)]
  simp [live, hc]

/-- The target's answer to an asserted strobe of a write (R70). -/
theorem live_ack {b : Block} {T : Lines} {rs : List Byte} {n : Nat} {c : Bool} (hr : b.atRest = false)
    (hs : (b.lines.astb.assertedLow || b.lines.dstb.assertedLow) = true) (hw : b.lines.wrsel.assertedLow = true)
    (hT : T.wait ≠ .drivenHigh) (hc : contended b.lines .targetAck = false) :
    Reaches 1 (live b T rs n c) (live b .targetAck rs n c) := by
  refine .of_turn hr ?_
  simp [State.turn, State.react, live, Party.react, Target.react, hs, hw, hT, State.noteContention, hc]

/-- The target's answer to an asserted strobe of a read: its next reply (R70, R99). -/
theorem live_reply {b : Block} {T : Lines} {x : Byte} {rs : List Byte} {n : Nat} {c : Bool} (hr : b.atRest = false)
    (hs : (b.lines.astb.assertedLow || b.lines.dstb.assertedLow) = true) (hw : b.lines.wrsel.assertedLow = false)
    (hT : T.wait ≠ .drivenHigh) (hc : contended b.lines (.targetReply x) = false) :
    Reaches 1 (live b T (x :: rs) n c) (live b (.targetReply x) rs n c) := by
  refine .of_turn hr ?_
  simp [State.turn, State.react, live, Party.react, Target.react, hs, hw, hT, State.noteContention, hc]

/-- The target releases the bus once both strobes are released (R70). -/
theorem live_release {b : Block} {T : Lines} {rs : List Byte} {n : Nat} {c : Bool} (hr : b.atRest = false)
    (hs : (b.lines.astb.assertedLow || b.lines.dstb.assertedLow) = false) (hT : T.wait = .drivenHigh)
    (hc : contended b.lines .targetReady = false) :
    Reaches 1 (live b T rs n c) (live b .targetReady rs n c) := by
  refine .of_turn hr ?_
  simp [State.turn, State.react, live, Party.react, Target.react, hs, hT, State.noteContention, hc]

/-! ### The steps of a phase -/

/-- A primitive that only writes lines. -/
def Prim.isLine : Prim → Bool
  | .setDir _ _ => true
  | .setLvl _ _ => true
  | .delay _ => true
  | _ => false

theorem Prim.run_line {x : Prim} (h : x.isLine = true) (p : Peer) (n : Nat) (b : Block) :
    x.run p n b = .moved { b with lines := x.onLines b.lines } n := by
  cases x <;> first | rfl | cases h

/-- A list of line primitives along which a live target never has anything to react to and no wire is contended. -/
def quietAlong (T : Lines) : List Prim → Lines → Bool
  | [], _ => true
  | x :: r, L => x.isLine && L.still T && !contended (x.onLines L) T && quietAlong T r (x.onLines L)

/-- The steps of a phase that only writes lines, all of them. -/
theorem live_todo {T : Lines} {rs : List Byte} {n : Nat} {c : Bool} :
    ∀ (todo : List Prim) (b : Block), b.todo = todo → quietAlong T todo b.lines = true →
      Reaches todo.length (live b T rs n c) (live { b with lines := linesAfter todo b.lines, todo := [] } T rs n c) := by
  intro todo
  induction todo with
  | nil =>
    intro b h _
    have e : ({ b with lines := linesAfter [] b.lines, todo := [] } : Block) = b := by
      cases b
      simp_all [linesAfter]
    rw [e]
    exact .refl _
  | cons x r ih =>
    intro b h hq
    simp only [quietAlong, Bool.and_eq_true, Bool.not_eq_true'] at hq
    obtain ⟨⟨⟨hx, hs⟩, hc⟩, hq⟩ := hq
    have h1 : Reaches 1 (live b T rs n c) (live { b with lines := x.onLines b.lines, todo := r } T rs n c) :=
      live_tick (Block.not_atRest_of_todo h) hs (by rw [live_own, Block.advance_todo _ _ h, Prim.run_line hx]) hc
    have h2 := ih { b with lines := x.onLines b.lines, todo := r } rfl hq
    have h3 := h1.trans h2
    rw [Nat.add_comm] at h3
    exact h3

/-- The same, within a bound on the number of steps. -/
theorem live_todo_within {T : Lines} {rs : List Byte} {n : Nat} {c : Bool} {L : Lines} {k : Nat} (b : Block)
    (hq : quietAlong T b.todo b.lines = true) (hL : linesAfter b.todo b.lines = L) (hk : b.todo.length ≤ k) :
    ReachesWithin k (live b T rs n c) (live { b with lines := L, todo := [] } T rs n c) := by
  subst hL
  exact (live_todo b.todo b rfl hq).within.mono hk

/-! ### The premises of R282 that a live target stands for -/

/-- Under `TURNAROUND_OK` no data wire is contended (R267). -/
theorem State.TurnaroundOk.data {s : State} (h : s.TurnaroundOk) {l : Line} (hl : l ∈ dataLines) :
    lineContended (s.near.lines.get l) (s.far.lines.get l) = false := by
  have := h l hl l hl
  simp only [lineContended, Bool.and_eq_false_iff, beq_eq_false_iff_ne, ne_eq]
  grind

/-- A live target that is ready drives no data wire. -/
theorem State.LiveTarget.turnaroundOk {s : State} {rs : List Byte} (h : s.LiveTarget rs) : s.TurnaroundOk := by
  rintro - - l hl ⟨-, e⟩
  rw [h.1] at e
  simp only [dataLines, List.mem_cons, List.not_mem_nil, or_false] at hl
  rcases hl with rfl | rfl | rfl | rfl | rfl | rfl | rfl | rfl <;> cases e

/-- A near end that serves no cycle awaits no byte. -/
theorem Block.not_awaitsByte {b : Block} {ls : Lines} (h : b.per.ph = .idle) : ¬ b.AwaitsByte ls := by
  simp [Block.AwaitsByte, h]

/-- A live target samples no byte, so `HOLD_OK` asks nothing of a near end that serves no cycle. -/
theorem State.LiveTarget.holdOk {s : State} {rs : List Byte} (h : s.LiveTarget rs) (hp : s.near.per.ph = .idle) :
    s.HoldOk := by
  rw [State.HoldOk, h.1]
  exact fun e => absurd e (Block.not_awaitsByte hp)

/-- Under `HOLD_OK` an external host keeps the level it drives on every wire the near peripheral has still to sample. -/
theorem State.HoldOk.far_get {s u : State} {t : Target} (h : s.HoldOk) (hf : s.far = .target t)
    (ha : s.near.AwaitsByte t.lines) (hu : s.turn = .moved u) {l : Line} (hl : l ∈ dataLines) :
    u.far.lines.get l = t.lines.get l := by
  rw [State.HoldOk, hf] at h
  rw [h ha u hu l hl, hf]
  rfl

/-- Under `HOLD_OK` a far host in `H_RESTORE` has all eight `SetLvl`s to do while the near peripheral awaits the byte. -/
theorem State.HoldOk.far_restore {s : State} {b : Block} (h : s.HoldOk) (hf : s.far = .block b)
    (ha : s.near.AwaitsByte b.lines) (hp : b.host.ph = .restore) (hr : b.host.rd = false) : b.todo = dataIdle := by
  rw [State.HoldOk, hf] at h
  exact Decidable.byContradiction fun e => h.2 ⟨⟨hp, hr, e⟩, ha⟩

end Sys2Proof.Machine
end

