-- ==== Sys2Proof/Laws/HostRun.lean ====
section
/-! SUPPORT. One bus cycle and one transaction of the host engine against a live external target (R125, R126, R70). -/

namespace Sys2Proof.Machine

/-! ### The line pictures of the steps of a transaction -/

theorem byteOfLevels_byteLevels (x : Byte) : byteOfLevels (byteLevels x) = x := by
  revert x
  decide +kernel

theorem pull_quiet (x : Byte) :
    quietAlong .targetReady (dataPullLow x) (.hostWrite 0xFF .high .high) = true ∧
      linesAfter (dataPullLow x) (.hostWrite 0xFF .high .high) = .hostWrite x .high .high ∧
      (dataPullLow x).length ≤ 8 := by
  revert x
  decide +kernel

theorem strobe_write_quiet (ac : Bool) (x : Byte) :
    quietAlong .targetReady [.setLvl (strobeOf ac) .low] (.hostWrite x .high .high) = true ∧
      linesAfter [.setLvl (strobeOf ac) .low] (.hostWrite x .high .high) =
        .hostWrite x (astbLevel ac) (dstbLevel ac) := by
  cases ac <;> exact ⟨rfl, rfl⟩

theorem release_write_quiet (ac : Bool) (x : Byte) :
    quietAlong .targetAck [.setLvl (strobeOf ac) .high] (.hostWrite x (astbLevel ac) (dstbLevel ac)) = true ∧
      linesAfter [.setLvl (strobeOf ac) .high] (.hostWrite x (astbLevel ac) (dstbLevel ac)) =
        .hostWrite x .high .high := by
  cases ac <;> exact ⟨rfl, rfl⟩

theorem strobe_read_quiet (ac : Bool) :
    quietAlong .targetReady [.setLvl (strobeOf ac) .low] .idleHost = true ∧
      linesAfter [.setLvl (strobeOf ac) .low] .idleHost = .hostRead (astbLevel ac) (dstbLevel ac) := by
  cases ac <;> exact ⟨rfl, rfl⟩

theorem release_read_quiet (ac : Bool) (y : Byte) :
    quietAlong (.targetReply y) [.setLvl (strobeOf ac) .high] (.hostRead (astbLevel ac) (dstbLevel ac)) = true ∧
      linesAfter [.setLvl (strobeOf ac) .high] (.hostRead (astbLevel ac) (dstbLevel ac)) = .idleHost := by
  cases ac <;> exact ⟨rfl, rfl⟩

/-! ### One cycle -/

/-- A block inside a cycle: its lines, its working byte, its phase and the steps of the phase still to be done. -/
abbrev Block.inCycle (b : Block) (rd : Bool) (L : Lines) (x : Byte) (ph : HPhase) (todo : List Prim) : Block :=
  { b with lines := L, host := { b.host with rd := rd, byte := x, ph := ph }, todo := todo }

/-- The block after a cycle has been acknowledged and recorded. -/
abbrev Block.recorded (b : Block) (rd : Bool) (x : Byte) (smp : List Level) : Block :=
  { b with smp := smp, bus := b.bus ++ [⟨b.host.ac, rd, x⟩] }

/-- The block after a cycle: at the next cycle, or at `H_FINISH`. -/
abbrev Block.afterCycle (b : Block) (rd : Bool) (x : Byte) (smp : List Level) : Block :=
  { b.recorded rd x smp with
    host := { b.host with
      rd := rd, byte := x, i := b.host.i + 1, ph := if b.host.i + 1 < b.host.len then .preWait else .finish },
    todo := if b.host.i + 1 < b.host.len then [] else finishPrims rd }

/-- One tick of the host engine inside a cycle. -/
theorem live_host {b b' : Block} {T : Lines} {rs : List Byte} {n n' : Nat} {c : Bool} (ht : b.todo = [])
    (hr : b.rph = .idle) (hp : b.host.ph ≠ .idle) (hs : b.lines.still T = true)
    (hm : hostTick (targetPeer T) n b = .moved b' n') (hc : contended b'.lines T = false) :
    Reaches 1 (live b T rs n c) (live b' T rs n' c) :=
  live_tick (Block.not_atRest_of_host hp) hs (by rw [live_own, Block.advance_host _ _ ht hr hp, hm]) hc

/-- One write cycle of a running transaction, from `H_PREWAIT` to the next cycle or to `H_FINISH`: the byte of the buffer
goes out with its tag, the lines return to the state between two cycles, and no wire is contended. -/
theorem write_cycle {b : Block} {rs : List Byte} {n n' : Nat} {c : Bool} {x : Byte} (hr : b.rph = .idle)
    (ht : b.todo = []) (hl : b.lines = .hostWrite 0xFF .high .high) (hp : b.host.ph = .preWait)
    (hw : b.host.rd = false) (hx : b.bufRead b.host.ref b.host.i n = some (x, n')) :
    ReachesWithin 32 (live b .targetReady rs n c) (live (b.afterCycle false x []) .targetReady rs n' c) := by
  obtain ⟨hq, hL, hlen⟩ := pull_quiet x
  obtain ⟨sq, sL⟩ := strobe_write_quiet b.host.ac x
  obtain ⟨rq, rL⟩ := release_write_quiet b.host.ac x
  let b1 := b.inCycle false b.lines x .put (dataPullLow x)
  let b2 := b.inCycle false (.hostWrite x .high .high) x .put []
  let b3 := b.inCycle false (.hostWrite x .high .high) x .strobe [.setLvl (strobeOf b.host.ac) .low]
  let L := Lines.hostWrite x (astbLevel b.host.ac) (dstbLevel b.host.ac)
  let b4 := b.inCycle false L x .strobe []
  let b5 := b.inCycle false L x .ackWait []
  let b6 : Block := { b with smp := [] }
  let b7 := b6.inCycle false L x .get []
  let b8 := b.recorded false x []
  let b9 := b8.inCycle false L x .release [.setLvl (strobeOf b.host.ac) .high]
  let b10 := b8.inCycle false (.hostWrite x .high .high) x .release []
  let b11 := b8.inCycle false (.hostWrite x .high .high) x .restore dataIdle
  let b12 := b8.inCycle false (.hostWrite 0xFF .high .high) x .restore []
  have s1 : Reaches 1 (live b .targetReady rs n c) (live b1 .targetReady rs n' c) := by
    have hg : getWire b.lines Lines.targetReady .wait n = (.low, n) := by rw [hl]; rfl
    refine live_host ht hr (by simp [hp]) (by rw [hl]; rfl) ?_ (by rw [show b1.lines = b.lines from rfl, hl]; rfl)
    simp only [hostTick, hp, targetPeer, hg, hw, hx, Bool.false_eq_true, if_false]
    rfl
  have s2 : ReachesWithin 8 (live b1 .targetReady rs n' c) (live b2 .targetReady rs n' c) :=
    live_todo_within b1 (hl ▸ hq) (hl ▸ hL) hlen
  have s3 : Reaches 1 (live b2 .targetReady rs n' c) (live b3 .targetReady rs n' c) :=
    live_host rfl hr (by simp [b2]) rfl rfl rfl
  have s4 : ReachesWithin 1 (live b3 .targetReady rs n' c) (live b4 .targetReady rs n' c) :=
    live_todo_within b3 sq sL (le_refl _)
  have hlow : (L.astb.assertedLow || L.dstb.assertedLow) = true := by cases h : b.host.ac <;> simp only [L, h] <;> rfl
  have hacked : L.still .targetAck = true := by cases h : b.host.ac <;> simp only [L, h] <;> rfl
  have hclean : contended L .targetAck = false := by cases h : b.host.ac <;> simp only [L, h] <;> rfl
  have s5 : Reaches 1 (live b4 .targetReady rs n' c) (live b4 .targetAck rs n' c) :=
    live_ack (Block.not_atRest_of_host (by simp [b4])) hlow rfl (by decide) hclean
  have s6 : Reaches 1 (live b4 .targetAck rs n' c) (live b5 .targetAck rs n' c) :=
    live_host rfl hr (by simp [b4]) hacked rfl hclean
  have s7 : Reaches 1 (live b5 .targetAck rs n' c) (live b7 .targetAck rs n' c) :=
    live_host rfl hr (by simp [b5]) hacked rfl hclean
  have s8 : Reaches 1 (live b7 .targetAck rs n' c) (live b9 .targetAck rs n' c) :=
    live_host rfl hr (by simp [b7]) hacked rfl hclean
  have s9 : ReachesWithin 1 (live b9 .targetAck rs n' c) (live b10 .targetAck rs n' c) :=
    live_todo_within b9 rq rL (le_refl _)
  have s10 : Reaches 1 (live b10 .targetAck rs n' c) (live b10 .targetReady rs n' c) :=
    live_release (Block.not_atRest_of_host (by simp [b10])) rfl rfl rfl
  have s11 : Reaches 1 (live b10 .targetReady rs n' c) (live b11 .targetReady rs n' c) :=
    live_host rfl hr (by simp [b10]) rfl rfl rfl
  have s12 : ReachesWithin 8 (live b11 .targetReady rs n' c) (live b12 .targetReady rs n' c) :=
    live_todo_within b11 rfl rfl (le_refl _)
  have s13 : Reaches 1 (live b12 .targetReady rs n' c) (live (b.afterCycle false x []) .targetReady rs n' c) := by
    refine live_host rfl hr (by simp [b12]) rfl ?_ (by rw [show _ = b.lines from rfl, hl]; rfl)
    by_cases h : b.host.i + 1 < b.host.len <;> simp only [hostTick, b12, b8, ← hl, Block.afterCycle, h, if_true, if_false] <;> rfl
  exact (s1.within.trans (s2.trans (s3.within.trans (s4.trans (s5.within.trans (s6.within.trans (s7.within.trans
    (s8.within.trans (s9.trans (s10.within.trans (s11.within.trans (s12.trans s13.within)))))))))))).mono (by decide)

/-- The buffer write of a read cycle, as one update: it touches only the buffer it refers to. -/
def Block.store (r : BufRef) (i : Nat) (v : Byte) (b : Block) : Block :=
  { b with
    buf := match r with
      | .buf => b.buf.write i v
      | _ => b.buf,
    flash := { b.flash with st := match r with
      | .st => v
      | _ => b.flash.st },
    ubuf := match r with
      | .user => b.ubuf.set i v
      | _ => b.ubuf }

/-- A cell that a read cycle may store into (R24). -/
def Block.Writable (b : Block) (r : BufRef) (i : Nat) : Prop :=
  (r = .buf ∧ i < Config.cap) ∨ (r = .st ∧ i = 0) ∨ (r = .user ∧ i < b.ubuf.length)

theorem Block.bufWrite_store {b : Block} {r : BufRef} {i : Nat} (v : Byte) (h : b.Writable r i) :
    b.bufWrite r i v = some (b.store r i v) := by
  rcases h with ⟨rfl, h⟩ | ⟨rfl, h⟩ | ⟨rfl, h⟩ <;> simp only [Block.bufWrite, h, if_true] <;> rfl

/-- What a reading host samples on a data line is the bit of the target's reply on it (R63, R99). -/
theorem sample_reply (a d : Level) (y : Byte) (l : Line) (v : Level) (n : Nat)
    (h : (l, v) ∈ List.zip dataLines (byteLevels y)) :
    getWire (.hostRead a d) (.targetReply y) l n = (v, n) := by
  have all : ∀ x ∈ List.zip dataLines (byteLevels y), getWire (.hostRead a d) (.targetReply y) x.1 n = (x.2, n) := by
    simp only [dataLines, byteLevels, List.zip, List.zipWith]
    repeat refine List.forall_mem_cons.mpr ⟨rfl, ?_⟩
    exact List.forall_mem_nil _
  exact all (l, v) h

/-- The `Get`s of a `DataSample` read the byte the target drives. -/
theorem live_sample {T : Lines} {rs : List Byte} {n : Nat} {c : Bool} {y : Byte} {a d : Level} {r : List Prim}
    (hT : T = .targetReply y) :
    ∀ (ls : List (Line × Level)) (b : Block), (∀ x ∈ ls, x ∈ List.zip dataLines (byteLevels y)) →
      b.lines = .hostRead a d → (Lines.hostRead a d).still T = true → contended (.hostRead a d) T = false →
      b.todo = (ls.map fun x => .get x.1) ++ r →
      Reaches ls.length (live b T rs n c) (live { b with smp := b.smp ++ ls.map (·.2), todo := r } T rs n c) := by
  subst hT
  intro ls
  induction ls with
  | nil =>
    intro b _ _ _ _ h
    have e : ({ b with smp := b.smp ++ [].map (fun x : Line × Level => x.2), todo := r } : Block) = b := by
      cases b
      simp_all
    rw [e]
    exact .refl _
  | cons x ls ih =>
    intro b hm hl hs hc h
    have hx := sample_reply a d y x.1 x.2 n (hm x (by simp))
    have h1 : Reaches 1 (live b (.targetReply y) rs n c)
        (live { b with smp := b.smp ++ [x.2], todo := (ls.map fun x => .get x.1) ++ r } (.targetReply y) rs n c) := by
      refine live_tick (Block.not_atRest_of_todo h) (by rw [hl]; exact hs) ?_ (by
        rw [show ({ b with smp := b.smp ++ [x.2], todo := (ls.map fun x => .get x.1) ++ r } : Block).lines = b.lines from rfl,
          hl]; exact hc)
      rw [live_own, Block.advance_todo _ _ h]
      simp only [Prim.run, targetPeer, hl, hx]
      rfl
    have h2 := ih { b with smp := b.smp ++ [x.2], todo := (ls.map fun x => .get x.1) ++ r }
      (fun z hz => hm z (by simp [hz])) hl hs hc rfl
    have h3 := h1.trans h2
    rw [Nat.add_comm] at h3
    simpa using h3

/-- One read cycle of a running transaction: the target's next reply goes to the buffer, the lines return to idle, and no
wire is contended. -/
theorem read_cycle {b : Block} {y : Byte} {rs : List Byte} {n : Nat} {c : Bool} (hr : b.rph = .idle)
    (ht : b.todo = []) (hl : b.lines = .idleHost) (hp : b.host.ph = .preWait)
    (hw : b.host.rd = true) (hx : b.Writable b.host.ref b.host.i) :
    ReachesWithin 32 (live b .targetReady (y :: rs) n c)
      (live ((b.store b.host.ref b.host.i y).afterCycle true y (byteLevels y)) .targetReady rs n c) := by
  obtain ⟨sq, sL⟩ := strobe_read_quiet b.host.ac
  obtain ⟨rq, rL⟩ := release_read_quiet b.host.ac y
  let L := Lines.hostRead (astbLevel b.host.ac) (dstbLevel b.host.ac)
  let x := b.host.byte
  let b1 := b.inCycle true b.lines x .put []
  let b3 := b.inCycle true .idleHost x .strobe [.setLvl (strobeOf b.host.ac) .low]
  let b4 := b.inCycle true L x .strobe []
  let b5 := b.inCycle true L x .ackWait []
  let b6 : Block := { b with smp := [] }
  let b7 := b6.inCycle true L x .get (dataSample ++ [.storeHost])
  let c0 : Block := { b with smp := byteLevels y }
  let b8 := c0.inCycle true L x .get [.storeHost]
  let c1 := c0.store b.host.ref b.host.i y
  let b9 := c1.inCycle true L y .get []
  let c2 := (b.store b.host.ref b.host.i y).recorded true y (byteLevels y)
  let b10 := c2.inCycle true L y .release [.setLvl (strobeOf b.host.ac) .high]
  let b11 := c2.inCycle true .idleHost y .release []
  let b12 := c2.inCycle true .idleHost y .restore []
  have hlow : (L.astb.assertedLow || L.dstb.assertedLow) = true := by cases h : b.host.ac <;> simp only [L, h] <;> rfl
  have hst : L.still (.targetReply y) = true := by cases h : b.host.ac <;> simp only [L, h] <;> rfl
  have hwr : L.wrsel.assertedLow = false := by cases h : b.host.ac <;> simp only [L, h] <;> rfl
  have hclean : contended L (.targetReply y) = false := by cases h : b.host.ac <;> simp only [L, h] <;> rfl
  have hclean0 : contended L .targetReady = false := by cases h : b.host.ac <;> simp only [L, h] <;> rfl
  have hack : getWire L (.targetReply y) .wait n = (.high, n) := by cases h : b.host.ac <;> simp only [L, h] <;> rfl
  have s1 : Reaches 1 (live b .targetReady (y :: rs) n c) (live b1 .targetReady (y :: rs) n c) := by
    have hg : getWire b.lines Lines.targetReady .wait n = (.low, n) := by rw [hl]; rfl
    refine live_host ht hr (by simp [hp]) (by rw [hl]; rfl) ?_ (by rw [show b1.lines = b.lines from rfl, hl]; rfl)
    simp only [hostTick, hp, targetPeer, hg, hw, if_true]
    simp only [b1, x, ← hw, Block.hostTo]
  have s2 : Reaches 1 (live b1 .targetReady (y :: rs) n c) (live b3 .targetReady (y :: rs) n c) := by
    refine live_host rfl hr (by simp [b1]) (by rw [show b1.lines = b.lines from rfl, hl]; rfl) ?_ rfl
    simp only [hostTick, b1, b3, Block.hostTo, ← hl]
  have s3 : ReachesWithin 1 (live b3 .targetReady (y :: rs) n c) (live b4 .targetReady (y :: rs) n c) :=
    live_todo_within b3 sq sL (le_refl _)
  have s4 : Reaches 1 (live b4 .targetReady (y :: rs) n c) (live b4 (.targetReply y) rs n c) :=
    live_reply (Block.not_atRest_of_host (by simp [b4])) hlow hwr (by decide) hclean
  have s5 : Reaches 1 (live b4 (.targetReply y) rs n c) (live b5 (.targetReply y) rs n c) :=
    live_host rfl hr (by simp [b4]) hst rfl hclean
  have s6 : Reaches 1 (live b5 (.targetReply y) rs n c) (live b7 (.targetReply y) rs n c) := by
    refine live_host rfl hr (by simp [b5]) hst ?_ hclean
    simp only [hostTick, b5, targetPeer, hack, if_true, Block.hostTo]
    rfl
  have s7 : Reaches 8 (live b7 (.targetReply y) rs n c) (live b8 (.targetReply y) rs n c) :=
    live_sample (y := y) (r := [.storeHost]) rfl (List.zip dataLines (byteLevels y)) b7 (fun _ h => h) rfl hst hclean rfl
  have s8 : Reaches 1 (live b8 (.targetReply y) rs n c) (live b9 (.targetReply y) rs n c) := by
    refine live_tick (Block.not_atRest_of_todo (x := .storeHost) (r := []) rfl) hst ?_ hclean
    rw [live_own, Block.advance_todo (x := .storeHost) (r := []) _ _ rfl]
    simp only [Prim.run, b8, c0, byteOfLevels_byteLevels]
    rw [Block.bufWrite_store _ (by exact hx)]
    rfl
  have s9 : Reaches 1 (live b9 (.targetReply y) rs n c) (live b10 (.targetReply y) rs n c) :=
    live_host rfl hr (by simp [b9]) hst rfl hclean
  have s10 : ReachesWithin 1 (live b10 (.targetReply y) rs n c) (live b11 (.targetReply y) rs n c) :=
    live_todo_within b10 rq rL (le_refl _)
  have s11 : Reaches 1 (live b11 (.targetReply y) rs n c) (live b11 .targetReady rs n c) :=
    live_release (Block.not_atRest_of_host (by simp [b11])) rfl rfl rfl
  have s12 : Reaches 1 (live b11 .targetReady rs n c) (live b12 .targetReady rs n c) :=
    live_host rfl hr (by simp [b11]) rfl rfl rfl
  have s13 : Reaches 1 (live b12 .targetReady rs n c)
      (live ((b.store b.host.ref b.host.i y).afterCycle true y (byteLevels y)) .targetReady rs n c) := by
    refine live_host rfl hr (by simp [b12]) rfl ?_
      (by rw [show ((b.store b.host.ref b.host.i y).afterCycle true y (byteLevels y)).lines = b.lines from rfl, hl]; rfl)
    by_cases h : b.host.i + 1 < b.host.len <;>
      simp only [hostTick, b12, c2, ← hl, Block.afterCycle, Block.store, h, if_true, if_false] <;> rfl
  exact (s1.within.trans (s2.within.trans (s3.trans (s4.within.trans (s5.within.trans (s6.within.trans (s7.within.trans
    (s8.within.trans (s9.within.trans (s10.trans (s11.within.trans (s12.within.trans s13.within)))))))))))).mono (by decide)

end Sys2Proof.Machine
end

