-- ==== Sys2Proof/Laws/Transfer.lean ====
section
/-! SUPPORT. A whole transaction of the host engine against a live external target, writing or reading (R125, R126, R133). -/

namespace Sys2Proof.Machine

/-! ### Writing -/

/-- A block whose transaction has written the bytes `xs` and is done. -/
abbrev Block.sent (b : Block) (xs : List Byte) : Block :=
  { b with
    lines := .idleHost,
    host := { b.host with rd := false, byte := xs.getLastD b.host.byte, i := b.host.i + xs.length, ph := .idle },
    todo := [], smp := if xs = [] then b.smp else [],
    bus := b.bus ++ xs.map fun x => ⟨b.host.ac, false, x⟩, res := b.host.len }

theorem finish_write {b : Block} {rs : List Byte} {n : Nat} {c : Bool} (hr : b.rph = .idle)
    (ht : b.todo = finishPrims false) (hl : b.lines = .hostWrite 0xFF .high .high) (hp : b.host.ph = .finish) :
    ReachesWithin 10 (live b .targetReady rs n c)
      (live { b with lines := .idleHost, todo := [], host := { b.host with ph := .idle }, res := b.host.len } .targetReady
        rs n c) := by
  have s1 : ReachesWithin 9 (live b .targetReady rs n c) (live { b with lines := .idleHost, todo := [] } .targetReady rs n c) :=
    live_todo_within b (by rw [ht, hl]; rfl) (by rw [ht, hl]; rfl) (by rw [ht]; decide)
  have s2 : Reaches 1 (live { b with lines := .idleHost, todo := [] } .targetReady rs n c)
      (live { b with lines := .idleHost, todo := [], host := { b.host with ph := .idle }, res := b.host.len } .targetReady
        rs n c) := by
    refine live_host rfl hr (by simp [hp]) rfl ?_ rfl
    simp only [hostTick, hp]
    rfl
  exact s1.trans s2.within

theorem Block.bufRead_afterCycle (b : Block) (rd : Bool) (x : Byte) (smp : List Level) (r : BufRef) (i n : Nat) :
    (b.afterCycle rd x smp).bufRead r i n = b.bufRead r i n := by
  cases r <;> rfl

/-- The write cycles of a running transaction and its end. -/
theorem write_cycles {rs : List Byte} {n : Nat} {c : Bool} :
    ∀ (xs : List Byte) (b : Block), xs ≠ [] → b.rph = .idle → b.todo = [] → b.lines = .hostWrite 0xFF .high .high →
      b.host.ph = .preWait → b.host.rd = false → b.host.len = b.host.i + xs.length →
      (∀ j, (h : j < xs.length) → b.bufRead b.host.ref (b.host.i + j) n = some (xs[j], n)) →
      ReachesWithin (32 * xs.length + 10) (live b .targetReady rs n c) (live (b.sent xs) .targetReady rs n c) := by
  intro xs
  induction xs with
  | nil => intro b h; exact absurd rfl h
  | cons x xs ih =>
    intro b _ hr ht hl hp hw hlen hx
    have h0 := hx 0 (by simp)
    simp only [Nat.add_zero, List.getElem_cons_zero] at h0
    have s1 := write_cycle (rs := rs) (c := c) hr ht hl hp hw h0
    rw [List.length_cons] at hlen
    cases xs with
    | nil =>
      simp only [List.length_nil] at hlen
      have hi : ¬ b.host.i + 1 < b.host.len := by omega
      have s2 := finish_write (b := b.afterCycle false x []) (rs := rs) (n := n) (c := c) hr
        (by simp only [hi, if_false]) hl (by simp only [hi, if_false])
      exact s1.trans s2
    | cons x' xs =>
      rw [List.length_cons] at hlen
      have hi : b.host.i + 1 < b.host.len := by omega
      have s2 := ih (b.afterCycle false x []) (by simp) hr (by simp only [hi, if_true]) hl
        (by simp only [hi, if_true]) rfl
        (by rw [show (b.afterCycle false x []).host.len = b.host.len from rfl,
          show (b.afterCycle false x []).host.i = b.host.i + 1 from rfl, hlen, List.length_cons]; omega)
        (by
          intro j hj
          rw [Block.bufRead_afterCycle]
          have := hx (j + 1) (by simp only [List.length_cons] at hj ⊢; omega)
          rw [show b.host.i + (j + 1) = b.host.i + 1 + j by omega] at this
          simpa using this)
      have e : (b.afterCycle false x []).sent (x' :: xs) = b.sent (x :: x' :: xs) := by
        simp only [Block.sent, List.getLastD_cons, List.map_cons, List.append_assoc,
          List.cons_append, List.nil_append, List.length_cons, if_neg (List.cons_ne_nil _ _)]
        simp only [Nat.add_assoc, Nat.add_comm 1]
      rw [e] at s2
      exact (s1.trans s2).mono (by simp only [List.length_cons]; omega)

/-- A block in which a transaction has just been started (R125). -/
abbrev Block.begun (b : Block) (ref : BufRef) (len : Nat) (rd ac : Bool) : Block :=
  { b with host := { b.host with rd := rd, ac := ac, len := len, i := 0, ref := ref, ph := .setup }, todo := setupPrims rd }

theorem Block.beginTransaction_ok {b : Block} {ref : BufRef} {len : Nat} {rd ac : Bool} (h : b.role = .host)
    (hl : len ≤ Config.cap) : b.beginTransaction none ref len rd ac = .ok (b.begun ref len rd ac) := by
  rw [Block.beginTransaction, if_neg (not_not.mpr h), if_neg (by decide), if_neg (Nat.not_lt.mpr hl)]

/-- A write transaction against a live target: the bytes of the buffer go out in order, one cycle each (R125, R133). -/
theorem write_transaction {b : Block} {rs : List Byte} {n : Nat} {c : Bool} {ref : BufRef} {ac : Bool} (xs : List Byte)
    (hr : b.rph = .idle) (hl : b.lines = .idleHost)
    (hx : ∀ j, (h : j < xs.length) → b.bufRead ref j n = some (xs[j], n)) :
    ReachesWithin (32 * xs.length + 20) (live (b.begun ref xs.length false ac) .targetReady rs n c)
      (live ((b.begun ref xs.length false ac).sent xs) .targetReady rs n c) := by
  let b0 := b.begun ref xs.length false ac
  let b1 : Block := { b0 with lines := .hostWrite 0xFF .high .high, todo := [] }
  have s1 : ReachesWithin 9 (live b0 .targetReady rs n c) (live b1 .targetReady rs n c) :=
    live_todo_within b0 (by rw [show b0.lines = b.lines from rfl, hl]; rfl)
      (by rw [show b0.lines = b.lines from rfl, hl]; rfl)
      (show (setupPrims false).length ≤ 9 by decide)
  cases hxs : xs with
  | nil =>
    subst hxs
    let b2 : Block := { b1 with host := { b1.host with ph := .finish }, todo := finishPrims false }
    have s2 : Reaches 1 (live b1 .targetReady rs n c) (live b2 .targetReady rs n c) :=
      live_host rfl hr (by simp [b1, b0]) rfl rfl rfl
    have s3 := finish_write (b := b2) (rs := rs) (n := n) (c := c) hr rfl rfl rfl
    have s := (s1.trans (s2.within.trans s3)).mono (show 9 + (1 + 10) ≤ 32 * 0 + 20 by decide)
    simpa [Block.sent, b2, b1, b0] using s
  | cons y ys =>
    rw [← hxs]
    have hpos : 0 < xs.length := by simp [hxs]
    let b2 : Block := { b1 with host := { b1.host with ph := .preWait } }
    have s2 : Reaches 1 (live b1 .targetReady rs n c) (live b2 .targetReady rs n c) := by
      refine live_host rfl hr (by simp [b1, b0]) rfl ?_ rfl
      simp only [hostTick, b1, b0, b2, hpos, if_true]
      rfl
    have s3 := write_cycles (rs := rs) (n := n) (c := c) xs b2 (by simp [hxs]) hr rfl rfl rfl rfl (by simp [b2, b1, b0]) (by
      intro j hj
      rw [show b2.host.i + j = j by simp [b2, b1, b0], show b2.host.ref = ref from rfl, ← hx j hj]
      cases ref <;> rfl)
    exact (s1.trans (s2.within.trans s3)).mono (by omega)

/-! ### Reading -/

/-- The bytes `ys` stored at consecutive places of a list, from place `i` on. -/
def setAll (l : List Byte) (i : Nat) : List Byte → List Byte
  | [] => l
  | y :: ys => setAll (l.set i y) (i + 1) ys

theorem setAll_length (l : List Byte) (i : Nat) (ys : List Byte) : (setAll l i ys).length = l.length := by
  induction ys generalizing l i with
  | nil => rfl
  | cons y ys ih => simp [setAll, ih]

theorem setAll_append (p l : List Byte) (ys : List Byte) : setAll (p ++ l) p.length ys = p ++ setAll l 0 ys := by
  induction ys generalizing p l with
  | nil => rfl
  | cons y ys ih =>
    cases l with
    | nil =>
      have h : ∀ (k : Nat) (zs : List Byte), setAll p (p.length + k) zs = p := by
        intro k zs
        induction zs generalizing k with
        | nil => rfl
        | cons z zs ihz => rw [setAll, List.set_eq_of_length_le (by omega), Nat.add_assoc, ihz]
      have h' : ∀ (k : Nat) (zs : List Byte), setAll [] k zs = [] := by
        intro k zs
        induction zs generalizing k with
        | nil => rfl
        | cons z zs ihz => rw [setAll, List.set_nil, ihz]
      rw [List.append_nil, h', List.append_nil]
      exact h 0 _
    | cons x l =>
      have e : (p ++ x :: l).set p.length y = (p ++ [y]) ++ l := by simp
      have e' : (x :: l).set 0 y = [y] ++ l := rfl
      have h1 := ih (p ++ [y]) l
      have h2 := ih [y] l
      simp only [List.length_append, List.length_cons, List.length_nil, Nat.zero_add] at h1 h2
      rw [setAll, setAll, e, e', h1, Nat.zero_add, h2, List.append_assoc]

/-- Storing a list of bytes from the start of a buffer that has room for them. -/
theorem setAll_zero (l ys : List Byte) (h : ys.length ≤ l.length) : setAll l 0 ys = ys ++ l.drop ys.length := by
  induction ys generalizing l with
  | nil => rfl
  | cons y ys ih =>
    cases l with
    | nil => simp at h
    | cons x l =>
      have h1 := setAll_append [y] l ys
      simp only [List.length_cons, List.length_nil, Nat.zero_add] at h1
      rw [setAll, Nat.zero_add]
      rw [show (x :: l).set 0 y = [y] ++ l from rfl, h1, ih l (by simpa using h)]
      simp

/-- The stores of several read cycles, as one update. -/
def Block.storeAll (r : BufRef) (i : Nat) (ys : List Byte) (b : Block) : Block :=
  { b with
    buf := match r with
      | .buf => b.buf.writeAll i ys
      | _ => b.buf,
    flash := { b.flash with st := match r with
      | .st => ys.getLastD b.flash.st
      | _ => b.flash.st },
    ubuf := match r with
      | .user => setAll b.ubuf i ys
      | _ => b.ubuf }

/-- A block whose transaction has read the bytes `ys` and is done. -/
abbrev Block.received (b : Block) (ys : List Byte) : Block :=
  { b.storeAll b.host.ref b.host.i ys with
    lines := .idleHost,
    host := { b.host with rd := true, byte := ys.getLastD b.host.byte, i := b.host.i + ys.length, ph := .idle },
    todo := [], smp := ys.foldl (fun _ y => byteLevels y) b.smp,
    bus := b.bus ++ ys.map fun y => ⟨b.host.ac, true, y⟩, res := b.host.len }

theorem finish_read {b : Block} {rs : List Byte} {n : Nat} {c : Bool} (hr : b.rph = .idle)
    (ht : b.todo = []) (hl : b.lines = .idleHost) (hp : b.host.ph = .finish) :
    ReachesWithin 10 (live b .targetReady rs n c)
      (live { b with lines := .idleHost, todo := [], host := { b.host with ph := .idle }, res := b.host.len } .targetReady
        rs n c) := by
  have s : Reaches 1 (live b .targetReady rs n c)
      (live { b with lines := .idleHost, todo := [], host := { b.host with ph := .idle }, res := b.host.len } .targetReady
        rs n c) := by
    refine live_host ht hr (by simp [hp]) (by rw [hl]; rfl) ?_ rfl
    simp only [hostTick, hp, ← hl, ← ht]
    rfl
  exact s.within.mono (by decide)

theorem Block.writable_afterCycle {b : Block} {rd : Bool} {x y : Byte} {smp : List Level} {r : BufRef} {i j : Nat}
    (h : b.Writable r j) : ((b.store r i y).afterCycle rd x smp).Writable r j := by
  rcases h with ⟨rfl, h⟩ | ⟨rfl, h⟩ | ⟨rfl, h⟩
  · exact .inl ⟨rfl, h⟩
  · exact .inr (.inl ⟨rfl, h⟩)
  · exact .inr (.inr ⟨rfl, by simpa [Block.store] using h⟩)

/-- The read cycles of a running transaction and its end. -/
theorem read_cycles {rs : List Byte} {n : Nat} {c : Bool} :
    ∀ (ys : List Byte) (b : Block), ys ≠ [] → b.rph = .idle → b.todo = [] → b.lines = .idleHost →
      b.host.ph = .preWait → b.host.rd = true → b.host.len = b.host.i + ys.length →
      (∀ j, j < ys.length → b.Writable b.host.ref (b.host.i + j)) →
      ReachesWithin (32 * ys.length + 10) (live b .targetReady (ys ++ rs) n c) (live (b.received ys) .targetReady rs n c) := by
  intro ys
  induction ys with
  | nil => intro b h; exact absurd rfl h
  | cons y ys ih =>
    intro b _ hr ht hl hp hw hlen hx
    have h0 := hx 0 (by simp)
    have s1 := read_cycle (y := y) (rs := ys ++ rs) (n := n) (c := c) hr ht hl hp hw h0
    rw [List.length_cons] at hlen
    cases ys with
    | nil =>
      simp only [List.length_nil] at hlen
      have hi : ¬ b.host.i + 1 < b.host.len := by omega
      have s2 := finish_read (b := (b.store b.host.ref b.host.i y).afterCycle true y (byteLevels y)) (rs := rs) (n := n) (c := c) hr
        (by simp only [Block.store, hi, if_false]; rfl) hl
        (by simp only [Block.store, hi, if_false])
      have e : ({ (b.store b.host.ref b.host.i y).afterCycle true y (byteLevels y) with
          lines := .idleHost, todo := [],
          host := { ((b.store b.host.ref b.host.i y).afterCycle true y (byteLevels y)).host with ph := .idle },
          res := ((b.store b.host.ref b.host.i y).afterCycle true y (byteLevels y)).host.len } : Block) = b.received [y] := by
        simp only [Block.received, Block.storeAll, Block.store]
        congr 1
      rw [e] at s2
      exact s1.trans s2
    | cons y' ys =>
      rw [List.length_cons] at hlen
      have hi : b.host.i + 1 < b.host.len := by omega
      have s2 := ih ((b.store b.host.ref b.host.i y).afterCycle true y (byteLevels y)) (by simp) hr
        (by simp only [Block.store, hi, if_true]) hl
        (by simp only [Block.store, hi, if_true]) rfl
        (by rw [show ((b.store b.host.ref b.host.i y).afterCycle true y (byteLevels y)).host.len = b.host.len from rfl,
          show ((b.store b.host.ref b.host.i y).afterCycle true y (byteLevels y)).host.i = b.host.i + 1 from rfl, hlen,
          List.length_cons]; omega)
        (by
          intro j hj
          have := hx (j + 1) (by simp only [List.length_cons] at hj ⊢; omega)
          rw [show b.host.i + (j + 1) = b.host.i + 1 + j by omega] at this
          exact Block.writable_afterCycle this)
      have e : ((b.store b.host.ref b.host.i y).afterCycle true y (byteLevels y)).received (y' :: ys) =
          b.received (y :: y' :: ys) := by
        simp only [Block.received, List.getLastD_cons, List.map_cons, List.append_assoc,
          List.cons_append, List.nil_append, List.length_cons, List.foldl_cons]
        simp only [Block.storeAll, Block.store, Nat.add_assoc, Nat.add_comm 1]
        cases b.host.ref <;> simp only [Memory.writeAll, setAll, List.getLastD_cons]
      rw [e] at s2
      exact (s1.trans s2).mono (by simp only [List.length_cons]; omega)

/-- A read transaction against a live target: its next replies go to the buffer in order, one cycle each (R125, R133). -/
theorem read_transaction {b : Block} {rs : List Byte} {n : Nat} {c : Bool} {ref : BufRef} {ac : Bool} (ys : List Byte)
    (hr : b.rph = .idle) (hl : b.lines = .idleHost) (hx : ∀ j, j < ys.length → b.Writable ref j) :
    ReachesWithin (32 * ys.length + 20) (live (b.begun ref ys.length true ac) .targetReady (ys ++ rs) n c)
      (live ((b.begun ref ys.length true ac).received ys) .targetReady rs n c) := by
  let b0 := b.begun ref ys.length true ac
  cases hys : ys with
  | nil =>
    subst hys
    let b2 : Block := { b0 with host := { b0.host with ph := .finish }, todo := finishPrims true }
    have s2 : Reaches 1 (live b0 .targetReady rs n c) (live b2 .targetReady rs n c) :=
      live_host rfl hr (by simp [b0]) (by rw [show b0.lines = b.lines from rfl, hl]; rfl) rfl
        (by rw [show b2.lines = b.lines from rfl, hl]; rfl)
    have s3 := finish_read (b := b2) (rs := rs) (n := n) (c := c) hr rfl hl rfl
    have s := (s2.within.trans s3).mono (show 1 + 10 ≤ 32 * 0 + 20 by decide)
    have e : ({ b2 with lines := .idleHost, todo := [], host := { b2.host with ph := .idle }, res := b2.host.len } : Block) =
        b0.received [] := by
      simp only [Block.received, Block.storeAll, b2, b0]
      cases ref <;> simp [Memory.writeAll, setAll]
    rw [e] at s
    exact s
  | cons y zs =>
    rw [← hys]
    have hpos : 0 < ys.length := by simp [hys]
    let b2 : Block := { b0 with host := { b0.host with ph := .preWait } }
    have s2 : Reaches 1 (live b0 .targetReady (ys ++ rs) n c) (live b2 .targetReady (ys ++ rs) n c) := by
      refine live_host rfl hr (by simp [b0]) (by rw [show b0.lines = b.lines from rfl, hl]; rfl) ?_
        (by rw [show b2.lines = b.lines from rfl, hl]; rfl)
      simp only [hostTick, b0, b2, hpos, if_true]
      rfl
    have s3 := read_cycles (rs := rs) (n := n) (c := c) ys b2 (by simp [hys]) hr rfl hl rfl rfl (by simp [b2, b0]) (by
      intro j hj
      have := hx j hj
      simpa [b2, b0, Block.Writable] using this)
    exact (s2.within.trans s3).mono (by omega)

end Sys2Proof.Machine
end

