-- ==== Sys2Proof/Laws/SpiRun.lean ====
section
/-! SUPPORT. The SPI pass-through layer against a live external target (R101, R171, R172). -/

namespace Sys2Proof.Machine

/-- The block after a whole write transaction of the bytes `xs`. -/
abbrev Block.wrote (b : Block) (ref : BufRef) (ac : Bool) (xs : List Byte) : Block :=
  (b.begun ref xs.length false ac).sent xs

/-- The block after a whole read transaction of the bytes `ys`. -/
abbrev Block.gathered (b : Block) (ref : BufRef) (ac : Bool) (ys : List Byte) : Block :=
  (b.begun ref ys.length true ac).received ys

/-- One tick of the SPI layer. -/
theorem live_spi {b b' : Block} {rs : List Byte} {n : Nat} {c : Bool} (ht : b.todo = []) (hr : b.rph = .idle)
    (hh : b.host.ph = .idle) (hp : b.per.ph = .idle) (hs : b.spi.ph ≠ .idle) (hl : b.lines = .idleHost)
    (hm : spiTick (targetPeer .targetReady) n b = .moved b' n) (hl' : b'.lines = .idleHost) :
    Reaches 1 (live b .targetReady rs n c) (live b' .targetReady rs n c) :=
  live_tick (Block.not_atRest_of_spi hs) (by rw [hl]; rfl) (by rw [live_own, Block.advance_spi _ _ ht hr hh hp hs, hm])
    (by rw [hl']; rfl)

/-- A one-byte buffer. -/
theorem bufRead_one {b : Block} {ref : BufRef} {x : Byte} {n : Nat} (hx : b.bufRead ref 0 n = some (x, n)) (j : Nat)
    (h : j < [x].length) : b.bufRead ref j n = some ([x][j], n) := by
  obtain rfl : j = 0 := by simpa using h
  exact hx

/-- The last step of a sequence of the SPI layer, when it writes. -/
theorem spi_last_write {b : Block} {rs : List Byte} {n : Nat} {c : Bool} {ref : BufRef} {ac : Bool} (xs : List Byte)
    (hr : b.rph = .idle) (hp : b.per.ph = .idle) (hl : b.lines = .idleHost) (hs : b.spi.ph ≠ .idle)
    (hlast : b.spi.ph = b.spi.last) (hx : ∀ j, (h : j < xs.length) → b.bufRead ref j n = some (xs[j], n)) :
    ReachesWithin (32 * xs.length + 21) (live (b.begun ref xs.length false ac) .targetReady rs n c)
      (live { b.wrote ref ac xs with spi := { b.spi with ph := .idle } } .targetReady rs n c) := by
  have s : Reaches 1 (live (b.wrote ref ac xs) .targetReady rs n c)
      (live { b.wrote ref ac xs with spi := { b.spi with ph := .idle } } .targetReady rs n c) :=
    live_spi rfl hr rfl hp hs rfl (by simp only [spiTick, hlast, or_true, if_true]) rfl
  exact (write_transaction xs hr hl hx).trans s.within

/-- The last step of a sequence of the SPI layer, when it reads. -/
theorem spi_last_read {b : Block} {rs : List Byte} {n : Nat} {c : Bool} {ref : BufRef} {ac : Bool} (ys : List Byte)
    (hr : b.rph = .idle) (hp : b.per.ph = .idle) (hl : b.lines = .idleHost) (hs : b.spi.ph ≠ .idle)
    (hlast : b.spi.ph = b.spi.last) (hx : ∀ j, j < ys.length → b.Writable ref j) :
    ReachesWithin (32 * ys.length + 21) (live (b.begun ref ys.length true ac) .targetReady (ys ++ rs) n c)
      (live { b.gathered ref ac ys with spi := { b.spi with ph := .idle } } .targetReady rs n c) := by
  have s : Reaches 1 (live (b.gathered ref ac ys) .targetReady rs n c)
      (live { b.gathered ref ac ys with spi := { b.spi with ph := .idle } } .targetReady rs n c) :=
    live_spi rfl hr rfl hp hs rfl (by simp only [spiTick, Block.storeAll, hlast, or_true, if_true]) rfl
  exact (read_transaction ys hr hl hx).trans s.within

/-- A step of a sequence of the SPI layer that is not its last one: one byte goes out, and the next step is called. -/
theorem spi_step {b b' : Block} {rs : List Byte} {n : Nat} {c : Bool} {ref : BufRef} {ac : Bool} {x : Byte}
    {ph last : SPhase} (hr : b.rph = .idle) (hp : b.per.ph = .idle) (hl : b.lines = .idleHost) (hph : b.spi.ph = ph)
    (hlast : b.spi.last = last) (hs : ph ≠ .idle) (hne : ph ≠ last) (hx : b.bufRead ref 0 n = some (x, n))
    (hb : (b.wrote ref ac [x]).spiCall none ph.succ = .ok b') (hl' : b'.lines = .idleHost) :
    ReachesWithin 53 (live (b.begun ref 1 false ac) .targetReady rs n c) (live b' .targetReady rs n c) := by
  subst hph hlast
  have s : Reaches 1 (live (b.wrote ref ac [x]) .targetReady rs n c) (live b' .targetReady rs n c) := by
    refine live_spi rfl hr rfl hp hs rfl ?_ hl'
    have h0 : ¬ ((b.wrote ref ac [x]).res < 0 ∨ b.spi.ph = b.spi.last) := by simp [hne]
    rw [spiTick, if_neg h0, show (targetPeer Lines.targetReady).role = none from rfl]
    rw [hb]
    rfl
  exact (write_transaction [x] hr hl (bufRead_one hx)).trans s.within

/-- The block after the first two steps of a sequence: the index write and the enable or disable byte (R101). -/
abbrev Block.selected (b : Block) (ref : BufRef) (x : Byte) : Block :=
  { b with
    lines := .idleHost,
    host := { rd := false, ac := false, len := 1, i := 1, byte := x, ref := ref, ph := .idle },
    todo := [], smp := [], bus := b.bus ++ [⟨true, false, b.par.idxAddr⟩, ⟨false, false, x⟩], res := 1 }

/-- The block after step 3 of a sequence: the data-register address. -/
abbrev Block.addressed (b : Block) : Block :=
  { b with
    lines := .idleHost,
    host := { rd := false, ac := true, len := 1, i := 1, byte := b.par.datAddr, ref := .datAddr, ph := .idle },
    todo := [], smp := [], bus := b.bus ++ [⟨true, false, b.par.datAddr⟩], res := 1 }

/-- Steps 1 and 2 of `SpiReset`, with nothing after them (the chip-disable shape of R101). -/
theorem disable_run {b : Block} {rs : List Byte} {n : Nat} {c : Bool} (hr : b.rph = .idle) (hp : b.per.ph = .idle)
    (hl : b.lines = .idleHost) (hrole : b.role = .host) :
    ∃ b0, b.beginSpiReset none .s1 .s2 = .ok b0 ∧
      ReachesWithin 110 (live b0 .targetReady rs n c)
        (live { b.selected .disByte b.par.disByte with spi := { b.spi with kind := .reset, last := .s2, ph := .idle } } .targetReady rs n c) := by
  let b1 : Block := { b with spi := { b.spi with kind := .reset, last := .s2, ph := .s1 } }
  refine ⟨b1.begun .idxAddr 1 false true, Block.beginTransaction_ok hrole (by decide), ?_⟩
  let c1 := b1.wrote .idxAddr true [b.par.idxAddr]
  let b2 : Block := { c1 with spi := { b.spi with kind := .reset, last := .s2, ph := .s2 } }
  have s1 := spi_step (ph := .s1) (last := .s2) (b := b1) (b' := b2.begun .disByte 1 false false) (rs := rs) (n := n) (c := c) (ref := .idxAddr)
    (ac := true) hr hp hl rfl rfl (by decide) (by decide) rfl (Block.beginTransaction_ok hrole (by decide)) rfl
  have s2 := spi_last_write (b := b2) (rs := rs) (n := n) (c := c) (ref := .disByte) (ac := false) [b.par.disByte]
    hr hp rfl (SPhase.noConfusion) rfl (bufRead_one rfl)
  have := (s1.trans s2).mono (show _ ≤ 110 by simp)
  simpa [b2, c1, b1] using this

/-- `SpiReset` (R171): four bytes go out. -/
abbrev Block.spiResetDone (b : Block) : Block :=
  { b with
    lines := .idleHost,
    host := { rd := false, ac := false, len := 1, i := 1, byte := Config.zeroByte, ref := .zero, ph := .idle },
    spi := { b.spi with kind := .reset, last := .s4, ph := .idle },
    todo := [], smp := [],
    bus := b.bus ++ [⟨true, false, b.par.idxAddr⟩, ⟨false, false, b.par.disByte⟩, ⟨true, false, b.par.datAddr⟩,
      ⟨false, false, Config.zeroByte⟩],
    res := 1 }

theorem spiReset_run {b : Block} {rs : List Byte} {n : Nat} {c : Bool} (hr : b.rph = .idle) (hp : b.per.ph = .idle)
    (hl : b.lines = .idleHost) (hrole : b.role = .host) :
    ∃ b0, b.beginSpiReset none .s1 .s4 = .ok b0 ∧ b0.lines = .idleHost ∧ b0.host.ph = .setup ∧
      ReachesWithin 220 (live b0 .targetReady rs n c) (live b.spiResetDone .targetReady rs n c) := by
  let sp : SPhase → SpiRegs := fun ph => { b.spi with kind := .reset, last := .s4, ph := ph }
  let b1 : Block := { b with spi := sp .s1 }
  refine ⟨b1.begun .idxAddr 1 false true, Block.beginTransaction_ok hrole (by decide), hl, rfl, ?_⟩
  let b2 : Block := { b1.wrote .idxAddr true [b.par.idxAddr] with spi := sp .s2 }
  let b3 : Block := { b2.wrote .disByte false [b.par.disByte] with spi := sp .s3 }
  let b4 : Block := { b3.wrote .datAddr true [b.par.datAddr] with spi := sp .s4 }
  have s1 := spi_step (ph := .s1) (last := .s4) (b := b1) (b' := b2.begun .disByte 1 false false) (rs := rs) (n := n) (c := c) (ref := .idxAddr)
    (ac := true) hr hp hl rfl rfl (by decide) (by decide) rfl (Block.beginTransaction_ok hrole (by decide)) rfl
  have s2 := spi_step (ph := .s2) (last := .s4) (b := b2) (b' := b3.begun .datAddr 1 false true) (rs := rs) (n := n) (c := c) (ref := .disByte)
    (ac := false) hr hp rfl rfl rfl (by decide) (by decide) rfl (Block.beginTransaction_ok hrole (by decide)) rfl
  have s3 := spi_step (ph := .s3) (last := .s4) (b := b3) (b' := b4.begun .zero 1 false false) (rs := rs) (n := n) (c := c) (ref := .datAddr)
    (ac := true) hr hp rfl rfl rfl (by decide) (by decide) rfl (Block.beginTransaction_ok hrole (by decide)) rfl
  have s4 := spi_last_write (b := b4) (rs := rs) (n := n) (c := c) (ref := .zero) (ac := false) [Config.zeroByte]
    hr hp rfl (SPhase.noConfusion) rfl (bufRead_one rfl)
  have := (s1.trans (s2.trans (s3.trans s4))).mono (show _ ≤ 220 by decide)
  simpa [b4, b3, b2, b1, sp] using this

/-- Steps 3 and 4 of `SpiReset` on their own (the data-clear shape of R101). -/
theorem clear_run {b : Block} {rs : List Byte} {n : Nat} {c : Bool} (hr : b.rph = .idle) (hp : b.per.ph = .idle)
    (hl : b.lines = .idleHost) (hrole : b.role = .host) :
    ∃ b0, b.beginSpiReset none .s3 .s4 = .ok b0 ∧
      ReachesWithin 110 (live b0 .targetReady rs n c)
        (live { b with
            lines := .idleHost,
            host := { rd := false, ac := false, len := 1, i := 1, byte := Config.zeroByte, ref := .zero, ph := .idle },
            spi := { b.spi with kind := .reset, last := .s4, ph := .idle },
            todo := [], smp := [], bus := b.bus ++ [⟨true, false, b.par.datAddr⟩, ⟨false, false, Config.zeroByte⟩],
            res := 1 } .targetReady rs n c) := by
  let sp : SPhase → SpiRegs := fun ph => { b.spi with kind := .reset, last := .s4, ph := ph }
  let b1 : Block := { b with spi := sp .s3 }
  refine ⟨b1.begun .datAddr 1 false true, Block.beginTransaction_ok hrole (by decide), ?_⟩
  let b2 : Block := { b1.wrote .datAddr true [b.par.datAddr] with spi := sp .s4 }
  have s1 := spi_step (ph := .s3) (last := .s4) (b := b1) (b' := b2.begun .zero 1 false false) (rs := rs) (n := n) (c := c) (ref := .datAddr)
    (ac := true) hr hp hl rfl rfl (by decide) (by decide) rfl (Block.beginTransaction_ok hrole (by decide)) rfl
  have s2 := spi_last_write (b := b2) (rs := rs) (n := n) (c := c) (ref := .zero) (ac := false) [Config.zeroByte]
    hr hp rfl (SPhase.noConfusion) rfl (bufRead_one rfl)
  have := (s1.trans s2).mono (show _ ≤ 110 by simp)
  simpa [b2, b1, sp] using this

/-- The registers of the SPI layer after an `SpiTransaction` of `len` bytes. -/
abbrev spiRegs (ph last : SPhase) (ref : BufRef) (len : Nat) (rd : Bool) : SpiRegs :=
  { ph := ph, kind := .transfer, last := last, ref := ref, len := len, rd := rd }

/-- Steps 1 and 2 of `SpiTransaction` on their own (the chip-enable shape of R101). -/
theorem enable_run {b : Block} {rs : List Byte} {n : Nat} {c : Bool} (hr : b.rph = .idle) (hp : b.per.ph = .idle)
    (hl : b.lines = .idleHost) (hrole : b.role = .host) :
    ∃ b0, b.beginSpiTransaction none .user 0 false .s1 .s2 = .ok b0 ∧
      ReachesWithin 110 (live b0 .targetReady rs n c)
        (live { b.selected .enByte b.par.enByte with spi := spiRegs .idle .s2 .user 0 false } .targetReady rs n c) := by
  let sp : SPhase → SpiRegs := fun ph => spiRegs ph .s2 .user 0 false
  let b1 : Block := { b with spi := sp .s1 }
  refine ⟨b1.begun .idxAddr 1 false true, Block.beginTransaction_ok hrole (by decide), ?_⟩
  let b2 : Block := { b1.wrote .idxAddr true [b.par.idxAddr] with spi := sp .s2 }
  have s1 := spi_step (ph := .s1) (last := .s2) (b := b1) (b' := b2.begun .enByte 1 false false) (rs := rs) (n := n) (c := c) (ref := .idxAddr)
    (ac := true) hr hp hl rfl rfl (by decide) (by decide) rfl (Block.beginTransaction_ok hrole (by decide)) rfl
  have s2 := spi_last_write (b := b2) (rs := rs) (n := n) (c := c) (ref := .enByte) (ac := false) [b.par.enByte]
    hr hp rfl (SPhase.noConfusion) rfl (bufRead_one rfl)
  have := (s1.trans s2).mono (show _ ≤ 110 by simp)
  simpa [b2, b1, sp] using this

/-- The block after `SpiTransaction` has written `xs` (R172). -/
abbrev Block.spiWrote (b : Block) (ref : BufRef) (xs : List Byte) : Block :=
  { b with
    lines := .idleHost,
    host := { rd := false, ac := false, len := xs.length, i := xs.length, byte := xs.getLastD b.par.datAddr, ref := ref, ph := .idle },
    spi := spiRegs .idle .s4 ref xs.length false,
    todo := [], smp := [], bus := b.bus ++ b.par.openCycles ++ xs.map fun x => ⟨false, false, x⟩, res := xs.length }

/-- The first three steps of `SpiTransaction`, up to the start of its fourth. -/
theorem spiOpen_run {b : Block} {rs : List Byte} {n : Nat} {c : Bool} {ref : BufRef} {len : Nat} {rd : Bool}
    (hr : b.rph = .idle) (hp : b.per.ph = .idle)
    (hl : b.lines = .idleHost) (hrole : b.role = .host) (hlen : len ≤ Config.cap) :
    ∃ b0, b.beginSpiTransaction none ref len rd .s1 .s4 = .ok b0 ∧ b0.lines = .idleHost ∧ b0.host.ph = .setup ∧
      ReachesWithin 160 (live b0 .targetReady rs n c)
        (live (Block.begun { b.addressed with bus := b.bus ++ b.par.openCycles, spi := spiRegs .s4 .s4 ref len rd } ref len rd false) .targetReady rs n c) := by
  let sp : SPhase → SpiRegs := fun ph => spiRegs ph .s4 ref len rd
  let b1 : Block := { b with spi := sp .s1 }
  refine ⟨b1.begun .idxAddr 1 false true, ?_, hl, rfl, ?_⟩
  · rw [Block.beginSpiTransaction, if_neg (Nat.not_lt.mpr hlen)]
    exact Block.beginTransaction_ok hrole (by decide)
  let b2 : Block := { b1.wrote .idxAddr true [b.par.idxAddr] with spi := sp .s2 }
  let b3 : Block := { b2.wrote .enByte false [b.par.enByte] with spi := sp .s3 }
  let b4 : Block := { b3.wrote .datAddr true [b.par.datAddr] with spi := sp .s4 }
  have s1 := spi_step (ph := .s1) (last := .s4) (b := b1) (b' := b2.begun .enByte 1 false false) (rs := rs) (n := n) (c := c) (ref := .idxAddr)
    (ac := true) hr hp hl rfl rfl (by decide) (by decide) rfl (Block.beginTransaction_ok hrole (by decide)) rfl
  have s2 := spi_step (ph := .s2) (last := .s4) (b := b2) (b' := b3.begun .datAddr 1 false true) (rs := rs) (n := n) (c := c) (ref := .enByte)
    (ac := false) hr hp rfl rfl rfl (by decide) (by decide) rfl (Block.beginTransaction_ok hrole (by decide)) rfl
  have s3 := spi_step (ph := .s3) (last := .s4) (b := b3) (b' := b4.begun ref len rd false) (rs := rs) (n := n) (c := c) (ref := .datAddr)
    (ac := true) hr hp rfl rfl rfl (by decide) (by decide) rfl (Block.beginTransaction_ok hrole hlen) rfl
  have := (s1.trans (s2.trans s3)).mono (show _ ≤ 160 by decide)
  simpa [b4, b3, b2, b1, sp] using this

/-- `SpiTransaction` writing (R172). -/
theorem spiWrite_run {b : Block} {rs : List Byte} {n : Nat} {c : Bool} {ref : BufRef} (xs : List Byte)
    (hr : b.rph = .idle) (hp : b.per.ph = .idle) (hl : b.lines = .idleHost) (hrole : b.role = .host)
    (hlen : xs.length ≤ Config.cap) (hx : ∀ j, (h : j < xs.length) → b.bufRead ref j n = some (xs[j], n)) :
    ∃ b0, b.beginSpiTransaction none ref xs.length false .s1 .s4 = .ok b0 ∧ b0.lines = .idleHost ∧ b0.host.ph = .setup ∧
      ReachesWithin (32 * xs.length + 190) (live b0 .targetReady rs n c) (live (b.spiWrote ref xs) .targetReady rs n c) := by
  obtain ⟨b0, h0, hl0, hs0, s1⟩ := spiOpen_run (rs := rs) (n := n) (c := c) (ref := ref) (len := xs.length) (rd := false) hr hp hl hrole hlen
  refine ⟨b0, h0, hl0, hs0, ?_⟩
  have s2 := spi_last_write (b := { b.addressed with bus := b.bus ++ b.par.openCycles, spi := spiRegs .s4 .s4 ref xs.length false })
    (rs := rs) (n := n) (c := c) (ref := ref) (ac := false) xs hr hp rfl (by simp) rfl (by
      intro j h
      rw [← hx j h]
      cases ref <;> rfl)
  have := (s1.trans s2).mono (show _ ≤ 32 * xs.length + 190 by omega)
  simpa [Block.spiWrote] using this

/-- The block after `SpiTransaction` has read `ys` (R172). -/
abbrev Block.spiRead (b : Block) (ref : BufRef) (ys : List Byte) : Block :=
  { b.storeAll ref 0 ys with
    lines := .idleHost,
    host := { rd := true, ac := false, len := ys.length, i := ys.length, byte := ys.getLastD b.par.datAddr, ref := ref, ph := .idle },
    spi := spiRegs .idle .s4 ref ys.length true,
    todo := [], smp := ys.foldl (fun _ y => byteLevels y) [],
    bus := b.bus ++ b.par.openCycles ++ ys.map fun y => ⟨false, true, y⟩, res := ys.length }

/-- `SpiTransaction` reading (R172). -/
theorem spiRead_run {b : Block} {rs : List Byte} {n : Nat} {c : Bool} {ref : BufRef} (ys : List Byte)
    (hr : b.rph = .idle) (hp : b.per.ph = .idle) (hl : b.lines = .idleHost) (hrole : b.role = .host)
    (hlen : ys.length ≤ Config.cap) (hx : ∀ j, j < ys.length → b.Writable ref j) :
    ∃ b0, b.beginSpiTransaction none ref ys.length true .s1 .s4 = .ok b0 ∧ b0.lines = .idleHost ∧ b0.host.ph = .setup ∧
      ReachesWithin (32 * ys.length + 190) (live b0 .targetReady (ys ++ rs) n c) (live (b.spiRead ref ys) .targetReady rs n c) := by
  obtain ⟨b0, h0, hl0, hs0, s1⟩ := spiOpen_run (rs := ys ++ rs) (n := n) (c := c) (ref := ref) (len := ys.length) (rd := true) hr hp hl hrole hlen
  refine ⟨b0, h0, hl0, hs0, ?_⟩
  have s2 := spi_last_read (b := { b.addressed with bus := b.bus ++ b.par.openCycles, spi := spiRegs .s4 .s4 ref ys.length true })
    (rs := rs) (n := n) (c := c) (ref := ref) (ac := false) ys hr hp rfl (by simp) rfl hx
  have := (s1.trans s2).mono (show _ ≤ 32 * ys.length + 190 by omega)
  simpa [Block.spiRead, Block.storeAll] using this

end Sys2Proof.Machine
end

