-- ==== Sys2Proof/Laws/FlashRun.lean ====
section
/-! SUPPORT. The flash programming sequencer against a live external target (R181 to R186). -/

namespace Sys2Proof.Machine

/-- One tick of the flash sequencer. -/
theorem live_flash {b b' : Block} {rs : List Byte} {n : Nat} {c : Bool} (ht : b.todo = []) (hr : b.rph = .idle)
    (hh : b.host.ph = .idle) (hp : b.per.ph = .idle) (hs : b.spi.ph = .idle) (hf : b.flash.ph ≠ .idle)
    (hl : b.lines = .idleHost) (hm : flashTick (targetPeer .targetReady) n b = .moved b' n)
    (hl' : b'.lines = .idleHost) : Reaches 1 (live b .targetReady rs n c) (live b' .targetReady rs n c) :=
  live_tick (Block.not_atRest_of_flash hf) (by rw [hl]; rfl) (by rw [live_own, Block.advance_flash _ _ ht hr hh hp hs hf, hm])
    (by rw [hl']; rfl)

/-- What the flash sequencer leaves unchanged. -/
structure Block.FlashFrame (b b' : Block) : Prop where
  par : b'.par = b.par
  role : b'.role = b.role
  buf : b'.buf = b.buf
  per : b'.per = b.per
  disp : b'.disp = b.disp
  sin : b'.sin = b.sin
  sout : b'.sout = b.sout
  rph : b'.rph = b.rph
  ubuf : b'.ubuf = b.ubuf
  calls : b'.calls = b.calls

theorem Block.FlashFrame.refl (b : Block) : b.FlashFrame b := ⟨rfl, rfl, rfl, rfl, rfl, rfl, rfl, rfl, rfl, rfl⟩

theorem Block.FlashFrame.trans {a b c : Block} (h : a.FlashFrame b) (h' : b.FlashFrame c) : a.FlashFrame c :=
  ⟨h'.par.trans h.par, h'.role.trans h.role, h'.buf.trans h.buf, h'.per.trans h.per, h'.disp.trans h.disp,
    h'.sin.trans h.sin, h'.sout.trans h.sout, h'.rph.trans h.rph, h'.ubuf.trans h.ubuf, h'.calls.trans h.calls⟩

/-- A block between two acts of the flash sequencer: idle at every lower layer, the lines idle, in the host role. -/
structure Block.Ready (b : Block) : Prop where
  rph : b.rph = .idle
  per : b.per.ph = .idle
  host : b.host.ph = .idle
  spi : b.spi.ph = .idle
  todo : b.todo = []
  lines : b.lines = .idleHost
  role : b.role = .host

/-- The block after one pass of the poll that read `y`, at `F_POLL_TEST`. -/
abbrev Block.polled (b : Block) (y : Byte) : Block :=
  { b with
    lines := .idleHost,
    host := { rd := true, ac := false, len := 1, i := 1, byte := y, ref := .st, ph := .idle },
    spi := spiRegs .idle .s4 .st 1 true, todo := [], smp := byteLevels y, bus := b.bus ++ b.par.pollCycles y, res := 1,
    flash := { b.flash with ph := .pollTest, st := y } }

/-- One pass of the status poll (R184): `SpiReset`, the read-status command, its reply. -/
theorem poll_run {b : Block} {y : Byte} {rs : List Byte} {n : Nat} {c : Bool} (hb : b.Ready)
    (hop : b.flash.op = .program) :
    ∃ b0, b.flashPoll none = .ok b0 ∧ b0.lines = .idleHost ∧
      ReachesWithin 700 (live b0 .targetReady (y :: rs) n c) (live (b.polled y) .targetReady rs n c) := by
  let a1 := b.flashTo .pollDeselect
  obtain ⟨b0, h0, hl0, -, r1⟩ := spiReset_run (b := a1) (rs := y :: rs) (n := n) (c := c) hb.rph hb.per hb.lines hb.role
  refine ⟨b0, h0, hl0, ?_⟩
  let a2 : Block := { a1.spiResetDone with flash := { b.flash with st := Config.rdsrOp, ph := .pollCmd } }
  obtain ⟨b1, h1, hl1, -, r2⟩ := spiWrite_run (b := a2) (rs := y :: rs) (n := n) (c := c) (ref := .st) [Config.rdsrOp]
    hb.rph hb.per rfl hb.role (by decide) (bufRead_one rfl)
  have t1 : Reaches 1 (live a1.spiResetDone .targetReady (y :: rs) n c) (live b1 .targetReady (y :: rs) n c) := by
    refine live_flash rfl hb.rph rfl hb.per rfl FPhase.noConfusion rfl ?_ hl1
    have e : (a1.spiResetDone).flashPollCmd none = .ok b1 := h1
    rw [show flashTick (targetPeer .targetReady) n a1.spiResetDone = .ofBegin n ((a1.spiResetDone).flashPollCmd none) from rfl, e]
    rfl
  let a3 : Block := { a2.spiWrote .st [Config.rdsrOp] with flash := { b.flash with st := Config.rdsrOp, ph := .pollRead } }
  obtain ⟨b2, h2, hl2, -, r3⟩ := spiRead_run (b := a3) (rs := rs) (n := n) (c := c) (ref := .st) [y]
    hb.rph hb.per rfl hb.role (show 1 ≤ Config.cap by decide) (by intro j h; exact .inr (.inl ⟨rfl, by simpa using h⟩))
  have t2 : Reaches 1 (live (a2.spiWrote .st [Config.rdsrOp]) .targetReady (y :: rs) n c) (live b2 .targetReady (y :: rs) n c) := by
    refine live_flash rfl hb.rph rfl hb.per rfl FPhase.noConfusion rfl ?_ hl2
    have e : (a2.spiWrote .st [Config.rdsrOp]).flashPollRead none = .ok b2 := h2
    rw [show flashTick (targetPeer .targetReady) n (a2.spiWrote .st [Config.rdsrOp]) =
      .ofBegin n ((a2.spiWrote .st [Config.rdsrOp]).flashPollRead none) from rfl, e]
    rfl
  have t3 : Reaches 1 (live (a3.spiRead .st [y]) .targetReady rs n c)
      (live ((a3.spiRead .st [y]).flashTo .pollTest) .targetReady rs n c) := by
    refine live_flash rfl hb.rph rfl hb.per rfl FPhase.noConfusion rfl ?_ rfl
    have e : (a3.spiRead .st [y]).flash.op ≠ .statusOnly := by
      rw [show (a3.spiRead .st [y]).flash.op = b.flash.op from rfl, hop]
      exact FOp.noConfusion
    rw [show flashTick (targetPeer .targetReady) n (a3.spiRead .st [y]) =
      flashNext n (a3.spiRead .st [y]) (.ok (if (a3.spiRead .st [y]).flash.op = .statusOnly then
        (a3.spiRead .st [y]).flashTo .idle else (a3.spiRead .st [y]).flashTo .pollTest)) from rfl, if_neg e]
    rfl
  have := (r1.trans (t1.within.trans (r2.trans (t2.within.trans (r3.trans t3.within))))).mono (show _ ≤ 700 by simp)
  simpa [a3, a2, a1, Block.polled, Block.spiRead, Block.spiWrote, Block.storeAll, Block.flashTo] using this

/-- The block after the poll of a pair, at `F_TEST` of the next. -/
abbrev Block.pollEnded (b : Block) (sts : List Byte) (y : Byte) : Block :=
  { b.polled y with
    bus := b.bus ++ (sts ++ [y]).flatMap b.par.pollCycles,
    flash := { b.flash with ph := .test, st := y, i := b.flash.i + 2 } }

/-- The status poll of a pair (R185): passes until a status byte has bit 0 clear. -/
theorem polls_run {y : Byte} {rs : List Byte} {n : Nat} {c : Bool} (hy : statusBusy y = false) :
    ∀ (sts : List Byte) (b : Block), (∀ x ∈ sts, statusBusy x = true) → b.Ready → b.flash.op = .program →
      ∃ b0, b.flashPoll none = .ok b0 ∧ b0.lines = .idleHost ∧
        ReachesWithin (701 * (sts.length + 1)) (live b0 .targetReady (sts ++ y :: rs) n c)
          (live (b.pollEnded sts y) .targetReady rs n c) := by
  intro sts
  induction sts with
  | nil =>
    intro b _ hb hop
    obtain ⟨b0, h0, hl0, r1⟩ := poll_run (y := y) (rs := rs) (n := n) (c := c) hb hop
    refine ⟨b0, h0, hl0, ?_⟩
    have t1 : Reaches 1 (live (b.polled y) .targetReady rs n c) (live (b.pollEnded [] y) .targetReady rs n c) := by
      refine live_flash rfl hb.rph rfl hb.per rfl FPhase.noConfusion rfl ?_ rfl
      rw [show flashTick (targetPeer .targetReady) n (b.polled y) = (if statusBusy y = true then
        .ofBegin n ((b.polled y).flashPoll none) else .moved _ n) from rfl, if_neg (by simp [hy])]
      simp [Block.pollEnded, Block.flashTo]
    exact (r1.trans t1.within).mono (by simp)
  | cons x sts ih =>
    intro b hx hb hop
    obtain ⟨b0, h0, hl0, r1⟩ := poll_run (y := x) (rs := sts ++ y :: rs) (n := n) (c := c) hb hop
    refine ⟨b0, h0, hl0, ?_⟩
    obtain ⟨b1, h1, hl1, r2⟩ := ih (b.polled x) (fun z hz => hx z (by simp [hz]))
      ⟨hb.rph, hb.per, rfl, rfl, rfl, rfl, hb.role⟩ hop
    have t1 : Reaches 1 (live (b.polled x) .targetReady (sts ++ y :: rs) n c) (live b1 .targetReady (sts ++ y :: rs) n c) := by
      refine live_flash rfl hb.rph rfl hb.per rfl FPhase.noConfusion rfl ?_ hl1
      rw [show flashTick (targetPeer .targetReady) n (b.polled x) = (if statusBusy x = true then
        .ofBegin n ((b.polled x).flashPoll none) else .moved _ n) from rfl, if_pos (hx x (by simp)), h1]
      rfl
    have e : (b.polled x).pollEnded sts y = b.pollEnded (x :: sts) y := by
      simp [Block.pollEnded, List.append_assoc]
    rw [e] at r2
    exact (r1.trans (t1.within.trans r2)).mono (by simp only [List.length_cons]; omega)

/-- One pair of a flash program (R181): deselect, the seed or the increment command, the poll. -/
theorem pair_run {b : Block} {d e y : Byte} {sts rs : List Byte} {n : Nat} {c : Bool} (hb : b.Ready)
    (hop : b.flash.op = .program) (hph : b.flash.ph = .test) (hi : b.flash.i + 1 < b.flash.len)
    (hd : b.bufRead b.flash.ref b.flash.i n = some (d, n)) (he : b.bufRead b.flash.ref (b.flash.i + 1) n = some (e, n))
    (hu : b.flash.ref = .buf ∨ b.flash.ref = .user)
    (hs : ∀ x ∈ sts, statusBusy x = true) (hy : statusBusy y = false) :
    ∃ b', ReachesWithin (701 * (sts.length + 1) + 700) (live b .targetReady (sts ++ y :: rs) n c) (live b' .targetReady rs n c) ∧
      b'.Ready ∧ b.FlashFrame b' ∧
      (∃ cmd, b'.flash = { b.flash with cmd := cmd, st := y, i := b.flash.i + 2, init := true }) ∧
      b'.bus = b.bus ++ b.par.pairCycles b.flash.init d e ++ (sts ++ [y]).flatMap b.par.pollCycles := by
  let a1 := b.flashTo .deselect
  obtain ⟨b0, h0, hl0, -, r1⟩ := spiReset_run (b := a1) (rs := sts ++ y :: rs) (n := n) (c := c) hb.rph hb.per hb.lines hb.role
  have t0 : Reaches 1 (live b .targetReady (sts ++ y :: rs) n c) (live b0 .targetReady (sts ++ y :: rs) n c) := by
    refine live_flash hb.todo hb.rph hb.host hb.per hb.spi (by simp [hph]) hb.lines ?_ hl0
    have e0 : b.flashDeselect none = .ok b0 := h0
    simp only [flashTick, hph, hi, if_true, targetPeer, e0]
    rfl
  have hpair : (a1.spiResetDone).flashPair n = some (d, e, n) := by
    have h1 : (a1.spiResetDone).bufRead b.flash.ref b.flash.i n = some (d, n) := by rw [← hd]; rcases hu with h | h <;> rw [h] <;> rfl
    have h2 : (a1.spiResetDone).bufRead b.flash.ref (b.flash.i + 1) n = some (e, n) := by rw [← he]; rcases hu with h | h <;> rw [h] <;> rfl
    rw [Block.flashPair]
    rw [show (a1.spiResetDone).flash.ref = b.flash.ref from rfl, show (a1.spiResetDone).flash.i = b.flash.i from rfl, h1]
    simp only [h2]
  have hdes : flashTick (targetPeer .targetReady) n a1.spiResetDone =
      .ofBegin n (if b.flash.init then (a1.spiResetDone).flashIncr none d e else (a1.spiResetDone).flashSeed none d e) := by
    rw [show flashTick (targetPeer .targetReady) n a1.spiResetDone = (match (a1.spiResetDone).flashPair n with
      | none => .fault .bufferIndex
      | some (d, e, n') => .ofBegin n' (if (a1.spiResetDone).flash.init then (a1.spiResetDone).flashIncr none d e else (a1.spiResetDone).flashSeed none d e)) from rfl,
      hpair]
    rfl
  cases hin : b.flash.init with
  | false =>
    let a2 : Block := { a1.spiResetDone with flash := { b.flash with cmd := seedCmd d e, ph := .seed } }
    obtain ⟨b1, h1, hl1, -, r2⟩ := spiWrite_run (b := a2) (rs := sts ++ y :: rs) (n := n) (c := c) (ref := .cmd)
      [Config.aaiOp, 0, 0, 0, d, e] hb.rph hb.per rfl hb.role (show 6 ≤ Config.cap by decide) (by
        intro j h
        simp only [List.length_cons, List.length_nil] at h
        have hj : j = 0 ∨ j = 1 ∨ j = 2 ∨ j = 3 ∨ j = 4 ∨ j = 5 := by omega
        rcases hj with rfl | rfl | rfl | rfl | rfl | rfl <;> rfl)
    have t1 : Reaches 1 (live a1.spiResetDone .targetReady (sts ++ y :: rs) n c) (live b1 .targetReady (sts ++ y :: rs) n c) := by
      refine live_flash rfl hb.rph rfl hb.per rfl FPhase.noConfusion rfl ?_ hl1
      have e1 : (a1.spiResetDone).flashSeed none d e = .ok b1 := h1
      rw [hdes, hin, if_neg (by decide), e1]
      rfl
    let a3 : Block := a2.spiWrote .cmd [Config.aaiOp, 0, 0, 0, d, e]
    let a4 : Block := { a3 with flash := { a3.flash with init := true } }
    obtain ⟨b2, h2, hl2, r3⟩ := polls_run (rs := rs) (n := n) (c := c) hy sts a4 hs ⟨hb.rph, hb.per, rfl, rfl, rfl, rfl, hb.role⟩ hop
    have t2 : Reaches 1 (live a3 .targetReady (sts ++ y :: rs) n c) (live b2 .targetReady (sts ++ y :: rs) n c) := by
      refine live_flash rfl hb.rph rfl hb.per rfl FPhase.noConfusion rfl ?_ hl2
      have e2 : a3.flash.op ≠ .seedOnly := by
        rw [show a3.flash.op = b.flash.op from rfl, hop]
        exact FOp.noConfusion
      rw [show flashTick (targetPeer .targetReady) n a3 = flashNext n a3 (if a3.flash.op = .seedOnly then .ok (a4.flashTo .idle) else a4.flashPoll none) from rfl,
        if_neg e2, h2]
      rfl
    refine ⟨a4.pollEnded sts y, ?_, ⟨hb.rph, hb.per, rfl, rfl, rfl, rfl, hb.role⟩, ⟨rfl, rfl, rfl, rfl, rfl, rfl, rfl, rfl, rfl, rfl⟩, ⟨seedCmd d e, ?_⟩, ?_⟩
    · exact (t0.within.trans (r1.trans (t1.within.trans (r2.trans (t2.within.trans r3))))).mono (by simp only [List.length_cons, List.length_nil]; omega)
    · simp only [a4, a3, a2, hph]
    · simp [a4, a3, a2, a1, Block.flashTo, Params.pairCycles, pairBytes]
  | true =>
    let a2 : Block := { a1.spiResetDone with flash := { b.flash with cmd := incrCmd b.flash.cmd d e, ph := .incr } }
    obtain ⟨b1, h1, hl1, -, r2⟩ := spiWrite_run (b := a2) (rs := sts ++ y :: rs) (n := n) (c := c) (ref := .cmd)
      [Config.aaiOp, d, e] hb.rph hb.per rfl hb.role (show 3 ≤ Config.cap by decide) (by
        intro j h
        simp only [List.length_cons, List.length_nil] at h
        have hj : j = 0 ∨ j = 1 ∨ j = 2 := by omega
        rcases hj with rfl | rfl | rfl <;> rfl)
    have t1 : Reaches 1 (live a1.spiResetDone .targetReady (sts ++ y :: rs) n c) (live b1 .targetReady (sts ++ y :: rs) n c) := by
      refine live_flash rfl hb.rph rfl hb.per rfl FPhase.noConfusion rfl ?_ hl1
      have e1 : (a1.spiResetDone).flashIncr none d e = .ok b1 := h1
      rw [hdes, hin, if_pos rfl, e1]
      rfl
    let a3 : Block := a2.spiWrote .cmd [Config.aaiOp, d, e]
    obtain ⟨b2, h2, hl2, r3⟩ := polls_run (rs := rs) (n := n) (c := c) hy sts a3 hs ⟨hb.rph, hb.per, rfl, rfl, rfl, rfl, hb.role⟩ hop
    have t2 : Reaches 1 (live a3 .targetReady (sts ++ y :: rs) n c) (live b2 .targetReady (sts ++ y :: rs) n c) := by
      refine live_flash rfl hb.rph rfl hb.per rfl FPhase.noConfusion rfl ?_ hl2
      have e2 : a3.flash.op ≠ .incrOnly := by
        rw [show a3.flash.op = b.flash.op from rfl, hop]
        exact FOp.noConfusion
      rw [show flashTick (targetPeer .targetReady) n a3 = flashNext n a3 (if a3.flash.op = .incrOnly then .ok (a3.flashTo .idle) else a3.flashPoll none) from rfl,
        if_neg e2, h2]
      rfl
    refine ⟨a3.pollEnded sts y, ?_, ⟨hb.rph, hb.per, rfl, rfl, rfl, rfl, hb.role⟩, ⟨rfl, rfl, rfl, rfl, rfl, rfl, rfl, rfl, rfl, rfl⟩, ⟨incrCmd b.flash.cmd d e, ?_⟩, ?_⟩
    · exact (t0.within.trans (r1.trans (t1.within.trans (r2.trans (t2.within.trans r3))))).mono (by simp only [List.length_cons, List.length_nil]; omega)
    · simp only [a3, a2, hph, hin]
    · simp [a3, a2, a1, Block.flashTo, Params.pairCycles, pairBytes]

theorem Block.bufRead_frame {b b' : Block} (h : b.FlashFrame b') {r : BufRef} (hr : r = .buf ∨ r = .user) (i n : Nat) :
    b'.bufRead r i n = b.bufRead r i n := by
  rcases hr with rfl | rfl <;> simp only [Block.bufRead, h.buf, h.ubuf]

/-- A flash program from `F_TEST` on (R181): a pair for each poll, then the end; an odd last byte is left out. -/
theorem program_run {rs : List Byte} {n : Nat} {c : Bool} :
    ∀ (polls : List (List Byte × Byte)) (xs : List Byte) (b : Block), b.Ready → b.flash.op = .program → b.flash.ph = .test →
      b.flash.len = b.flash.i + xs.length → polls.length = xs.length / 2 → (b.flash.ref = .buf ∨ b.flash.ref = .user) →
      (∀ j, (h : j < xs.length) → b.bufRead b.flash.ref (b.flash.i + j) n = some (xs[j], n)) →
      (∀ q ∈ polls, (∀ x ∈ q.1, statusBusy x = true) ∧ statusBusy q.2 = false) →
      ∃ b', ReachesWithin (701 * (pollReplies polls).length + 700 * polls.length + 2) (live b .targetReady (pollReplies polls ++ rs) n c)
          (live b' .targetReady rs n c) ∧
        b'.Ready ∧ b.FlashFrame b' ∧
        (∃ cmd st, b'.flash =
          { b.flash with
            cmd := cmd, st := st, i := b.flash.i + 2 * polls.length, ph := .idle,
            init := if polls = [] then b.flash.init else true }) ∧
        b'.bus = b.bus ++ b.par.programCycles b.flash.init xs polls ∧ b'.res = (b.flash.i + 2 * polls.length : Nat) := by
  intro polls
  induction polls with
  | nil =>
    intro xs b hb hop hph hlen hk hu hx _
    have hi : ¬ b.flash.i + 1 < b.flash.len := by simp only [List.length_nil] at hk; omega
    have t1 : Reaches 1 (live b .targetReady rs n c) (live (b.flashTo .done) .targetReady rs n c) := by
      refine live_flash hb.todo hb.rph hb.host hb.per hb.spi (by simp [hph]) hb.lines ?_ hb.lines
      simp only [flashTick, hph, hi, if_false]
    have t2 : Reaches 1 (live (b.flashTo .done) .targetReady rs n c)
        (live (({ b.flashTo .done with res := b.flash.i } : Block).flashTo .idle) .targetReady rs n c) :=
      live_flash hb.todo hb.rph hb.host hb.per hb.spi FPhase.noConfusion hb.lines rfl hb.lines
    refine ⟨_, (t1.within.trans t2.within).mono (by simp), ⟨hb.rph, hb.per, hb.host, hb.spi, hb.todo, hb.lines, hb.role⟩,
      ⟨rfl, rfl, rfl, rfl, rfl, rfl, rfl, rfl, rfl, rfl⟩, ⟨b.flash.cmd, b.flash.st, ?_⟩, ?_, ?_⟩
    · simp [Block.flashTo]
    · have e : ∀ i ys, b.par.programCycles i ys [] = [] := by
        intro i ys
        rcases ys with _ | ⟨_, _ | ⟨_, _⟩⟩ <;> rfl
      rw [e, List.append_nil]
      rfl
    · simp
  | cons q polls ih =>
    intro xs b hb hop hph hlen hk hu hx hq
    obtain ⟨sts, y⟩ := q
    rcases xs with _ | ⟨d, _ | ⟨e, xs⟩⟩
    · simp at hk
    · simp at hk
    · simp only [List.length_cons] at hk hlen
      have hd := hx 0 (by simp)
      have he := hx 1 (by simp)
      simp only [Nat.add_zero, List.getElem_cons_zero, List.getElem_cons_succ] at hd he
      have hq0 := hq (sts, y) (by simp)
      obtain ⟨b1, r1, hb1, hf1, ⟨cmd, hfl⟩, hbus⟩ := pair_run (rs := pollReplies polls ++ rs) (c := c) hb hop hph (by omega) hd he hu hq0.1 hq0.2
      have hf : b1.flash.i = b.flash.i + 2 := by rw [hfl]
      have href : b1.flash.ref = b.flash.ref := by rw [hfl]
      obtain ⟨b2, r2, hb2, hf2, ⟨cmd', st', hfl2⟩, hbus2, hres⟩ := ih xs b1 hb1 (by rw [hfl]; exact hop) (by rw [hfl]; exact hph)
        (by rw [hfl]; simp only; omega) (by omega) (by rw [href]; exact hu)
        (by
          intro j hj
          have := hx (j + 2) (by simp only [List.length_cons]; omega)
          rw [href, Block.bufRead_frame hf1 hu, hf, show b.flash.i + 2 + j = b.flash.i + (j + 2) by omega, this]
          simp)
        (fun q hq' => hq q (by simp [hq']))
      have e : sts ++ y :: (pollReplies polls ++ rs) = pollReplies ((sts, y) :: polls) ++ rs := by
        simp [pollReplies]
      rw [e] at r1
      refine ⟨b2, (r1.trans r2).mono ?_, hb2, hf1.trans hf2, ⟨cmd', st', ?_⟩, ?_, ?_⟩
      · simp only [pollReplies, List.flatMap_cons, List.length_append, List.length_cons, List.length_nil]
        omega
      · rw [hfl2, hfl]
        simp only [List.length_cons, if_neg (List.cons_ne_nil _ _)]
        simp only [ite_self, show b.flash.i + 2 + 2 * polls.length = b.flash.i + 2 * (polls.length + 1) by omega]
      · rw [hbus2, hbus, hf1.par, hfl, Params.programCycles]
        simp only [List.append_assoc]
      · rw [hres, hf, List.length_cons]
        norm_cast
        omega

end Sys2Proof.Machine
end

