-- ==== Sys2Proof/Laws/CommandRun.lean ====
section
/-! SUPPORT. The dispatcher's loops over a fill, a body and a response (R104, R205, R207, R213), with nothing else moving. -/

namespace Sys2Proof.Machine

/-- The machine with the near block and the draw counter replaced. -/
def State.on (s : State) (b : Block) (n : Nat) : State := { s with near := b, drawn := n }

theorem State.on_self (s : State) : s.on s.near s.drawn = s := rfl

/-- A tick of the near block that leaves its lines alone, while nothing else moves. -/
theorem calm_tick {s : State} {b b' : Block} {n n' : Nat} (hc : s.Calm) (hb : b.lines = s.near.lines)
    (hr : b.atRest = false) (ht : b.tick s.far.asPeer n = .moved b' n') (hl : b'.lines = b.lines) :
    Reaches 1 (s.on b n) (s.on b' n') := by
  refine .of_turn hr ?_
  rw [State.turn_near (s := s.on b n) hc.1 (by show s.far.react b.lines n = none; rw [hb]; exact hc.2.1 n),
    State.tickNear_moved (s := s.on b n) (b := b') (n := n') ht]
  have : contended b'.lines s.far.lines = false := by rw [hl, hb]; exact hc.2.2
  simp [State.on, this]

/-- A tick of the dispatcher. -/
theorem calm_disp {s : State} {b b' : Block} {n n' : Nat} (hc : s.Calm) (hb : b.lines = s.near.lines)
    (hi : b.idleBelow = true) (h0 : b.disp.ph ≠ .header0) (h1 : b.disp.ph ≠ .halted)
    (ht : dispTick s.far.asPeer n b = .moved b' n') (hl : b'.lines = b.lines) :
    Reaches 1 (s.on b n) (s.on b' n') :=
  calm_tick hc hb (Block.not_atRest_of_disp h0 h1) (by rw [Block.tick_disp _ _ hi, ht]) hl

/-- The body bytes of a command go to `BUF` in order, and then, in a turn of its own, the command goes on (R6, R207). -/
theorem body_run {s : State} {n : Nat} {b1 : Block} (hc : s.Calm) (rest : List Byte) :
    ∀ (xs : List Byte) (b : Block), b.lines = s.near.lines → b.idleBelow = true → b.disp.ph = .body →
      b.disp.step = .decode → b.sin = xs ++ rest → b.disp.k + xs.length = b.disp.len → b.disp.len ≤ Config.cap →
      ({ b with
          sin := rest, buf := b.buf.writeAll b.disp.k xs,
          disp := { b.disp with k := b.disp.len } } : Block).afterBody s.far.role = .ok b1 → b1.lines = b.lines →
      Reaches (xs.length + 1) (s.on b n) (s.on b1 n) := by
  intro xs
  induction xs with
  | nil =>
    intro b hb hi hph _ hsin hk _ hafter hl
    refine calm_disp hc hb hi (by simp [hph]) (by simp [hph]) ?_ hl
    have hk : b.disp.k = b.disp.len := hk
    have e : ({ b with sin := rest, buf := b.buf.writeAll b.disp.k [], disp := { b.disp with k := b.disp.len } } : Block) =
        b := by
      rw [← hk]
      obtain rfl : b.sin = rest := hsin
      rfl
    rw [e] at hafter
    simp only [dispTick, hph, bodyTick, hk, Nat.lt_irrefl, if_false]
    rw [show s.far.asPeer.role = s.far.role from rfl, hafter]
    rfl
  | cons x xs ih =>
    intro b hb hi hph hst hsin hk hlen hafter hl
    simp only [List.length_cons] at hk
    let b2 : Block := { b with
      sin := xs ++ rest, buf := b.buf.write b.disp.k x, disp := { b.disp with k := b.disp.k + 1 } }
    have s1 : Reaches 1 (s.on b n) (s.on b2 n) := by
      refine calm_disp hc hb hi (by simp [hph]) (by simp [hph]) ?_ rfl
      have hlt : b.disp.k < b.disp.len := by omega
      have hkc : b.disp.k < Config.cap := by omega
      simp only [dispTick, hph, bodyTick, hlt, if_true, hsin, List.cons_append, Block.bufWrite, hkc, Block.dispTo, b2,
        ← hst]
    have s2 := ih b2 hb hi hph hst rfl (by show b.disp.k + 1 + _ = b.disp.len; omega) hlen hafter hl
    have := s1.trans s2
    rw [Nat.add_comm] at this
    exact this

/-- The fill of 'B' writes its bytes to `BUF` in order, and then the response begins (R205). -/
theorem fill_run {s : State} {n : Nat} (hc : s.Calm) :
    ∀ (xs : List Byte) (b : Block), xs ≠ [] → b.lines = s.near.lines → b.idleBelow = true → b.disp.ph = .exec →
      b.disp.step = .fill → b.disp.k + xs.length = b.disp.len → b.disp.len ≤ Config.cap →
      (∀ j, (h : j < xs.length) → xs[j] = sizeQueryByte (b.disp.k + j)) →
      Reaches xs.length (s.on b n)
        (s.on (({ b with buf := b.buf.writeAll b.disp.k xs } : Block).dispTo .respond .decode 0) n) := by
  intro xs
  induction xs with
  | nil => intro b h; exact absurd rfl h
  | cons x xs ih =>
    intro b _ hb hi hph hst hk hlen hx
    have hx0 := hx 0 (by simp)
    simp only [List.getElem_cons_zero, Nat.add_zero] at hx0
    have hkc : b.disp.k < Config.cap := by simp only [List.length_cons] at hk; omega
    have hdisp : dispTick s.far.asPeer n b = .moved (if b.disp.k + 1 < b.disp.len
        then ({ b with buf := b.buf.write b.disp.k x } : Block).dispTo .exec .fill (b.disp.k + 1)
        else ({ b with buf := b.buf.write b.disp.k x } : Block).dispTo .respond .decode 0) n := by
      simp only [dispTick, hph, execTick, hst, fillTick, Block.bufWrite, hkc, if_true, ← hx0]
    cases xs with
    | nil =>
      simp only [List.length_cons, List.length_nil] at hk
      refine calm_disp hc hb hi (by simp [hph]) (by simp [hph]) ?_ rfl
      rw [hdisp, if_neg (by omega)]
      rfl
    | cons x' xs =>
      simp only [List.length_cons] at hk
      have s1 : Reaches 1 (s.on b n)
          (s.on (({ b with buf := b.buf.write b.disp.k x } : Block).dispTo .exec .fill (b.disp.k + 1)) n) := by
        refine calm_disp hc hb hi (by simp [hph]) (by simp [hph]) ?_ rfl
        rw [hdisp, if_pos (by omega)]
      have s2 := ih (({ b with buf := b.buf.write b.disp.k x } : Block).dispTo .exec .fill (b.disp.k + 1)) (by simp) hb hi
        rfl rfl (by show b.disp.k + 1 + _ = b.disp.len; simp only [List.length_cons]; omega) hlen (by
          intro j hj
          have := hx (j + 1) (by simp only [List.length_cons] at hj ⊢; omega)
          rw [List.getElem_cons_succ, show b.disp.k + (j + 1) = b.disp.k + 1 + j by omega] at this
          exact this)
      have := s1.trans s2
      rw [Nat.add_comm] at this
      exact this

/-- The response of a data command: the bytes of `BUF` go out in order, and the command ends (R104, R213). -/
theorem respond_run {s : State} {n : Nat} (hc : s.Calm) :
    ∀ (ys : List Byte) (b : Block), b.lines = s.near.lines → b.idleBelow = true → b.disp.ph = .respond →
      b.disp.step = .decode → b.disp.cmd ≠ Config.letterC → b.disp.cmd ≠ Config.letterW → b.disp.cmd ≠ Config.letterP →
      b.disp.k + ys.length = b.disp.len →
      (∀ j, (h : j < ys.length) → b.bufRead .buf (b.disp.k + j) n = some (ys[j], n)) →
      Reaches (ys.length + 1) (s.on b n) (s.on ({ b with sout := b.sout ++ ys } : Block).endCommand n) := by
  intro ys
  induction ys with
  | nil =>
    intro b hb hi hph _ hC hW hP hk _
    simp only [List.length_nil] at hk
    refine calm_disp hc hb hi (by simp [hph]) (by simp [hph]) ?_ rfl
    have hlt : ¬ b.disp.k < b.disp.len := by omega
    simp only [dispTick, hph, respondTick, hC, hW, hP, hlt, if_false, or_self, List.append_nil]
  | cons y ys ih =>
    intro b hb hi hph hst hC hW hP hk hx
    simp only [List.length_cons] at hk
    let b2 : Block := { b with sout := b.sout ++ [y], disp := { b.disp with k := b.disp.k + 1 } }
    have h0 := hx 0 (by simp)
    simp only [Nat.add_zero, List.getElem_cons_zero] at h0
    have s1 : Reaches 1 (s.on b n) (s.on b2 n) := by
      refine calm_disp hc hb hi (by simp [hph]) (by simp [hph]) ?_ rfl
      have hlt : b.disp.k < b.disp.len := by omega
      simp only [dispTick, hph, respondTick, hC, hW, hP, hlt, if_false, if_true, or_self, h0, Block.dispTo, b2, ← hst]
    have s2 := ih b2 hb hi hph hst hC hW hP (by show b.disp.k + 1 + _ = b.disp.len; omega) (by
      intro j hj
      have := hx (j + 1) (by simp only [List.length_cons]; omega)
      rw [show b.disp.k + (j + 1) = b.disp.k + 1 + j by omega, List.getElem_cons_succ] at this
      exact this)
    have := s1.trans s2
    rw [Nat.add_comm] at this
    have e : ({ b2 with sout := b2.sout ++ ys } : Block).endCommand = ({ b with sout := b.sout ++ (y :: ys) } : Block).endCommand := by
      simp [Block.endCommand, Block.dispTo, b2]
    rw [e] at this
    exact this

/-- Reading back the bytes that were written to the start of `BUF`. -/
theorem bufRead_writeAll {b : Block} {m : Memory} {ys : List Byte} {n j : Nat} (hb : b.buf = m.writeAll 0 ys)
    (hlen : ys.length ≤ Config.cap) (h : j < ys.length) : b.bufRead .buf j n = some (ys[j], n) := by
  have hj : j < Config.cap := by omega
  have hr := Memory.read_writeAll (m := m) (a := 0) (i := j) h
  rw [Nat.zero_add] at hr
  simp only [Block.bufRead, hj, if_true, hb, hr, List.getElem?_eq_getElem h]

/-- A live target that is ready leaves the near block calm between transactions. -/
theorem calm_live {b : Block} {rs : List Byte} {n : Nat} {c : Bool} (hl : b.lines = .idleHost) :
    (live b .targetReady rs n c).Calm := by
  refine ⟨rfl, fun m => ?_, ?_⟩
  · show (Target.react b.lines m ⟨.targetReady, true, rs⟩).map _ = none
    rw [hl]
    rfl
  · show contended b.lines .targetReady = false
    rw [hl]
    rfl

end Sys2Proof.Machine
end

