-- ==== Sys2Proof/Laws/FarOnly.lean ====
section
/-! SUPPORT. What a turn does to the near block when nothing but the far party moves outside: it leaves the block as it is,
or the block takes its own step. A property of the block that its steps keep holds at the end of a run. -/

namespace Sys2Proof.Machine

/-- A move of the far party leaves the near block as it is, and queues only moves of the far party. -/
theorem Move.apply_far {m : Move} {s t : State} (hm : m.isFar = true) (hs : s.FarOnly) (h : m.apply s = .moved t) :
    t.near = s.near ∧ t.FarOnly := by
  cases m with
  | lines ls =>
    simp only [Move.apply] at h
    split at h <;> (simp only [Turn.moved.injEq] at h; subst h; exact ⟨rfl, hs⟩)
  | far k =>
    cases k with
    | zero => simp only [Move.apply, Turn.moved.injEq] at h; exact h ▸ ⟨rfl, hs⟩
    | succ k =>
      simp only [Move.apply, State.moveFar] at h
      split at h
      · simp only [Turn.moved.injEq] at h; exact h ▸ ⟨rfl, hs⟩
      · split at h
        · simp only [Turn.moved.injEq] at h
          subst h
          refine ⟨rfl, fun e he => ?_⟩
          rcases List.mem_cons.mp he with rfl | he
          · rfl
          · exact hs e he
        · simp only [Turn.moved.injEq] at h; exact h ▸ ⟨rfl, hs⟩
        · cases h
        · cases h
  | serial x => cases hm
  | farSerial x => simp only [Move.apply, Turn.moved.injEq] at h; exact h ▸ ⟨rfl, hs⟩
  | call q => cases hm
  | farCall q => simp only [Move.apply, Turn.moved.injEq] at h; exact h ▸ ⟨rfl, hs⟩
  | resetNear => cases hm
  | resetFar => simp only [Move.apply, Turn.moved.injEq] at h; exact h ▸ ⟨rfl, hs⟩

/-- A turn under `FarOnly`: the near block stays as it is, or takes one step of its own. -/
theorem State.turn_farOnly {s t : State} (hs : s.FarOnly) (h : s.turn = .moved t) :
    t.FarOnly ∧ (t.near = s.near ∨ ∃ n, s.near.tick s.far.asPeer s.drawn = .moved t.near n) := by
  have same : ∀ {u : State}, u.script = s.script → u.FarOnly := fun e x hx => hs x (e ▸ hx)
  have rest : ∀ {e : Event} {r : List Event}, s.script = e :: r → e.move.isFar = true ∧ ∀ x ∈ r, x.move.isFar = true :=
    fun he => ⟨hs _ (by rw [he]; exact List.mem_cons_self ..), fun x hx => hs x (by rw [he]; exact List.mem_cons_of_mem _ hx)⟩
  rcases State.turn_moved h with hr | ⟨u, hu, e⟩ | ⟨e, r, u, he, hu, hm⟩
  · obtain ⟨hn, hsc, -⟩ := State.react_some hr
    exact ⟨same hsc, .inl hn⟩
  · obtain ⟨hn, hsc, -⟩ := State.tickNear_cases hu
    rcases e with rfl | ⟨k, m, r, he, rfl⟩
    · exact ⟨same hsc, .inr hn⟩
    · refine ⟨fun x hx => ?_, .inr hn⟩
      rcases List.mem_cons.mp hx with rfl | hx
      · exact (rest he).1
      · exact (rest he).2 x hx
  · obtain ⟨h1, h2⟩ := Move.apply_far (rest he).1 (s := { u with script := r }) (rest he).2 hm
    refine ⟨h2, .inl ?_⟩
    rcases hu with rfl | hu
    · exact h1
    · exact h1.trans (State.tickNear_stuck hu).1

/-- A property that every step of a running block keeps holds at the near block when a run ends, whatever the far party
does meanwhile. -/
theorem farOnly_run {P : Block → Prop}
    (hP : ∀ (p : Peer) (n m : Nat) (b b' : Block), P b → b.atRest = false → b.tick p n = .moved b' m → P b') {f : Nat}
    {s t : State} (hs : s.FarOnly) (h : P s.near) (hr : State.run f s = .next t) : P t.near ∧ t.FarOnly := by
  refine run_keeps (P := fun s => P s.near ∧ s.FarOnly) ?_ ?_ f s t ⟨h, hs⟩ hr
  · intro u v hu ha hv
    obtain ⟨h1, h2⟩ := State.turn_farOnly hu.2 hv
    refine ⟨?_, h1⟩
    rcases h2 with h2 | ⟨n, h2⟩
    · exact h2 ▸ hu.1
    · exact hP _ _ _ _ _ hu.1 ha h2
  · intro u v hu ha hv
    obtain ⟨h1, h2, -⟩ := State.tickNear_stuck (State.turn_stuck hv).2
    exact ⟨h1 ▸ hu.1, fun e he => hu.2 e (h2 ▸ he)⟩

/-- Every meaning launches the start of its operation at the near block. -/
theorem exec_eq (i : Instr) (s : State) : exec i s = s.launch (s.near.start s.far.role i) := by cases i <;> rfl

/-- The same for an operation launched at the near block. -/
theorem farOnly_launch {P : Block → Prop}
    (hP : ∀ (p : Peer) (n m : Nat) (b b' : Block), P b → b.atRest = false → b.tick p n = .moved b' m → P b')
    {s t : State} {b : Except Refusal Block} (hs : s.FarOnly)
    (hb : s.near.atRest = true → s.near.disp.ph = .header0 → ∀ b', b = .ok b' → P b') (h : s.launch b = .next t) :
    P t.near := by
  obtain ⟨ha, hd, b', rfl, hr⟩ := State.launch_next h
  exact (farOnly_run hP (s := { s with near := b' }) hs (hb ha hd b' rfl) hr).1

end Sys2Proof.Machine
end

