-- ==== Sys2Proof/Laws/Fetch.lean ====
section
/-! SUPPORT. What the fetch does: when it may take its primitives at once, what it consumes, and that one turn of the block
is one of its primitives (R6, R201, R237). -/

namespace Sys2Proof.Machine

@[simp] theorem State.fetched_near (k : Nat) (b : Block) (s : State) : (s.fetched k b).near = b := rfl
@[simp] theorem State.fetched_far (k : Nat) (b : Block) (s : State) : (s.fetched k b).far = s.far := rfl
@[simp] theorem State.fetched_script (k : Nat) (b : Block) (s : State) : (s.fetched k b).script = countdown k s.script := rfl
@[simp] theorem State.fetched_drawn (k : Nat) (b : Block) (s : State) : (s.fetched k b).drawn = s.drawn := rfl
@[simp] theorem State.fetched_contention (k : Nat) (b : Block) (s : State) : (s.fetched k b).contention = s.contention := rfl

/-- Without a script the fetch changes the near block alone. -/
theorem State.fetched_nil {s : State} (h : s.script = []) (k : Nat) (b : Block) : s.fetched k b = { s with near := b } := by
  simp only [State.fetched, h, countdown]

/-- What is clear for `k` primitives is clear for fewer. -/
theorem State.clearFor_mono {s : State} {j k : Nat} (h : s.clearFor k = true) (hj : j ≤ k) : s.clearFor j = true := by
  simp only [State.clearFor, Bool.and_eq_true] at h ⊢
  refine ⟨h.1, ?_⟩
  replace h := h.2
  split at h
  · simp only [decide_eq_true_eq] at h ⊢
    exact le_trans hj h
  · assumption

/-- A calm state is clear for any number of primitives. -/
theorem State.Calm.clearFor {s : State} (h : s.Calm) (k : Nat) : s.clearFor k = true := by
  simp only [State.clearFor, State.react, h.1, h.2.1, Option.map_none, Option.isNone_none, Bool.and_true]

/-- What a fetched instruction has consumed: of the near block only bytes of `SIN` or a pending request, with the dispatcher
back at the top of its loop, and only when nothing runs at the end and nothing outside is due. -/
theorem State.fetch_instr {s t : State} {i : Instr} (h : s.fetch = .instr i t) :
    s.near.idleBelow = true ∧ s.clearFor 1 = true ∧ ∃ k sin calls, sin <:+ s.near.sin ∧ calls <:+ s.near.calls ∧
      t = s.fetched k { s.near with sin := sin, calls := calls, disp := { s.near.disp with ph := .header0 } } := by
  simp only [State.fetch] at h
  split at h
  · cases h
  · next hi =>
    split at h
    · cases h
    · next hc =>
      simp only [Bool.not_eq_true, Bool.not_eq_false'] at hi hc
      refine ⟨hi, hc, ?_⟩
      split at h
      · cases h
      · next hp =>
        have hd : s.near.disp = { s.near.disp with ph := .header0 } := by rw [← hp]
        split at h
        · next q rest hq =>
          split at h
          · simp only [Fetched.instr.injEq] at h
            exact ⟨1, s.near.sin, rest, List.suffix_refl _, hq ▸ List.suffix_cons q rest, by rw [← h.2, ← hd]⟩
          · cases h
        · split at h
          · next b0 b1 rest hs =>
            split at h
            · simp only [Fetched.instr.injEq] at h
              exact ⟨4, rest, s.near.calls, hs ▸ ⟨[b0, b1], rfl⟩, List.suffix_refl _, by rw [← h.2, ← hd]⟩
            · cases h
          · cases h
      · split at h
        · cases h
        · split at h
          · next b1 rest hs =>
            split at h
            · simp only [Fetched.instr.injEq] at h
              exact ⟨3, rest, s.near.calls, hs ▸ List.suffix_cons b1 rest, List.suffix_refl _, h.2.symm⟩
            · cases h
          · cases h
      all_goals cases h

/-- A turn of a state that is clear is one primitive of its near block, and brings the outside world one nearer. -/
theorem State.turn_clear {s : State} {b : Block} (hc : s.clearFor 1 = true)
    (hcon : contended s.near.lines s.far.lines = true → s.contention = true) (hl : b.lines = s.near.lines)
    (ht : s.near.tick s.far.asPeer s.drawn = .moved b s.drawn) : s.turn = .moved (s.fetched 1 b) := by
  have hn : s.tickNear = .moved { s with near := b } := by
    rw [State.tickNear_moved ht, hl]
    cases hk : contended s.near.lines s.far.lines with
    | false => simp only [Bool.or_false]
    | true => simp only [Bool.or_true, hcon hk]
  simp only [State.clearFor, Bool.and_eq_true, Option.isNone_iff_eq_none] at hc
  obtain ⟨hr, hs⟩ := hc
  simp only [State.turn, State.fetched]
  split
  · next he => simp only [hr, hn, he, countdown]
  · next m rest he =>
    rw [he] at hs
    simp only [Nat.le_zero_eq, Nat.one_ne_zero, decide_false, Bool.false_eq_true] at hs
  · next k m rest he => simp only [hr, hn, he, countdown, Nat.succ_sub_one]
  · next m rest he => simp only [hr, hn, he, countdown]

end Sys2Proof.Machine
end

