-- ==== Sys2Proof/Laws/NoFault.lean ====
section
/-! SUPPORT. A block whose buffers are in bounds never ends in the buffer-index fault (R24). -/

namespace Sys2Proof.Machine

/-- Reading inside the bounds of a buffer answers a byte. -/
theorem Block.bufRead_isSome {b : Block} {r : BufRef} {len i : Nat} {rd : Bool} (n : Nat) (hf : b.Fits r len rd)
    (hi : i < len) : ∃ v n', b.bufRead r i n = some (v, n') := by
  have h1 : ∀ {x : Byte}, len ≤ 1 → ∃ v n', (oneByte x i).map (fun v => (v, n)) = some (v, n') := by
    intro x hl
    obtain rfl : i = 0 := by omega
    exact ⟨x, n, rfl⟩
  cases r <;> simp only [Block.Fits] at hf <;> simp only [Block.bufRead]
  case buf =>
    rw [if_pos (Nat.lt_of_lt_of_le hi hf)]
    cases b.buf.read i with
    | none => exact ⟨_, _, rfl⟩
    | some v => exact ⟨v, n, rfl⟩
  case cmd =>
    have : i < 6 := by omega
    match i, this with
    | 0, _ => exact ⟨_, _, rfl⟩
    | 1, _ => exact ⟨_, _, rfl⟩
    | 2, _ => exact ⟨_, _, rfl⟩
    | 3, _ => exact ⟨_, _, rfl⟩
    | 4, _ => exact ⟨_, _, rfl⟩
    | 5, _ => exact ⟨_, _, rfl⟩
  case user =>
    rw [List.getElem?_eq_getElem (Nat.lt_of_lt_of_le hi hf)]
    exact ⟨_, _, rfl⟩
  case st => exact h1 hf
  all_goals exact h1 hf.1

/-- Writing inside the bounds of a buffer a read transfer may refer to succeeds. -/
theorem Block.bufWrite_isSome {b : Block} {r : BufRef} {len i : Nat} (v : Byte) (hf : b.Fits r len true)
    (hi : i < len) : ∃ b', b.bufWrite r i v = some b' := by
  cases r <;> simp only [Block.Fits, Bool.true_eq_false, and_false] at hf <;> simp only [Block.bufWrite]
  case buf => rw [if_pos (Nat.lt_of_lt_of_le hi hf)]; exact ⟨_, rfl⟩
  case st => rw [if_pos (by omega)]; exact ⟨_, rfl⟩
  case user => rw [if_pos (Nat.lt_of_lt_of_le hi hf)]; exact ⟨_, rfl⟩

theorem ofBegin_noFault {n : Nat} {next : Except Refusal Block} {f : Fault} : Tick.ofBegin n next ≠ .fault f := by
  cases next <;> simp [Tick.ofBegin]

theorem prim_noFault {b : Block} {x : Prim} {r : List Prim} (p : Peer) (n : Nat) (h : b.InBounds) (ht : b.todo = x :: r) :
    x.run p n { b with todo := r } ≠ .fault .bufferIndex := by
  intro e
  cases x <;> simp only [Prim.run] at e <;> try cases e
  split at e
  · cases e
  · next hw =>
    obtain ⟨hph, hrd⟩ := h.2.1.2.2.2 (by rw [ht]; exact List.mem_cons_self ..)
    have hne : b.host.ph ≠ .idle := by rw [hph]; decide
    have hi := h.2.1.2.2.1 hne (by rw [hph]; decide) (by rw [hph]; decide)
    have hf := (h.2.1.1 hne).2
    rw [hrd] at hf
    obtain ⟨b', hb'⟩ := Block.bufWrite_isSome
      (b := { b with todo := r, host := { b.host with byte := byteOfLevels b.smp } }) (byteOfLevels b.smp) (by exact hf) hi
    exact absurd (hw.symm.trans hb') (by simp)

theorem hostTick_noFault {b : Block} (p : Peer) (n : Nat) (h : b.InBounds) : hostTick p n b ≠ .fault .bufferIndex := by
  intro e
  simp only [hostTick] at e
  split at e
  case h_3 hph =>
    have hne : b.host.ph ≠ .idle := by rw [hph]; decide
    have hi := h.2.1.2.2.1 hne (by rw [hph]; decide) (by rw [hph]; decide)
    repeat' split at e
    all_goals first
      | cases e
        done
      | (next hr =>
          obtain ⟨v, n', hv⟩ := Block.bufRead_isSome _ (h.2.1.1 hne).2 hi
          exact absurd (hr.symm.trans hv) (by simp))
  all_goals repeat' split at e
  all_goals cases e

theorem peripheralTick_noFault {b : Block} (p : Peer) (n : Nat) : peripheralTick p n b ≠ .fault .bufferIndex := by
  intro e
  simp only [peripheralTick] at e
  repeat' split at e
  all_goals cases e

theorem spiTick_noFault {b : Block} (p : Peer) (n : Nat) : spiTick p n b ≠ .fault .bufferIndex := by
  intro e
  simp only [spiTick] at e
  split at e
  · cases e
  · exact ofBegin_noFault e

theorem flashNext_noFault {b : Block} {n : Nat} {next : Except Refusal Block} : flashNext n b next ≠ .fault .bufferIndex := by
  intro e
  simp only [flashNext] at e
  split at e
  · cases e
  · exact ofBegin_noFault e

theorem flashTick_noFault {b : Block} (p : Peer) (n : Nat) (h : b.InBounds) : flashTick p n b ≠ .fault .bufferIndex := by
  intro e
  simp only [flashTick] at e
  split at e
  case h_3 hph =>
    obtain ⟨-, hr, hf, hi⟩ := h.2.2.2.1 (by rw [hph]; decide) (.inr (by rw [hph]; decide))
    have hi := hi hph
    split at e
    · cases e
    · split at e
      · next hn =>
        simp only [Block.flashPair] at hn
        obtain ⟨v, n', hv⟩ := Block.bufRead_isSome n hf (show b.flash.i < b.flash.len by omega)
        obtain ⟨w, n'', hw⟩ := Block.bufRead_isSome n' hf hi
        simp [hv, hw] at hn
      · exact ofBegin_noFault e
  all_goals repeat' split at e
  all_goals first
    | cases e
      done
    | exact ofBegin_noFault e
    | exact flashNext_noFault e

theorem fillTick_noFault {b : Block} {n : Nat} (hk : b.disp.k < Config.cap) : fillTick n b ≠ .fault .bufferIndex := by
  intro e
  simp only [fillTick, Block.bufWrite, hk, if_true] at e
  cases e

theorem dispTick_noFault {b : Block} (p : Peer) (n : Nat) (h : b.InBounds) : dispTick p n b ≠ .fault .bufferIndex := by
  intro e
  simp only [dispTick] at e
  split at e
  · repeat' split at e
    all_goals first
      | cases e
        done
      | exact ofBegin_noFault e
  · simp only [header1Tick] at e
    repeat' split at e
    all_goals cases e
  · next hph =>
    simp only [bodyTick] at e
    split at e
    · next hk =>
      split at e
      · cases e
      · have hl := h.2.2.2.2.1 (.inr (.inl hph))
        simp only [Block.bufWrite, Nat.lt_of_lt_of_le hk hl.2, if_true] at e
        cases e
    · exact ofBegin_noFault e
  · next hph =>
    simp only [execTick] at e
    split at e
    case h_8 hs =>
      have hl := h.2.2.2.2.1 (.inr (.inr (.inl ⟨hph, by simp [hs]⟩)))
      exact fillTick_noFault (Nat.lt_of_lt_of_le (h.2.2.2.2.2 ⟨hph, hs⟩) hl.2) e
    all_goals first
      | cases e
        done
      | exact ofBegin_noFault e
  · next hph =>
    have hl := h.2.2.2.2.1 (.inr (.inr (.inr hph)))
    simp only [respondTick] at e
    split at e
    · split at e <;> cases e
    · split at e
      · cases e
      · split at e
        · next hk =>
          split at e
          · next hr =>
            simp only [Block.bufRead] at hr
            rw [if_pos (Nat.lt_of_lt_of_le hk hl.2)] at hr
            split at hr <;> cases hr
          · cases e
        · cases e
  · simp only [consoleTick] at e
    split at e
    · exact ofBegin_noFault e
    · cases e
  · cases e

/-- A step of a block whose buffers are in bounds does not end in the buffer-index fault (R24). -/
theorem tick_noFault {b : Block} (p : Peer) (n : Nat) (h : b.InBounds) : b.tick p n ≠ .fault .bufferIndex := by
  intro e
  rw [Block.tick] at e
  split at e
  · cases e
  rw [Block.advance] at e
  split at e
  · next ht => exact prim_noFault p n h ht e
  · split at e
    · cases e
    · split at e
      · exact hostTick_noFault p n h e
      · split at e
        · exact peripheralTick_noFault p n e
        · split at e
          · exact spiTick_noFault p n e
          · split at e
            · exact flashTick_noFault p n h e
            · exact dispTick_noFault p n h e

end Sys2Proof.Machine
end

