-- ==== Sys2Proof/Laws/PerInstr.lean ====
section
/-! SUPPORT. One lemma per instruction about its encoding: the format of its row in spec/opcode_table.json (rules R90, R91,
R102 and R108), and how many bytes that format gives it. -/

namespace Sys2Proof.Laws.EncodingFormat

/-- A format of R90, with the number of bytes where it is a byte sequence. -/
inductive Format where
  | cmd (bytes : Nat)
  | cyc
  | sel
  | spi (bytes : Nat)
  deriving DecidableEq, Repr

/-- The format of an encoding. -/
def shape : Code → Format
  | .cmd bytes => .cmd bytes.length
  | .cyc _ _ _ _ => .cyc
  | .sel _ _ _ _ => .sel
  | .spi payload => .spi payload.length

/-- The format the table gives an instruction; `PT` and `CALL` rows have none (R108). -/
def formatOf : Instr → Option Format
  | .cmdA _ => some (.cmd 2)
  | .cmdB _ => some (.cmd 2)
  | .cmdC _ => some (.cmd 2)
  | .cmdE _ => some (.cmd 2)
  | .cmdP _ => some (.cmd 2)
  | .cmdR _ => some (.cmd 2)
  | .cmdW _ => some (.cmd 2)
  | .unrecognized _ _ => some (.cmd 2)
  | .cycleAddressWrite _ => some .cyc
  | .cycleAddressRead => some .cyc
  | .cycleDataWrite _ => some .cyc
  | .cycleDataRead => some .cyc
  | .cycleReserved _ => some .cyc
  | .noCycle _ => some .cyc
  | .write _ _ => some .sel
  | .setAddress _ _ => some .sel
  | .read _ _ => some .sel
  | .getAddress _ _ => some .sel
  | .ptChipDisable => none
  | .ptDataClear => none
  | .ptChipEnable => none
  | .ptPayload _ _ _ => none
  | .flashAaiSeed _ _ => some (.spi 6)
  | .flashAaiIncrement _ _ => some (.spi 3)
  | .flashReadStatus => some (.spi 1)
  | .portHiZ => none
  | .reset _ => none
  | .transaction _ _ _ _ => none
  | .peripheralCycle _ => none
  | .spiReset => none
  | .spiTransaction _ _ _ => none
  | .flashProgram _ _ _ => none
  | .abort _ => none

/-- An instruction is encoded in the format the table gives it. -/
def Statement (i : Instr) : Prop := (encode i).map shape = formatOf i

end Sys2Proof.Laws.EncodingFormat

namespace Sys2Proof

theorem Laws.EncodingFormat.cmdA (x : Byte) : Laws.EncodingFormat.Statement (.cmdA x) := rfl
theorem Laws.EncodingFormat.cmdB (x : Byte) : Laws.EncodingFormat.Statement (.cmdB x) := rfl
theorem Laws.EncodingFormat.cmdC (x : Byte) : Laws.EncodingFormat.Statement (.cmdC x) := rfl
theorem Laws.EncodingFormat.cmdE (x : Byte) : Laws.EncodingFormat.Statement (.cmdE x) := rfl
theorem Laws.EncodingFormat.cmdP (x : Byte) : Laws.EncodingFormat.Statement (.cmdP x) := rfl
theorem Laws.EncodingFormat.cmdR (x : Byte) : Laws.EncodingFormat.Statement (.cmdR x) := rfl
theorem Laws.EncodingFormat.cmdW (x : Byte) : Laws.EncodingFormat.Statement (.cmdW x) := rfl
theorem Laws.EncodingFormat.unrecognized (code x : Byte) : Laws.EncodingFormat.Statement (.unrecognized code x) := rfl
theorem Laws.EncodingFormat.cycleAddressWrite (x : Byte) : Laws.EncodingFormat.Statement (.cycleAddressWrite x) := rfl
theorem Laws.EncodingFormat.cycleAddressRead : Laws.EncodingFormat.Statement (.cycleAddressRead) := rfl
theorem Laws.EncodingFormat.cycleDataWrite (x : Byte) : Laws.EncodingFormat.Statement (.cycleDataWrite x) := rfl
theorem Laws.EncodingFormat.cycleDataRead : Laws.EncodingFormat.Statement (.cycleDataRead) := rfl
theorem Laws.EncodingFormat.cycleReserved (w : Level) : Laws.EncodingFormat.Statement (.cycleReserved w) := rfl
theorem Laws.EncodingFormat.noCycle (w : Level) : Laws.EncodingFormat.Statement (.noCycle w) := rfl
theorem Laws.EncodingFormat.write (buf : List Byte) (n : Int) : Laws.EncodingFormat.Statement (.write buf n) := rfl
theorem Laws.EncodingFormat.setAddress (buf : List Byte) (n : Int) : Laws.EncodingFormat.Statement (.setAddress buf n) := rfl
theorem Laws.EncodingFormat.read (buf : List Byte) (n : Int) : Laws.EncodingFormat.Statement (.read buf n) := rfl
theorem Laws.EncodingFormat.getAddress (buf : List Byte) (n : Int) : Laws.EncodingFormat.Statement (.getAddress buf n) := rfl
theorem Laws.EncodingFormat.ptChipDisable : Laws.EncodingFormat.Statement (.ptChipDisable) := rfl
theorem Laws.EncodingFormat.ptDataClear : Laws.EncodingFormat.Statement (.ptDataClear) := rfl
theorem Laws.EncodingFormat.ptChipEnable : Laws.EncodingFormat.Statement (.ptChipEnable) := rfl
theorem Laws.EncodingFormat.ptPayload (buf : List Byte) (n : Int) (rd : Bool) : Laws.EncodingFormat.Statement (.ptPayload buf n rd) := rfl
theorem Laws.EncodingFormat.flashAaiSeed (d e : Byte) : Laws.EncodingFormat.Statement (.flashAaiSeed d e) := rfl
theorem Laws.EncodingFormat.flashAaiIncrement (d e : Byte) : Laws.EncodingFormat.Statement (.flashAaiIncrement d e) := rfl
theorem Laws.EncodingFormat.flashReadStatus : Laws.EncodingFormat.Statement (.flashReadStatus) := rfl
theorem Laws.EncodingFormat.portHiZ : Laws.EncodingFormat.Statement (.portHiZ) := rfl
theorem Laws.EncodingFormat.reset (r : Role) : Laws.EncodingFormat.Statement (.reset r) := rfl
theorem Laws.EncodingFormat.transaction (buf : List Byte) (n : Int) (rd ac : Bool) : Laws.EncodingFormat.Statement (.transaction buf n rd ac) := rfl
theorem Laws.EncodingFormat.peripheralCycle (x : Byte) : Laws.EncodingFormat.Statement (.peripheralCycle x) := rfl
theorem Laws.EncodingFormat.spiReset : Laws.EncodingFormat.Statement (.spiReset) := rfl
theorem Laws.EncodingFormat.spiTransaction (buf : List Byte) (n : Int) (rd : Bool) : Laws.EncodingFormat.Statement (.spiTransaction buf n rd) := rfl
theorem Laws.EncodingFormat.flashProgram (buf : List Byte) (n : Int) (init : Bool) : Laws.EncodingFormat.Statement (.flashProgram buf n init) := rfl
theorem Laws.EncodingFormat.abort (r : Int) : Laws.EncodingFormat.Statement (.abort r) := rfl

end Sys2Proof
end

