-- ==== Sys2Proof/Laws/Settled.lean ====
section
/-! SUPPORT. A block whose lines are as its role and its phases say stays so with every primitive, as long as no operation
forces the port to high-impedance (R40). -/

namespace Sys2Proof.Machine

/-! ### What sequences of primitives do to the lines -/

/-- `Reset(role)` ends in the idle picture of the role, whatever the lines were (R122, R123). -/
theorem resetPrims_lines (us : Nat) (r : Role) (ls : Lines) : linesAfter (resetPrims us r) ls = .idleOf r := by
  cases r <;> rfl

theorem resetPrims_role (us : Nat) (r r0 : Role) : roleAfter (resetPrims us r) r0 = r := by
  cases r <;> rfl

/-- `PortHiZ` ends with every line an input without a pull, whatever the lines were (R120). -/
theorem portHiZPrims_lines (ls : Lines) : linesAfter portHiZPrims ls = .hiZ := rfl

theorem drive_lines (x : Byte) : linesAfter (drivePrims true x) .idlePeripheral = .peripheralDrive x .low := by
  revert x
  decide +kernel

theorem undrive_lines (x : Byte) :
    linesAfter (takePrims true) (.peripheralDrive x .high) = { Lines.idlePeripheral with wait := .drivenHigh } := rfl

/-- The steps of `H_PUT` and `P_DRIVE` are line primitives. -/
theorem pull_isLine (x : Byte) : ∀ y ∈ dataPullLow x, y.isLine = true := by
  revert x
  decide +kernel

theorem drive_isLine (rd : Bool) (x : Byte) : ∀ y ∈ drivePrims rd x, y.isLine = true := by
  revert rd x
  decide +kernel

theorem Block.allows_line {b : Block} {x : Prim} (h : x.isLine = true) : b.Allows x := by
  cases x <;> simp_all [Block.Allows, Prim.isLine]

theorem Block.allows_reset {b : Block} (hr : b.rph = .running) (us : Nat) (r : Role) :
    ∀ x ∈ resetPrims us r, b.Allows x := by
  intro x hx
  have h : x.isLine = true ∨ ∃ r', x = .setRole r' := by
    revert x
    cases r <;>
      simp [resetPrims, resetPulse, portHiZPrims, controlStage, dataIdle, dataLines, allLines, Prim.isLine]
  rcases h with h | ⟨r', rfl⟩
  · exact Block.allows_line h
  · exact hr

/-! ### One lemma per sequencer -/

/-- A settled block between the steps of its phases. -/
theorem Block.Settled.now {b : Block} (h : b.Settled) (ht : b.todo = []) : b.lines = b.picture := by
  have := h.1
  rwa [ht] at this

theorem Block.picture_host {b : Block} (hr : b.rph = .idle) (h : b.role = .host) : b.picture = b.host.picture := by
  simp only [Block.picture, hr, h, reduceCtorEq, if_false]

theorem Block.picture_per {b : Block} (hr : b.rph = .idle) (h : b.role = .peripheral) : b.picture = b.per.picture := by
  simp only [Block.picture, hr, h, reduceCtorEq, if_false]

theorem Block.picture_running {b : Block} (hr : b.rph = .running) :
    b.picture = .idleOf (roleAfter b.todo b.role) := by
  simp only [Block.picture, hr, if_true]

/-- A block idle below its dispatcher shows the idle picture of its role. -/
theorem Block.Settled.idle {b : Block} (h : b.Settled) (ht : b.todo = []) (hh : b.host.ph = .idle)
    (hp : b.per.ph = .idle) (hr : b.rph = .idle) : b.lines = .idleOf b.role := by
  rw [h.now ht]
  cases hrole : b.role with
  | host => rw [Block.picture_host hr hrole]; simp only [HostRegs.picture, hh]; rfl
  | peripheral => rw [Block.picture_per hr hrole]; simp only [PerRegs.picture, hp]; rfl

/-- A settled block in the host role, built from its host engine's picture. -/
theorem Block.settled_host {b : Block} (hr : b.rph = .idle) (hrole : b.role = .host) (hp : b.per.ph = .idle)
    (hd : ∀ r, b.disp.step = .aborting r → b.disp.ph ≠ .exec) (hl : linesAfter b.todo b.lines = b.host.picture)
    (ha : ∀ x ∈ b.todo, b.Allows x) : b.Settled :=
  ⟨by rw [hl, Block.picture_host hr hrole], fun _ => ⟨hrole, hr⟩, fun e => absurd hp e, hd, ha⟩

/-- A settled block in the peripheral role, built from its peripheral cycle's picture. -/
theorem Block.settled_per {b : Block} (hr : b.rph = .idle) (hrole : b.role = .peripheral) (hh : b.host.ph = .idle)
    (hd : ∀ r, b.disp.step = .aborting r → b.disp.ph ≠ .exec) (hl : linesAfter b.todo b.lines = b.per.picture)
    (ha : ∀ x ∈ b.todo, b.Allows x) : b.Settled :=
  ⟨by rw [hl, Block.picture_per hr hrole], fun e => absurd hh e, fun _ => ⟨hrole, hr⟩, hd, ha⟩

/-- A settled block with nothing running at the end. -/
theorem Block.settled_idle {b : Block} (ht : b.todo = []) (hr : b.rph = .idle) (hh : b.host.ph = .idle)
    (hp : b.per.ph = .idle) (hd : ∀ r, b.disp.step = .aborting r → b.disp.ph ≠ .exec)
    (hl : b.lines = .idleOf b.role) : b.Settled := by
  cases hrole : b.role with
  | host =>
    refine Block.settled_host hr hrole hp hd ?_ (by simp [ht])
    rw [ht, show linesAfter [] b.lines = b.lines from rfl, hl, hrole]
    simp only [HostRegs.picture, hh]
    rfl
  | peripheral =>
    refine Block.settled_per hr hrole hh hd ?_ (by simp [ht])
    rw [ht, show linesAfter [] b.lines = b.lines from rfl, hl, hrole]
    simp only [PerRegs.picture, hp]
    rfl

/-- A settled block with a reset sequence put in place. -/
theorem Block.settled_reset {b : Block} (us : Nat) (r : Role) (hr : b.rph = .running) (ht : b.todo = resetPrims us r)
    (hh : b.host.ph = .idle) (hp : b.per.ph = .idle) (hd : ∀ r, b.disp.step = .aborting r → b.disp.ph ≠ .exec) :
    b.Settled := by
  refine ⟨?_, fun e => absurd hh e, fun e => absurd hp e, hd, ?_⟩
  · rw [Block.picture_running hr, ht, resetPrims_lines, resetPrims_role]
  · rw [ht]
    exact Block.allows_reset hr us r

/-- What an operation may start from: settled, nothing running at the end. -/
structure Block.Quiet (b : Block) : Prop where
  todo : b.todo = []
  rph : b.rph = .idle
  host : b.host.ph = .idle
  per : b.per.ph = .idle
  lines : b.lines = .idleOf b.role
  step : ∀ r, b.disp.step = .aborting r → b.disp.ph ≠ .exec

theorem Block.Quiet.settled {b : Block} (h : b.Quiet) : b.Settled :=
  Block.settled_idle h.todo h.rph h.host h.per h.step h.lines

theorem begin_settled {b b' : Block} {peer : Option Role} {ref : BufRef} {len : Nat} {rd ac : Bool} (h : b.Quiet)
    (hb : b.beginTransaction peer ref len rd ac = .ok b') : b'.Settled := by
  simp only [Block.beginTransaction] at hb
  split at hb
  · cases hb
  · next hrole =>
    have hrole : b.role = .host := by simpa using hrole
    split at hb
    · cases hb
    · split at hb
      · cases hb
      · simp only [Except.ok.injEq] at hb
        subst hb
        refine Block.settled_host h.rph hrole h.per h.step ?_ ?_
        · rw [show ({ b with host := { b.host with rd := rd, ac := ac, len := len, i := 0, ref := ref, ph := .setup }, todo := setupPrims rd } : Block).lines = b.lines from rfl,
            h.lines, hrole]
          cases rd <;> rfl
        · cases rd
          · intro x hx
            exact Block.allows_line ((by decide : ∀ y ∈ setupPrims false, y.isLine = true) x hx)
          · intro x hx
            cases hx

theorem hostTick_settled {b b' : Block} {p : Peer} {n n' : Nat} (h : b.Settled) (ht : b.todo = [])
    (hp : b.host.ph ≠ .idle) (hb : hostTick p n b = .moved b' n') : b'.Settled := by
  obtain ⟨hrole, hr⟩ := h.2.1 hp
  have hper : b.per.ph = .idle := by
    by_contra e
    have := (h.2.2.1 e).1
    rw [hrole] at this
    cases this
  have hl : b.lines = b.host.picture := by rw [h.now ht, Block.picture_host hr hrole]
  have hd := h.2.2.2.1
  have key : ∀ b1 : Block, b1.role = b.role → b1.rph = b.rph → b1.per = b.per → b1.disp = b.disp → b1.lines = b.lines →
      linesAfter b1.todo b.lines = b1.host.picture → (∀ x ∈ b1.todo, b1.Allows x) → b1.Settled := by
    intro b1 e1 e2 e3 e4 e5 e6 e7
    exact Block.settled_host (e2.trans hr) (e1.trans hrole) (by rw [e3]; exact hper) (by rw [e4]; exact hd) (by rw [e5]; exact e6) e7
  have hline : ∀ (b1 : Block) (l : List Prim), (∀ x ∈ l, x.isLine = true) → ∀ x ∈ l, b1.Allows x :=
    fun b1 l hl x hx => Block.allows_line (hl x hx)
  simp only [hostTick] at hb
  split at hb
  · cases hb
  · next e =>
    split at hb <;> simp only [Tick.moved.injEq] at hb <;> obtain ⟨rfl, -⟩ := hb
    · refine key _ rfl rfl rfl rfl rfl ?_ (by simp [Block.hostTo])
      rw [hl, Block.hostTo_todo, Block.hostTo_host]
      cases hrd : b.host.rd <;> simp only [HostRegs.picture, e, hrd] <;> rfl
    · refine key _ rfl rfl rfl rfl rfl ?_ (hline _ _ (by rw [Block.hostTo_todo]; cases b.host.rd <;> decide))
      rw [hl, Block.hostTo_todo, Block.hostTo_host]
      cases hrd : b.host.rd <;> simp only [HostRegs.picture, e, hrd] <;> rfl
  · next e =>
    split at hb
    · cases hb
    · split at hb
      · next hrd =>
        simp only [Tick.moved.injEq] at hb
        obtain ⟨rfl, -⟩ := hb
        refine key _ rfl rfl rfl rfl rfl ?_ (by simp [Block.hostTo])
        rw [hl, Block.hostTo_todo, Block.hostTo_host]
        simp only [HostRegs.picture, e, hrd]
        rfl
      · next hrd =>
        have hrd : b.host.rd = false := by simpa using hrd
        split at hb
        · cases hb
        · next x _ _ =>
          simp only [Tick.moved.injEq] at hb
          obtain ⟨rfl, -⟩ := hb
          refine key _ rfl rfl rfl rfl rfl ?_ (hline _ _ (pull_isLine _))
          rw [hl, Block.hostTo_todo, Block.hostTo_host]
          simp only [HostRegs.picture, e, hrd]
          exact (pull_quiet _).2.1
  · next e =>
    simp only [Tick.moved.injEq] at hb
    obtain ⟨rfl, -⟩ := hb
    refine key _ rfl rfl rfl rfl rfl ?_ (hline _ _ (by simp [Prim.isLine]))
    rw [hl, Block.hostTo_todo, Block.hostTo_host]
    cases hrd : b.host.rd <;> simp only [HostRegs.picture, e, hrd]
    · exact (strobe_write_quiet _ _).2
    · exact (strobe_read_quiet _).2
  · next e =>
    simp only [Tick.moved.injEq] at hb
    obtain ⟨rfl, -⟩ := hb
    refine key _ rfl rfl rfl rfl rfl ?_ (by simp [Block.hostTo])
    rw [hl, Block.hostTo_todo, Block.hostTo_host]
    cases hrd : b.host.rd <;> simp only [HostRegs.picture, e, hrd] <;> rfl
  · next e =>
    split at hb
    · cases hb
    · simp only [Tick.moved.injEq] at hb
      obtain ⟨rfl, -⟩ := hb
      refine key _ rfl rfl rfl rfl rfl ?_ ?_
      · rw [hl, Block.hostTo_todo, Block.hostTo_host]
        cases hrd : b.host.rd <;> simp only [HostRegs.picture, e, hrd] <;> rfl
      · rw [Block.hostTo_todo]
        cases hrd : b.host.rd with
        | false => simp
        | true =>
          rw [if_pos rfl]
          intro x hx
          rcases List.mem_append.mp hx with hx | hx
          · simp only [dataSample, List.mem_map] at hx
            obtain ⟨l, -, rfl⟩ := hx
            trivial
          · simp only [List.mem_singleton] at hx
            subst hx
            exact ⟨rfl, hrd⟩
  · next e =>
    simp only [Tick.moved.injEq] at hb
    obtain ⟨rfl, -⟩ := hb
    refine key _ rfl rfl rfl rfl rfl ?_ (hline _ _ (by simp [Prim.isLine]))
    rw [hl, Block.hostTo_todo, Block.hostTo_host]
    cases hrd : b.host.rd <;> simp only [HostRegs.picture, e, hrd]
    · exact (release_write_quiet _ _).2
    · exact (release_read_quiet _ 0).2
  · next e =>
    simp only [Tick.moved.injEq] at hb
    obtain ⟨rfl, -⟩ := hb
    refine key _ rfl rfl rfl rfl rfl ?_ (hline _ _ (by rw [Block.hostTo_todo]; cases b.host.rd <;> decide))
    rw [hl, Block.hostTo_todo, Block.hostTo_host]
    cases hrd : b.host.rd <;> simp only [HostRegs.picture, e, hrd] <;> rfl
  · next e =>
    split at hb <;> simp only [Tick.moved.injEq] at hb <;> obtain ⟨rfl, -⟩ := hb
    · refine key _ rfl rfl rfl rfl rfl ?_ (by simp [Block.hostTo])
      rw [hl, Block.hostTo_todo, Block.hostTo_host]
      cases hrd : b.host.rd <;> simp only [HostRegs.picture, e, hrd] <;> rfl
    · refine key _ rfl rfl rfl rfl rfl ?_ (hline _ _ (by rw [Block.hostTo_todo]; cases b.host.rd <;> decide))
      rw [hl, Block.hostTo_todo, Block.hostTo_host]
      cases hrd : b.host.rd <;> simp only [HostRegs.picture, e, hrd] <;> rfl
  · next e =>
    simp only [Tick.moved.injEq] at hb
    obtain ⟨rfl, -⟩ := hb
    refine key _ rfl rfl rfl rfl rfl ?_ (by simp [Block.hostTo])
    rw [hl, Block.hostTo_todo, Block.hostTo_host]
    simp only [HostRegs.picture, e]
    rfl

theorem peripheralTick_settled {b b' : Block} {p : Peer} {n n' : Nat} (h : b.Settled) (ht : b.todo = [])
    (hh : b.host.ph = .idle) (hp : b.per.ph ≠ .idle) (hb : peripheralTick p n b = .moved b' n') : b'.Settled := by
  obtain ⟨hrole, hr⟩ := h.2.2.1 hp
  have hl : b.lines = b.per.picture := by rw [h.now ht, Block.picture_per hr hrole]
  have hd := h.2.2.2.1
  have key : ∀ b1 : Block, b1.role = b.role → b1.rph = b.rph → b1.host = b.host → b1.disp = b.disp → b1.lines = b.lines →
      linesAfter b1.todo b.lines = b1.per.picture → (∀ x ∈ b1.todo, b1.Allows x) → b1.Settled := by
    intro b1 e1 e2 e3 e4 e5 e6 e7
    exact Block.settled_per (e2.trans hr) (e1.trans hrole) (by rw [e3]; exact hh) (by rw [e4]; exact hd) (by rw [e5]; exact e6) e7
  have hline : ∀ (b1 : Block) (l : List Prim), (∀ x ∈ l, x.isLine = true) → ∀ x ∈ l, b1.Allows x :=
    fun b1 l hl x hx => Block.allows_line (hl x hx)
  simp only [peripheralTick] at hb
  split at hb
  · cases hb
  · next e =>
    split at hb <;> simp only [Tick.moved.injEq] at hb <;> obtain ⟨rfl, -⟩ := hb <;>
      (refine key _ rfl rfl rfl rfl rfl ?_ (by simp [Block.perTo])
       rw [hl]
       simp only [PerRegs.picture, e]
       rfl)
  · next e =>
    split at hb
    · simp only [Tick.moved.injEq] at hb
      obtain ⟨rfl, -⟩ := hb
      refine key _ rfl rfl rfl rfl rfl ?_ (by simp [Block.perTo, Block.Allows])
      rw [hl]
      simp only [PerRegs.picture, e]
      rfl
    · cases hb
  · next e =>
    simp only [Tick.moved.injEq] at hb
    obtain ⟨rfl, -⟩ := hb
    refine key _ rfl rfl rfl rfl rfl ?_ (hline _ _ (drive_isLine _ _))
    rw [hl]
    show linesAfter (drivePrims b.per.rd b.per.slot) b.per.picture = _
    simp only [PerRegs.picture, e, Block.serveDecoded, Block.perTo]
    cases hrd : b.per.rd
    · rfl
    · exact drive_lines _
  · next e =>
    simp only [Tick.moved.injEq] at hb
    obtain ⟨rfl, -⟩ := hb
    refine key _ rfl rfl rfl rfl rfl ?_ (hline _ _ (by simp [Prim.isLine]))
    rw [hl]
    simp only [PerRegs.picture, e, Block.perTo]
    cases hrd : b.per.rd <;> rfl
  · next e =>
    simp only [Tick.moved.injEq] at hb
    obtain ⟨rfl, -⟩ := hb
    refine key _ rfl rfl rfl rfl rfl ?_ (by simp [Block.perTo])
    rw [hl]
    simp only [PerRegs.picture, e, Block.perTo]
    cases hrd : b.per.rd <;> rfl
  · next e =>
    split at hb
    · simp only [Tick.moved.injEq] at hb
      obtain ⟨rfl, -⟩ := hb
      refine key _ rfl rfl rfl rfl rfl ?_ ?_
      · rw [hl]
        simp only [PerRegs.picture, e, Block.perTo]
        cases hrd : b.per.rd <;> rfl
      · simp only [Block.perTo]
        cases hrd : b.per.rd with
        | true => exact hline _ _ (by decide)
        | false =>
          intro x hx
          rcases List.mem_append.mp hx with hx | hx
          · simp only [dataSample, List.mem_map] at hx
            obtain ⟨l, -, rfl⟩ := hx
            trivial
          · simp only [List.mem_singleton] at hx
            subst hx
            exact ⟨rfl, rfl⟩
    · cases hb
  · next e =>
    simp only [Tick.moved.injEq] at hb
    obtain ⟨rfl, -⟩ := hb
    refine key _ rfl rfl rfl rfl rfl ?_ (hline _ _ (by simp [Prim.isLine]))
    rw [hl]
    simp only [PerRegs.picture, e, Block.perTo]
    rfl
  · next e =>
    simp only [Tick.moved.injEq] at hb
    obtain ⟨rfl, -⟩ := hb
    refine key _ rfl rfl rfl rfl rfl ?_ (by simp [Block.perTo])
    rw [hl]
    simp only [PerRegs.picture, e, Block.perTo]
    rfl

theorem ofBegin_settled {b' : Block} {n n' : Nat} {next : Except Refusal Block}
    (hn : ∀ b1, next = .ok b1 → b1.Settled) (hb : Tick.ofBegin n next = .moved b' n') : b'.Settled := by
  cases next with
  | error r => cases hb
  | ok b1 =>
    simp only [Tick.ofBegin, Tick.moved.injEq] at hb
    obtain ⟨rfl, -⟩ := hb
    exact hn _ rfl

theorem spiCall_settled {b b' : Block} {peer : Option Role} {ph : SPhase} (h : b.Quiet)
    (hb : b.spiCall peer ph = .ok b') : b'.Settled := by
  have h' : ({ b with spi := { b.spi with ph := ph } } : Block).Quiet := ⟨h.todo, h.rph, h.host, h.per, h.lines, h.step⟩
  cases ph <;> simp only [Block.spiCall, Block.spiEngineCall] at hb
  case idle =>
    simp only [Except.ok.injEq] at hb
    exact hb ▸ h'.settled
  all_goals
    first
      | exact begin_settled h' hb
      | (split at hb <;> exact begin_settled h' hb)

theorem beginSpiReset_settled {b b' : Block} {peer : Option Role} {first last : SPhase} (h : b.Quiet)
    (hb : b.beginSpiReset peer first last = .ok b') : b'.Settled :=
  spiCall_settled (b := { b with spi := { b.spi with kind := .reset, last := last } })
    (by exact ⟨h.todo, h.rph, h.host, h.per, h.lines, h.step⟩) hb

theorem beginSpiTransaction_settled {b b' : Block} {peer : Option Role} {ref : BufRef} {len : Nat} {rd : Bool}
    {first last : SPhase} (h : b.Quiet) (hb : b.beginSpiTransaction peer ref len rd first last = .ok b') :
    b'.Settled := by
  simp only [Block.beginSpiTransaction] at hb
  split at hb
  · cases hb
  · exact spiCall_settled (by exact ⟨h.todo, h.rph, h.host, h.per, h.lines, h.step⟩) hb

theorem spiTick_settled {b b' : Block} {p : Peer} {n n' : Nat} (h : b.Quiet) (hb : spiTick p n b = .moved b' n') :
    b'.Settled := by
  simp only [spiTick] at hb
  split at hb
  · simp only [Tick.moved.injEq] at hb
    obtain ⟨rfl, -⟩ := hb
    exact Block.Quiet.settled ⟨h.todo, h.rph, h.host, h.per, h.lines, h.step⟩
  · exact ofBegin_settled (fun b1 e => spiCall_settled h e) hb

theorem flashTo_quiet {b : Block} (h : b.Quiet) (fl : FlashRegs) : ({ b with flash := fl } : Block).Quiet :=
  ⟨h.todo, h.rph, h.host, h.per, h.lines, h.step⟩

theorem flashNext_settled {b b' : Block} {n n' : Nat} {next : Except Refusal Block} (h : b.Quiet)
    (hn : ∀ b1, next = .ok b1 → b1.Settled) (hb : flashNext n b next = .moved b' n') : b'.Settled := by
  simp only [flashNext] at hb
  split at hb
  · simp only [Tick.moved.injEq] at hb
    obtain ⟨rfl, -⟩ := hb
    exact (flashTo_quiet h _).settled
  · exact ofBegin_settled hn hb

theorem flashTick_settled {b b' : Block} {p : Peer} {n n' : Nat} (h : b.Quiet) (hb : flashTick p n b = .moved b' n') :
    b'.Settled := by
  have hq := fun fl => (flashTo_quiet h fl)
  have hok : ∀ b1 b2 : Block, b1.Quiet → Except.ok b1 = Except.ok (ε := Refusal) b2 → b2.Settled := by
    intro b1 b2 h1 e
    simp only [Except.ok.injEq] at e
    exact e ▸ h1.settled
  simp only [flashTick] at hb
  split at hb
  · cases hb
  · split at hb
    · exact ofBegin_settled (fun b1 e => beginSpiReset_settled (hq _) e) hb
    · simp only [Tick.moved.injEq] at hb
      obtain ⟨rfl, -⟩ := hb
      exact (hq _).settled
  · split at hb
    · simp only [Tick.moved.injEq] at hb
      obtain ⟨rfl, -⟩ := hb
      exact (hq _).settled
    · split at hb
      · cases hb
      · refine ofBegin_settled (fun b1 e => ?_) hb
        split at e <;> exact beginSpiTransaction_settled (hq _) e
  · refine flashNext_settled h (fun b1 e => ?_) hb
    split at e
    · exact hok _ _ (flashTo_quiet (hq _) _) e
    · exact beginSpiReset_settled (flashTo_quiet (hq _) _) e
  · refine flashNext_settled h (fun b1 e => ?_) hb
    split at e
    · exact hok _ _ (hq _) e
    · exact beginSpiReset_settled (hq _) e
  · exact flashNext_settled h (fun b1 e => beginSpiTransaction_settled (hq _) e) hb
  · exact flashNext_settled h (fun b1 e => beginSpiTransaction_settled (hq _) e) hb
  · refine flashNext_settled h (fun b1 e => hok _ _ ?_ e) hb
    split <;> exact hq _
  · split at hb
    · exact ofBegin_settled (fun b1 e => beginSpiReset_settled (hq _) e) hb
    · simp only [Tick.moved.injEq] at hb
      obtain ⟨rfl, -⟩ := hb
      exact (flashTo_quiet (hq _) _).settled
  · simp only [Tick.moved.injEq] at hb
    obtain ⟨rfl, -⟩ := hb
    exact (flashTo_quiet (b := { b with res := b.flash.i }) ⟨h.todo, h.rph, h.host, h.per, h.lines, h.step⟩ _).settled

/-! ### The dispatcher and the starts of operations -/

theorem Block.Quiet.dispTo {b : Block} (h : b.Quiet) {ph : DPhase} {st : DStep} {k : Nat} (hs : ∀ r, st ≠ .aborting r) :
    (b.dispTo ph st k).Quiet :=
  ⟨h.todo, h.rph, h.host, h.per, h.lines, fun r e => absurd e (hs r)⟩

theorem Block.Quiet.endCommand {b : Block} (h : b.Quiet) : b.endCommand.Quiet := h.dispTo (by simp)

theorem beginPeripheralCycle_settled {b b' : Block} {peer : Option Role} (h : b.Quiet)
    (hb : b.beginPeripheralCycle peer = .ok b') : b'.Settled := by
  simp only [Block.beginPeripheralCycle, Block.peripheralGuard] at hb
  split at hb
  · cases hb
  · next hrole =>
    have hrole : b.role = .peripheral := by simpa using hrole
    split at hb
    · cases hb
    · simp only [Except.map, Except.ok.injEq] at hb
      subst hb
      refine Block.settled_per h.rph hrole h.host h.step ?_ (by simp [Block.perTo])
      show b.lines = _
      rw [h.lines, hrole]
      rfl

theorem serve_settled {b b' : Block} {peer : Option Role} {rd ad : Bool} (h : b.Quiet)
    (hb : (b.peripheralGuard peer).map (Block.serveDecoded rd ad) = .ok b') : b'.Settled := by
  simp only [Block.peripheralGuard] at hb
  split at hb
  · cases hb
  · next hrole =>
    have hrole : b.role = .peripheral := by simpa using hrole
    split at hb
    · cases hb
    · simp only [Except.map, Except.ok.injEq] at hb
      subst hb
      refine Block.settled_per h.rph hrole h.host h.step ?_ (fun x hx => Block.allows_line (drive_isLine _ _ x hx))
      show linesAfter (drivePrims rd b.per.slot) b.lines = _
      rw [h.lines, hrole]
      cases rd
      · rfl
      · exact drive_lines _

theorem beginBusData_settled {b b' : Block} {peer : Option Role} (h : b.Quiet) (hb : b.beginBusData peer = .ok b') :
    b'.Settled := begin_settled (h.dispTo (by simp)) hb

theorem beginBus_settled {b b' : Block} {peer : Option Role} (h : b.Quiet) (hb : b.beginBus peer = .ok b') :
    b'.Settled := by
  simp only [Block.beginBus] at hb
  split at hb
  · exact begin_settled (h.dispTo (by simp)) hb
  · exact beginBusData_settled h hb

theorem beginFlash_settled {b b' : Block} {ref : BufRef} {len : Nat} {init : Bool} (h : b.Quiet)
    (hb : b.beginFlash ref len init = .ok b') : b'.Settled := by
  simp only [Block.beginFlash] at hb
  repeat' split at hb
  · cases hb
  · cases hb
  · simp only [Except.ok.injEq] at hb
    exact hb ▸ (flashTo_quiet h _).settled

theorem afterBody_settled {b b' : Block} {peer : Option Role} (h : b.Quiet) (hb : b.afterBody peer = .ok b') :
    b'.Settled := by
  simp only [Block.afterBody] at hb
  split at hb
  · exact beginBus_settled h hb
  · split at hb
    · exact beginFlash_settled (h.dispTo (by simp)) hb
    · simp only [Except.ok.injEq] at hb
      exact hb ▸ (h.dispTo (by simp)).settled

theorem beginC_settled {b : Block} (h : b.Quiet) : b.beginC.Settled := by
  simp only [Block.beginC]
  split
  · exact (h.dispTo (by simp)).settled
  · exact h.endCommand.settled

theorem beginCommand_settled {b b' : Block} {peer : Option Role} (h : b.Quiet) (hb : b.beginCommand peer = .ok b') :
    b'.Settled := by
  simp only [Block.beginCommand] at hb
  repeat' split at hb
  all_goals first
    | exact beginBus_settled h hb
    | (simp only [Except.ok.injEq] at hb
       subst hb
       first
         | exact (h.dispTo (by simp)).settled
         | exact beginC_settled h)

/-- The dispatcher's registers replaced, outside an abort. -/
theorem disp_quiet {b : Block} (h : b.Quiet) {d : DispRegs} (hs : ∀ r, d.step = .aborting r → d.ph ≠ .exec) :
    ({ b with disp := d } : Block).Quiet := ⟨h.todo, h.rph, h.host, h.per, h.lines, hs⟩

theorem header_quiet {b : Block} (h : b.Quiet) (x y : Byte) : (b.header x y).Quiet :=
  ⟨h.todo, h.rph, h.host, h.per, h.lines, fun _ e => nomatch e⟩

theorem callTransaction_settled {b b' : Block} {peer : Option Role} {buf : List Byte} {n : Int} {rd ac : Bool}
    (h : b.Quiet) (hb : b.callTransaction peer buf n rd ac = .ok b') : b'.Settled := by
  simp only [Block.callTransaction] at hb
  split at hb
  · cases hb
  · exact begin_settled (by exact ⟨h.todo, h.rph, h.host, h.per, h.lines, h.step⟩) hb

theorem callSpiTransaction_settled {b b' : Block} {peer : Option Role} {buf : List Byte} {n : Int} {rd : Bool}
    {first last : SPhase} (h : b.Quiet) (hb : b.callSpiTransaction peer buf n rd first last = .ok b') : b'.Settled := by
  simp only [Block.callSpiTransaction] at hb
  split at hb
  · cases hb
  · exact beginSpiTransaction_settled (by exact ⟨h.todo, h.rph, h.host, h.per, h.lines, h.step⟩) hb

theorem callCycle_settled {b b' : Block} {peer : Option Role} {rd ad : Bool} {x : Byte} (h : b.Quiet)
    (hb : b.callCycle peer rd ad x = .ok b') : b'.Settled := by
  simp only [Block.callCycle] at hb
  split at hb
  · exact begin_settled (by exact ⟨h.todo, h.rph, h.host, h.per, h.lines, h.step⟩) hb
  · exact serve_settled h hb

/-- The operations that force the port to high-impedance (R120, R212). -/
def Instr.hiZ : Instr → Bool
  | .portHiZ => true
  | .abort _ => true
  | _ => false

/-- The start of any operation but `PortHiZ` and `abort` at a quiet block leaves it settled. -/
theorem start_settled {b b' : Block} {peer : Option Role} {i : Instr} (h : b.Quiet) (hi : Instr.hiZ i = false)
    (hb : b.start peer i = .ok b') : b'.Settled := by
  have hh := header_quiet h
  have hok : ∀ b1 : Block, b1.Settled → Except.ok b1 = Except.ok (ε := Refusal) b' → b'.Settled := by
    intro b1 h1 e
    simp only [Except.ok.injEq] at e
    exact e ▸ h1
  cases i <;> simp only [Block.start] at hb
  case cmdA a => exact hok _ (hh _ _).settled hb
  case cmdB x => exact hok _ (hh _ _).settled hb
  case cmdC x => exact hok _ (hh _ _).settled hb
  case cmdE x => exact hok _ (hh _ _).settled hb
  case cmdP x => exact hok _ (hh _ _).settled hb
  case cmdR x => exact hok _ (hh _ _).settled hb
  case cmdW x => exact hok _ (hh _ _).settled hb
  case unrecognized c x => exact hok _ (hh _ _).settled hb
  case cycleAddressWrite x => exact callCycle_settled h hb
  case cycleAddressRead => exact callCycle_settled h hb
  case cycleDataWrite x => exact callCycle_settled h hb
  case cycleDataRead => exact callCycle_settled h hb
  case cycleReserved w =>
    simp only [Block.startCycleReserved, Block.callReserved] at hb
    split at hb
    · cases hb
    · exact serve_settled h hb
  case noCycle w => exact hok _ h.settled hb
  case write buf n => exact callTransaction_settled h hb
  case setAddress buf n => exact callTransaction_settled h hb
  case read buf n => exact callTransaction_settled h hb
  case getAddress buf n => exact callTransaction_settled h hb
  case ptChipDisable => exact beginSpiReset_settled h hb
  case ptDataClear => exact beginSpiReset_settled h hb
  case ptChipEnable => exact beginSpiTransaction_settled h hb
  case ptPayload buf n rd => exact callSpiTransaction_settled h hb
  case flashAaiSeed d e =>
    simp only [Block.startFlashAaiSeed, Block.callSeed, Block.flashDeselect] at hb
    exact beginSpiReset_settled (by exact ⟨h.todo, h.rph, h.host, h.per, h.lines, h.step⟩) hb
  case flashAaiIncrement d e =>
    simp only [Block.startFlashAaiIncrement, Block.callIncr, Block.flashDeselect] at hb
    exact beginSpiReset_settled (by exact ⟨h.todo, h.rph, h.host, h.per, h.lines, h.step⟩) hb
  case flashReadStatus =>
    simp only [Block.startFlashReadStatus, Block.callStatus, Block.flashPoll] at hb
    exact beginSpiReset_settled (by exact ⟨h.todo, h.rph, h.host, h.per, h.lines, h.step⟩) hb
  case portHiZ => cases hi
  case reset r => exact hok (b.beginReset r) (Block.settled_reset b.par.settleUs r rfl rfl h.host h.per h.step) hb
  case transaction buf n rd ac => exact callTransaction_settled h hb
  case peripheralCycle x =>
    simp only [Block.startPeripheralCycle, Block.callPeripheralCycle] at hb
    exact beginPeripheralCycle_settled (by exact ⟨h.todo, h.rph, h.host, h.per, h.lines, h.step⟩) hb
  case spiReset => exact beginSpiReset_settled h hb
  case spiTransaction buf n rd => exact callSpiTransaction_settled h hb
  case flashProgram buf n init =>
    simp only [Block.startFlashProgram, Block.callFlashProgram] at hb
    split at hb
    · cases hb
    · exact beginFlash_settled (by exact ⟨h.todo, h.rph, h.host, h.per, h.lines, h.step⟩) hb
  case abort r => cases hi

/-- Block reset leaves any block settled, with the primitives of its `Reset` to come (R261). -/
theorem blockReset_settled (n : Nat) (b : Block) : (b.blockReset n).Settled :=
  Block.settled_reset b.par.settleUs b.par.board rfl rfl rfl rfl (fun _ e => nomatch e)

/-- The dispatcher's own steps, but for the calls at the top of its loop; no abort follows a result that is not
negative. -/
theorem dispTick_settled {b b' : Block} {p : Peer} {n n' : Nat} (h : b.Quiet) (h0 : b.disp.ph ≠ .header0)
    (hres : 0 ≤ b.res) (hb : dispTick p n b = .moved b' n') : b'.Settled := by
  have hsin : ∀ x, ({ b with sin := x } : Block).Quiet := fun x => ⟨h.todo, h.rph, h.host, h.per, h.lines, h.step⟩
  have hsout : ∀ x, ({ b with sout := x } : Block).Quiet := fun x => ⟨h.todo, h.rph, h.host, h.per, h.lines, h.step⟩
  have moved : ∀ {b1 : Block} {m : Nat}, b1.Quiet → Tick.moved b1 m = .moved b' n' → b'.Settled := by
    intro b1 m h1 e
    simp only [Tick.moved.injEq] at e
    exact e.1 ▸ h1.settled
  simp only [dispTick] at hb
  split at hb
  · next e => exact absurd e h0
  · simp only [header1Tick] at hb
    split at hb
    · exact moved (disp_quiet (d := b.latchLength.disp) h (by simp)) hb
    · split at hb
      · exact moved (disp_quiet (d := b.clearProg.disp) h (by simp)) hb
      · split at hb
        · cases hb
        · next x rest _ =>
          exact moved (disp_quiet (b := { b with sin := rest }) (d := (b.headerRead x).disp) (hsin _) (by simp)) hb
  · simp only [bodyTick] at hb
    split at hb
    · split at hb
      · cases hb
      · split at hb
        · cases hb
        · next b1 hw =>
          have h1 : b1.Quiet := by
            simp only [Block.bufWrite] at hw
            split at hw
            · simp only [Option.some.injEq] at hw
              exact hw ▸ ⟨h.todo, h.rph, h.host, h.per, h.lines, h.step⟩
            · cases hw
          exact moved (h1.dispTo (by simp)) hb
    · exact ofBegin_settled (fun b2 e => afterBody_settled h e) hb
  · next hp =>
    simp only [execTick, show ¬ b.res < 0 by omega, if_false] at hb
    split at hb
    · cases hb
    · cases hb
    · cases hb
    · cases hb
    · exact ofBegin_settled (fun b1 e => beginCommand_settled h e) hb
    · exact moved (disp_quiet (d := (b.setPendAddr.dispTo .exec .pendValid 0).disp) h (by simp)) hb
    · exact moved (disp_quiet (d := b.setPendValid.endCommand.disp) h (by simp)) hb
    · simp only [fillTick, Block.bufWrite] at hb
      split at hb
      · cases hb
      · next b1 hw =>
        split at hw
        · simp only [Option.some.injEq] at hw
          subst hw
          have h1 : ∀ m, ({ b with buf := m } : Block).Quiet := fun m => ⟨h.todo, h.rph, h.host, h.per, h.lines, h.step⟩
          split at hb <;> exact moved ((h1 _).dispTo (by simp)) hb
        · cases hw
    · exact moved (disp_quiet (d := (b.clearPending.dispTo .exec .sendData 0).disp) h (by simp)) hb
    · exact ofBegin_settled (fun b1 e => beginBusData_settled h e) hb
    · exact moved (h.dispTo (by simp)) hb
    · exact moved (disp_quiet (d := (b.setProgActive.dispTo .exec .flashTest 0).disp) h (by simp)) hb
    · exact moved (h.dispTo (by simp)) hb
    · refine moved (Block.Quiet.dispTo ?_ (by simp)) hb
      exact ⟨h.todo, h.rph, h.host, h.per, h.lines, h.step⟩
    · next r e => exact absurd hp (h.step r e)
  · simp only [respondTick] at hb
    repeat' split at hb
    all_goals first
      | cases hb
        done
      | skip
    all_goals
      simp only [Tick.moved.injEq] at hb
      obtain ⟨rfl, -⟩ := hb
    · exact ((hsout _).dispTo (by simp)).settled
    · exact Block.settled_reset b.par.settleUs .peripheral rfl rfl h.host h.per (fun r e => nomatch e)
    · exact (hsout _).endCommand.settled
    · exact ((hsout _).dispTo (by simp)).settled
    · exact h.endCommand.settled
  · simp only [consoleTick] at hb
    split at hb
    · exact ofBegin_settled (fun b1 e => beginPeripheralCycle_settled (h.dispTo (by simp)) e) hb
    · refine moved (Block.Quiet.dispTo ?_ (by simp)) hb
      split
      · exact hsout _
      · exact h
  · cases hb

theorem prim_settled {b b' : Block} {p : Peer} {n n' : Nat} {x : Prim} {r : List Prim} (h : b.Settled)
    (ht : b.todo = x :: r) (hb : x.run p n { b with todo := r } = .moved b' n') : b'.Settled := by
  obtain ⟨hl, hh, hp, hd, ha⟩ := h
  rw [ht] at hl ha
  have hx := ha x (by simp)
  have hr : ∀ y ∈ r, b.Allows y := fun y hy => ha y (by simp [hy])
  have hl' : linesAfter r (x.onLines b.lines) = b.picture := hl
  have hpic : ∀ b1 : Block, b1.todo = r → b1.rph = b.rph → b1.role = x.onRole b.role →
      (b1.host.picture = b.host.picture) → (b1.per.picture = b.per.picture) → b1.picture = b.picture := by
    intro b1 e1 e2 e3 e4 e5
    cases hrun : b.rph with
    | running =>
      rw [Block.picture_running hrun, Block.picture_running (e2.trans hrun), e1, e3, ht]
      rfl
    | idle =>
      have e3' : b1.role = b.role := by
        rw [e3]
        cases x <;> first | rfl | (exfalso; rw [Block.Allows, hrun] at hx; cases hx)
      simp only [Block.picture, e2, hrun, e3', e4, e5, reduceCtorEq, if_false]
  cases x <;> simp only [Prim.run] at hb
  case setDir l d =>
    simp only [Tick.moved.injEq] at hb
    obtain ⟨rfl, -⟩ := hb
    exact ⟨hl'.trans (Eq.symm (hpic _ rfl rfl rfl rfl rfl)), hh, hp, hd, hr⟩
  case setLvl l v =>
    simp only [Tick.moved.injEq] at hb
    obtain ⟨rfl, -⟩ := hb
    exact ⟨hl'.trans (Eq.symm (hpic _ rfl rfl rfl rfl rfl)), hh, hp, hd, hr⟩
  case delay us =>
    simp only [Tick.moved.injEq] at hb
    obtain ⟨rfl, -⟩ := hb
    exact ⟨hl'.trans (Eq.symm (hpic _ rfl rfl rfl rfl rfl)), hh, hp, hd, hr⟩
  case get l =>
    simp only [Tick.moved.injEq] at hb
    obtain ⟨rfl, -⟩ := hb
    exact ⟨hl'.trans (Eq.symm (hpic _ rfl rfl rfl rfl rfl)), hh, hp, hd, hr⟩
  case storeHost =>
    split at hb
    · next b1 hw =>
      simp only [Tick.moved.injEq] at hb
      obtain ⟨rfl, -⟩ := hb
      have e : b1.todo = r ∧ b1.rph = b.rph ∧ b1.role = b.role ∧ b1.per = b.per ∧ b1.disp = b.disp ∧ b1.lines = b.lines ∧
          b1.host = { b.host with byte := byteOfLevels b.smp } := by
        simp only [Block.bufWrite] at hw
        split at hw <;> first
          | cases hw
            done
          | (split at hw
             · simp only [Option.some.injEq] at hw
               rw [← hw]
               exact ⟨rfl, rfl, rfl, rfl, rfl, rfl, rfl⟩
             · cases hw)
      obtain ⟨e1, e2, e3, e4, e5, e6, e7⟩ := e
      refine ⟨?_, ?_, ?_, ?_, ?_⟩
      · rw [e1, e6, hpic _ e1 e2 e3 ?_ (by rw [e4])]
        · exact hl'
        · rw [e7]
          simp only [HostRegs.picture, hx.1, hx.2]
      · rw [e7, e3, e2]; exact hh
      · rw [e4, e3, e2]; exact hp
      · rw [e5]; exact hd
      · rw [e1]
        intro y hy
        have := hr y hy
        cases y <;> simp_all [Block.Allows]
    · cases hb
  case storeSlot =>
    simp only [Tick.moved.injEq] at hb
    obtain ⟨rfl, -⟩ := hb
    refine ⟨?_, hh, hp, hd, fun y hy => ?_⟩
    · exact hl'.trans (Eq.symm (hpic _ rfl rfl rfl rfl (by simp only [PerRegs.picture, hx.1, hx.2])))
    · have := hr y hy
      cases y <;> simp_all [Block.Allows]
  case senseWrsel =>
    simp only [Tick.moved.injEq] at hb
    obtain ⟨rfl, -⟩ := hb
    have hx : b.per.ph = .decode := hx
    refine ⟨?_, hh, hp, hd, fun y hy => ?_⟩
    · exact hl'.trans (Eq.symm (hpic _ rfl rfl rfl rfl (by simp only [PerRegs.picture, hx])))
    · have := hr y hy
      cases y <;> simp_all [Block.Allows]
  case senseAstb =>
    simp only [Tick.moved.injEq] at hb
    obtain ⟨rfl, -⟩ := hb
    have hx : b.per.ph = .decode := hx
    refine ⟨?_, hh, hp, hd, fun y hy => ?_⟩
    · exact hl'.trans (Eq.symm (hpic _ rfl rfl rfl rfl (by simp only [PerRegs.picture, hx])))
    · have := hr y hy
      cases y <;> simp_all [Block.Allows]
  case setRole r' =>
    simp only [Tick.moved.injEq] at hb
    obtain ⟨rfl, -⟩ := hb
    have hx : b.rph = .running := hx
    refine ⟨hl'.trans (Eq.symm (hpic _ rfl rfl rfl rfl rfl)), fun e => ?_, fun e => ?_, hd, hr⟩
    · have := (hh e).2
      rw [hx] at this
      cases this
    · have := (hp e).2
      rw [hx] at this
      cases this

/-- Every primitive of a block that is not at rest leaves it settled, as long as the last result was not negative. -/
theorem tick_settled {b b' : Block} {p : Peer} {n n' : Nat} (h : b.Settled) (hres : 0 ≤ b.res)
    (ha : b.atRest = false) (hb : b.tick p n = .moved b' n') : b'.Settled := by
  replace hb := Block.advance_of_moved hb
  rw [Block.advance] at hb
  split at hb
  · next ht => exact prim_settled h ht hb
  · next ht =>
    split at hb
    · next hr =>
      simp only [Tick.moved.injEq] at hb
      obtain ⟨rfl, -⟩ := hb
      have hh : b.host.ph = .idle := by
        by_contra e
        have := (h.2.1 e).2
        rw [hr] at this
        cases this
      have hp : b.per.ph = .idle := by
        by_contra e
        have := (h.2.2.1 e).2
        rw [hr] at this
        cases this
      refine Block.settled_idle ht rfl hh hp h.2.2.2.1 ?_
      show b.lines = .idleOf b.role
      rw [h.now ht, Block.picture_running hr, ht]
      rfl
    · next hr =>
      have hr : b.rph = .idle := by
        cases e : b.rph with
        | idle => rfl
        | running => exact absurd e hr
      split at hb
      · next hh => exact hostTick_settled h ht hh hb
      · next hh =>
        have hh : b.host.ph = .idle := by simpa using hh
        split at hb
        · next hp => exact peripheralTick_settled h ht hh hp hb
        · next hp =>
          have hp : b.per.ph = .idle := by simpa using hp
          have hq : b.Quiet := ⟨ht, hr, hh, hp, h.idle ht hh hp hr, h.2.2.2.1⟩
          split at hb
          · exact spiTick_settled hq hb
          · next hs =>
            split at hb
            · exact flashTick_settled hq hb
            · next hf =>
              have hi : b.idleBelow = true :=
                b.idleBelow_iff.mpr ⟨ht, hr, hh, hp, by simpa using hs, by simpa using hf⟩
              refine dispTick_settled hq ?_ hres hb
              intro e
              simp [Block.atRest, hi, e] at ha

end Sys2Proof.Machine
end

