-- ==== Sys2Proof/Laws/Steps.lean ====
section
/-! SUPPORT. What a tick can do to the lines: it executes the next primitive of the running phase, or it puts the steps of
another phase in place and leaves the lines alone (R11, R126, R152). -/

namespace Sys2Proof.Machine

/-- The primitive sequences of the phases of the spec's operations. -/
inductive Steps : List Prim → Prop
  | nil : Steps []
  | setup (rd : Bool) : Steps (setupPrims rd)
  | finish (rd : Bool) : Steps (finishPrims rd)
  | pull (x : Byte) : Steps (dataPullLow x)
  | strobe (ac : Bool) (v : Level) : Steps [.setLvl (strobeOf ac) v]
  | sampleHost : Steps (dataSample ++ [.storeHost])
  | idle : Steps dataIdle
  | sense : Steps [.senseWrsel, .senseAstb]
  | drive (rd : Bool) (x : Byte) : Steps (drivePrims rd x)
  | wait (v : Level) : Steps [.setLvl .wait v]
  | take (rd : Bool) : Steps (takePrims rd)
  | hiZ : Steps portHiZPrims
  | reset (us : Nat) (r : Role) : Steps (resetPrims us r)

/-- The lines are as they were, and a phase's steps are in place. -/
def Block.Placed (b b' : Block) : Prop := b'.lines = b.lines ∧ Steps b'.todo

theorem Block.Placed.of {b b1 b' : Block} (h : b1.lines = b.lines) (h' : b1.Placed b') : b.Placed b' :=
  ⟨h'.1.trans h, h'.2⟩

theorem begin_placed {b b' : Block} {peer : Option Role} {ref : BufRef} {len : Nat} {rd ac : Bool}
    (hb : b.beginTransaction peer ref len rd ac = .ok b') : b.Placed b' := by
  simp only [Block.beginTransaction] at hb
  repeat' split at hb
  all_goals first
    | (simp only [Except.ok.injEq] at hb
       exact hb ▸ ⟨rfl, .setup rd⟩)
    | cases hb

theorem spiCall_placed {b b' : Block} {peer : Option Role} {ph : SPhase}
    (hb : b.spiCall peer ph = .ok b') (ht : b.todo = []) : b.Placed b' := by
  cases ph <;> simp only [Block.spiCall, Block.spiEngineCall] at hb
  case idle =>
    simp only [Except.ok.injEq] at hb
    exact hb ▸ ⟨rfl, ht ▸ .nil⟩
  all_goals
    first
      | exact (by have h := begin_placed hb; exact h)
      | (split at hb <;> exact (by have h := begin_placed hb; exact h))

theorem beginSpiReset_placed {b b' : Block} {peer : Option Role} {first last : SPhase}
    (hb : b.beginSpiReset peer first last = .ok b') (ht : b.todo = []) : b.Placed b' :=
  (by have h := spiCall_placed hb ht; exact h)

theorem beginSpiTransaction_placed {b b' : Block} {peer : Option Role} {ref : BufRef} {len : Nat} {rd : Bool}
    {first last : SPhase} (hb : b.beginSpiTransaction peer ref len rd first last = .ok b') (ht : b.todo = []) :
    b.Placed b' := by
  simp only [Block.beginSpiTransaction] at hb
  split at hb
  · cases hb
  · exact (by have h := spiCall_placed hb ht; exact h)

theorem guard_placed {b b' : Block} {peer : Option Role} {f : Block → Block} (hf : b.Placed (f b))
    (hb : (b.peripheralGuard peer).map f = .ok b') : b.Placed b' := by
  simp only [Block.peripheralGuard] at hb
  repeat' split at hb
  all_goals first
    | (simp only [Except.map, Except.ok.injEq] at hb
       exact hb ▸ hf)
    | cases hb

theorem beginPeripheralCycle_placed {b b' : Block} {peer : Option Role} (hb : b.beginPeripheralCycle peer = .ok b') :
    b.Placed b' :=
  guard_placed (f := fun b => b.perTo .check []) ⟨rfl, .nil⟩ hb

theorem ofBegin_placed {b b' : Block} {n n' : Nat} {next : Except Refusal Block}
    (hn : ∀ b1, next = .ok b1 → b.Placed b1) (hb : Tick.ofBegin n next = .moved b' n') : b.Placed b' := by
  cases next with
  | error r => cases hb
  | ok b1 =>
    simp only [Tick.ofBegin, Tick.moved.injEq] at hb
    obtain ⟨rfl, -⟩ := hb
    exact hn _ rfl

theorem hostTick_placed {b b' : Block} {p : Peer} {n n' : Nat} (hb : hostTick p n b = .moved b' n') : b.Placed b' := by
  simp only [hostTick] at hb
  repeat' split at hb
  all_goals first
    | cases hb
      done
    | (simp only [Tick.moved.injEq] at hb
       obtain ⟨rfl, -⟩ := hb
       first
         | exact ⟨rfl, .nil⟩
         | exact ⟨rfl, .finish _⟩
         | exact ⟨rfl, .pull _⟩
         | exact ⟨rfl, .strobe _ _⟩
         | (refine ⟨rfl, ?_⟩
            first | exact .sampleHost | exact .idle))

theorem peripheralTick_placed {b b' : Block} {p : Peer} {n n' : Nat} (hb : peripheralTick p n b = .moved b' n') :
    b.Placed b' := by
  simp only [peripheralTick] at hb
  repeat' split at hb
  all_goals first
    | cases hb
      done
    | (simp only [Tick.moved.injEq] at hb
       obtain ⟨rfl, -⟩ := hb
       first
         | exact ⟨rfl, .nil⟩
         | exact ⟨rfl, .sense⟩
         | exact ⟨rfl, .drive _ _⟩
         | exact ⟨rfl, .wait _⟩
         | exact ⟨rfl, .take _⟩)

theorem spiTick_placed {b b' : Block} {p : Peer} {n n' : Nat} (hb : spiTick p n b = .moved b' n') (ht : b.todo = []) :
    b.Placed b' := by
  simp only [spiTick] at hb
  split at hb
  · simp only [Tick.moved.injEq] at hb
    obtain ⟨rfl, -⟩ := hb
    exact ⟨rfl, ht ▸ .nil⟩
  · exact ofBegin_placed (fun b1 e => spiCall_placed e ht) hb

theorem moved_placed {b b1 b' : Block} {n n' : Nat} (hb : Tick.moved b1 n = .moved b' n') (ht : b.todo = []) (hl : b1.lines = b.lines) (h1 : b1.todo = b.todo) : b.Placed b' := by
  simp only [Tick.moved.injEq] at hb
  obtain ⟨rfl, -⟩ := hb
  exact ⟨hl, by rw [h1, ht]; exact .nil⟩

theorem ok_placed {b b1 b' : Block} (hb : Except.ok (ε := Refusal) b1 = .ok b') (ht : b.todo = []) (hl : b1.lines = b.lines) (h1 : b1.todo = b.todo) : b.Placed b' := by
  simp only [Except.ok.injEq] at hb
  subst hb
  exact ⟨hl, by rw [h1, ht]; exact .nil⟩

theorem flashNext_placed {b b' : Block} {n n' : Nat} {next : Except Refusal Block}
    (hn : ∀ b1, next = .ok b1 → b.Placed b1) (hb : flashNext n b next = .moved b' n') (ht : b.todo = []) : b.Placed b' := by
  simp only [flashNext] at hb
  split at hb
  · exact moved_placed hb ht rfl rfl
  · exact ofBegin_placed hn hb

theorem flashTick_placed {b b' : Block} {p : Peer} {n n' : Nat}
    (hb : flashTick p n b = .moved b' n') (ht : b.todo = []) : b.Placed b' := by
  simp only [flashTick] at hb
  split at hb
  · cases hb
  · split at hb
    · exact ofBegin_placed (fun b1 e => (by have h := beginSpiReset_placed e ht; exact h)) hb
    · exact moved_placed hb ht rfl rfl
  · split at hb
    · exact moved_placed hb ht rfl rfl
    · split at hb
      · cases hb
      · refine ofBegin_placed (fun b1 e => ?_) hb
        split at e <;> exact (by have h := beginSpiTransaction_placed e ht; exact h)
  · refine flashNext_placed (fun b1 e => ?_) hb ht
    split at e
    · exact ok_placed e ht rfl rfl
    · exact (by have h := beginSpiReset_placed e ht; exact h)
  · refine flashNext_placed (fun b1 e => ?_) hb ht
    split at e
    · exact ok_placed e ht rfl rfl
    · exact (by have h := beginSpiReset_placed e ht; exact h)
  · exact flashNext_placed (fun b1 e => (by have h := beginSpiTransaction_placed e ht; exact h)) hb ht
  · exact flashNext_placed (fun b1 e => (by have h := beginSpiTransaction_placed e ht; exact h)) hb ht
  · refine flashNext_placed (fun b1 e => ?_) hb ht
    split at e <;> exact ok_placed e ht rfl rfl
  · split at hb
    · exact ofBegin_placed (fun b1 e => (by have h := beginSpiReset_placed e ht; exact h)) hb
    · exact moved_placed hb ht rfl rfl
  · exact moved_placed hb ht rfl rfl

theorem beginBusData_placed {b b' : Block} {peer : Option Role} (hb : b.beginBusData peer = .ok b') : b.Placed b' :=
  (by have h := begin_placed hb; exact h)

theorem beginBus_placed {b b' : Block} {peer : Option Role} (hb : b.beginBus peer = .ok b') : b.Placed b' := by
  simp only [Block.beginBus] at hb
  split at hb
  · exact (by have h := begin_placed hb; exact h)
  · exact beginBusData_placed hb

theorem beginFlash_placed {b b' : Block} {ref : BufRef} {len : Nat} {init : Bool}
    (hb : b.beginFlash ref len init = .ok b') (ht : b.todo = []) : b.Placed b' := by
  simp only [Block.beginFlash] at hb
  repeat' split at hb
  · cases hb
  · cases hb
  · exact ok_placed hb ht rfl rfl

theorem afterBody_placed {b b' : Block} {peer : Option Role} (hb : b.afterBody peer = .ok b') (ht : b.todo = []) :
    b.Placed b' := by
  simp only [Block.afterBody] at hb
  repeat' split at hb
  · exact beginBus_placed hb
  · exact (by have h := beginFlash_placed hb ht; exact h)
  · exact ok_placed hb ht rfl rfl

theorem beginC_placed {b : Block} (ht : b.todo = []) : b.Placed b.beginC := by
  simp only [Block.beginC]
  split <;> exact ⟨rfl, ht ▸ .nil⟩

theorem beginCommand_placed {b b' : Block} {peer : Option Role} (hb : b.beginCommand peer = .ok b') (ht : b.todo = []) :
    b.Placed b' := by
  simp only [Block.beginCommand] at hb
  repeat' split at hb
  all_goals first
    | exact beginBus_placed hb
    | exact ok_placed hb ht rfl rfl
    | (simp only [Except.ok.injEq] at hb
       exact hb ▸ beginC_placed ht)

theorem callTransaction_placed {b b' : Block} {peer : Option Role} {buf : List Byte} {n : Int} {rd ac : Bool}
    (hb : b.callTransaction peer buf n rd ac = .ok b') : b.Placed b' := by
  simp only [Block.callTransaction] at hb
  split at hb
  · cases hb
  · exact (by have h := begin_placed hb; exact h)

theorem callCycle_placed {b b' : Block} {peer : Option Role} {rd ad : Bool} {x : Byte}
    (hb : b.callCycle peer rd ad x = .ok b') : b.Placed b' := by
  simp only [Block.callCycle] at hb
  split at hb
  · exact (by have h := begin_placed hb; exact h)
  · exact guard_placed ⟨rfl, .drive _ _⟩ hb

/-- The start of any operation leaves the lines alone. -/
theorem start_placed {b b' : Block} {peer : Option Role} {i : Instr}
    (hb : b.start peer i = .ok b') (ht : b.todo = []) : b.Placed b' := by
  cases i <;> simp only [Block.start] at hb
  case cycleAddressWrite x => exact callCycle_placed hb
  case cycleAddressRead => exact callCycle_placed hb
  case cycleDataWrite x => exact callCycle_placed hb
  case cycleDataRead => exact callCycle_placed hb
  case cycleReserved w =>
    simp only [Block.startCycleReserved, Block.callReserved] at hb
    split at hb
    · cases hb
    · exact guard_placed ⟨rfl, .drive _ _⟩ hb
  case write buf n => exact callTransaction_placed hb
  case setAddress buf n => exact callTransaction_placed hb
  case read buf n => exact callTransaction_placed hb
  case getAddress buf n => exact callTransaction_placed hb
  case ptChipDisable => exact beginSpiReset_placed hb ht
  case ptDataClear => exact beginSpiReset_placed hb ht
  case ptChipEnable => exact beginSpiTransaction_placed hb ht
  case ptPayload buf n rd =>
    simp only [Block.startPtPayload, Block.callSpiTransaction] at hb
    split at hb
    · cases hb
    · exact (by have h := beginSpiTransaction_placed hb ht; exact h)
  case flashAaiSeed d e =>
    simp only [Block.startFlashAaiSeed, Block.callSeed, Block.flashDeselect] at hb
    exact (by have h := beginSpiReset_placed hb ht; exact h)
  case flashAaiIncrement d e =>
    simp only [Block.startFlashAaiIncrement, Block.callIncr, Block.flashDeselect] at hb
    exact (by have h := beginSpiReset_placed hb ht; exact h)
  case flashReadStatus =>
    simp only [Block.startFlashReadStatus, Block.callStatus, Block.flashPoll] at hb
    exact (by have h := beginSpiReset_placed hb ht; exact h)
  case portHiZ =>
    simp only [Block.startPortHiZ, Except.ok.injEq] at hb
    exact hb ▸ ⟨rfl, .hiZ⟩
  case reset r =>
    simp only [Block.startReset, Except.ok.injEq] at hb
    exact hb ▸ ⟨rfl, .reset _ _⟩
  case transaction buf n rd ac => exact callTransaction_placed hb
  case peripheralCycle x => exact (by have h := beginPeripheralCycle_placed hb; exact h)
  case spiReset => exact beginSpiReset_placed hb ht
  case spiTransaction buf n rd =>
    simp only [Block.startSpiTransaction, Block.callSpiTransaction] at hb
    split at hb
    · cases hb
    · exact (by have h := beginSpiTransaction_placed hb ht; exact h)
  case flashProgram buf n init =>
    simp only [Block.startFlashProgram, Block.callFlashProgram] at hb
    split at hb
    · cases hb
    · exact (by have h := beginFlash_placed hb ht; exact h)
  case abort r =>
    simp only [Block.startAbort, Block.callAbort] at hb
    split at hb
    · simp only [Except.ok.injEq] at hb
      exact hb ▸ ⟨rfl, .hiZ⟩
    · cases hb
  all_goals exact ok_placed hb ht rfl rfl

theorem fillTick_placed {b b' : Block} {n n' : Nat} (hb : fillTick n b = .moved b' n') (ht : b.todo = []) :
    b.Placed b' := by
  simp only [fillTick, Block.bufWrite] at hb
  split at hb
  · cases hb
  · next b1 hw =>
    split at hw
    · simp only [Option.some.injEq] at hw
      subst hw
      split at hb <;> exact moved_placed hb ht rfl rfl
    · cases hw

theorem dispTick_placed {b b' : Block} {p : Peer} {n n' : Nat}
    (hb : dispTick p n b = .moved b' n') (ht : b.todo = []) : b.Placed b' := by
  have hiZ : ∀ (b1 : Block) (r : Int) m, b1.lines = b.lines → Tick.moved (b1.enterAbort r) m = .moved b' n' → b.Placed b' := by
    intro b1 r m hl e
    simp only [Tick.moved.injEq] at e
    obtain ⟨rfl, -⟩ := e
    exact ⟨hl, .hiZ⟩
  simp only [dispTick] at hb
  split at hb
  · split at hb
    · split at hb
      · exact ofBegin_placed (fun b1 e => (by have h := start_placed e ht; exact h)) hb
      · cases hb
    · split at hb
      · cases hb
      · exact moved_placed hb ht rfl rfl
  · simp only [header1Tick] at hb
    repeat' split at hb
    all_goals first
      | cases hb
        done
      | exact moved_placed hb ht rfl rfl
  · simp only [bodyTick] at hb
    split at hb
    · split at hb
      · cases hb
      · split at hb
        · cases hb
        · next b1 hw =>
          have h1 : b1.lines = b.lines ∧ b1.todo = b.todo := by
            simp only [Block.bufWrite] at hw
            split at hw
            · simp only [Option.some.injEq] at hw
              exact hw ▸ ⟨rfl, rfl⟩
            · cases hw
          exact moved_placed hb ht h1.1 h1.2
    · exact ofBegin_placed (fun b2 e => afterBody_placed e ht) hb
  · simp only [execTick] at hb
    repeat' split at hb
    all_goals first
      | cases hb
        done
      | exact moved_placed hb ht rfl rfl
      | exact hiZ b _ _ rfl hb
      | exact ofBegin_placed (fun b1 e => beginCommand_placed e ht) hb
      | exact ofBegin_placed (fun b1 e => (by have h := beginBusData_placed e; exact h)) hb
      | exact fillTick_placed hb ht
  · simp only [respondTick] at hb
    repeat' split at hb
    all_goals first
      | exact moved_placed hb ht rfl rfl
      | (simp only [Tick.moved.injEq] at hb
         obtain ⟨rfl, -⟩ := hb
         exact ⟨rfl, .reset _ _⟩)
      | cases hb
  · simp only [consoleTick] at hb
    split at hb
    · exact ofBegin_placed (fun b1 e => (by have h := beginPeripheralCycle_placed e; exact h)) hb
    · split at hb <;> exact moved_placed hb ht rfl rfl
  · cases hb

/-- What a tick does to the lines: the next primitive of the running phase, or nothing but a change of phase. -/
theorem tick_lines {b b' : Block} {p : Peer} {n n' : Nat} (hb : b.tick p n = .moved b' n') :
    (∃ x, b.todo = x :: b'.todo ∧ b'.lines = x.onLines b.lines) ∨ (b.todo = [] ∧ b'.lines = b.lines ∧ Steps b'.todo) := by
  replace hb := Block.advance_of_moved hb
  rw [Block.advance] at hb
  split at hb
  · next x r ht =>
    left
    refine ⟨x, ?_⟩
    cases x <;> simp only [Prim.run] at hb
    case storeHost =>
      split at hb
      · next hw =>
        simp only [Tick.moved.injEq] at hb
        obtain ⟨rfl, -⟩ := hb
        simp only [Block.bufWrite] at hw
        split at hw <;> first
          | cases hw
            done
          | (split at hw
             · simp only [Option.some.injEq] at hw
               exact hw ▸ ⟨ht, rfl⟩
             · cases hw)
      · cases hb
    all_goals
      simp only [Tick.moved.injEq] at hb
      obtain ⟨rfl, -⟩ := hb
      exact ⟨ht, rfl⟩
  · next ht =>
    right
    refine ⟨ht, ?_⟩
    repeat' split at hb
    · exact moved_placed hb ht rfl rfl
    · exact hostTick_placed hb
    · exact peripheralTick_placed hb
    · exact spiTick_placed hb ht
    · exact flashTick_placed hb ht
    · exact dispTick_placed hb ht

/-! ### Uniform data directions (R21) -/

theorem Lines.dataUniform_iff (ls : Lines) :
    ls.dataUniform ↔ ls.d1.dir = ls.d0.dir ∧ ls.d2.dir = ls.d0.dir ∧ ls.d3.dir = ls.d0.dir ∧ ls.d4.dir = ls.d0.dir ∧
      ls.d5.dir = ls.d0.dir ∧ ls.d6.dir = ls.d0.dir ∧ ls.d7.dir = ls.d0.dir := by
  simp [Lines.dataUniform, dataLines, Lines.get]

/-- A primitive that turns no data line keeps the data directions. -/
theorem onLines_uniform {x : Prim} {ls : Lines} (hx : ∀ l d, x = .setDir l d → l ∉ dataLines) (h : ls.dataUniform) :
    (x.onLines ls).dataUniform := by
  rw [Lines.dataUniform_iff] at h ⊢
  cases x with
  | setDir l d =>
    have := hx l d rfl
    cases l <;> first | exact absurd (by decide) this | exact h
  | setLvl l v => cases l <;> exact h
  | _ => exact h

theorem linesAfter_uniform {todo : List Prim} :
    ∀ {ls : Lines}, (∀ x ∈ todo, ∀ l d, x = .setDir l d → l ∉ dataLines) → ls.dataUniform →
      (linesAfter todo ls).dataUniform := by
  induction todo with
  | nil => intro ls _ h; exact h
  | cons x r ih => intro ls hx h; exact ih (fun y hy => hx y (by simp [hy])) (onLines_uniform (hx x (by simp)) h)

/-- A primitive that turns a data line. -/
def Prim.turnsData : Prim → Bool
  | .setDir l _ => dataLines.contains l
  | _ => false

theorem linesAfter_uniform' {todo : List Prim} {ls : Lines} (hx : todo.all (fun x => !x.turnsData) = true)
    (h : ls.dataUniform) : (linesAfter todo ls).dataUniform := by
  refine linesAfter_uniform (fun x hm l d e => ?_) h
  have := List.all_eq_true.mp hx x hm
  subst e
  simpa [Prim.turnsData] using this

/-- The steps of every phase keep the data directions uniform. -/
theorem steps_uniform {todo : List Prim} {ls : Lines} (hs : Steps todo) (h : ls.dataUniform) :
    (linesAfter todo ls).dataUniform := by
  cases hs with
  | nil => exact h
  | setup rd =>
    cases rd
    · rw [Lines.dataUniform_iff]; exact ⟨rfl, rfl, rfl, rfl, rfl, rfl, rfl⟩
    · exact h
  | finish rd =>
    cases rd
    · rw [Lines.dataUniform_iff]; exact ⟨rfl, rfl, rfl, rfl, rfl, rfl, rfl⟩
    · exact h
  | pull x => exact linesAfter_uniform' (by revert x; decide +kernel) h
  | strobe ac v => exact linesAfter_uniform' (by cases ac <;> rfl) h
  | sampleHost => exact linesAfter_uniform' (by decide) h
  | idle => exact linesAfter_uniform' (by decide) h
  | sense => exact linesAfter_uniform' (by decide) h
  | drive rd x =>
    cases rd
    · exact h
    · rw [Lines.dataUniform_iff]; exact ⟨rfl, rfl, rfl, rfl, rfl, rfl, rfl⟩
  | wait v => exact linesAfter_uniform' rfl h
  | take rd =>
    cases rd
    · exact linesAfter_uniform' (by decide) h
    · rw [Lines.dataUniform_iff]; exact ⟨rfl, rfl, rfl, rfl, rfl, rfl, rfl⟩
  | hiZ => rw [Lines.dataUniform_iff]; exact ⟨rfl, rfl, rfl, rfl, rfl, rfl, rfl⟩
  | reset us r =>
    have e : linesAfter (resetPrims us r) ls = .idleOf r := by cases r <;> rfl
    rw [e, Lines.dataUniform_iff]
    cases r <;> exact ⟨rfl, rfl, rfl, rfl, rfl, rfl, rfl⟩

/-- Every primitive of a block keeps its data directions uniform, once the steps of the phase are done (R21). -/
theorem tick_uniform {b b' : Block} {p : Peer} {n n' : Nat} (h : b.Uniform) (hb : b.tick p n = .moved b' n') :
    b'.Uniform := by
  rcases tick_lines hb with ⟨x, ht, hl⟩ | ⟨ht, hl, hs⟩
  · rw [Block.Uniform, ht] at h
    rw [Block.Uniform, hl]
    exact h
  · rw [Block.Uniform, ht] at h
    rw [Block.Uniform, hl]
    exact steps_uniform hs h

end Sys2Proof.Machine
end

