-- ==== Sys2Proof/Tests/Slice0.lean ====
section
/-! SUPPORT. The model's own tests: ill-formed terms, words written out from the encodings of spec/30_encoding.md, single
operations against the vectors of spec/95_test_vectors.md (named T<n>, P<n> in the comments), and a witness for the
hypotheses of every statement that has some. -/

namespace Sys2Proof.Machine.Test

set_option Elab.async false

/-! ### Small states -/

/-- A block on a host-role board with the fixture constants of spec/95_test_vectors.md, right after `Reset(Host)`. -/
def hostBlock : Block :=
  { par := ⟨0x05, 0x08, 0xFD, 0xFE, [0x4F, 0x4B], 1, .host⟩,
    lines := .idleHost, role := .host, buf := [],
    host := { rd := false, ac := false, len := 0, i := 0, byte := 0, ref := .buf, ph := .idle },
    per := { ph := .idle, slot := 0, rd := false, ad := false, ok := false },
    spi := .afterReset,
    flash := { ph := .idle, op := .program, cmd := ⟨0, 0, 0, 0, 0, 0⟩, st := 0, i := 0, len := 0, ref := .buf, init := false },
    disp := ⟨0, false, false, 0, 0, 0, .header0, .decode, 0⟩,
    sin := [], sout := [], todo := [], rph := .idle, smp := [], res := 0, ubuf := [], calls := [], bus := [] }

/-- The same block right after `Reset(Peripheral)`. -/
def perBlock : Block := { hostBlock with lines := .idlePeripheral, role := .peripheral }

/-- A host against a live target that will answer with `rs`. -/
def live (rs : List Byte) : State :=
  { near := hostBlock, far := .target ⟨.targetReady, true, rs⟩, script := [], drawn := 0, contention := false }

/-- A live host with bytes of a body on `SIN`. -/
def withSin (sin rs : List Byte) : State := { live rs with near := { hostBlock with sin := sin } }

/-- A block and a target that only ever does what the script says. -/
def still (b : Block) (ls : Lines) (script : List Event) : State :=
  { near := b, far := .target ⟨ls, false, []⟩, script := script, drawn := 0, contention := false }

/-- A peripheral whose far end will assert a strobe with the given lines and then release it. -/
def served (ls ls' : Lines) : State := still perBlock .idleHost [⟨.blocked, .lines ls⟩, ⟨.blocked, .lines ls'⟩]

/-- What an outcome that is a next state says about it. -/
def got {α : Type} (f : State → α) : Host.Outcome State Fault Refusal → Option α
  | .next s => some (f s)
  | .fault _ => none
  | .refused _ => none

/-- The refusal of an outcome. -/
def refusal : Host.Outcome State Fault Refusal → Option Refusal
  | .next _ => none
  | .fault _ => none
  | .refused r => some r

theorem next_of_got {o : Host.Outcome State Fault Refusal} (h : got (fun _ => true) o = some true) : ∃ t, o = .next t := by
  cases o with
  | next t => exact ⟨t, rfl⟩
  | fault f => cases h
  | refused r => cases h

/-! ### Ill-formed terms (WellFormed) -/

/-- R124: a length above `CAP`, below 0, or beyond the caller's buffer. -/
theorem test_wf_length : wellFormed .host (.write (List.replicate 200 0) 129) = false ∧
    wellFormed .host (.read [] (-1)) = false ∧ wellFormed .host (.setAddress [0x10] 2) = false ∧
    wellFormed .host (.getAddress [] 1) = false ∧ wellFormed .host (.transaction [0x10] 2 true false) = false ∧
    wellFormed .host (.spiTransaction [] 1 true) = false ∧ wellFormed .host (.ptPayload [] (-2) false) = false ∧
    wellFormed .host (.flashProgram [] 129 false) = false ∧ wellFormed .host (.write [0x10] 1) = true := by decide

/-- R96, R206: a command letter is no unrecognized code, and 'C' needs a host-role board. -/
theorem test_wf_code : wellFormed .host (.unrecognized 0x41 0) = false ∧ wellFormed .host (.unrecognized 0x43 0) = false ∧
    wellFormed .peripheral (.unrecognized 0x43 0) = true ∧ wellFormed .peripheral (.cmdC 0) = false ∧
    wellFormed .host (.unrecognized 0x62 3) = true := by decide

/-- R212: `abort` takes a negative result. -/
theorem test_wf_abort : wellFormed .host (.abort 0) = false ∧ wellFormed .host (.abort (-7)) = true := by decide

/-! ### Words written out from the encodings (R91, R95 to R98, R100, R102, R108) -/

theorem test_decode_cmd :
    decodeTableWord 16 0b0100000100010000 = some (.cmdA 0x10) ∧ decodeTableWord 16 0b0100001000000011 = some (.cmdB 0x03) ∧
    decodeTableWord 16 0b0100001100000000 = some (.cmdC 0x00) ∧ decodeTableWord 16 0b0100010100000010 = some (.cmdE 0x02) ∧
    decodeTableWord 16 0b0101000000000011 = some (.cmdP 0x03) ∧ decodeTableWord 16 0b0101001000000010 = some (.cmdR 0x02) ∧
    decodeTableWord 16 0b0101011100000001 = some (.cmdW 0x01) ∧
    decodeTableWord 16 0b0101101000000101 = some (.unrecognized 0x5A 0x05) := by decide

theorem test_decode_cyc :
    decodeTableWord 3 0b010 = some (.cycleAddressWrite 0) ∧ decodeTableWord 3 0b011 = some .cycleAddressRead ∧
    decodeTableWord 3 0b100 = some (.cycleDataWrite 0) ∧ decodeTableWord 3 0b101 = some .cycleDataRead ∧
    decodeTableWord 3 0b000 = some (.cycleReserved .low) ∧ decodeTableWord 3 0b001 = some (.cycleReserved .high) ∧
    decodeTableWord 3 0b110 = some (.noCycle .low) ∧ decodeTableWord 3 0b111 = some (.noCycle .high) := by decide

theorem test_decode_sel :
    decodeTableWord 2 0b00 = some (.write [] 0) ∧ decodeTableWord 2 0b10 = some (.read [] 0) ∧
    decodeTableWord 2 0b01 = some (.setAddress [] 0) ∧ decodeTableWord 2 0b11 = some (.getAddress [] 0) := by decide

theorem test_decode_spi :
    decodeTableWord 8 0b00000101 = some .flashReadStatus ∧
    decodeTableWord 24 0b101011010001000100100010 = some (.flashAaiIncrement 0x11 0x22) ∧
    decodeTableWord 48 0b101011010000000000000000000000000001000100100010 = some (.flashAaiSeed 0x11 0x22) ∧
    decodeTableWord 8 0b00000110 = none ∧ decodeTableWord 24 0b101011000001000100100010 = none ∧
    decodeTableWord 48 0b101011010000000000000000000000010001000100100010 = none ∧ decodeTableWord 5 0 = none := by decide

/-- The serial stream (R201): the rest stays for the body and the next header. -/
theorem test_decode_stream : decodeCmd .host [0x57, 0x01, 0xDE, 0xAD] = .ok (.cmdW 0x01, [0xDE, 0xAD]) ∧
    decodeCmd .host [0x57] = .error .shortHeader ∧ decodeCmd .peripheral [0x43, 0x00] = .ok (.unrecognized 0x43 0x00, []) := by
  refine ⟨rfl, rfl, rfl⟩

/-- The first step after reset runs a placed word: `41 10`. -/
theorem test_fetch_a : (got (fun t => (t.near.disp.pendValid, t.near.disp.pendAddr)) (step (State.reset.withFetchWord 16 0x4110))) =
    some (true, 0x10) := by decide +kernel

/-- The first step after reset runs a placed cycle tag: an address write of a zero byte (`A>00`). -/
theorem test_fetch_cyc : (got (fun t => (t.near.bus, t.near.res)) (step (State.reset.withFetchWord 3 0b010))) =
    some ([⟨true, false, 0x00⟩], 1) := by decide +kernel

/-! ### Commands -/

/-- T31: `42 03 AA` answers `7F 00 00 00` and leaves `AA` on `SIN`; `42 00` answers one byte. -/
theorem test_size_query : got (fun t => (t.near.sout, t.near.sin)) (exec (.cmdB 0x03) (withSin [0xAA] [])) =
      some ([0x7F, 0x00, 0x00, 0x00], [0xAA]) ∧
    got (fun t => t.near.sout) (exec (.cmdB 0x00) (live [])) = some [0x7F] := by decide +kernel

/-- T32: `45 02 AA BB CC`. -/
theorem test_echo : got (fun t => (t.near.sout, t.near.buf)) (exec (.cmdE 0x02) (withSin [0xAA, 0xBB, 0xCC, 0x42] [])) =
    some ([0xAA, 0xBB, 0xCC], [(0, 0xAA), (1, 0xBB), (2, 0xCC)]) := by decide +kernel

/-- A body that has not arrived: the dispatcher waits in `D_BODY` (R213, R238). -/
theorem test_echo_waits : got (fun t => (t.near.disp.ph, t.near.disp.k)) (exec (.cmdE 0x02) (withSin [0xAA] [])) =
    some (.body, 1) := by decide +kernel

/-- T7, P1: `41 10 52 02`. -/
theorem test_read_pending : got (fun t => (t.near.bus, t.near.sout, t.near.disp.pendValid))
      (exec (.cmdR 0x02) { live [0xC3, 0xC4, 0xC5] with near := { hostBlock with
        disp := { hostBlock.disp with pendAddr := 0x10, pendValid := true } } }) =
    some ([⟨true, false, 0x10⟩, ⟨false, true, 0xC3⟩, ⟨false, true, 0xC4⟩, ⟨false, true, 0xC5⟩], [0xC3, 0xC4, 0xC5], false) := by
  decide +kernel

/-- R209's example: `41 20 57 01 DE AD`. -/
theorem test_write_pending : got (fun t => (t.near.bus, t.near.sout, t.near.disp.pendValid))
      (exec (.cmdW 0x01) { live [] with near := { hostBlock with
        sin := [0xDE, 0xAD], disp := { hostBlock.disp with pendAddr := 0x20, pendValid := true } } }) =
    some ([⟨true, false, 0x20⟩, ⟨false, false, 0xDE⟩, ⟨false, false, 0xAD⟩], [0x01], false) := by decide +kernel

/-- T36, P6: `50 00 AA` makes no bus cycle, acknowledges 00 and sets the flag. -/
theorem test_program_one : got (fun t => (t.near.bus, t.near.sout, t.near.disp.progActive))
      (exec (.cmdP 0x00) (withSin [0xAA] [])) = some ([], [0x00], true) := by decide +kernel

/-- T36: `50 02 01 02 03` sends one pair in 25 cycles and acknowledges 02. -/
theorem test_program_odd : got (fun t => (t.near.bus.length, t.near.sout, t.near.flash.cmd))
      (exec (.cmdP 0x02) (withSin [0x01, 0x02, 0x03] [0x02])) =
    some (25, [0x02], ⟨0xAD, 0x00, 0x00, 0x00, 0x01, 0x02⟩) := by decide +kernel

/-- T34: `5A 05` clears the program flag and does nothing else. -/
theorem test_unrecognized : got (fun t => (t.near.disp.progActive, t.near.sout, t.near.bus))
      (exec (.unrecognized 0x5A 0x05) { live [] with near := { hostBlock with
        disp := { hostBlock.disp with progActive := true } } }) = some (false, [], []) := by decide +kernel

/-- T37 in part: an address write of 07 is not echoed, a data write of 48 is, and the console goes on. -/
theorem test_console : got (fun t => (t.near.sout, t.near.disp.ph, t.near.role, t.near.per.slot))
      (exec (.cmdC 0x00) (still hostBlock .idleHost [⟨.blocked, .lines (.hostWrite 0x07 .low .high)⟩,
        ⟨.blocked, .lines (.hostWrite 0x07 .high .high)⟩, ⟨.blocked, .lines (.hostWrite 0x48 .high .low)⟩,
        ⟨.blocked, .lines (.hostWrite 0x48 .high .high)⟩])) =
    some ([0x4F, 0x4B, 0x48], .console, .peripheral, 0x48) := by decide +kernel

/-! ### Cycles and transfers -/

/-- T22: one byte each. -/
theorem test_transfers :
    got (fun t => (t.near.bus, t.near.res)) (exec (.setAddress [0x10] 1) (live [])) = some ([⟨true, false, 0x10⟩], 1) ∧
    got (fun t => (t.near.ubuf, t.near.res)) (exec (.getAddress [0x00] 1) (live [0x5C])) = some ([0x5C], 1) ∧
    got (fun t => (t.near.bus, t.near.res)) (exec (.write [0x3C] 1) (live [])) = some ([⟨false, false, 0x3C⟩], 1) ∧
    got (fun t => (t.near.ubuf, t.near.res)) (exec (.read [0x00, 0xEE] 1) (live [0x10])) = some ([0x10, 0xEE], 1) := by
  decide +kernel

/-- T22 at the wires: the tag L H L of an address write, with the byte on the data lines, when the strobe is seen. The far
end never acknowledges, so the host stands in `H_ACKWAIT` (T8). -/
theorem test_tag_on_wires : got (fun t => (t.near.host.ph, t.near.lines))
      (exec (.cycleAddressWrite 0xA5) (still hostBlock .targetReady [])) =
    some (.ackWait, ⟨⟨.output, .high⟩, ⟨.output, .low⟩, ⟨.output, .high⟩, ⟨.output, .low⟩, ⟨.output, .low⟩,
      ⟨.output, .high⟩, ⟨.output, .low⟩, ⟨.output, .high⟩, ⟨.input, .low⟩, ⟨.output, .low⟩, ⟨.output, .high⟩,
      ⟨.output, .low⟩, ⟨.output, .high⟩⟩) := by decide +kernel

/-- T8 (b): `WAIT` held H stops the host in `H_PREWAIT`. -/
theorem test_prewait : got (fun t => (t.near.host.ph, t.near.lines.wrsel))
      (exec (.write [0x00] 1) (still hostBlock .targetAck [])) = some (.preWait, ⟨.output, .low⟩) := by decide +kernel

/-- T22: the four tags as host cycles. -/
theorem test_host_cycles :
    got (fun t => t.near.bus) (exec .cycleAddressRead (live [0x5C])) = some [⟨true, true, 0x5C⟩] ∧
    got (fun t => t.near.bus) (exec (.cycleDataWrite 0x3C) (live [])) = some [⟨false, false, 0x3C⟩] ∧
    got (fun t => t.near.bus) (exec .cycleDataRead (live [0x10])) = some [⟨false, true, 0x10⟩] := by decide +kernel

/-- T24: a length of 0 makes no cycle and returns 0; a length of 129 or -1 is refused. -/
theorem test_transaction_lengths :
    got (fun t => (t.near.bus, t.near.res, t.near.lines)) (exec (.transaction [] 0 false false) (live [])) =
      some ([], 0, .idleHost) ∧
    refusal (exec (.transaction (List.replicate 200 0) 129 false false) (live [])) = some .badLength ∧
    refusal (exec (.read [] (-1)) (live [])) = some .badLength := by decide +kernel

/-- T26: a transfer at a peripheral end, and a peripheral cycle at a host end. -/
theorem test_wrong_role : refusal (exec (.write [0x00] 1) (still perBlock .idleHost [])) = some .wrongRole ∧
    refusal (exec (.peripheralCycle 0x00) (live [])) = some .wrongRole := by decide +kernel

/-- T28: a data write of 3C, and an address read with the slot at 10. -/
theorem test_peripheral_cycle :
    got (fun t => t.near.per) (exec (.peripheralCycle 0x00) (served (.hostWrite 0x3C .high .low) (.hostWrite 0x3C .high .high))) =
      some { ph := .idle, slot := 0x3C, rd := false, ad := false, ok := true } ∧
    got (fun t => t.near.per) (exec (.peripheralCycle 0x10) (served (.hostRead .low .high) .idleHost)) =
      some { ph := .idle, slot := 0x10, rd := true, ad := true, ok := true } := by decide +kernel

/-- T27: `RST` low. -/
theorem test_not_ready : got (fun t => (t.near.per.ok, t.near.per.slot, t.near.lines))
      (exec (.peripheralCycle 0x77) (still perBlock { Lines.idleHost with rst := .drivenLow } [])) =
    some (false, 0x77, .idlePeripheral) := by decide +kernel

/-- T29: both strobes low, `WRSEL` low, 77 on the data wires; a host asked for it is refused. -/
theorem test_reserved :
    got (fun t => t.near.per) (exec (.cycleReserved .low)
      (still perBlock (.hostWrite 0x77 .low .low) [⟨.blocked, .lines (.hostWrite 0x77 .high .high)⟩])) =
      some { ph := .idle, slot := 0x77, rd := false, ad := true, ok := true } ∧
    refusal (exec (.cycleReserved .low) (live [])) = some .reservedTag := by decide +kernel

/-- R97: no cycle. -/
theorem test_no_cycle : got (fun t => t) (exec (.noCycle .low) (live [])) = some (live []) := by decide +kernel

/-! ### The SPI layer, the flash sequencer and the port -/

/-- T39: `A>05 D>FE A>08 D>00`, and its two halves. -/
theorem test_spi_reset :
    got (fun t => (t.near.bus, t.near.res)) (exec .spiReset (live [])) =
      some ([⟨true, false, 0x05⟩, ⟨false, false, 0xFE⟩, ⟨true, false, 0x08⟩, ⟨false, false, 0x00⟩], 1) ∧
    got (fun t => t.near.bus) (exec .ptChipDisable (live [])) = some [⟨true, false, 0x05⟩, ⟨false, false, 0xFE⟩] ∧
    got (fun t => t.near.bus) (exec .ptDataClear (live [])) = some [⟨true, false, 0x08⟩, ⟨false, false, 0x00⟩] := by
  decide +kernel

/-- T39: `A>05 D>FD A>08 D>9F`, the enable half, a payload, and a read of two bytes. -/
theorem test_spi_transaction :
    got (fun t => (t.near.bus, t.near.res)) (exec (.spiTransaction [0x9F] 1 false) (live [])) =
      some ([⟨true, false, 0x05⟩, ⟨false, false, 0xFD⟩, ⟨true, false, 0x08⟩, ⟨false, false, 0x9F⟩], 1) ∧
    got (fun t => t.near.bus) (exec .ptChipEnable (live [])) = some [⟨true, false, 0x05⟩, ⟨false, false, 0xFD⟩] ∧
    got (fun t => t.near.bus) (exec (.ptPayload [0x9F] 1 false) (live [])) = some [⟨true, false, 0x08⟩, ⟨false, false, 0x9F⟩] ∧
    got (fun t => (t.near.ubuf, t.near.res)) (exec (.spiTransaction [0, 0, 0] 2 true) (live [0xEF, 0x40])) =
      some ([0xEF, 0x40, 0], 2) := by decide +kernel

/-- T40, iteration by iteration: the seed and the increment command after their deselect, and the status poll. -/
theorem test_flash_commands :
    got (fun t => t.near.bus.drop 4) (exec (.flashAaiSeed 0x11 0x22) (live [])) =
      some [⟨true, false, 0x05⟩, ⟨false, false, 0xFD⟩, ⟨true, false, 0x08⟩, ⟨false, false, 0xAD⟩, ⟨false, false, 0x00⟩,
        ⟨false, false, 0x00⟩, ⟨false, false, 0x00⟩, ⟨false, false, 0x11⟩, ⟨false, false, 0x22⟩] ∧
    got (fun t => t.near.bus.drop 7) (exec (.flashAaiIncrement 0x33 0x44) (live [])) =
      some [⟨false, false, 0xAD⟩, ⟨false, false, 0x33⟩, ⟨false, false, 0x44⟩] ∧
    got (fun t => (t.near.bus.length, t.near.flash.st)) (exec .flashReadStatus (live [0x02])) = some (12, 0x02) := by
  decide +kernel

/-- T4: three bytes, already initialized: 22 cycles, result 2, and A3 appears in no cycle. -/
theorem test_flash_program : got (fun t => (t.near.bus.length, t.near.res, t.near.bus.any fun c => c.data == 0xA3))
      (exec (.flashProgram [0xA1, 0xA2, 0xA3] 3 true) (live [0x02])) = some (22, 2, false) := by decide +kernel

/-- T41: a busy status byte means another poll; T42: a length of 1 makes no cycle. -/
theorem test_flash_busy :
    got (fun t => (t.near.bus.length, t.near.res)) (exec (.flashProgram [0x01, 0x02] 2 true) (live [0x03, 0x02])) =
      some (34, 2) ∧
    got (fun t => (t.near.bus, t.near.res, t.near.flash.init)) (exec (.flashProgram [0x01] 1 false) (live [])) =
      some ([], 0, false) := by decide +kernel

/-- T13: `PortHiZ`. -/
theorem test_port_hiz : got (fun t => (t.near.lines, t.near.role)) (exec .portHiZ (still hostBlock .targetReady [])) =
    some (.hiZ, .host) := by decide +kernel

/-- T11, T12: `Reset` in either role, from the other. -/
theorem test_reset :
    got (fun t => (t.near.lines, t.near.role)) (exec (.reset .peripheral) (still hostBlock .idleHost [])) =
      some (.idlePeripheral, .peripheral) ∧
    got (fun t => (t.near.lines, t.near.role)) (exec (.reset .host) (still perBlock .idlePeripheral [])) =
      some (.idleHost, .host) ∧
    (resetPrims 1 .host).length = 47 ∧ (resetPrims 1 .peripheral).length = 37 := by decide +kernel

/-- T38: abort with -7. -/
theorem test_abort : got (fun t => (t.near.lines, t.near.disp.ph, t.near.res, t.near.sout))
      (exec (.abort (-7)) (still hostBlock .targetReady [])) = some (.hiZ, .halted, -7, []) ∧
    refusal (exec (.abort 0) (live [])) = some .notAFailure := by decide +kernel

/-! ### Witnesses: states and operands that meet the hypotheses of each statement -/

/-- A dead target with an idle host, and the same in the peripheral role. -/
def lone : State := still hostBlock .targetReady []
def lonePer : State := still perBlock .idleHost []

/-! ### What the outside world does to a fetch and to a running operation -/

/-- T36 and R242: a one-byte 'P' in the peripheral role is refused like any other. -/
theorem test_program_one_peripheral : refusal (exec (.cmdP 0x00) (still { perBlock with sin := [0xAA] } .idleHost [])) =
      some .wrongRole ∧
    refusal (exec (.flashProgram [] 0 false) (still perBlock .idleHost [])) = some .wrongRole := by decide +kernel

/-- R237, R260: an external reset that is due beats a header that waits, a header half read, and a pending call. -/
theorem test_reset_beats_fetch :
    got (fun t => (t.near.rph, t.near.disp.pendValid, t.near.sin, t.script))
      (step { withSin [0x41, 0x10] [] with script := [⟨.after 0, .resetNear⟩] }) =
      some (.running, false, [0x41, 0x10], []) ∧
    got (fun t => (t.near.rph, t.near.disp.ph, t.near.sin)) (step { withSin [0x10] [] with
        near := ({ hostBlock with sin := [0x10] } : Block).commandRead 0x41,
        script := [⟨.after 0, .resetNear⟩] }) = some (.running, .header0, [0x10]) ∧
    got (fun t => (t.near.rph, t.near.calls)) (step { live [] with
        near := { hostBlock with calls := [.call (.write [0x3C] 1)] }, script := [⟨.after 0, .resetNear⟩] }) =
      some (.running, []) := by decide +kernel

/-- R6, R260: with a reset due after one primitive a step takes byte 0 of the header alone. -/
theorem test_header_one_byte : got (fun t => (t.near.disp.ph, t.near.disp.cmd, t.near.sin, t.script))
      (step { withSin [0x41, 0x10] [] with script := [⟨.after 1, .resetNear⟩] }) =
    some (.header1, 0x41, [0x10], [⟨.after 0, .resetNear⟩]) := by decide +kernel

/-- R200: with a reset due after three primitives of the header of 'A', `c_len` has been computed and the dispatcher still
stands at `D_HEADER1`, the program flag not yet cleared; the next step clears it and runs the command. -/
theorem test_header_updates : got (fun t => (t.near.disp.ph, t.near.disp.lm1, t.near.disp.len, t.near.disp.progActive))
      (State.idleTurn { live [] with near := (({ hostBlock with
        disp := { hostBlock.disp with progActive := true } } : Block).commandRead 0x41).headerRead 0x10 }) =
      some (.header1, 0x10, 17, true) ∧
    got (fun t => (t.near.disp.ph, t.near.disp.pendAddr, t.near.disp.progActive))
      (step { live [] with near := ((({ hostBlock with
        disp := { hostBlock.disp with progActive := true } } : Block).commandRead 0x41).headerRead 0x10).latchLength }) =
      some (.header0, 0x10, false) := by decide +kernel

/-- R6, R209, R260: a reset due when a peripheral has read the one body byte of 'W' comes before the refused transfer (R242);
one primitive later it is too late. -/
theorem test_reset_before_call :
    got (fun t => (t.near.disp.ph, t.near.sin, t.near.buf))
      (exec (.cmdW 0x00) (still { perBlock with sin := [0xAA] } .idleHost [⟨.after 2, .resetNear⟩])) =
      some (.header0, [], []) ∧
    refusal (exec (.cmdW 0x00) (still { perBlock with sin := [0xAA] } .idleHost [⟨.after 3, .resetNear⟩])) =
      some .wrongRole := by decide +kernel

/-- R6, R206: the echo of the console is a step of its own, before the call of the next cycle. -/
theorem test_console_put : (match ({ perBlock with
        disp := { perBlock.disp with ph := .console }, per := { perBlock.per with slot := 0x48, ok := true } } : Block).tick
          ⟨.idleHost, none⟩ 0 with
      | .moved b _ => (b.sout, b.per.ph, b.disp.step)
      | _ => ([], .done, .decode)) = ([0x48], .idle, .cycle) := by decide +kernel

/-- R267: a peripheral that still drives the byte it was read, before a host that has begun to write, breaks `TURNAROUND_OK`
and contends the wire of its 0 bit. -/
theorem test_turnaround :
    ¬ (still { hostBlock with lines := .hostWrite 0xFF .high .high } (.peripheralDrive 0x7F .high) []).TurnaroundOk ∧
    contended (.hostWrite 0xFF .high .high) (.peripheralDrive 0x7F .high) = true ∧
    contended (.hostWrite 0xFF .high .high) (.peripheralDrive 0xFF .high) = false :=
  ⟨fun h => h .d7 (by decide) .d7 (by decide) ⟨rfl, rfl⟩, by decide +kernel, by decide +kernel⟩

/-- A far block in the host role that is about to write one byte, and a near peripheral in a phase of a write cycle. -/
def race (perPh : PPhase) (host : Block) : State :=
  { lonePer with near := { perBlock with per := { perBlock.per with ph := perPh } }, far := .block host }

/-- A host in `H_RESTORE` of a write, with the given steps of it to do. -/
def restoring (todo : List Prim) : Block := { hostBlock with host := { hostBlock.host with ph := .restore }, todo := todo }

/-- R157, R266: a host that has begun to restore the data wires while the peripheral is in `P_ACK` or `P_RELEASEWAIT` breaks
`HOLD_OK`; one that still has the first `SetLvl` to do does not. -/
theorem test_hold : (race .ack (restoring dataIdle)).HoldOk ∧ (race .releaseWait (restoring dataIdle)).HoldOk ∧
    ¬ (race .ack (restoring dataIdle.tail)).HoldOk ∧ ¬ (race .releaseWait (restoring [])).HoldOk :=
  ⟨⟨fun e => (by cases e.1.1), fun e => e.1.2.2 rfl⟩, ⟨fun e => (by cases e.1.1), fun e => e.1.2.2 rfl⟩,
    fun e => e.2 ⟨⟨rfl, rfl, by decide⟩, rfl⟩, fun e => e.2 ⟨⟨rfl, rfl, by decide⟩, rfl⟩⟩

/-- R266: an external host that puts its data wires back to H while the near peripheral is in `P_ACK` breaks `HOLD_OK`; one
that only releases its strobe does not. -/
theorem test_hold_external :
    let s := still { perBlock with per := { perBlock.per with ph := .ack } } (.hostWrite 0x3C .high .low)
    (s [⟨.after 0, .lines (.hostWrite 0x3C .high .high)⟩]).HoldOk ∧
    ¬ (s [⟨.after 0, .lines (.hostWrite 0xFF .high .high)⟩]).HoldOk := by
  refine ⟨?_, fun h => ?_⟩
  · intro _ u hu
    cases hu
    decide
  · have := h rfl _ rfl .d0 (by decide)
    revert this
    decide

/-- R157: a far host that writes 3C and runs on before the near peripheral samples: after the whole of `H_RESTORE` the byte is
FF, after two of its steps 3F, after the release alone it is 3C. -/
theorem test_race :
    let slot (es : List Event) := got (fun t => t.near.per.slot) (match hostBlock.startWrite none [0x3C] 1 with
      | .ok b => exec (.peripheralCycle 0x00) { race .idle b with script := ⟨.blocked, .far 100⟩ :: es }
      | .error r => .refused r)
    slot [⟨.blocked, .far 100⟩] = some 0xFF ∧ slot [⟨.blocked, .far 6⟩, ⟨.blocked, .far 100⟩] = some 0x3F ∧
    slot [⟨.blocked, .far 3⟩, ⟨.blocked, .far 100⟩] = some 0x3C := by decide +kernel

/-- R263, R282: a host with an external target that is ready, and one with a target whose `WAIT` nobody drives. -/
theorem test_reset_done : (live []).ResetDone ∧ ¬ (still hostBlock .hiZ []).ResetDone := by
  refine ⟨⟨rfl, rfl, rfl, by decide⟩, fun h => ?_⟩
  cases h.2.2.1

/-- R6, R205: 'B' writes one cell a primitive: two cells stand in `BUF` after its dispatch and two more primitives. -/
theorem test_fill_bytewise : (match State.run 3 { live [] with near := hostBlock.header 0x42 0x03 } with
      | .next t => (t.near.buf, t.near.disp.k)
      | _ => ([], 0)) = ([(0, 0x7F), (1, 0x00)], 2) := by decide +kernel

/-- R241, R248: the far block turns host in the middle of a transaction of the near host. -/
theorem test_same_role_midway :
    refusal (step { lone with
      near := { hostBlock with
        ubuf := [0x3C], host := { rd := true, ac := false, len := 1, i := 0, byte := 0, ref := .user, ph := .preWait } },
      far := .block hostBlock }) = some .sameRole := by decide +kernel

/-! ### Witnesses -/

theorem live_ready (rs : List Byte) : (live rs).HostReady ∧ (live rs).LiveTarget rs := ⟨⟨rfl, rfl, rfl, rfl⟩, rfl, rfl⟩

theorem still_alone (b : Block) (ls : Lines) : (still b ls []).Alone := ⟨rfl, fun _ _ => rfl⟩

theorem still_calm {b : Block} {ls : Lines} (h : contended b.lines ls = false) : (still b ls []).Calm :=
  ⟨rfl, fun _ => rfl, h⟩

theorem live_calm (sin rs : List Byte) : (withSin sin rs).Calm := ⟨rfl, fun _ => rfl, show contended .idleHost .targetReady = false by decide⟩

theorem farOnly_nil {s : State} (h : s.script = []) : s.FarOnly := fun e he => by rw [h] at he; cases he

theorem test_witness_HeaderCodes : (0x5A : Byte) ∉ [0x41, 0x42, 0x43, 0x45, 0x50, 0x52, 0x57] ∧
    (0x62 : Byte) ∉ [0x41, 0x42, 0x43, 0x45, 0x50, 0x52, 0x57] := by decide

theorem test_witness_FlashPayloads : decodeSpi [0x05] = .ok .flashReadStatus ∧
    decodeSpi [0xAD, 0x11, 0x22] = .ok (.flashAaiIncrement 0x11 0x22) ∧
    decodeSpi [0xAD, 0x00, 0x00, 0x00, 0x11, 0x22] = .ok (.flashAaiSeed 0x11 0x22) := ⟨rfl, rfl, rfl⟩

theorem test_witness_RoundTrip : wellFormed .host (.cmdR 0x02) = true ∧ encode (.cmdR 0x02) = some (.cmd [0x52, 0x02]) ∧
    wellFormed .peripheral (.unrecognized 0x43 0xFF) = true ∧
    encode (.unrecognized 0x43 0xFF) = some (.cmd [0x43, 0xFF]) ∧
    wellFormed .host (.write [0x10] 1) = true ∧ encode (.write [0x10] 1) = some (.sel false false [0x10] 1) ∧
    wellFormed .host (.cycleReserved .high) = true ∧ encode (.cycleReserved .high) = some (.cyc .low .low .high 0) := by decide

/-- Both clauses: a status byte that says busy, and one that does not. -/
theorem test_witness_BusyBit : ∃ b b' : Block, b.flash.ph = .pollTest ∧ b.flash.st.getLsbD 0 = true ∧
    b'.flash.ph = .pollTest ∧ b'.flash.st.getLsbD 0 = false :=
  ⟨{ hostBlock with flash := { hostBlock.flash with ph := .pollTest, st := 0x03 } },
    { hostBlock with flash := { hostBlock.flash with ph := .pollTest, st := 0xFE } }, rfl, rfl, rfl, rfl⟩

/-- T10: one row for each clause. -/
theorem test_witness_WireValue :
    (Lines.idleHost.get .dstb).dir = .output ∧ (Lines.hiZ.get .dstb).dir = .input ∧
    (Lines.targetReady.get .wait).dir = .output ∧ (Lines.idleHost.get .wait).dir = .input ∧
    (Lines.idleHost.get .d0) = ⟨.input, .high⟩ ∧ (Lines.hiZ.get .d0) = ⟨.input, .low⟩ ∧
    (Lines.targetAck.get .wait).lat ≠ (Lines.targetReady.get .wait).lat := by decide

/-- A host end raises `DSTB` while the far end drives it L. -/
def clash : State :=
  { still { hostBlock with todo := [.setLvl .dstb .high] } (.hostRead .high .low) [] with contention := true }

/-- A turn of the near block, one at which the serial peer sends a byte, and one at which an external reset falls. -/
theorem test_witness_ContentionSeen : (contended clash.near.lines clash.far.lines = true → clash.contention = true) ∧
    (∃ t, clash.turn = .moved t) ∧ (∃ t, State.turn { clash with script := [⟨.after 0, .serial 0x41⟩] } = .moved t) ∧
    (∃ t, State.turn { clash with script := [⟨.after 0, .resetNear⟩] } = .moved t) ∧
    ∃ t, Move.resetNear.apply clash = .moved t := ⟨fun _ => rfl, ⟨_, rfl⟩, ⟨_, rfl⟩, ⟨_, rfl⟩, _, rfl⟩

/-- Each clause: a line and its bit, latches at H, another line, two ends of which one drives every data line, H. -/
theorem test_witness_ByteOnWires :
    (Line.d7, 7) ∈ [(Line.d0, 0), (.d1, 1), (.d2, 2), (.d3, 3), (.d4, 4), (.d5, 5), (.d6, 6), (.d7, 7)] ∧
    (Lines.idleHost.get .d7).lat = .high ∧ Line.rst ∈ [Line.wait, .wrsel, .dstb, .astb, .rst] ∧
    (∀ l ∈ dataLines, (Lines.idleHost.get l).dir = .input ∧ ((Lines.peripheralDrive 0xFF .low).get l).dir = .output) ∧
    ∀ l ∈ dataLines, ((Lines.peripheralDrive 0xFF .low).get l).lat = .high := by decide

/-- In the middle of a transaction. -/
theorem test_witness_BlockReset : ∃ t, (still { hostBlock with host := { hostBlock.host with ph := .ackWait } } .targetReady []).Alone ∧
    Move.resetNear.apply (still { hostBlock with host := { hostBlock.host with ph := .ackWait } } .targetReady []) = .moved t :=
  ⟨_, still_alone _ _, rfl⟩

theorem test_witness_PortHiZEffect : lone.Idle ∧ lone.Alone ∧ lonePer.Idle ∧ lonePer.Alone :=
  ⟨⟨rfl, rfl⟩, still_alone _ _, ⟨rfl, rfl⟩, still_alone _ _⟩

theorem test_witness_ResetEffect : lone.Idle ∧ lone.Alone := ⟨⟨rfl, rfl⟩, still_alone _ _⟩

theorem test_witness_ResetNeverStrobes : 26 ≤ (resetPrims 1 .host).length := by decide

theorem test_witness_DerivedOperations : (live [0x10]).HostReady ∧ (live [0x10]).LiveTarget [0x10] ∧
    ([0x10] : List Byte).length ≤ 128 ∧ ([0x10] : List Byte).length ≤ ([0x5A] : List Byte).length :=
  ⟨(live_ready _).1, (live_ready _).2, by decide⟩

theorem test_witness_WriteTransactions : (live []).HostReady ∧ (live []).LiveTarget [] ∧
    0 ≤ 128 ∧ 0 ≤ ([] : List Byte).length ∧ 128 ≤ 128 ∧ 128 ≤ (List.replicate 128 (0x5A : Byte)).length :=
  ⟨(live_ready []).1, (live_ready []).2, by decide, by decide, by decide, by simp⟩

theorem test_witness_ReadTransactions : (live [0x10, 0x20, 0x30]).HostReady ∧
    (live [0x10, 0x20, 0x30]).LiveTarget ([0x10, 0x20] ++ [0x30]) ∧ ([0x10, 0x20] : List Byte).length ≤ 128 ∧
    ([0x10, 0x20] : List Byte).length ≤ ([0, 0, 0] : List Byte).length :=
  ⟨(live_ready _).1, (live_ready _).2, by decide⟩

theorem test_witness_HostCycles : (live [0x10]).HostReady ∧ (live [0x10]).LiveTarget (0x10 :: []) := live_ready _

theorem test_witness_NoCycleInProgress : lone.Idle ∧ lonePer.Idle := ⟨⟨rfl, rfl⟩, rfl, rfl⟩

/-- A host block of a one-byte transfer in phase `ph`, with the level of its strobes. -/
def inPhase (ph : HPhase) : Block :=
  { hostBlock with ubuf := [0x3C], host := { rd := false, ac := false, len := 1, i := 0, byte := 0x3C, ref := .user, ph := ph } }

/-- Each clause: the four waits, and both ends of each. -/
theorem test_witness_EngineWaits : ((inPhase .preWait).clashes ⟨.targetAck, none⟩ = false ∧
    (inPhase .ackWait).clashes (still (inPhase .ackWait) .targetReady []).far.asPeer = false ∧
    (getWire (inPhase .preWait).lines Lines.targetAck .wait 0).1 = .high ∧
    (getWire (inPhase .ackWait).lines Lines.targetReady .wait 0).1 = .low ∧
    (getWire (inPhase .ackWait).lines Lines.targetAck .wait 0).1 = .high ∧
    (inPhase .preWait).HostInBounds ∧ (getWire (inPhase .preWait).lines Lines.targetReady .wait 0).1 = .low ∧
    (still (inPhase .ackWait) .targetReady []).Alone ∧ (inPhase .ackWait).lines.wait.dir = .input ∧
    (still (inPhase .ackWait) .targetReady []).far.lines.wait = ⟨.output, .low⟩) ∧
    perBlock.clashes ⟨.idleHost, some .host⟩ = false ∧
    (∀ ph : PPhase, ({ perBlock with per := { perBlock.per with ph := ph } } : Block).todo = []) ∧
    perBlock.rph = .idle ∧ perBlock.host.ph = .idle ∧ Lines.idleHost.astb.dir = .output ∧ Lines.idleHost.dstb.dir = .output ∧
    perBlock.lines.astb.dir = .input ∧ perBlock.lines.dstb.dir = .input := by
  refine ⟨⟨rfl, rfl, rfl, rfl, rfl, ⟨fun _ => ⟨by decide, Nat.le_refl 1⟩, fun h => absurd h (by decide), fun _ _ _ => Nat.zero_lt_one,
    fun h => ?_⟩, rfl, still_alone _ _, rfl, rfl⟩, by decide, fun _ => rfl, by decide⟩
  cases h

/-- T28: both clauses, each with both strobes. -/
theorem test_witness_PeripheralCycleServes : ∀ ac : Bool,
    (served (.hostWrite 0x3C (astbLevel ac) (dstbLevel ac)) (.hostWrite 0x3C .high .high)).PeripheralReady ∧
    got (fun t => t.near.per.slot)
      (exec (.peripheralCycle 0x10) (served (.hostWrite 0x3C (astbLevel ac) (dstbLevel ac)) (.hostWrite 0x3C .high .high))) =
      some 0x3C ∧
    (served (.hostRead (astbLevel ac) (dstbLevel ac)) .idleHost).PeripheralReady ∧
    got (fun t => t.near.per.ad) (exec (.peripheralCycle 0x10) (served (.hostRead (astbLevel ac) (dstbLevel ac)) .idleHost)) =
      some ac := by
  intro ac
  refine ⟨⟨rfl, rfl, rfl, rfl⟩, ?_, ⟨rfl, rfl, rfl, rfl⟩, ?_⟩ <;> cases ac <;> decide +kernel

/-- Each clause, with the tag it names at the far end. -/
theorem test_witness_PeripheralServesTag :
    (still perBlock (.hostWrite 0x77 .low .high) [⟨.blocked, .lines (.hostWrite 0x77 .high .high)⟩]).PeripheralReady ∧
    got (fun t => t.near.per) (exec (.cycleAddressWrite 0x77)
      (still perBlock (.hostWrite 0x77 .low .high) [⟨.blocked, .lines (.hostWrite 0x77 .high .high)⟩])) =
      some { ph := .idle, slot := 0x77, rd := false, ad := true, ok := true } ∧
    got (fun t => t.near.per) (exec (.cycleDataWrite 0x77)
      (still perBlock (.hostWrite 0x77 .high .low) [⟨.blocked, .lines (.hostWrite 0x77 .high .high)⟩])) =
      some { ph := .idle, slot := 0x77, rd := false, ad := false, ok := true } ∧
    got (fun t => t.near.per) (exec .cycleAddressRead
      (still perBlock (.hostRead .low .high) [⟨.blocked, .lines .idleHost⟩])) =
      some { ph := .idle, slot := 0x00, rd := true, ad := true, ok := true } ∧
    got (fun t => t.near.per) (exec .cycleDataRead
      (still perBlock (.hostRead .high .low) [⟨.blocked, .lines .idleHost⟩])) =
      some { ph := .idle, slot := 0x00, rd := true, ad := false, ok := true } ∧
    got (fun t => t.near.per) (exec (.cycleReserved .high)
      (still perBlock (.hostRead .low .low) [⟨.blocked, .lines .idleHost⟩])) =
      some { ph := .idle, slot := 0x00, rd := true, ad := true, ok := true } :=
  ⟨⟨rfl, rfl, rfl, rfl⟩, by decide +kernel, by decide +kernel, by decide +kernel, by decide +kernel, by decide +kernel⟩

theorem test_witness_NotReadyExit : (still perBlock { Lines.idleHost with rst := .drivenLow } []).Idle ∧
    perBlock.role = .peripheral ∧ (still perBlock { Lines.idleHost with rst := .drivenLow } []).far.role ≠ some .peripheral ∧
    (still perBlock { Lines.idleHost with rst := .drivenLow } []).Calm ∧ perBlock.lines.rst.dir = .input ∧
    (still perBlock { Lines.idleHost with rst := .drivenLow } []).far.lines.rst = ⟨.output, .low⟩ :=
  ⟨⟨rfl, rfl⟩, rfl, by decide, still_calm (by decide), rfl, rfl⟩

/-- A host block whose SPI operation of kind `k` has failed in step `ph`. -/
def spiFailed (k : SKind) (ph : SPhase) : Block :=
  { hostBlock with res := -7, spi := { hostBlock.spi with kind := k, ph := ph, last := .s4 } }

/-- Every step of both operations, the last one included; and the machine's own step from one of them. -/
theorem test_witness_SpiFailFast : (∀ k ∈ [SKind.reset, .transfer], ∀ ph ∈ [SPhase.s1, .s2, .s3, .s4],
      (spiFailed k ph).spi.ph = ph ∧ (spiFailed k ph).SpiFailed) ∧
    (still (spiFailed .reset .s2) .targetReady []).FarOnly ∧
    ∃ t, step (still (spiFailed .reset .s2) .targetReady []) = .next t := by
  refine ⟨?_, fun _ h => absurd h List.not_mem_nil, next_of_got (by decide +kernel)⟩
  simp only [List.mem_cons, List.not_mem_nil, or_false]
  rintro k (rfl | rfl) ph (rfl | rfl | rfl | rfl) <;> exact ⟨rfl, by decide, by decide, rfl, rfl, rfl, rfl⟩

theorem test_witness_SpiResetCycles : (live []).HostReady ∧ (live []).LiveTarget [] := live_ready _

theorem test_witness_SpiTransactionCycles : (live [0x10, 0x20]).HostReady ∧ (live [0x10, 0x20]).LiveTarget ([0x10] ++ [0x20]) ∧
    ([0x10] : List Byte).length ≤ 128 ∧ ([0x10] : List Byte).length ≤ ([0x9F] : List Byte).length :=
  ⟨(live_ready _).1, (live_ready _).2, by decide⟩

theorem test_witness_FlashCommandCycles : (live [0x02]).HostReady ∧ (live [0x02]).LiveTarget (0x02 :: []) := live_ready _

/-- T41's status bytes for the two pairs of T40. -/
def polls : List (List Byte × Byte) := [([0x03, 0x03], 0x02), ([0x03], 0x00)]

theorem polls_ok : (∀ q ∈ polls, (∀ x ∈ q.1, x.getLsbD 0 = true) ∧ q.2.getLsbD 0 = false) ∧
    (pollReplies polls).length ≤ 1000 := by decide

theorem test_witness_FlashProgramRuns : (live (pollReplies polls ++ [])).HostReady ∧
    (live (pollReplies polls ++ [])).LiveTarget (pollReplies polls ++ []) ∧ 5 ≤ 128 ∧
    5 ≤ ([0x11, 0x22, 0x33, 0x44, 0x55] : List Byte).length ∧ polls.length = 5 / 2 ∧
    (∀ q ∈ polls, (∀ x ∈ q.1, x.getLsbD 0 = true) ∧ q.2.getLsbD 0 = false) ∧ (pollReplies polls).length ≤ 1000 ∧
    ([] : List (List Byte × Byte)).length = 1 / 2 :=
  ⟨(live_ready _).1, (live_ready _).2, by decide, by decide, by decide, polls_ok.1, polls_ok.2, by decide⟩

theorem test_witness_NegativeResultsPropagate : ({ hostBlock with res := -7 } : Block).res < 0 ∧
    ({ hostBlock with flash := { hostBlock.flash with ph := .pollRead } } : Block).flash.ph ∈
      [FPhase.deselect, .seed, .incr, .pollDeselect, .pollCmd, .pollRead] ∧
    (∀ st ∈ [DStep.setAddress, .transfer, .flashTest, .flash],
      ({ hostBlock with disp := { hostBlock.disp with step := st } } : Block).disp.step = st) := by decide

/-- Each of the five commands across which the address stays pending. -/
theorem test_witness_AddressPrefix : lone.Idle ∧ lone.Calm ∧ lone.FarOnly ∧ (∃ t, exec (.cmdB 0x03) lone = .next t) ∧
    (∃ t, exec (.cmdE 0x00) (withSin [0xAA] []) = .next t) ∧ (∃ t, exec (.cmdP 0x00) (withSin [0xAA] []) = .next t) ∧
    (withSin [0xAA] []).FarOnly ∧ (∃ t, exec (.cmdC 0x00) (still hostBlock .idleHost []) = .next t) ∧
    wellFormed lone.near.par.board (.unrecognized 0x5A 0x00) = true ∧ ∃ t, exec (.unrecognized 0x5A 0x00) lone = .next t :=
  ⟨⟨rfl, rfl⟩, still_calm (by decide), farOnly_nil rfl, next_of_got (by decide +kernel), next_of_got (by decide +kernel),
    next_of_got (by decide +kernel), farOnly_nil rfl, next_of_got (by decide +kernel), rfl, next_of_got (by decide +kernel)⟩

theorem test_witness_UnrecognizedCommand : lone.Idle ∧ lone.Calm ∧
    wellFormed lone.near.par.board (.unrecognized 0x5A 0x05) = true ∧
    (withSin [0x62, 0x03, 0x41] []).Idle ∧ (withSin [0x62, 0x03, 0x41] []).Calm ∧ (withSin [0x62, 0x03, 0x41] []).near.calls = [] ∧
    (withSin [0x62, 0x03, 0x41] []).near.sin = 0x62 :: 0x03 :: [0x41] ∧
    (0x62 : Byte) ∉ [0x41, 0x42, 0x45, 0x50, 0x52, 0x57] ∧ (0x62 : Byte) ≠ 0x43 :=
  ⟨⟨rfl, rfl⟩, still_calm (by decide), rfl, ⟨rfl, rfl⟩, live_calm _ _, rfl, rfl, by decide, by decide⟩

theorem test_witness_BufferSizeQuery : lone.Idle ∧ lone.Calm := ⟨⟨rfl, rfl⟩, still_calm (by decide)⟩

theorem test_witness_EchoCommand : (withSin [0xAA, 0xBB, 0x41] []).Idle ∧ (withSin [0xAA, 0xBB, 0x41] []).Calm ∧
    ([0xAA, 0xBB] : List Byte).length = clampedLength 0x01 ∧ (withSin [0xAA, 0xBB, 0x41] []).near.sin = [0xAA, 0xBB] ++ [0x41] :=
  ⟨⟨rfl, rfl⟩, live_calm _ _, rfl, rfl⟩

theorem test_witness_ReadCommand : (live [0xC3, 0xC4, 0xC5]).HostReady ∧ (live [0xC3, 0xC4, 0xC5]).LiveTarget ([0xC3, 0xC4] ++ [0xC5]) ∧
    ([0xC3, 0xC4] : List Byte).length = clampedLength 0x01 := ⟨(live_ready _).1, (live_ready _).2, rfl⟩

theorem test_witness_WriteCommand : (withSin [0xDE, 0xAD] []).HostReady ∧ (withSin [0xDE, 0xAD] []).LiveTarget [] ∧
    ([0xDE, 0xAD] : List Byte).length = clampedLength 0x01 ∧ (withSin [0xDE, 0xAD] []).near.sin = [0xDE, 0xAD] ++ [] :=
  ⟨⟨rfl, rfl, rfl, rfl⟩, ⟨rfl, rfl⟩, rfl, rfl⟩

theorem test_witness_ProgramCommand : (withSin [1, 2, 3, 4, 5] (pollReplies polls ++ [])).HostReady ∧
    (withSin [1, 2, 3, 4, 5] (pollReplies polls ++ [])).LiveTarget (pollReplies polls ++ []) ∧
    ([1, 2, 3, 4, 5] : List Byte).length = clampedLength 0x04 ∧
    (withSin [1, 2, 3, 4, 5] (pollReplies polls ++ [])).near.sin = [1, 2, 3, 4, 5] ++ [] ∧
    polls.length = clampedLength 0x04 / 2 ∧
    (∀ q ∈ polls, (∀ x ∈ q.1, x.getLsbD 0 = true) ∧ q.2.getLsbD 0 = false) ∧ (pollReplies polls).length ≤ 1000 :=
  ⟨⟨rfl, rfl, rfl, rfl⟩, ⟨rfl, rfl⟩, rfl, rfl, rfl, polls_ok.1, polls_ok.2⟩

/-- A board that is no host-role board. -/
def perBoard : State := still { perBlock with par := { perBlock.par with board := .peripheral } } .idleHost []

theorem test_witness_ConsoleCommand : (still hostBlock .idleHost []).HostReady ∧ hostBlock.par.board = .host ∧
    (still hostBlock .idleHost []).script = [] ∧ (still hostBlock .idleHost []).far = .target ⟨.idleHost, false, []⟩ ∧
    hostBlock.par.banner.length ≤ 1000 ∧ perBoard.Idle ∧ perBoard.Calm ∧ perBoard.near.par.board = .peripheral :=
  ⟨⟨rfl, rfl, rfl, rfl⟩, rfl, rfl, rfl, by decide, ⟨rfl, rfl⟩, still_calm (by decide), rfl⟩

/-- A console between two cycles. -/
def console : Block := { perBlock with disp := { perBlock.disp with ph := .console } }

theorem test_witness_ConsoleEchoes : console.idleBelow = true ∧ console.disp.ph = .console ∧ console.disp.step ≠ .cycle ∧
    (console.dispTo .console .cycle 0).idleBelow = true ∧ (console.dispTo .console .cycle 0).disp.step = .cycle ∧
    console.role = .peripheral ∧ (⟨.idleHost, none⟩ : Peer).role ≠ some .peripheral := by decide

/-- A console whose serial peer sends a byte, and one that an external reset ends. -/
theorem test_witness_ConsoleOneWay : (still console .idleHost [⟨.after 0, .serial 0x41⟩]).near.InConsole ∧
    (∃ t, (still console .idleHost [⟨.after 0, .serial 0x41⟩]).turn = .moved t) ∧
    (∀ e ∈ (still console .idleHost [⟨.after 0, .serial 0x41⟩]).script, e.move ≠ .resetNear) ∧
    (∃ t, step (still console .idleHost [⟨.after 0, .serial 0x41⟩]) = .next t) ∧
    ∃ t, (still console .idleHost [⟨.after 0, .resetNear⟩]).turn = .moved t :=
  ⟨⟨rfl, rfl, fun _ h => by cases h⟩, ⟨_, rfl⟩, by simp [still], next_of_got (by decide +kernel), _, rfl⟩

theorem test_witness_AbortEntry : (-7 : Int) < 0 ∧ lone.Idle ∧ lone.Alone := ⟨by decide, ⟨rfl, rfl⟩, still_alone _ _⟩

/-- An end that has aborted. -/
def halted : Block := { hostBlock with lines := .hiZ, disp := { hostBlock.disp with ph := .halted } }

/-- A halted end, alone and with a serial byte, a call or its reset due; a run that is over against a target and against a
block; an end in the console. -/
theorem test_witness_HaltedForGood :
    (still halted .targetReady []).near.disp.ph = .halted ∧ halted.idleBelow = true ∧
    (still halted .targetReady []).react = none ∧
    lone.over = true ∧ lone.script = [] ∧ lone.react = none ∧ ({ lone with far := .block perBlock } : State).over = true ∧
    (still console .idleHost []).near.disp.ph = .console ∧
    (∃ t, (still halted .targetReady [⟨.after 0, .serial 0x41⟩]).turn = .moved t) ∧
    (∃ t, (still halted .targetReady [⟨.after 1, .call (.call .portHiZ)⟩]).turn = .moved t) ∧
    ∃ t, (still halted .targetReady [⟨.blocked, .resetNear⟩]).turn = .moved t :=
  ⟨rfl, rfl, rfl, rfl, rfl, rfl, rfl, rfl, ⟨_, rfl⟩, ⟨_, rfl⟩, _, rfl⟩

/-- A far party that moves while the operation runs: `WAIT` rises after 30 primitives and falls after 4 more. -/
def moving : State := still hostBlock .targetReady [⟨.after 30, .lines .targetAck⟩, ⟨.after 4, .lines .targetReady⟩]

theorem moving_farOnly : moving.FarOnly := by
  intro e he
  simp only [moving, still, List.mem_cons, List.not_mem_nil, or_false] at he
  rcases he with rfl | rfl <;> rfl

theorem test_witness_FlagWriters : moving.FarOnly ∧ got (fun t => t.near.atRest) (exec (.cmdA 0x10) moving) = some true ∧
    wellFormed moving.near.par.board (.unrecognized 0x5A 0x05) = true ∧
    (∃ t, exec (.unrecognized 0x5A 0x05) moving = .next t) ∧ (∃ t, exec (.cmdR 0x00) moving = .next t) ∧
    (∃ t, exec (.cmdP 0x00) { moving with near := { hostBlock with sin := [0xAA] } } = .next t) ∧
    ∃ t, exec (.write [0x3C] 1) moving = .next t :=
  ⟨moving_farOnly, by decide +kernel, rfl, next_of_got (by decide +kernel), next_of_got (by decide +kernel),
    next_of_got (by decide +kernel), next_of_got (by decide +kernel)⟩

/-- Each clause, the body of one byte among them. -/
theorem test_witness_WrongRole : lonePer.Idle ∧ lonePer.near.role = .peripheral ∧ 0 ≤ 128 ∧ 0 ≤ ([] : List Byte).length ∧
    lonePer.Calm ∧ (still { perBlock with sin := [1, 2] } .idleHost []).Calm ∧
    ([1] : List Byte).length = clampedLength 0x00 ∧ [1, 2] = ([1] : List Byte) ++ [2] ∧ lone.Idle ∧ lone.near.role = .host :=
  ⟨⟨rfl, rfl⟩, rfl, by decide, by decide, still_calm (by decide), still_calm (by decide), rfl, rfl, ⟨rfl, rfl⟩, rfl⟩

/-- Each clause, at the boundary lengths -1, 129 and one more than the buffer. -/
theorem test_witness_BadLengths : lone.Idle ∧ ((-1 : Int) < 0 ∨ (128 : Int) < -1) ∧ ((129 : Int) < 0 ∨ (128 : Int) < 129) ∧
    (0 : Int) ≤ 1 ∧ (1 : Int) ≤ 128 ∧ ([] : List Byte).length < (1 : Int).toNat := ⟨⟨rfl, rfl⟩, by decide⟩

/-- Each clause: an end in the middle of an operation, two hosts, two peripherals, the same in mid-operation, one host. -/
theorem test_witness_Exclusive : (inPhase .ackWait).disp.ph ≠ .halted ∧ (inPhase .ackWait).atRest = false ∧
    ({ lone with far := .block hostBlock } : State).Idle ∧ ({ lone with far := .block hostBlock } : State).far.role = some .host ∧
    ({ lonePer with far := .block perBlock } : State).Idle ∧
    ({ lonePer with far := .block perBlock } : State).far.role = some .peripheral ∧
    ((inPhase .ackWait).host.ph ≠ .idle ∧ hostBlock.asPeer.role = some .host) ∧
    (({ perBlock with per := { perBlock.per with ph := .ack } } : Block).per.ph ≠ .idle ∧
      perBlock.asPeer.role = some .peripheral) :=
  ⟨by decide, by decide, ⟨rfl, rfl⟩, rfl, ⟨rfl, rfl⟩, rfl, by decide, by decide⟩

theorem test_witness_TransferFrame : moving.FarOnly ∧ (∃ t, exec (.write [0x3C] 1) moving = .next t) ∧
    (∃ t, exec (.read [0x00, 0xEE] 1) (live [0x10]) = .next t) ∧ (live [0x10]).FarOnly ∧ moving.near.role = .host ∧
    ∃ t, exec .cycleAddressRead (live [0x10]) = .next t :=
  ⟨moving_farOnly, next_of_got (by decide +kernel), next_of_got (by decide +kernel), farOnly_nil rfl, rfl,
    next_of_got (by decide +kernel)⟩

theorem served_farOnly (ls ls' : Lines) : (served ls ls').FarOnly := by
  intro e he
  simp only [served, still, List.mem_cons, List.not_mem_nil, or_false] at he
  rcases he with rfl | rfl <;> rfl

theorem test_witness_PeripheralFrame :
    (served (.hostWrite 0x3C .high .low) (.hostWrite 0x3C .high .high)).FarOnly ∧
    (∃ t, exec (.peripheralCycle 0x00) (served (.hostWrite 0x3C .high .low) (.hostWrite 0x3C .high .high)) = .next t) ∧
    (∃ t, exec (.cycleDataWrite 0x3C) (served (.hostWrite 0x3C .high .low) (.hostWrite 0x3C .high .high)) = .next t) ∧
    ∃ t, exec (.noCycle .low) lonePer = .next t :=
  ⟨served_farOnly _ _, next_of_got (by decide +kernel), next_of_got (by decide +kernel), next_of_got (by decide +kernel)⟩

theorem test_witness_PassThroughFrame : (live [0x02]).FarOnly ∧ (∃ t, exec .spiReset (live [0x02]) = .next t) ∧
    (∃ t, exec (.spiTransaction [0x9F] 1 false) (live [0x02]) = .next t) ∧
    (∃ t, exec (.ptPayload [0x00] 1 true) (live [0x02]) = .next t) ∧
    (∃ t, exec .flashReadStatus (live [0x02]) = .next t) ∧ (∃ t, exec (.flashAaiSeed 0x11 0x22) (live [0x02]) = .next t) ∧
    ∃ t, exec (.flashProgram [0x01, 0x02] 2 true) (live [0x02]) = .next t :=
  ⟨farOnly_nil rfl, next_of_got (by decide +kernel), next_of_got (by decide +kernel), next_of_got (by decide +kernel),
    next_of_got (by decide +kernel), next_of_got (by decide +kernel), next_of_got (by decide +kernel)⟩

theorem test_witness_QuietCommandFrame : moving.FarOnly ∧ (∃ t, exec (.cmdB 0x03) moving = .next t) ∧
    (∃ t, exec (.cmdE 0x00) { moving with near := { hostBlock with sin := [0xAA] } } = .next t) ∧
    wellFormed moving.near.par.board (.unrecognized 0x5A 0x05) = true ∧
    (∃ t, exec (.unrecognized 0x5A 0x05) moving = .next t) ∧ ∃ t, exec (.cmdA 0x10) moving = .next t :=
  ⟨moving_farOnly, next_of_got (by decide +kernel), next_of_got (by decide +kernel), rfl, next_of_got (by decide +kernel),
    next_of_got (by decide +kernel)⟩

theorem test_witness_BusCommandFrame : (withSin [0xDE, 0xAD] [0x02]).FarOnly ∧
    (∃ t, exec (.cmdR 0x00) (withSin [0xDE, 0xAD] [0x02]) = .next t) ∧
    (∃ t, exec (.cmdW 0x01) (withSin [0xDE, 0xAD] [0x02]) = .next t) ∧
    ∃ t, exec (.cmdP 0x01) (withSin [0xDE, 0xAD] [0x02]) = .next t :=
  ⟨farOnly_nil rfl, next_of_got (by decide +kernel), next_of_got (by decide +kernel), next_of_got (by decide +kernel)⟩

theorem test_witness_ConsoleFrame : (still hostBlock .idleHost []).FarOnly ∧
    ∃ t, exec (.cmdC 0x00) (still hostBlock .idleHost []) = .next t :=
  ⟨farOnly_nil rfl, next_of_got (by decide +kernel)⟩

theorem test_witness_PortFrame : moving.FarOnly ∧ (∃ t, exec .portHiZ moving = .next t) ∧
    (∃ t, exec (.reset .peripheral) (still hostBlock .idleHost []) = .next t) ∧ ∃ t, exec (.abort (-7)) moving = .next t :=
  ⟨moving_farOnly, next_of_got (by decide +kernel), next_of_got (by decide +kernel), next_of_got (by decide +kernel)⟩

/-- Each clause: two header bytes, the second one alone, a call, a request word, an operation under way, and what is due. -/
theorem test_witness_StepRunsDecoded : (withSin [0x41, 0x10] []).near.idleBelow = true ∧
    (withSin [0x41, 0x10] []).near.disp.ph = .header0 ∧ (withSin [0x41, 0x10] []).near.calls = [] ∧
    (withSin [0x41, 0x10] []).near.sin = 0x41 :: 0x10 :: [] ∧ (withSin [0x41, 0x10] []).clearFor 4 = true ∧
    ({ withSin [0x41, 0x10] [] with script := [⟨.after 4, .resetNear⟩] } : State).clearFor 4 = true ∧
    contended hostBlock.lines .targetReady = false ∧
    (({ hostBlock with sin := [0x10] } : Block).commandRead 0x41).idleBelow = true ∧
    (({ hostBlock with sin := [0x10] } : Block).commandRead 0x41).disp.step.updatesHeader = false ∧
    ((hostBlock.commandRead 0x41).headerRead 0x10).disp.step.updatesHeader = true ∧
    ({ lone with script := [⟨.after 2, .resetNear⟩] } : State).clearFor 3 = false ∧
    ({ hostBlock with calls := [.call .portHiZ] } : Block).calls = .call .portHiZ :: [] ∧
    ({ hostBlock with calls := [.word 3 0b010] } : Block).calls = .word 3 0b010 :: [] ∧
    decodeTableWord 3 0b010 = some (.cycleAddressWrite 0) ∧ (inPhase .ackWait).idleBelow = false ∧
    (still console .idleHost []).clearFor 1 = true ∧ console.disp.ph ∈ [DPhase.body, .exec, .respond, .console] ∧
    ({ withSin [0x41, 0x10] [] with script := [⟨.after 3, .resetNear⟩] } : State).clearFor 4 = false ∧
    ({ lone with script := [⟨.after 0, .resetNear⟩] } : State).clearFor 1 = false := by decide

theorem test_witness_SerialStreams : moving.FarOnly ∧ ∃ t, exec (.cmdB 0x03) moving = .next t :=
  ⟨moving_farOnly, next_of_got (by decide +kernel)⟩

/-- A host in the middle of a one-byte write, with every buffer in bounds. -/
theorem inv_inPhase : (still (inPhase .ackWait) .targetReady []).Inv := by
  refine ⟨⟨⟨rfl, ⟨fun _ => ⟨by decide, Nat.le_refl 1⟩, fun h => absurd h (by decide), fun _ _ _ => Nat.zero_lt_one,
    fun h => ?_⟩, fun h => absurd rfl h, fun h => absurd rfl h, ⟨fun h => ?_, fun h => absurd h (by decide)⟩⟩, trivial⟩, ?_,
    trivial⟩
  · cases h
  · rcases h with ⟨h, -⟩ | h | ⟨h, -⟩ | h <;> cases h
  · intro l _
    revert l
    decide

theorem test_witness_StepKeepsInv : (still (inPhase .ackWait) .targetReady []).Inv ∧
    ∃ t, step (still (inPhase .ackWait) .targetReady []) = .next t := ⟨inv_inPhase, next_of_got (by decide +kernel)⟩

theorem test_witness_NoBufferFault : (still (inPhase .ackWait) .targetReady []).Inv := inv_inPhase

/-- A host that reads, at the start of its transaction. -/
def settled : Block :=
  { hostBlock with ubuf := [0], host := { rd := true, ac := false, len := 1, i := 0, byte := 0, ref := .user, ph := .setup } }

theorem test_witness_Settled : settled.Settled ∧ 0 ≤ settled.res ∧ settled.atRest = false ∧
    (∃ b' n, settled.tick ⟨.targetReady, none⟩ 0 = .moved b' n) ∧ hostBlock.atRest = true ∧
    hostBlock.lines = .idleOf hostBlock.role ∧ ∃ b', hostBlock.start none (.write [0x3C] 1) = .ok b' :=
  ⟨⟨rfl, fun _ => ⟨rfl, rfl⟩, fun h => absurd rfl h, fun _ h => DStep.noConfusion h,
    fun _ h => absurd h List.not_mem_nil⟩, by decide, by decide, ⟨_, _, rfl⟩, by decide, rfl, _, rfl⟩

theorem test_witness_IdleLinesBetweenOperations : (live []).FarOnly ∧ (live []).Idle ∧
    (live []).near.lines = .idleOf (live []).near.role ∧ 0 ≤ (live []).near.res ∧ Instr.write [0x3C] 1 ≠ .portHiZ ∧
    (∀ r, Instr.write [0x3C] 1 ≠ .abort r) ∧
    ∃ t, exec (.write [0x3C] 1) (live []) = .next t ∧ t.near.atRest = true := by
  refine ⟨farOnly_nil rfl, ⟨rfl, rfl⟩, rfl, by decide, by simp, by simp, ?_⟩
  have hr : got (fun t => t.near.atRest) (exec (.write [0x3C] 1) (live [])) = some true := by decide +kernel
  cases he : exec (.write [0x3C] 1) (live []) with
  | next u =>
    rw [he] at hr
    exact ⟨u, rfl, by simpa [got] using hr⟩
  | fault f => rw [he] at hr; cases hr
  | refused r => rw [he] at hr; cases hr

theorem test_witness_ParametersAreConstant :
    (∃ t, step ({ lone with far := .block perBlock, script := [⟨.blocked, .resetFar⟩] } : State) = .next t) ∧
    ∃ t, step ({ lone with script := [⟨.blocked, .resetNear⟩] } : State) = .next t :=
  ⟨next_of_got (by decide +kernel), next_of_got (by decide +kernel)⟩

end Sys2Proof.Machine.Test
end

section
/-! The parameters of both blocks are constant (R8, R28): every start of an operation and every primitive of a block keeps
its parameters, hence so does every turn, every run and every step of the machine. (`by exact h` below waits for the goal
to name the updated block whose parameters `h` speaks of.) -/

namespace Sys2Proof.Machine

/-- The block an operation starts in, if it is not refused, has the parameters `q`. -/
def StartHasPar (q : Params) : Except Refusal Block → Prop
  | .ok b => b.par = q
  | .error _ => True

/-- The block a tick moves to, if it moves, has the parameters `q`. -/
def Tick.HasPar (q : Params) : Tick → Prop
  | .moved b _ => b.par = q
  | .waiting _ => True
  | .fault _ => True
  | .refused _ => True

theorem StartHasPar.ofBegin {q : Params} {e : Except Refusal Block} (n : Nat) (h : StartHasPar q e) :
    (Tick.ofBegin n e).HasPar q := by
  cases e with
  | ok b => exact h
  | error r => trivial

/-! ### The start of an operation -/

section
variable {q : Params} {b : Block}

theorem beginTransaction_par {peer : Option Role} {ref : BufRef} {len : Nat} {rd ac : Bool} (h : b.par = q) :
    StartHasPar q (b.beginTransaction peer ref len rd ac) := by
  unfold Block.beginTransaction
  repeat' split
  · trivial
  · trivial
  · trivial
  · exact h

theorem spiCall_par {peer : Option Role} {ph : SPhase} (h : b.par = q) : StartHasPar q (b.spiCall peer ph) := by
  unfold Block.spiCall Block.spiEngineCall
  cases ph with
  | idle => exact h
  | s1 => exact beginTransaction_par h
  | s2 => cases b.spi.kind <;> exact beginTransaction_par h
  | s3 => exact beginTransaction_par h
  | s4 => cases b.spi.kind <;> exact beginTransaction_par h

theorem beginSpiReset_par {peer : Option Role} {first last : SPhase} (h : b.par = q) :
    StartHasPar q (b.beginSpiReset peer first last) := spiCall_par h

theorem beginSpiTransaction_par {peer : Option Role} {ref : BufRef} {len : Nat} {rd : Bool} {first last : SPhase}
    (h : b.par = q) : StartHasPar q (b.beginSpiTransaction peer ref len rd first last) := by
  unfold Block.beginSpiTransaction
  split
  · trivial
  · exact spiCall_par h

theorem flashDeselect_par {peer : Option Role} (h : b.par = q) : StartHasPar q (b.flashDeselect peer) :=
  beginSpiReset_par (b := b.flashTo .deselect) h

theorem flashPoll_par {peer : Option Role} (h : b.par = q) : StartHasPar q (b.flashPoll peer) :=
  beginSpiReset_par (b := b.flashTo .pollDeselect) h

theorem flashSeed_par {peer : Option Role} {d e : Byte} (h : b.par = q) : StartHasPar q (b.flashSeed peer d e) :=
  beginSpiTransaction_par (b := { b with flash := { b.flash with cmd := seedCmd d e, ph := .seed } }) h

theorem flashIncr_par {peer : Option Role} {d e : Byte} (h : b.par = q) : StartHasPar q (b.flashIncr peer d e) :=
  beginSpiTransaction_par (b := { b with flash := { b.flash with cmd := incrCmd b.flash.cmd d e, ph := .incr } }) h

theorem beginFlash_par {ref : BufRef} {len : Nat} {init : Bool} (h : b.par = q) :
    StartHasPar q (b.beginFlash ref len init) := by
  unfold Block.beginFlash
  repeat' split
  · trivial
  · trivial
  · exact h

theorem peripheralGuard_map_par {peer : Option Role} {f : Block → Block} (h : (f b).par = q) :
    StartHasPar q ((b.peripheralGuard peer).map f) := by
  unfold Block.peripheralGuard
  repeat' split
  · trivial
  · trivial
  · exact h

theorem beginPeripheralCycle_par {peer : Option Role} (h : b.par = q) : StartHasPar q (b.beginPeripheralCycle peer) :=
  peripheralGuard_map_par h

theorem beginBusData_par {peer : Option Role} (h : b.par = q) : StartHasPar q (b.beginBusData peer) :=
  beginTransaction_par (b := b.dispTo .exec .transfer 0) h

theorem beginBus_par {peer : Option Role} (h : b.par = q) : StartHasPar q (b.beginBus peer) := by
  unfold Block.beginBus
  split
  · exact beginTransaction_par h
  · exact beginBusData_par h

theorem afterBody_par {peer : Option Role} (h : b.par = q) : StartHasPar q (b.afterBody peer) := by
  unfold Block.afterBody
  repeat' split
  · exact beginBus_par h
  · exact beginFlash_par h
  · exact h

theorem beginC_par (h : b.par = q) : b.beginC.par = q := by
  unfold Block.beginC
  split <;> exact h

theorem beginCommand_par {peer : Option Role} (h : b.par = q) : StartHasPar q (b.beginCommand peer) := by
  unfold Block.beginCommand
  repeat' split
  · exact h
  · exact h
  · exact beginC_par h
  · exact h
  · exact h
  · exact beginBus_par h
  · exact h
  · exact h

theorem callTransaction_par {peer : Option Role} {buf : List Byte} {n : Int} {rd ac : Bool} (h : b.par = q) :
    StartHasPar q (b.callTransaction peer buf n rd ac) := by
  unfold Block.callTransaction
  split
  · trivial
  · exact beginTransaction_par h

theorem callSpiTransaction_par {peer : Option Role} {buf : List Byte} {n : Int} {rd : Bool} {first last : SPhase}
    (h : b.par = q) : StartHasPar q (b.callSpiTransaction peer buf n rd first last) := by
  unfold Block.callSpiTransaction
  split
  · trivial
  · exact beginSpiTransaction_par h

theorem callFlashProgram_par {buf : List Byte} {n : Int} {init : Bool} (h : b.par = q) :
    StartHasPar q (b.callFlashProgram buf n init) := by
  unfold Block.callFlashProgram
  split
  · trivial
  · exact beginFlash_par h

theorem callCycle_par {peer : Option Role} {rd ad : Bool} {data : Byte} (h : b.par = q) :
    StartHasPar q (b.callCycle peer rd ad data) := by
  unfold Block.callCycle
  split
  · exact beginTransaction_par h
  · exact peripheralGuard_map_par h

theorem callReserved_par {peer : Option Role} {w : Level} (h : b.par = q) : StartHasPar q (b.callReserved peer w) := by
  unfold Block.callReserved
  split
  · trivial
  · exact peripheralGuard_map_par h

theorem callAbort_par {r : Int} (h : b.par = q) : StartHasPar q (b.callAbort r) := by
  unfold Block.callAbort
  split
  · exact h
  · trivial

/-- The start of any operation keeps the parameters. -/
theorem start_par {peer : Option Role} {i : Instr} (h : b.par = q) : StartHasPar q (b.start peer i) := by
  unfold Block.start
  cases i with
  | cmdA _ | cmdB _ | cmdC _ | cmdE _ | cmdP _ | cmdR _ | cmdW _ | unrecognized _ _ => exact h
  | noCycle _ | portHiZ | reset _ => exact h
  | cycleAddressWrite _ | cycleAddressRead | cycleDataWrite _ | cycleDataRead => exact callCycle_par h
  | cycleReserved _ => exact callReserved_par h
  | write _ _ | setAddress _ _ | read _ _ | getAddress _ _ | transaction _ _ _ _ => exact callTransaction_par h
  | ptChipDisable | ptDataClear | spiReset => exact beginSpiReset_par h
  | flashAaiSeed _ _ | flashAaiIncrement _ _ => exact flashDeselect_par (by exact h)
  | flashReadStatus => exact flashPoll_par (by exact h)
  | ptChipEnable => exact beginSpiTransaction_par h
  | ptPayload _ _ _ | spiTransaction _ _ _ => exact callSpiTransaction_par h
  | peripheralCycle _ => exact beginPeripheralCycle_par h
  | flashProgram _ _ _ => exact callFlashProgram_par h
  | abort _ => exact callAbort_par h

/-! ### The primitives of a block -/

theorem bufWrite_par {b' : Block} {r : BufRef} {i : Nat} {v : Byte} (hw : b.bufWrite r i v = some b') :
    b'.par = b.par := by
  unfold Block.bufWrite at hw
  cases r with
  | buf | st | user =>
    dsimp only at hw
    split at hw
    · exact Option.some.inj hw ▸ rfl
    · cases hw
  | cmd | idxAddr | datAddr | enByte | disByte | zero | pendAddr => cases hw

theorem prim_par {x : Prim} {p : Peer} {n : Nat} (h : b.par = q) : (x.run p n b).HasPar q := by
  cases x with
  | storeHost =>
    unfold Prim.run
    dsimp only
    split
    · next hw => exact (bufWrite_par hw).trans h
    · trivial
  | setDir _ _ | setLvl _ _ | delay _ | get _ | storeSlot | senseWrsel | senseAstb | setRole _ => exact h

theorem hostTick_par {p : Peer} {n : Nat} (h : b.par = q) : (hostTick p n b).HasPar q := by
  unfold hostTick
  cases b.host.ph <;> dsimp only
  case idle => trivial
  case setup | restore => split <;> exact h
  case preWait =>
    repeat' split
    · trivial
    · exact h
    · trivial
    · exact h
  case ackWait =>
    split
    · trivial
    · exact h
  case put | strobe | get | release | finish => exact h

theorem peripheralTick_par {p : Peer} {n : Nat} (h : b.par = q) : (peripheralTick p n b).HasPar q := by
  unfold peripheralTick
  cases b.per.ph <;> dsimp only
  case idle => trivial
  case check => split <;> exact h
  case strobeWait | releaseWait =>
    split
    · exact h
    · trivial
  case decode | drive | ack | take | done => exact h

theorem spiTick_par {p : Peer} {n : Nat} (h : b.par = q) : (spiTick p n b).HasPar q := by
  unfold spiTick
  split
  · exact h
  · exact (spiCall_par h).ofBegin n

theorem flashNext_par {next : Except Refusal Block} {n : Nat} (h : b.par = q) (hn : StartHasPar q next) :
    (flashNext n b next).HasPar q := by
  unfold flashNext
  split
  · exact h
  · exact hn.ofBegin n

theorem flashTick_par {p : Peer} {n : Nat} (h : b.par = q) : (flashTick p n b).HasPar q := by
  unfold flashTick
  cases b.flash.ph <;> dsimp only
  case test =>
    split
    · exact (flashDeselect_par h).ofBegin n
    · exact h
  case deselect =>
    repeat' split
    · exact h
    · trivial
    · exact (flashIncr_par h).ofBegin _
    · exact (flashSeed_par h).ofBegin _
  case seed | incr =>
    refine flashNext_par h ?_
    split
    · exact h
    · exact flashPoll_par h
  case pollDeselect | pollCmd => exact flashNext_par h (beginSpiTransaction_par h)
  case pollRead =>
    refine flashNext_par h ?_
    split <;> exact h
  case pollTest =>
    split
    · exact (flashPoll_par h).ofBegin n
    · exact h
  case idle => trivial
  case done => exact h

/-! ### The dispatcher -/

theorem header1Tick_par {n : Nat} (h : b.par = q) : (header1Tick n b).HasPar q := by
  unfold header1Tick
  repeat' split
  · exact h
  · exact h
  · trivial
  · exact h

theorem bodyTick_par {p : Peer} {n : Nat} (h : b.par = q) : (bodyTick p n b).HasPar q := by
  unfold bodyTick
  repeat' split
  · trivial
  · trivial
  · next hw => exact (bufWrite_par hw).trans h
  · exact (afterBody_par h).ofBegin n

theorem fillTick_par {n : Nat} (h : b.par = q) : (fillTick n b).HasPar q := by
  unfold fillTick
  split
  · trivial
  · next hw => split <;> exact (bufWrite_par hw).trans h

theorem execTick_par {p : Peer} {n : Nat} (h : b.par = q) : (execTick p n b).HasPar q := by
  unfold execTick
  cases b.disp.step <;> dsimp only
  case lm1 | length | clearProg | cycle => trivial
  case decode => exact (beginCommand_par h).ofBegin n
  case fill => exact fillTick_par h
  case sendData => exact (beginBusData_par h).ofBegin n
  case setAddress | transfer | flashTest => split <;> exact h
  case pendAddr | pendValid | flash | consoleReset | aborting => exact h

theorem respondTick_par {n : Nat} (h : b.par = q) : (respondTick n b).HasPar q := by
  unfold respondTick
  repeat' split
  · exact h
  · exact h
  · exact h
  · trivial
  · exact h
  · exact h

theorem consoleTick_par {p : Peer} {n : Nat} (h : b.par = q) : (consoleTick p n b).HasPar q := by
  unfold consoleTick
  repeat' split
  · exact (beginPeripheralCycle_par (by exact h)).ofBegin n
  · exact h
  · exact h

theorem dispTick_par {p : Peer} {n : Nat} (h : b.par = q) : (dispTick p n b).HasPar q := by
  unfold dispTick
  cases b.disp.ph <;> dsimp only
  case header0 =>
    repeat' split
    · exact (start_par (by exact h)).ofBegin n
    · trivial
    · trivial
    · exact h
  case header1 => exact header1Tick_par h
  case body => exact bodyTick_par h
  case exec => exact execTick_par h
  case respond => exact respondTick_par h
  case console => exact consoleTick_par h
  case halted => trivial

/-- One primitive of a block keeps its parameters. -/
theorem tick_par {p : Peer} {n : Nat} (h : b.par = q) : (b.tick p n).HasPar q := by
  unfold Block.tick Block.advance
  repeat' split
  · trivial
  · exact prim_par h
  · exact h
  · exact hostTick_par h
  · exact peripheralTick_par h
  · exact spiTick_par h
  · exact flashTick_par h
  · exact dispTick_par h

end

theorem par_of_tick {b b' : Block} {p : Peer} {n m : Nat} (h : b.tick p n = .moved b' m) : b'.par = b.par := by
  have hp : (b.tick p n).HasPar b.par := tick_par rfl
  rw [h] at hp
  exact hp

theorem par_of_start {b b' : Block} {peer : Option Role} {i : Instr} (h : b.start peer i = .ok b') :
    b'.par = b.par := by
  have hp : StartHasPar b.par (b.start peer i) := start_par rfl
  rw [h] at hp
  exact hp

/-! ### Turns, runs and steps -/

/-- The parameters of the far party, if it is a block. -/
def Party.par : Party → Option Params
  | .target _ => none
  | .block b => some b.par

/-- Both ends have the same parameters in the two states, and the far end is a block in both or in neither. -/
def State.SamePar (s t : State) : Prop := t.near.par = s.near.par ∧ t.far.par = s.far.par

theorem State.SamePar.refl (s : State) : s.SamePar s := ⟨rfl, rfl⟩

theorem State.SamePar.trans {s t u : State} (h : s.SamePar t) (h' : t.SamePar u) : s.SamePar u :=
  ⟨h'.1.trans h.1, h'.2.trans h.2⟩

theorem Party.mapBlock_par {f : Block → Block} (hf : ∀ b, (f b).par = b.par) (p : Party) : (p.mapBlock f).par = p.par := by
  cases p with
  | target t => rfl
  | block b => exact congrArg some (hf b)

theorem State.moveFar_samePar {k : Nat} {s t : State} (h : s.moveFar k = .moved t) : s.SamePar t := by
  unfold State.moveFar at h
  split at h
  · exact Turn.moved.inj h ▸ .refl s
  · next b hb =>
    split at h
    · next ht =>
      refine Turn.moved.inj h ▸ ⟨rfl, ?_⟩
      rw [hb]
      exact congrArg some (par_of_tick ht)
    · exact Turn.moved.inj h ▸ .refl s
    · cases h
    · cases h

/-- A move of the outside world, an external reset included, keeps the parameters. -/
theorem Move.apply_samePar {m : Move} {s t : State} (h : m.apply s = .moved t) : s.SamePar t := by
  cases m with
  | lines ls =>
    simp only [Move.apply] at h
    split at h
    · next hf => exact Turn.moved.inj h ▸ ⟨rfl, by rw [hf]; rfl⟩
    · exact Turn.moved.inj h ▸ .refl s
  | far k =>
    cases k with
    | zero => exact Turn.moved.inj h ▸ .refl s
    | succ k => exact State.moveFar_samePar h
  | serial x => exact Turn.moved.inj h ▸ ⟨rfl, rfl⟩
  | call q => exact Turn.moved.inj h ▸ ⟨rfl, rfl⟩
  | resetNear => exact Turn.moved.inj h ▸ ⟨rfl, rfl⟩
  | farSerial x => exact Turn.moved.inj h ▸ ⟨rfl, Party.mapBlock_par (by exact fun _ => rfl) s.far⟩
  | farCall q => exact Turn.moved.inj h ▸ ⟨rfl, Party.mapBlock_par (by exact fun _ => rfl) s.far⟩
  | resetFar => exact Turn.moved.inj h ▸ ⟨rfl, Party.mapBlock_par (by exact fun _ => rfl) s.far⟩

theorem State.tickNear_stuck_samePar {s t : State} (h : s.tickNear = .stuck t) : s.SamePar t := by
  obtain ⟨hn, -, hf⟩ := State.tickNear_stuck h
  exact ⟨congrArg Block.par hn, congrArg Party.par hf⟩

theorem State.tickNear_moved_samePar {s t : State} (h : s.tickNear = .moved t) : s.SamePar t := by
  obtain ⟨⟨n, ht⟩, -, hf⟩ := State.tickNear_cases h
  exact ⟨par_of_tick ht, congrArg Party.par hf⟩

theorem State.turn_stuck_samePar {s t : State} (h : s.turn = .stuck t) : s.SamePar t :=
  State.tickNear_stuck_samePar (State.turn_stuck h).2

theorem State.turn_moved_samePar {s t : State} (h : s.turn = .moved t) : s.SamePar t := by
  rcases State.turn_moved h with hr | ⟨u, hu, rfl | ⟨k, m, rest, -, rfl⟩⟩ | ⟨e, rest, u, -, hu, hm⟩
  · obtain ⟨hn, -, x, y, hx, hy⟩ := State.react_some hr
    exact ⟨congrArg Block.par hn, by rw [hx, hy]; rfl⟩
  · exact State.tickNear_moved_samePar hu
  · exact (State.tickNear_moved_samePar hu).trans ⟨rfl, rfl⟩
  · refine .trans ?_ (Move.apply_samePar hm)
    rcases hu with rfl | hu
    · exact ⟨rfl, rfl⟩
    · exact (State.tickNear_stuck_samePar hu).trans ⟨rfl, rfl⟩

theorem run_samePar {f : Nat} {s t : State} (h : State.run f s = .next t) : s.SamePar t :=
  run_keeps (P := s.SamePar) (fun _ _ hs _ hu => hs.trans (State.turn_moved_samePar hu))
    (fun _ _ hs _ hu => hs.trans (State.turn_stuck_samePar hu)) f s t (.refl s) h

theorem exec_samePar {i : Instr} {s t : State} (h : exec i s = .next t) : s.SamePar t := by
  rw [exec_eq] at h
  obtain ⟨-, -, b, hb, hr⟩ := State.launch_next h
  exact .trans (t := { s with near := b }) ⟨par_of_start hb, rfl⟩ (run_samePar hr)

theorem State.idleTurn_next {s t : State} (h : s.idleTurn = .next t) : s.turn = .moved t ∨ s.turn = .stuck t := by
  unfold State.idleTurn at h
  split at h
  · next u hu => exact .inl (Host.Outcome.next.inj h ▸ hu)
  · next u hu => exact .inr (Host.Outcome.next.inj h ▸ hu)
  · cases h
  · cases h

/-- What a step that answers a state has done: it ran the fetched instruction, it ran the system on, or it was one turn. -/
theorem step_next {s t : State} (h : step s = .next t) :
    (∃ i u, s.fetch = .instr i u ∧ exec i u = .next t) ∨ State.run Config.burst s = .next t ∨
      s.turn = .moved t ∨ s.turn = .stuck t := by
  unfold step at h
  cases hf : s.fetch <;> simp only [hf] at h
  case instr i u => exact .inl ⟨i, u, rfl, h⟩
  case busy => exact .inr (.inl h)
  case idle => exact .inr (.inr (State.idleTurn_next h))
  case halted =>
    unfold State.haltedTurn at h
    split at h
    · cases h
    · exact .inr (.inr (State.idleTurn_next h))
  case undecodable => cases h

theorem State.fetch_samePar {s t : State} {i : Instr} (h : s.fetch = .instr i t) : s.SamePar t := by
  obtain ⟨-, -, k, sin, calls, -, -, rfl⟩ := State.fetch_instr h
  exact ⟨rfl, rfl⟩

theorem step_samePar {s t : State} (h : step s = .next t) : s.SamePar t := by
  rcases step_next h with ⟨i, u, hf, hx⟩ | hr | hm | hk
  · exact (State.fetch_samePar hf).trans (exec_samePar hx)
  · exact run_samePar hr
  · exact State.turn_moved_samePar hm
  · exact State.turn_stuck_samePar hk

/-- Settles O60: both ends keep their parameters through every turn, hence through every step. -/
theorem parametersAreConstant : Obligations.ParametersAreConstant := by
  intro s t h
  obtain ⟨hn, hf⟩ := step_samePar h
  refine ⟨hn, fun b b' hb hb' => ?_⟩
  rw [hb, hb'] at hf
  exact Option.some.inj hf

end Sys2Proof.Machine
end

section
/-! A byte on the data lines (R9 to R11): what `DataDrive` and `DataPullLow` leave on each line, what the other end samples,
and what two idle ends read (R21, R39). -/

namespace Sys2Proof.Machine

/-- The data lines, each with the bit it carries (R10). -/
def dataBits : List (Line × Nat) :=
  [(.d0, 0), (.d1, 1), (.d2, 2), (.d3, 3), (.d4, 4), (.d5, 5), (.d6, 6), (.d7, 7)]

theorem dataLines_eq : dataLines = dataBits.map Prod.fst := rfl

theorem mem_dataLines {lk : Line × Nat} (h : lk ∈ dataBits) : lk.1 ∈ dataLines := dataLines_eq ▸ List.mem_map_of_mem h

theorem byteLevels_eq (x : Byte) : byteLevels x = dataBits.map fun lk => bitLevel (x.getLsbD lk.2) := rfl

/-! ### Primitives that leave a line alone -/

/-- Whether a primitive changes the state of line `l`. -/
def Prim.touches (l : Line) : Prim → Bool
  | .setDir m _ => m == l
  | .setLvl m _ => m == l
  | _ => false

theorem Prim.get_onLines_untouched {x : Prim} {l : Line} (ls : Lines) (h : x.touches l = false) :
    (x.onLines ls).get l = ls.get l := by
  cases x with
  | setDir m d => exact ls.get_set_other m l _ (by rintro rfl; simp [Prim.touches] at h)
  | setLvl m v => exact ls.get_set_other m l _ (by rintro rfl; simp [Prim.touches] at h)
  | delay _ | get _ | storeHost | storeSlot | senseWrsel | senseAstb | setRole _ => rfl

theorem linesAfter_cons (x : Prim) (r : List Prim) (ls : Lines) : linesAfter (x :: r) ls = linesAfter r (x.onLines ls) :=
  rfl

theorem linesAfter_append (r r' : List Prim) (ls : Lines) : linesAfter (r ++ r') ls = linesAfter r' (linesAfter r ls) :=
  List.foldl_append ..

theorem get_linesAfter_untouched {todo : List Prim} {l : Line} (h : ∀ x ∈ todo, x.touches l = false) (ls : Lines) :
    (linesAfter todo ls).get l = ls.get l := by
  induction todo generalizing ls with
  | nil => rfl
  | cons x r ih =>
    rw [linesAfter_cons, ih fun y hy => h y (List.mem_cons_of_mem x hy)]
    exact Prim.get_onLines_untouched ls (h x List.mem_cons_self)

theorem get_linesAfter_setLvl {pre post : List Prim} {l : Line} (v : Level) (hpre : ∀ x ∈ pre, x.touches l = false)
    (hpost : ∀ x ∈ post, x.touches l = false) (ls : Lines) :
    (linesAfter (pre ++ .setLvl l v :: post) ls).get l = ⟨(ls.get l).dir, v⟩ := by
  rw [linesAfter_append, linesAfter_cons, get_linesAfter_untouched hpost]
  show (Lines.setLvl _ l v).get l = _
  rw [Lines.get_setLvl, if_pos rfl, get_linesAfter_untouched hpre]

/-! ### The two byte-wide primitives -/

theorem dataDrive_eq (x : Byte) : dataDrive x = dataBits.map fun lk => .setLvl lk.1 (bitLevel (x.getLsbD lk.2)) := rfl

/-- `DataDrive` sets the line of bit `k` once, to the level of that bit. -/
theorem dataDrive_split {l : Line} {k : Nat} (x : Byte) (h : (l, k) ∈ dataBits) :
    ∃ pre post, dataDrive x = pre ++ .setLvl l (bitLevel (x.getLsbD k)) :: post ∧
      (∀ y ∈ pre, y.touches l = false) ∧ ∀ y ∈ post, y.touches l = false := by
  have hn : (dataBits.map Prod.fst).Nodup := by decide
  obtain ⟨s, t, e⟩ := List.append_of_mem h
  rw [e, List.map_append, List.map_cons, List.nodup_middle, List.nodup_cons] at hn
  have other : ∀ m k', (m, k') ∈ s ++ t → (m == l) = false := by
    intro m k' hm
    refine beq_false_of_ne fun hml => hn.1 ?_
    rw [← List.map_append]
    exact List.mem_map.mpr ⟨(m, k'), hm, hml⟩
  refine ⟨_, _, by rw [dataDrive_eq, e, List.map_append, List.map_cons], ?_, ?_⟩
  · intro y hy
    obtain ⟨lk, hlk, rfl⟩ := List.mem_map.mp hy
    exact other _ _ (List.mem_append_left t hlk)
  · intro y hy
    obtain ⟨lk, hlk, rfl⟩ := List.mem_map.mp hy
    exact other _ _ (List.mem_append_right s hlk)

theorem dataDrive_untouched {l : Line} (h : l ∉ dataLines) (x : Byte) : ∀ y ∈ dataDrive x, y.touches l = false := by
  intro y hy
  rw [dataDrive_eq] at hy
  obtain ⟨lk, hlk, rfl⟩ := List.mem_map.mp hy
  exact beq_false_of_ne fun hml => h (hml ▸ mem_dataLines hlk)

theorem get_dataDrive {l : Line} {k : Nat} (h : (l, k) ∈ dataBits) (x : Byte) (ls : Lines) :
    (linesAfter (dataDrive x) ls).get l = ⟨(ls.get l).dir, bitLevel (x.getLsbD k)⟩ := by
  obtain ⟨pre, post, e, hpre, hpost⟩ := dataDrive_split x h
  rw [e]
  exact get_linesAfter_setLvl _ hpre hpost ls

/-- `DataPullLow` takes out of `DataDrive` the sets to H, which a latch at H does not need. -/
theorem get_dataPullLow {l : Line} {k : Nat} (h : (l, k) ∈ dataBits) (x : Byte) {ls : Lines}
    (hl : (ls.get l).lat = .high) :
    (linesAfter (dataPullLow x) ls).get l = ⟨(ls.get l).dir, bitLevel (x.getLsbD k)⟩ := by
  obtain ⟨pre, post, e, hpre, hpost⟩ := dataDrive_split x h
  have sub : ∀ {r : List Prim} {p : Prim → Bool}, (∀ y ∈ r, y.touches l = false) →
      ∀ y ∈ r.filter p, y.touches l = false := fun hr y hy => hr y (List.mem_filter.mp hy).1
  unfold dataPullLow
  rw [e, List.filter_append, List.filter_cons]
  cases bitLevel (x.getLsbD k) with
  | low => exact get_linesAfter_setLvl .low (sub hpre) (sub hpost) ls
  | high =>
    rw [if_neg Bool.false_ne_true, linesAfter_append, get_linesAfter_untouched (sub hpost),
      get_linesAfter_untouched (sub hpre), ← hl]

/-! ### What the other end reads -/

/-- An input against a driver reads the latch of the driver, with no draw (R22). -/
theorem getWire_driven {mine theirs : Lines} {l : Line} (n : Nat) (hm : (mine.get l).dir = .input)
    (ht : (theirs.get l).dir = .output) : getWire mine theirs l n = ((theirs.get l).lat, n) := by
  simp only [getWire, wireSample, hm, ht]

/-- Eight samples that read the bits of `x` stand for `x`. -/
theorem byteOfLevels_of_bits {f : Line → Level} {x : Byte} (h : ∀ lk ∈ dataBits, f lk.1 = bitLevel (x.getLsbD lk.2)) :
    byteOfLevels (dataLines.map f) = x := by
  have e : dataLines.map f = byteLevels x := by
    rw [dataLines_eq, byteLevels_eq, List.map_map]
    exact List.map_congr_left h
  rw [e, byteOfLevels_byteLevels]

/-- Wires that one end drives with the bits of `x` read as `x` at the other end. -/
theorem byteOfLevels_driven {mine theirs : Lines} {x : Byte} (n : Nat) (hm : ∀ l ∈ dataLines, (mine.get l).dir = .input)
    (ht : ∀ lk ∈ dataBits, theirs.get lk.1 = ⟨.output, bitLevel (x.getLsbD lk.2)⟩) :
    byteOfLevels (dataLines.map fun l => (getWire mine theirs l n).1) = x := by
  refine byteOfLevels_of_bits fun lk hlk => ?_
  rw [getWire_driven n (hm _ (mem_dataLines hlk)) (by rw [ht lk hlk]), ht lk hlk]

/-- An idle end pulls every data line towards H (R21, R39). -/
theorem idleOf_data (r : Role) : ∀ l ∈ dataLines, (Lines.idleOf r).get l = .pulled := by
  cases r <;> decide

theorem getWire_idle (r r' : Role) (n : Nat) : ∀ l ∈ dataLines, getWire (.idleOf r) (.idleOf r') l n = (.high, n) := by
  intro l hl
  rw [getWire, idleOf_data r l hl, idleOf_data r' l hl]
  rfl

/-- Settles O10: each clause is the lemma about one line, or about the eight samples, above. -/
theorem byteOnWires : Obligations.ByteOnWires := by
  refine ⟨fun x ls l k h => ⟨get_dataDrive h x ls, get_dataPullLow h x⟩, fun x ls l hl => ?_, rfl,
    fun x mine theirs n hd => ?_, fun r r' n => ⟨getWire_idle r r' n, ?_⟩⟩
  · have hu := dataDrive_untouched (l := l) (by revert l; decide) x
    exact ⟨get_linesAfter_untouched hu ls, get_linesAfter_untouched (fun y hy => hu y (List.mem_filter.mp hy).1) ls⟩
  · have hm : ∀ l ∈ dataLines, (mine.get l).dir = .input := fun l hl => (hd l hl).1
    refine ⟨byteOfLevels_driven n hm fun lk hlk => ?_, fun hh => byteOfLevels_driven n hm fun lk hlk => ?_⟩
    · rw [get_dataDrive hlk, (hd _ (mem_dataLines hlk)).2]
    · rw [get_dataPullLow hlk x (hh _ (mem_dataLines hlk)), (hd _ (mem_dataLines hlk)).2]
  · have ones : ∀ lk ∈ dataBits, Level.high = bitLevel ((0xFF : Byte).getLsbD lk.2) := by decide
    refine byteOfLevels_of_bits fun lk hlk => ?_
    rw [getWire_idle r r' n _ (mem_dataLines hlk)]
    exact ones lk hlk

end Sys2Proof.Machine
end

section
/-! The 'C' sub-loop outside a cycle (R206, R275): the echo of a completed data-write cycle, and the next call. -/

namespace Sys2Proof.Machine

theorem PerRegs.echoes_iff (r : PerRegs) : r.echoes = true ↔ r.ok = true ∧ r.rd = false ∧ r.ad = false := by
  simp only [PerRegs.echoes, Bool.and_eq_true, Bool.not_eq_true', and_assoc]

/-- Once a cycle has returned, the slot is echoed if it was a completed data write (R206). -/
theorem consoleTick_echo {b : Block} (p : Peer) (n : Nat) (h : b.disp.step ≠ .cycle) :
    consoleTick p n b = .moved (({ b with sout := b.sout ++ if b.per.echoes then [b.per.slot] else [] } : Block).dispTo
      .console .cycle 0) n := by
  rw [consoleTick, if_neg h]
  cases b.per.echoes with
  | true => rfl
  | false => simp only [Bool.false_eq_true, if_false, List.append_nil]

/-- A peripheral whose peer is not a peripheral too begins a cycle (R150). -/
theorem beginPeripheralCycle_ok {b : Block} {peer : Option Role} (hr : b.role = .peripheral)
    (hp : peer ≠ some .peripheral) : b.beginPeripheralCycle peer = .ok (b.perTo .check []) := by
  simp only [Block.beginPeripheralCycle, Block.peripheralGuard, hr, ne_eq, not_true_eq_false, if_false, hp, Except.map]

/-- Settles O39: an idle console takes the dispatcher's step, which echoes or calls the next cycle. -/
theorem consoleEchoes : Obligations.ConsoleEchoes := by
  intro b p n hi hc
  have ht : b.tick p n = consoleTick p n b := by rw [Block.tick_disp p n hi, dispTick, hc]
  obtain ⟨htodo, -⟩ := b.idleBelow_iff.mp hi
  refine ⟨fun hs => ?_, fun hs hr hp => ?_⟩
  · rw [ht, consoleTick_echo p n hs]
    simp only [PerRegs.echoes_iff, Block.dispTo, hc]
  · rw [ht, consoleTick, if_pos hs, beginPeripheralCycle_ok (b := b.dispTo .console .decode 0) hr hp]
    simp only [Tick.ofBegin, Block.perTo, Block.dispTo, hc, htodo]

end Sys2Proof.Machine
end

section
/-! The fetch and the step of the machine (R4, R6, R91, R200, R201, R237): what the next step is in each state, and that the
four primitives of a header, taken one a turn, start the instruction that the header decodes to. -/

namespace Sys2Proof.Machine

/-! ### What is fetched -/

theorem fetch_running {s : State} (hi : s.near.idleBelow = false) : s.fetch = .busy := by
  simp only [State.fetch, hi, Bool.not_false, if_true]

theorem fetch_outside {s : State} (hi : s.near.idleBelow = true) (hc : s.clearFor 1 = false) : s.fetch = .idle := by
  simp only [State.fetch, hi, hc, Bool.not_true, Bool.not_false, Bool.false_eq_true, if_false, if_true]

theorem fetch_header {s : State} {b0 b1 : Byte} {rest : List Byte} (hi : s.near.idleBelow = true)
    (hp : s.near.disp.ph = .header0) (hq : s.near.calls = []) (hs : s.near.sin = b0 :: b1 :: rest)
    (hc : s.clearFor 4 = true) :
    s.fetch = .instr (decodeHeader s.near.par.board b0 b1) (s.fetched 4 { s.near with sin := rest }) := by
  simp [State.fetch, hi, State.clearFor_mono hc (j := 1) (by decide), hp, hq, hs, hc]

theorem fetch_byte1 {s : State} {b1 : Byte} {rest : List Byte} (hi : s.near.idleBelow = true)
    (hp : s.near.disp.ph = .header1) (hu : s.near.disp.step.updatesHeader = false) (hs : s.near.sin = b1 :: rest)
    (hc : s.clearFor 3 = true) :
    s.fetch = .instr (decodeHeader s.near.par.board s.near.disp.cmd b1)
      (s.fetched 3 { s.near with sin := rest, disp := { s.near.disp with ph := .header0 } }) := by
  simp [State.fetch, hi, State.clearFor_mono hc (j := 1) (by decide), hp, hu, hs, hc]

theorem fetch_call {s : State} {q : Request} {i : Instr} {rest : List Request} (hi : s.near.idleBelow = true)
    (hp : s.near.disp.ph = .header0) (hq : s.near.calls = q :: rest) (hd : q.instr = some i) (hc : s.clearFor 1 = true) :
    s.fetch = .instr i (s.fetched 1 { s.near with calls := rest }) := by
  simp [State.fetch, hi, hc, hp, hq, hd]

theorem fetch_command {s : State} (hc : s.clearFor 1 = true)
    (hp : s.near.disp.ph ∈ [.body, .exec, .respond, .console] ∨
      (s.near.disp.ph = .header1 ∧ s.near.disp.step.updatesHeader = true)) : s.fetch = .busy := by
  cases hi : s.near.idleBelow with
  | false => exact fetch_running hi
  | true =>
    rcases hp with hp | ⟨hp, hu⟩
    · simp only [List.mem_cons, List.not_mem_nil, or_false] at hp
      rcases hp with hp | hp | hp | hp <;> simp [State.fetch, hi, hc, hp]
    · simp [State.fetch, hi, hc, hp, hu]

/-- Something outside falls due before the last primitive of the header. -/
theorem fetch_header_outside {s : State} (hi : s.near.idleBelow = true) (hc : s.clearFor 4 = false)
    (hp : s.near.disp.ph = .header0) (hq : s.near.calls = []) : s.fetch = .idle := by
  cases h1 : s.clearFor 1 with
  | false => exact fetch_outside hi h1
  | true =>
    simp only [State.fetch, hi, h1, hp, hq, hc, Bool.not_true, Bool.false_eq_true, if_false]
    split <;> rfl

theorem fetch_byte1_outside {s : State} (hi : s.near.idleBelow = true) (hc : s.clearFor 3 = false)
    (hp : s.near.disp.ph = .header1) (hu : s.near.disp.step.updatesHeader = false) : s.fetch = .idle := by
  cases h1 : s.clearFor 1 with
  | false => exact fetch_outside hi h1
  | true =>
    simp only [State.fetch, hi, h1, hp, hu, hc, Bool.not_true, Bool.false_eq_true, if_false]
    split <;> rfl

/-! ### What a step then does -/

theorem step_instr {s t : State} {i : Instr} (h : s.fetch = .instr i t) : step s = exec i t := by rw [step, h]

theorem step_busy {s : State} (h : s.fetch = .busy) : step s = State.run Config.burst s := by rw [step, h]

theorem step_idle {s : State} (h : s.fetch = .idle) : step s = s.idleTurn := by rw [step, h]

/-! ### The header, one primitive a turn -/

theorem fetched_zero (s : State) : s.fetched 0 s.near = s := by
  obtain ⟨near, far, script, drawn, contention⟩ := s
  simp only [State.fetched, State.mk.injEq, true_and, and_true]
  unfold countdown
  split <;> rfl

theorem countdown_countdown (j k : Nat) (es : List Event) : countdown k (countdown j es) = countdown (j + k) es := by
  match es with
  | [] => rfl
  | ⟨.after i, m⟩ :: rest => simp only [countdown, Nat.sub_sub]
  | ⟨.blocked, m⟩ :: rest => rfl

theorem fetched_fetched (j k : Nat) (b b' : Block) (s : State) : (s.fetched j b).fetched k b' = s.fetched (j + k) b' := by
  simp only [State.fetched, countdown_countdown]

/-- What is clear for `j + k` primitives is clear for `k` once `j` of them are done. -/
theorem clearFor_fetched {s : State} {j k : Nat} {b : Block} (hl : b.lines = s.near.lines)
    (h : s.clearFor (j + k) = true) : (s.fetched j b).clearFor k = true := by
  simp only [State.clearFor, State.react, Option.isNone_map, Bool.and_eq_true, State.fetched_near, State.fetched_far,
    State.fetched_drawn, State.fetched_script, hl] at h ⊢
  refine ⟨h.1, ?_⟩
  replace h := h.2
  match hs : s.script with
  | [] => rfl
  | ⟨.after i, m⟩ :: rest =>
    simp only [hs, countdown, decide_eq_true_eq] at h ⊢
    omega
  | ⟨.blocked, m⟩ :: rest => rfl

/-- A primitive of the fetch, taken as a turn. -/
theorem turn_fetched {s : State} {k : Nat} {b b' : Block} (hc : s.clearFor (k + 1) = true)
    (hcon : contended s.near.lines s.far.lines = true → s.contention = true) (hl : b.lines = s.near.lines)
    (hl' : b'.lines = b.lines) (ht : b.tick s.far.asPeer s.drawn = .moved b' s.drawn) :
    (s.fetched k b).turn = .moved (s.fetched (k + 1) b') := by
  rw [← fetched_fetched k 1 b b' s]
  exact State.turn_clear (clearFor_fetched hl hc) (by rw [State.fetched_near, hl]; exact hcon) hl' ht

/-- A header starts in the instruction that it decodes to (R91, R200): on a board that knows no 'C' the code is looked at
again. -/
theorem start_decodeHeader (board : Role) (peer : Option Role) (b0 b1 : Byte) (b : Block) :
    b.start peer (decodeHeader board b0 b1) = .ok (b.header b0 b1) := by
  unfold decodeHeader
  repeat' split
  · next h => subst h; rfl
  · next h => subst h; rfl
  · next h _ => subst h; rfl
  · rfl
  · next h => subst h; rfl
  · next h => subst h; rfl
  · next h => subst h; rfl
  · next h => subst h; rfl
  · rfl

theorem tick_byte0 {b : Block} {x : Byte} {rest : List Byte} (p : Peer) (n : Nat) (hi : b.idleBelow = true)
    (hp : b.disp.ph = .header0) (hq : b.calls = []) (hs : b.sin = x :: rest) :
    b.tick p n = .moved (({ b with sin := rest } : Block).commandRead x) n := by
  simp only [Block.tick_disp p n hi, dispTick, hp, hq, hs]

theorem tick_header1 {b : Block} (p : Peer) (n : Nat) (hi : b.idleBelow = true) (hp : b.disp.ph = .header1) :
    b.tick p n = header1Tick n b := by
  simp only [Block.tick_disp p n hi, dispTick, hp]

/-- A header taken one primitive a turn: byte 0, byte 1, `c_len`, the program flag, after which the command stands at
`D_EXEC` (R200). -/
theorem header_turns {s : State} {b0 b1 : Byte} {rest : List Byte} (hi : s.near.idleBelow = true)
    (hp : s.near.disp.ph = .header0) (hq : s.near.calls = []) (hs : s.near.sin = b0 :: b1 :: rest)
    (hc : s.clearFor 4 = true) (hcon : contended s.near.lines s.far.lines = true → s.contention = true) :
    ∃ s1 s2 s3, s.turn = .moved s1 ∧ s1.turn = .moved s2 ∧ s2.turn = .moved s3 ∧
      s3.turn = .moved (s.fetched 4 (({ s.near with sin := rest } : Block).header b0 b1)) ∧
      s1.near.disp.ph = .header1 ∧ s2.near.disp.ph = .header1 ∧ s3.near.disp.ph = .header1 ∧
      s3.near.disp.len = clampedLength b1 ∧ s3.near.disp.progActive = s.near.disp.progActive := by
  have clear : ∀ k, k < 4 → s.clearFor (k + 1) = true := fun k hk => State.clearFor_mono hc hk
  let c1 := ({ s.near with sin := b1 :: rest } : Block).commandRead b0
  let c2 := ({ c1 with sin := rest } : Block).headerRead b1
  refine ⟨s.fetched 1 c1, s.fetched 2 c2, s.fetched 3 c2.latchLength, ?_, ?_, ?_, ?_, rfl, rfl, rfl, rfl, rfl⟩
  · have h := turn_fetched (k := 0) (clear 0 (by decide)) hcon rfl (b' := c1) rfl (tick_byte0 _ _ hi hp hq hs)
    rwa [fetched_zero] at h
  · exact turn_fetched (clear 1 (by decide)) hcon rfl rfl (tick_header1 _ _ hi rfl)
  · exact turn_fetched (clear 2 (by decide)) hcon rfl rfl (tick_header1 _ _ hi rfl)
  · exact turn_fetched (clear 3 (by decide)) hcon rfl rfl (tick_header1 _ _ hi rfl)

/-- An external reset that is due goes before all else (R237, R260). -/
theorem reset_due {s : State} {rest : List Event} (h : s.script = ⟨.after 0, .resetNear⟩ :: rest) :
    ∃ u, Move.resetNear.apply { s with script := rest } = .moved u ∧ s.turn = .moved u ∧
      (s.near.idleBelow = true → step s = .next u) := by
  have ht : s.turn = Move.resetNear.apply { s with script := rest } := by simp only [State.turn, h]
  refine ⟨_, rfl, ht, fun hi => ?_⟩
  have hc : s.clearFor 1 = false := by simp [State.clearFor, h]
  rw [step_idle (fetch_outside hi hc), State.idleTurn, ht]
  rfl

/-- Settles O54: each clause is the lemma about one branch of the fetch; `header_turns` gives the four single turns. -/
theorem stepRunsDecoded : Obligations.StepRunsDecoded := by
  refine ⟨fun s b0 b1 rest hi hp hq hs hc => ⟨step_instr (fetch_header hi hp hq hs hc), fun hcon => ?_⟩,
    fun s b1 rest hi hp hu hs hc => step_instr (fetch_byte1 hi hp hu hs hc),
    fun s i rest hi hp hq hc => step_instr (fetch_call hi hp hq rfl hc),
    fun s nbits w i rest hi hp hq hd hc => step_instr (fetch_call hi hp hq hd hc), ?_, ?_, fun s rest => reset_due⟩
  · obtain ⟨s1, s2, s3, t1, t2, t3, t4, p1, p2, p3, hlen, hprog⟩ := header_turns hi hp hq hs hc hcon
    exact ⟨_, s1, s2, s3, start_decodeHeader .., t1, t2, t3, t4, p1, p2, p3, hlen, hprog, rfl⟩
  · rintro s (hi | ⟨hc, hp⟩)
    · exact step_busy (fetch_running hi)
    · exact step_busy (fetch_command hc hp)
  · rintro s hi (hc | ⟨hc, hp, hq⟩ | ⟨hc, hp, hu⟩)
    · exact step_idle (fetch_outside hi hc)
    · exact step_idle (fetch_header_outside hi hc hp hq)
    · exact step_idle (fetch_byte1_outside hi hc hp hu)

end Sys2Proof.Machine
end

section
/-! The invariant of the machine (R21, R24, R202): the buffer bounds and the uniform data directions hold at reset, every
turn and every step keeps them at both ends, and they keep every run from the buffer-index fault. -/

namespace Sys2Proof.Machine

/-! ### Steps of one block -/

theorem afterReset_inBounds (q : Params) (n : Nat) : (Block.afterReset q n).InBounds :=
  ⟨rfl, Block.hostInBounds_idle rfl (fun h => nomatch h), fun e => absurd rfl e, fun e => absurd rfl e,
    fun e => by simp [Block.afterReset, DispRegs.afterReset] at e,
    fun e => by simp [Block.afterReset, DispRegs.afterReset] at e⟩

theorem idleOf_uniform (r : Role) : (Lines.idleOf r).dataUniform := fun l hl => by
  rw [idleOf_data r l hl]
  cases r <;> rfl

theorem hiZ_uniform : Lines.hiZ.dataUniform := fun l _ => by cases l <;> rfl

theorem blockReset_uniform (n : Nat) (b : Block) : (b.blockReset n).Uniform :=
  steps_uniform (.reset b.par.settleUs b.par.board) hiZ_uniform

/-- The start of any operation keeps the data directions uniform (R21): it leaves the lines to the steps of a phase. -/
theorem start_uniform {b b' : Block} {peer : Option Role} {i : Instr} (h : b.Uniform) (ht : b.todo = [])
    (hb : b.start peer i = .ok b') : b'.Uniform := by
  obtain ⟨hl, hs⟩ := start_placed hb ht
  rw [Block.Uniform, ht] at h
  rw [Block.Uniform, hl]
  exact steps_uniform hs h

theorem inBounds_stable : Block.Stable Block.InBounds where
  tick _ _ _ _ _ h hb := tick_inBounds h hb
  sin _ _ h := h
  calls _ _ h := h
  reset n b _ := blockReset_inBounds n b

theorem uniform_stable : Block.Stable Block.Uniform where
  tick _ _ _ _ _ h hb := tick_uniform h hb
  sin _ _ h := h
  calls _ _ h := h
  reset n b _ := blockReset_uniform n b

/-! ### Turns, runs and steps -/

theorem State.Inv.turn {s t : State} (h : s.Inv) (ht : s.turn = .moved t ∨ s.turn = .stuck t) : t.Inv :=
  ⟨State.turn_blocks inBounds_stable h.1 ht, State.turn_blocks uniform_stable h.2 ht⟩

theorem State.Inv.run {f : Nat} {s t : State} (h : s.Inv) (hr : State.run f s = .next t) : t.Inv :=
  ⟨run_blocks inBounds_stable h.1 hr, run_blocks uniform_stable h.2 hr⟩

/-- The invariant of a state whose near block has started an operation. -/
theorem State.Inv.start {s : State} {i : Instr} {b : Block} (h : s.Inv) (ha : s.near.atRest = true)
    (hb : s.near.start s.far.role i = .ok b) : ({ s with near := b } : State).Inv := by
  have hi := (s.near.atRest_iff.mp ha).1
  exact ⟨⟨start_inBounds h.1.1 hi hb, h.1.2⟩, ⟨start_uniform h.2.1 (s.near.idleBelow_iff.mp hi).1 hb, h.2.2⟩⟩

theorem State.Inv.exec {s t : State} {i : Instr} (h : s.Inv) (he : exec i s = .next t) : t.Inv := by
  rw [exec_eq] at he
  obtain ⟨ha, -, b, hb, hr⟩ := State.launch_next he
  exact (h.start ha hb).run hr

/-- The dispatcher back at the top of its loop, with bytes or requests consumed, is in bounds. -/
theorem State.Inv.fetch {s t : State} {i : Instr} (h : s.Inv) (hf : s.fetch = .instr i t) : t.Inv := by
  obtain ⟨-, -, k, sin, calls, -, -, rfl⟩ := State.fetch_instr hf
  have hd : ({ s.near with disp := { s.near.disp with ph := .header0 } } : Block).InBounds :=
    disp_inBounds h.1.1 (fun e => by simp at e) (by simp)
  exact ⟨⟨hd, h.1.2⟩, h.2⟩

/-- Settles O56: a step runs the fetched instruction, or goes on with a run, or is one turn, and each keeps the invariant. -/
theorem stepKeepsInv : Obligations.StepKeepsInv := by
  intro s t h hs
  rcases step_next hs with ⟨i, u, hf, hx⟩ | hr | ht
  · exact (h.fetch hf).exec hx
  · exact h.run hr
  · exact h.turn ht

/-- Settles O57: at reset nothing runs and the lines are idle. -/
theorem resetInv : Obligations.ResetInv :=
  ⟨⟨afterReset_inBounds _ _, trivial⟩, ⟨idleOf_uniform .host, trivial⟩⟩

/-! ### No buffer-index fault (R24) -/

theorem tickNear_noFault {s : State} (h : s.Blocks Block.InBounds) : s.tickNear ≠ .fault .bufferIndex := by
  unfold State.tickNear
  split
  · nofun
  · nofun
  · next hf => exact fun e => tick_noFault _ _ h.1 (by rw [hf, Turn.fault.inj e])
  · nofun

/-- A move of the outside world does not end in the buffer-index fault: at most it lets the far block take a step. -/
theorem Move.apply_noFault {m : Move} {s : State} (h : s.Blocks Block.InBounds) : m.apply s ≠ .fault .bufferIndex := by
  cases m with
  | lines ls => simp only [Move.apply]; split <;> nofun
  | far k =>
    cases k with
    | zero => nofun
    | succ k =>
      simp only [Move.apply, State.moveFar]
      split
      · nofun
      · next b hb =>
        have hb' : b.InBounds := by have := h.2; rwa [hb] at this
        split
        · nofun
        · nofun
        · next hf => exact fun e => tick_noFault _ _ hb' (by rw [hf, Turn.fault.inj e])
        · nofun
  | serial _ | farSerial _ | call _ | farCall _ | resetNear | resetFar => nofun

theorem turn_noFault {s : State} (h : s.Blocks Block.InBounds) : s.turn ≠ .fault .bufferIndex := by
  have ht := tickNear_noFault h
  have stuck : ∀ {u : State} {rest : List Event} {m : Move}, s.tickNear = .stuck u →
      m.apply { u with script := rest } ≠ .fault .bufferIndex := by
    intro u rest m hu
    obtain ⟨hn, -, hf⟩ := State.tickNear_stuck hu
    exact Move.apply_noFault ⟨hn ▸ h.1, hf ▸ h.2⟩
  unfold State.turn
  split
  · split
    · nofun
    · exact ht
  · exact Move.apply_noFault h
  all_goals
    split
    · nofun
    · split
      · nofun
      · next hu => exact stuck hu
      · next hf => exact fun e => ht (by rw [hf, Turn.fault.inj e])
      · nofun

theorem run_noFault {f : Nat} {s : State} (h : s.Blocks Block.InBounds) : State.run f s ≠ .fault .bufferIndex := by
  induction f generalizing s with
  | zero => nofun
  | succ f ih =>
    unfold State.run
    split
    · nofun
    · split
      · next hu => exact ih (State.turn_blocks inBounds_stable h (.inl hu))
      · nofun
      · next hf => exact fun e => turn_noFault h (by rw [hf, Host.Outcome.fault.inj e])
      · nofun

theorem exec_noFault {s : State} (h : s.Inv) (i : Instr) : exec i s ≠ .fault .bufferIndex := by
  rw [exec_eq]
  unfold State.launch
  split
  · nofun
  · split
    · next ha =>
      cases hb : s.near.start s.far.role i with
      | ok b => exact run_noFault (h.start ha hb).1
      | error r => nofun
    · nofun

theorem idleTurn_noFault {s : State} (h : s.Inv) : s.idleTurn ≠ .fault .bufferIndex := by
  unfold State.idleTurn
  split
  · nofun
  · nofun
  · next hf => exact fun e => turn_noFault h.1 (by rw [hf, Host.Outcome.fault.inj e])
  · nofun

/-- Settles O58: whatever a step does, it does by turns of a state that meets the invariant. -/
theorem noBufferFault : Obligations.NoBufferFault := by
  refine fun s h => ⟨?_, exec_noFault h⟩
  unfold step
  split
  · next hf => exact exec_noFault (h.fetch hf) _
  · exact run_noFault h.1
  · exact idleTurn_noFault h
  · unfold State.haltedTurn
    split
    · nofun
    · exact idleTurn_noFault h
  · nofun

end Sys2Proof.Machine
end

section
/-! Wires and reset (R22, R33, R39): what a `Get` returns, when `contention_seen` is set, and the state right after reset. -/

namespace Sys2Proof.Machine

/-- Settles O8: the four pairs of directions, each of the two pairs that agree split by the latches. -/
theorem wireValue : Obligations.WireValue := by
  intro mine theirs l n
  simp only [getWire]
  generalize mine.get l = a
  generalize theirs.get l = b
  refine ⟨fun ha hb => ?_, fun ha hb => ?_, fun ha hb hp => ?_, fun ha hb hla hlb => ?_, fun ha hb he => ?_,
    fun ha hb he => ?_⟩ <;> simp only [wireSample, ha, hb]
  · rw [if_pos hp]
  · rw [if_neg (by simp [hla, hlb])]
  · rw [if_pos he]
  · rw [if_neg he]

/-- Settles O12: the two columns line by line, and the fields of the state after reset. -/
theorem resetState : Obligations.ResetState := by
  refine ⟨idleOf_data, by decide, rfl, rfl, ⟨rfl, rfl⟩, rfl, rfl, rfl, rfl, rfl, rfl, rfl, ?_⟩
  exact ⟨⟨le_refl 0, nofun, nofun⟩, trivial⟩

/-! ### `contention_seen` (R33) -/

theorem lineContended_free (a : LineState) : lineContended a .free = false := by
  simp [lineContended, LineState.free]

theorem contended_hiZ (ls : Lines) : contended ls .hiZ = false := by
  have e : ∀ l, Lines.hiZ.get l = .free := fun l => by cases l <;> rfl
  simp only [contended, e, lineContended_free, List.any_eq_false, Bool.false_eq_true, not_false_eq_true, implies_true]

/-- The flag of `t` is that of `s`, set if some wire of `t` is contended. -/
def State.Notes (s t : State) : Prop := t.contention = (s.contention || contended t.near.lines t.far.lines)

/-- The flag covers the wires (R33): the premise that every turn keeps. -/
def State.Covers (s : State) : Prop := contended s.near.lines s.far.lines = true → s.contention = true

/-- A state with the wires and the flag of one that covers its wires. -/
theorem State.Covers.notes {s t : State} (h : s.Covers) (hl : t.near.lines = s.near.lines)
    (hf : t.far.lines = s.far.lines) (hc : t.contention = s.contention) : s.Notes t := by
  rw [State.Notes, hc, hl, hf]
  cases hk : contended s.near.lines s.far.lines with
  | false => rw [Bool.or_false]
  | true => rw [h hk]; rfl

theorem Party.mapBlock_lines {f : Block → Block} (hf : ∀ b, (f b).lines = b.lines) (p : Party) :
    (p.mapBlock f).lines = p.lines := by
  cases p with
  | target t => rfl
  | block b => exact hf b

theorem State.tickNear_notes {s t : State} (h : s.tickNear = .moved t) : s.Notes t := by
  unfold State.tickNear at h
  split at h
  · exact Turn.moved.inj h ▸ rfl
  all_goals cases h

theorem State.tickNear_stuck_contention {s t : State} (h : s.tickNear = .stuck t) : t.contention = s.contention := by
  unfold State.tickNear at h
  split at h
  · cases h
  · exact Turn.stuck.inj h ▸ rfl
  all_goals cases h

theorem State.react_notes {s t : State} (h : s.react = some t) : s.Notes t := by
  simp only [State.react, Option.map_eq_some_iff] at h
  obtain ⟨a, -, rfl⟩ := h
  rfl

/-- A reset of the far block drops its lines, so it leaves no wire contended (log entry 27). -/
theorem resetFar_notes {s : State} (h : s.Covers) (t : State)
    (ht : t = { s with far := s.far.mapBlock (Block.blockReset s.drawn), drawn := s.drawn + 1 }) : s.Notes t := by
  subst ht
  cases hf : s.far with
  | target x => exact h.notes rfl (by rw [hf]; rfl) rfl
  | block b =>
    show s.contention = (s.contention || contended s.near.lines .hiZ)
    rw [contended_hiZ, Bool.or_false]

theorem Move.apply_notes {m : Move} {s t : State} (hm : m ≠ .resetNear) (h : s.Covers) (ht : m.apply s = .moved t) :
    s.Notes t := by
  cases m with
  | lines ls =>
    simp only [Move.apply] at ht
    split at ht
    · exact Turn.moved.inj ht ▸ rfl
    · exact Turn.moved.inj ht ▸ h.notes rfl rfl rfl
  | far k =>
    cases k with
    | zero => exact Turn.moved.inj ht ▸ h.notes rfl rfl rfl
    | succ k =>
      simp only [Move.apply, State.moveFar] at ht
      split at ht
      · exact Turn.moved.inj ht ▸ h.notes rfl rfl rfl
      · split at ht
        · exact Turn.moved.inj ht ▸ rfl
        · exact Turn.moved.inj ht ▸ h.notes rfl rfl rfl
        · cases ht
        · cases ht
  | serial x | call q => exact Turn.moved.inj ht ▸ h.notes rfl rfl rfl
  | farSerial x | farCall q =>
    exact Turn.moved.inj ht ▸ h.notes rfl (Party.mapBlock_lines (by exact fun _ => rfl) s.far) rfl
  | resetNear => exact absurd rfl hm
  | resetFar => exact resetFar_notes h t (Turn.moved.inj ht).symm

/-- Settles O9: the far party and the near block note their wires, and so does every move but the reset of the near block. -/
theorem contentionSeen : Obligations.ContentionSeen := by
  refine ⟨fun s t hs ht => ?_, fun s t ht => Turn.moved.inj ht ▸ rfl⟩
  rcases State.turn_moved ht with hr | ⟨u, hu, rfl | ⟨k, m, rest, -, rfl⟩⟩ | ⟨⟨d, m⟩, rest, u, he, hu, hm⟩
  · exact .inl (State.react_notes hr)
  · exact .inl (State.tickNear_notes hu)
  · have hn : s.Notes u := State.tickNear_notes hu
    exact .inl hn
  · obtain ⟨hn, hf, hc⟩ : u.near = s.near ∧ u.far = s.far ∧ u.contention = s.contention := by
      rcases hu with rfl | hu
      · exact ⟨rfl, rfl, rfl⟩
      · exact ⟨(State.tickNear_stuck hu).1, (State.tickNear_stuck hu).2.2, State.tickNear_stuck_contention hu⟩
    by_cases hreset : m = .resetNear
    · subst hreset
      exact .inr ⟨d, by rw [he, ← Turn.moved.inj hm], by rw [← Turn.moved.inj hm]⟩
    · left
      rw [← hc]
      exact Move.apply_notes (s := { u with script := rest }) hreset (by rw [State.Covers, hn, hf, hc]; exact hs) hm

end Sys2Proof.Machine
end

section
/-! Line sequences with nothing moving outside (R120, R121), and the block reset that ends in one (R39, R260 to R262). -/

namespace Sys2Proof.Machine

/-- A primitive of `PortHiZ` or `Reset`. -/
def Prim.isPort : Prim → Bool
  | .setRole _ => true
  | x => x.isLine

theorem Prim.run_port {x : Prim} (h : x.isPort = true) (p : Peer) (n : Nat) (b : Block) :
    x.run p n b = .moved { b with lines := x.onLines b.lines, role := x.onRole b.role } n := by
  cases x with
  | setDir _ _ | setLvl _ _ | delay _ | setRole _ => rfl
  | get _ | storeHost | storeSlot | senseWrsel | senseAstb => cases h

theorem resetPrims_isPort (us : Nat) (r : Role) : ∀ x ∈ resetPrims us r, x.isPort = true :=
  List.all_eq_true.mp (by cases r <;> rfl)

theorem resetPrims_length (us : Nat) (r : Role) : (resetPrims us r).length ≤ 47 := by
  cases r <;> simp [resetPrims, resetPulse, portHiZPrims, controlStage, dataIdle, dataLines, allLines]

theorem tick_port {b : Block} {x : Prim} {r : List Prim} (p : Peer) (n : Nat) (ht : b.todo = x :: r)
    (hx : x.isPort = true) (hh : b.host.ph = .idle) (hp : b.per.ph = .idle) :
    b.tick p n = .moved { b with lines := x.onLines b.lines, role := x.onRole b.role, todo := r } n := by
  rw [Block.tick_advance (Block.clashes_idle hh hp), Block.advance_todo _ _ ht, Prim.run_port hx]

theorem tick_rph {b : Block} (p : Peer) (n : Nat) (ht : b.todo = []) (hr : b.rph = .running) (hh : b.host.ph = .idle)
    (hp : b.per.ph = .idle) : b.tick p n = .moved { b with rph := .idle } n := by
  rw [Block.tick_advance (Block.clashes_idle hh hp), Block.advance_rph _ _ ht hr]

/-- The block once the steps of its line sequence are done. -/
def Block.afterTodo (b : Block) : Block :=
  { b with lines := linesAfter b.todo b.lines, role := roleAfter b.todo b.role, todo := [] }

theorem Block.afterTodo_nil {b : Block} (h : b.todo = []) : b.afterTodo = b := by
  cases b
  simp only [Block.afterTodo] at h ⊢
  subst h
  rfl

theorem Block.afterTodo_cons {b : Block} {x : Prim} {r : List Prim} (h : b.todo = x :: r) :
    b.afterTodo = ({ b with lines := x.onLines b.lines, role := x.onRole b.role, todo := r } : Block).afterTodo := by
  simp only [Block.afterTodo, h]
  rfl

/-- One step of a block with nothing moving outside is one turn. -/
theorem alone_tick {s : State} {b : Block} {n : Nat} (ha : s.Alone) (hr : s.near.atRest = false)
    (ht : s.near.tick s.far.asPeer s.drawn = .moved b n) :
    Reaches 1 s { s with near := b, drawn := n, contention := s.contention || contended b.lines s.far.lines } :=
  .of_turn hr (by rw [State.turn_near ha.1 (ha.2 _ _), State.tickNear_moved ht])

/-- A line sequence to its last primitive: whatever wires clash meanwhile, `contention_seen` is not cleared (R33). -/
theorem alone_port {todo : List Prim} : ∀ {s : State}, s.Alone → s.near.todo = todo → (∀ x ∈ todo, x.isPort = true) →
    s.near.host.ph = .idle → s.near.per.ph = .idle → ∃ c, (s.contention = true → c = true) ∧
      Reaches todo.length s { s with near := s.near.afterTodo, contention := c } := by
  induction todo with
  | nil =>
    intro s _ ht _ _ _
    refine ⟨s.contention, id, ?_⟩
    rw [Block.afterTodo_nil ht]
    exact .refl s
  | cons x r ih =>
    intro s ha ht hx hh hp
    have h1 := alone_tick ha (Block.not_atRest_of_todo ht) (tick_port _ _ ht (hx x (by simp)) hh hp)
    obtain ⟨c, hc, h2⟩ := ih (s := { s with
      near := { s.near with lines := x.onLines s.near.lines, role := x.onRole s.near.role, todo := r },
      contention := s.contention || contended (x.onLines s.near.lines) s.far.lines }) ha rfl
      (fun y hy => hx y (by simp [hy])) hh hp
    refine ⟨c, fun h => hc (by simp [h]), ?_⟩
    rw [List.length_cons, Nat.add_comm, Block.afterTodo_cons ht]
    exact h1.trans h2

/-- A line sequence with its end, after which the block goes on with what it has called it for. -/
theorem alone_sequence {s : State} (ha : s.Alone) (hx : ∀ x ∈ s.near.todo, x.isPort = true) (hr : s.near.rph = .running)
    (hh : s.near.host.ph = .idle) (hp : s.near.per.ph = .idle) : ∃ c, (s.contention = true → c = true) ∧
      Reaches (s.near.todo.length + 1) s
        { s with near := { s.near.afterTodo with rph := .idle }, contention := c } := by
  obtain ⟨c, hc, h1⟩ := alone_port ha rfl hx hh hp
  have h2 := alone_tick (s := { s with near := s.near.afterTodo, contention := c }) ha (Block.not_atRest_of_rph hr)
    (tick_rph _ _ rfl hr hh hp)
  exact ⟨_, fun h => by simp [hc h], h1.trans h2⟩

/-- The `Reset` that a block reset leaves to be done ends in the reset values of the block (R39, R261). -/
theorem blockReset_afterTodo (n : Nat) (b : Block) :
    ({ (b.blockReset n).afterTodo with rph := .idle } : Block) = { Block.afterReset b.par n with sin := b.sin } := by
  have hl := resetPrims_lines b.par.settleUs b.par.board .hiZ
  have hr := resetPrims_role b.par.settleUs b.par.board b.role
  simp only [Block.afterTodo, Block.blockReset, hl, hr, Block.afterReset]

/-- Settles O11: the reset puts a line sequence in place, which runs to its end in fewer turns than a step has. -/
theorem blockReset : Obligations.BlockReset := by
  intro s t ha ht
  obtain rfl := Turn.moved.inj ht
  refine ⟨rfl, rfl, ?_⟩
  obtain ⟨c, -, h⟩ := alone_sequence
    (s := { s with near := s.near.blockReset s.drawn, drawn := s.drawn + 1, contention := false }) ha
    (resetPrims_isPort _ _) rfl rfl rfl
  have hlen := resetPrims_length s.near.par.settleUs s.near.par.board
  have hrun := run_of_reaches (f := Config.burst) h.within
    (le_trans (Nat.add_le_add_right hlen 1) (by decide)) rfl
  rw [blockReset_afterTodo] at hrun
  exact ⟨_, hrun, rfl, rfl, rfl, rfl, rfl, rfl, rfl, rfl, rfl, rfl, fun _ => rfl, fun _ _ h => if_pos h⟩

end Sys2Proof.Machine
end

section
/-! What a step below the dispatcher may change, sequencer by sequencer (R25 to R30, R32). A layer that may change is blanked
out of the block, so that "nothing else changed" is one equation between blocks. -/

namespace Sys2Proof.Machine

/-- What holds of the block an operation starts in, if it is not refused. -/
def StartEnds (P : Block → Prop) : Except Refusal Block → Prop
  | .ok b => P b
  | .error _ => True

/-- What holds of the block a tick moves to, if it moves. -/
def Tick.Ends (P : Block → Prop) : Tick → Prop
  | .moved b _ => P b
  | .waiting _ => True
  | .fault _ => True
  | .refused _ => True

theorem StartEnds.ok {P : Block → Prop} {e : Except Refusal Block} {b : Block} (h : StartEnds P e) (he : e = .ok b) :
    P b := by
  rw [he] at h
  exact h

theorem StartEnds.mono {P Q : Block → Prop} {e : Except Refusal Block} (h : StartEnds P e) (hPQ : ∀ b, P b → Q b) :
    StartEnds Q e := by
  cases e with
  | ok b => exact hPQ b h
  | error r => trivial

theorem StartEnds.and {P Q : Block → Prop} {e : Except Refusal Block} (h : StartEnds P e) (h' : StartEnds Q e) :
    StartEnds (fun b => P b ∧ Q b) e := by
  cases e with
  | ok b => exact ⟨h, h'⟩
  | error r => trivial

theorem StartEnds.ofBegin {P : Block → Prop} {e : Except Refusal Block} (n : Nat) (h : StartEnds P e) :
    (Tick.ofBegin n e).Ends P := by
  cases e with
  | ok b => exact h
  | error r => trivial

theorem Tick.Ends.moved {P : Block → Prop} {t : Tick} {b : Block} {n : Nat} (h : t.Ends P) (ht : t = .moved b n) :
    P b := by
  rw [ht] at h
  exact h

theorem Tick.Ends.mono {P Q : Block → Prop} {t : Tick} (h : t.Ends P) (hPQ : ∀ b, P b → Q b) : t.Ends Q := by
  cases t with
  | moved b n => exact hPQ b h
  | waiting _ | fault _ | refused _ => trivial

/-! ### Layers blanked out -/

/-- The block without what the call of a transaction writes (R124). -/
def Block.lessTransaction (b : Block) : Block := { b with host := .afterReset 0, todo := [] }

/-- The block without what a call of the SPI layer writes (R171, R172). -/
def Block.lessSpiCall (b : Block) : Block := { b.lessTransaction with spi := .afterReset }

/-- The block without what a call of the flash sequencer, or a call by it, writes (R181). -/
def Block.lessFlashCall (b : Block) : Block := { b.lessSpiCall with flash := .afterReset 0 }

/-- The block without what the start of an operation below the dispatcher writes. -/
def Block.lessStart (b : Block) : Block := { b.lessFlashCall with per := .afterReset 0, rph := .idle, ubuf := [] }

/-- The block without its lines and the working state of the host engine (R25). -/
def Block.lessEngine (b : Block) : Block := { b.lessTransaction with lines := .hiZ, smp := [], res := 0, bus := [] }

/-- The block without the SPI layer and what is below it (R29). -/
def Block.lessSpi (b : Block) : Block := { b.lessEngine with spi := .afterReset }

/-- The block without the flash sequencer and what is below it (R29, R30). -/
def Block.lessFlash (b : Block) : Block := { b.lessEngine with spi := .afterReset, flash := .afterReset 0 }

/-- The block without its lines and the working state of a peripheral cycle (R27). -/
def Block.lessPeripheral (b : Block) : Block := { b with lines := .hiZ, per := .afterReset 0, todo := [], smp := [] }

/-- The parameters, the dispatcher, the serial streams and the pending requests, with everything below the dispatcher
blanked out (R31, R34). -/
def Block.top (b : Block) : Block :=
  { b.lessFlash with per := .afterReset 0, role := .host, rph := .idle, buf := [], ubuf := [] }

/-! ### The calls of the layers -/

section
variable {q b : Block}

theorem beginTransaction_lessTransaction {peer : Option Role} {ref : BufRef} {len : Nat} {rd ac : Bool}
    (h : b.lessTransaction = q) : StartEnds (·.lessTransaction = q) (b.beginTransaction peer ref len rd ac) := by
  unfold Block.beginTransaction
  repeat' split
  · trivial
  · trivial
  · trivial
  · exact h

theorem spiCall_lessSpiCall {peer : Option Role} {ph : SPhase} (h : b.lessSpiCall = q) :
    StartEnds (·.lessSpiCall = q) (b.spiCall peer ph) := by
  have begins : ∀ ref len rd ac, StartEnds (·.lessSpiCall = q)
      (({ b with spi := { b.spi with ph := ph } } : Block).beginTransaction peer ref len rd ac) := fun _ _ _ _ =>
    (beginTransaction_lessTransaction rfl).mono fun _ e => (congrArg Block.lessSpiCall e).trans h
  unfold Block.spiCall Block.spiEngineCall
  cases ph with
  | idle => exact h
  | s1 | s3 => exact begins ..
  | s2 | s4 => cases b.spi.kind <;> exact begins ..

theorem beginSpiReset_lessSpiCall {peer : Option Role} {first last : SPhase} (h : b.lessSpiCall = q) :
    StartEnds (·.lessSpiCall = q) (b.beginSpiReset peer first last) := spiCall_lessSpiCall h

theorem beginSpiTransaction_lessSpiCall {peer : Option Role} {ref : BufRef} {len : Nat} {rd : Bool}
    {first last : SPhase} (h : b.lessSpiCall = q) :
    StartEnds (·.lessSpiCall = q) (b.beginSpiTransaction peer ref len rd first last) := by
  unfold Block.beginSpiTransaction
  split
  · trivial
  · exact spiCall_lessSpiCall h

theorem flashDeselect_lessFlashCall {peer : Option Role} (h : b.lessFlashCall = q) :
    StartEnds (·.lessFlashCall = q) (b.flashDeselect peer) :=
  (beginSpiReset_lessSpiCall rfl).mono fun _ e => (congrArg Block.lessFlashCall e).trans h

theorem flashPoll_lessFlashCall {peer : Option Role} (h : b.lessFlashCall = q) :
    StartEnds (·.lessFlashCall = q) (b.flashPoll peer) :=
  (beginSpiReset_lessSpiCall rfl).mono fun _ e => (congrArg Block.lessFlashCall e).trans h

/-- A flash command, from any registers of the sequencer. -/
theorem flashCommand_lessFlashCall {peer : Option Role} {ref : BufRef} {len : Nat} {rd : Bool} {first last : SPhase}
    {f : FlashRegs} (h : b.lessFlashCall = q) : StartEnds (·.lessFlashCall = q)
      (({ b with flash := f } : Block).beginSpiTransaction peer ref len rd first last) :=
  (beginSpiTransaction_lessSpiCall rfl).mono fun _ e => (congrArg Block.lessFlashCall e).trans h

theorem beginFlash_lessFlashCall {ref : BufRef} {len : Nat} {init : Bool} (h : b.lessFlashCall = q) :
    StartEnds (·.lessFlashCall = q) (b.beginFlash ref len init) := by
  unfold Block.beginFlash
  repeat' split
  · trivial
  · trivial
  · exact h

theorem peripheralGuard_ends {P : Block → Prop} {peer : Option Role} {f : Block → Block} (h : P (f b)) :
    StartEnds P ((b.peripheralGuard peer).map f) := by
  unfold Block.peripheralGuard
  repeat' split
  · trivial
  · trivial
  · exact h

/-! ### The steps of the layers -/

/-- A write to a buffer (R24, R28): only `BUF`, `ST` and a caller's buffer are written. -/
theorem bufWrite_some {b' : Block} {r : BufRef} {i : Nat} {v : Byte} (hw : b.bufWrite r i v = some b') :
    (r = .buf ∧ b' = { b with buf := b.buf.write i v }) ∨ (r = .st ∧ b' = { b with flash := { b.flash with st := v } }) ∨
      (r = .user ∧ b' = { b with ubuf := b.ubuf.set i v }) := by
  unfold Block.bufWrite at hw
  cases r <;> dsimp only at hw
  case buf | st | user =>
    split at hw
    · obtain rfl := Option.some.inj hw
      simp
    · cases hw
  all_goals cases hw

/-- A step of the host engine, and what the transaction returns when it ends (R125, R128). -/
theorem hostTick_lessEngine {p : Peer} {n : Nat} :
    (hostTick p n b).Ends fun b' => b'.lessEngine = b.lessEngine ∧ (b'.res = b.res ∨ b'.res = b.host.len) := by
  unfold hostTick
  cases b.host.ph <;> dsimp only
  case idle => trivial
  case setup | restore => split <;> exact ⟨rfl, .inl rfl⟩
  case preWait =>
    repeat' split
    · trivial
    · exact ⟨rfl, .inl rfl⟩
    · trivial
    · exact ⟨rfl, .inl rfl⟩
  case ackWait =>
    split
    · trivial
    · exact ⟨rfl, .inl rfl⟩
  case put | strobe | get | release => exact ⟨rfl, .inl rfl⟩
  case finish => exact ⟨rfl, .inr rfl⟩

theorem peripheralTick_lessPeripheral {p : Peer} {n : Nat} :
    (peripheralTick p n b).Ends (·.lessPeripheral = b.lessPeripheral) := by
  unfold peripheralTick
  cases b.per.ph <;> dsimp only
  case idle => trivial
  case check => split <;> rfl
  case strobeWait | releaseWait =>
    split
    · rfl
    · trivial
  case decode | drive | ack | take | done => rfl

theorem spiTick_lessSpiCall {p : Peer} {n : Nat} : (spiTick p n b).Ends (·.lessSpiCall = b.lessSpiCall) := by
  unfold spiTick
  split
  · rfl
  · exact (spiCall_lessSpiCall rfl).ofBegin n

theorem flashNext_ends {P : Block → Prop} {next : Except Refusal Block} {n : Nat} (h : P (b.flashTo .idle))
    (hn : StartEnds P next) : (flashNext n b next).Ends P := by
  unfold flashNext
  split
  · exact h
  · exact hn.ofBegin n

/-- A step of the flash sequencer, and what `FlashProgram` returns when it ends (R181, R188). -/
theorem flashTick_lessFlash {p : Peer} {n : Nat} :
    (flashTick p n b).Ends fun b' => b'.lessFlash = b.lessFlash ∧ (b'.res = b.res ∨ b'.res = b.flash.i) := by
  have calls : ∀ {e : Except Refusal Block}, StartEnds (·.lessFlashCall = b.lessFlashCall) e →
      StartEnds (fun b' => b'.lessFlash = b.lessFlash ∧ (b'.res = b.res ∨ b'.res = b.flash.i)) e := fun he =>
    he.mono fun _ e => ⟨(congrArg Block.lessFlash e :), .inl (congrArg Block.res e :)⟩
  unfold flashTick
  cases b.flash.ph <;> dsimp only
  case idle => trivial
  case test =>
    split
    · exact (calls (flashDeselect_lessFlashCall rfl)).ofBegin n
    · exact ⟨rfl, .inl rfl⟩
  case deselect =>
    repeat' split
    · exact ⟨rfl, .inl rfl⟩
    · trivial
    · exact (calls (flashCommand_lessFlashCall rfl)).ofBegin _
    · exact (calls (flashCommand_lessFlashCall rfl)).ofBegin _
  case seed | incr =>
    refine flashNext_ends ⟨rfl, .inl rfl⟩ ?_
    split
    · exact ⟨rfl, .inl rfl⟩
    · exact calls (flashPoll_lessFlashCall (by rfl))
  case pollDeselect | pollCmd => exact flashNext_ends ⟨rfl, .inl rfl⟩ (calls (flashCommand_lessFlashCall rfl))
  case pollRead =>
    refine flashNext_ends ⟨rfl, .inl rfl⟩ ?_
    split <;> exact ⟨rfl, .inl rfl⟩
  case pollTest =>
    split
    · exact (calls (flashPoll_lessFlashCall rfl)).ofBegin n
    · exact ⟨rfl, .inl rfl⟩
  case done => exact ⟨rfl, .inr rfl⟩

theorem prim_top {x : Prim} {p : Peer} {n : Nat} : (x.run p n b).Ends fun b' => b'.top = b.top ∧ b'.res = b.res := by
  cases x with
  | storeHost =>
    unfold Prim.run
    dsimp only
    split
    · next hw => rcases bufWrite_some hw with ⟨-, rfl⟩ | ⟨-, rfl⟩ | ⟨-, rfl⟩ <;> exact ⟨rfl, rfl⟩
    · trivial
  | setDir _ _ | setLvl _ _ | delay _ | get _ | storeSlot | senseWrsel | senseAstb | setRole _ => exact ⟨rfl, rfl⟩

end

/-- A step below the dispatcher leaves the dispatcher and the serial streams alone, and does not make a failure of a result
that is none (R26, R32, R128). -/
theorem tick_below {b b' : Block} {p : Peer} {n m : Nat} (hi : b.idleBelow = false) (hb : b.tick p n = .moved b' m) :
    b'.top = b.top ∧ (0 ≤ b.res → 0 ≤ b'.res) := by
  have same : ∀ {b1 : Block}, b1.res = b.res → 0 ≤ b.res → 0 ≤ b1.res := fun e h => h.trans_eq e.symm
  have counts : ∀ {b1 : Block} {k : Nat}, b1.res = b.res ∨ b1.res = k → 0 ≤ b.res → 0 ≤ b1.res := fun e h =>
    e.elim (same · h) fun e => (Int.natCast_nonneg _).trans_eq e.symm
  refine Tick.Ends.moved (P := fun b' => b'.top = b.top ∧ (0 ≤ b.res → 0 ≤ b'.res)) ?_ (Block.advance_of_moved hb)
  unfold Block.advance
  split
  · exact prim_top.mono fun _ e => ⟨e.1, same e.2⟩
  · next ht =>
    split
    · exact ⟨rfl, id⟩
    · split
      · exact hostTick_lessEngine.mono fun _ e => ⟨(congrArg Block.top e.1 :), counts e.2⟩
      · split
        · exact peripheralTick_lessPeripheral.mono fun _ e => ⟨(congrArg Block.top e :), same (congrArg Block.res e :)⟩
        · split
          · exact spiTick_lessSpiCall.mono fun _ e => ⟨(congrArg Block.top e :), same (congrArg Block.res e :)⟩
          · split
            · exact flashTick_lessFlash.mono fun _ e => ⟨(congrArg Block.top e.1 :), counts e.2⟩
            · next hr hh hp hs hf =>
              have hr : b.rph = .idle := by cases e : b.rph <;> simp_all
              simp_all [Block.idleBelow]

/-! ### The start of an operation -/

/-- The two header bytes of a command (R91, R95). -/
def Instr.header : Instr → Option (Byte × Byte)
  | .cmdA x => some (Config.letterA, x)
  | .cmdB x => some (Config.letterB, x)
  | .cmdC x => some (Config.letterC, x)
  | .cmdE x => some (Config.letterE, x)
  | .cmdP x => some (Config.letterP, x)
  | .cmdR x => some (Config.letterR, x)
  | .cmdW x => some (Config.letterW, x)
  | .unrecognized c x => some (c, x)
  | _ => none

/-- A command starts with its header. -/
theorem start_header {i : Instr} {c x : Byte} (h : Instr.header i = some (c, x)) (peer : Option Role) (b : Block) :
    b.start peer i = .ok (b.header c x) := by
  cases i <;> cases h <;> rfl

section
variable {q b : Block}

/-- The start of an operation that is neither a command nor an abort leaves the dispatcher, the lines, the role, `BUF`, the
serial streams and the result alone. -/
theorem start_lessStart {peer : Option Role} {i : Instr} (hc : Instr.header i = none) (ha : ∀ r, i ≠ .abort r)
    (h : b.lessStart = q) : StartEnds (·.lessStart = q) (b.start peer i) := by
  have begins : ∀ {b1 : Block} {ref len rd ac}, b1.lessStart = q →
      StartEnds (·.lessStart = q) (b1.beginTransaction peer ref len rd ac) := fun h1 =>
    (beginTransaction_lessTransaction rfl).mono fun _ e => (congrArg Block.lessStart e).trans h1
  have resets : ∀ {first last}, StartEnds (·.lessStart = q) (b.beginSpiReset peer first last) :=
    (beginSpiReset_lessSpiCall rfl).mono fun _ e => (congrArg Block.lessStart e).trans h
  have sends : ∀ {b1 : Block} {ref len rd first last}, b1.lessStart = q →
      StartEnds (·.lessStart = q) (b1.beginSpiTransaction peer ref len rd first last) := fun h1 =>
    (beginSpiTransaction_lessSpiCall rfl).mono fun _ e => (congrArg Block.lessStart e).trans h1
  unfold Block.start
  cases i with
  | cmdA _ | cmdB _ | cmdC _ | cmdE _ | cmdP _ | cmdR _ | cmdW _ | unrecognized _ _ => cases hc
  | abort r => exact absurd rfl (ha r)
  | noCycle _ | portHiZ | reset _ => exact h
  | cycleAddressWrite _ | cycleAddressRead | cycleDataWrite _ | cycleDataRead =>
    show StartEnds _ (b.callCycle peer _ _ _)
    unfold Block.callCycle
    split
    · exact begins h
    · exact peripheralGuard_ends h
  | cycleReserved _ =>
    show StartEnds _ (b.callReserved peer _)
    unfold Block.callReserved
    split
    · trivial
    · exact peripheralGuard_ends h
  | peripheralCycle _ => exact peripheralGuard_ends h
  | write _ _ | setAddress _ _ | read _ _ | getAddress _ _ | transaction _ _ _ _ =>
    show StartEnds _ (b.callTransaction peer _ _ _ _)
    unfold Block.callTransaction
    split
    · trivial
    · exact begins h
  | ptChipDisable | ptDataClear | spiReset => exact resets
  | flashAaiSeed _ _ | flashAaiIncrement _ _ =>
    exact (flashDeselect_lessFlashCall rfl).mono fun _ e => (congrArg Block.lessStart e).trans h
  | flashReadStatus => exact (flashPoll_lessFlashCall rfl).mono fun _ e => (congrArg Block.lessStart e).trans h
  | ptChipEnable => exact sends h
  | ptPayload _ _ _ | spiTransaction _ _ _ =>
    show StartEnds _ (b.callSpiTransaction peer _ _ _ _ _)
    unfold Block.callSpiTransaction
    split
    · trivial
    · exact sends h
  | flashProgram _ _ _ =>
    show StartEnds _ (b.callFlashProgram _ _ _)
    unfold Block.callFlashProgram
    split
    · trivial
    · exact (beginFlash_lessFlashCall rfl).mono fun _ e => (congrArg Block.lessStart e).trans h

end

/-- What the start of an operation is: the header of a command, an abort, or a start below the dispatcher. -/
theorem start_cases {b b' : Block} {peer : Option Role} {i : Instr} (hb : b.start peer i = .ok b') :
    (∃ c x, Instr.header i = some (c, x) ∧ b' = b.header c x) ∨ (∃ r, i = .abort r ∧ b' = b.enterAbort r) ∨
      (Instr.header i = none ∧ (∀ r, i ≠ .abort r) ∧ b'.lessStart = b.lessStart) := by
  cases hc : Instr.header i with
  | some cx =>
    rw [start_header hc] at hb
    exact .inl ⟨cx.1, cx.2, rfl, (Except.ok.inj hb).symm⟩
  | none =>
    by_cases ha : ∃ r, i = .abort r
    · obtain ⟨r, rfl⟩ := ha
      refine .inr (.inl ⟨r, rfl, ?_⟩)
      simp only [Block.start, Block.startAbort, Block.callAbort] at hb
      split at hb
      · exact (Except.ok.inj hb).symm
      · cases hb
    · have ha : ∀ r, i ≠ .abort r := fun r e => ha ⟨r, e⟩
      exact .inr (.inr ⟨rfl, ha, (start_lessStart hc ha rfl).ok hb⟩)

end Sys2Proof.Machine
end

section
/-! A step of the dispatcher with nothing running below it (R200, R203 to R213): which registers it may write, and where.
From it follow the writers of the session flags (R32, R204) and the order of the serial streams (R34). -/

namespace Sys2Proof.Machine

/-- The dispatcher is at the step `st` of `D_EXEC`. -/
def DispRegs.At (d : DispRegs) (st : DStep) : Prop := d.ph = .exec ∧ d.step = st

/-- The command that a flag-writing step of `D_EXEC` belongs to (R203, R208 to R210). -/
def DStep.For (c : Byte) : DStep → Prop
  | .pendAddr => c = Config.letterA
  | .pendValid => c = Config.letterA
  | .setAddress => c = Config.letterR ∨ c = Config.letterW
  | .flash => c = Config.letterP
  | _ => True

/-- What a step of the dispatcher between the header and the end of a command does to its own registers, to the serial
streams and to the result; a field left out at a use says that nothing happens to its register. -/
structure Block.Dispatches (b b' : Block) : Prop where
  cmd : b'.disp.cmd = b.disp.cmd := by rfl
  ph : b'.disp.ph ≠ .header1 := by nofun
  halted : b'.disp.ph = .halted → ∃ r, b.disp.At (.aborting r) := by nofun
  step : (b.disp.ph = .exec → b.disp.step.For b.disp.cmd) → b'.disp.ph = .exec → b'.disp.step.For b.disp.cmd
  prog : b'.disp.progActive = b.disp.progActive ∨ b.disp.At .flash ∧ b'.disp.progActive = true := by exact .inl rfl
  addr : b'.disp.pendAddr = b.disp.pendAddr ∨ b.disp.At .pendAddr := by exact .inl rfl
  valid : b'.disp.pendValid = b.disp.pendValid ∨ b.disp.At .pendValid ∨
    b.disp.At .setAddress ∧ b'.disp.pendValid = false := by exact .inl rfl
  sin : b'.sin <:+ b.sin := by exact List.suffix_rfl
  sout : b.sout <+: b'.sout := by exact List.prefix_rfl
  res : b'.res = b.res ∨ ∃ r, b.disp.At (.aborting r) := by exact .inl rfl

/-- The phases that a step goes to without a flag-writing step of another command. -/
def DPhase.Open (c : Byte) (ph : DPhase) (st : DStep) : Prop :=
  ph ≠ .header1 ∧ ph ≠ .halted ∧ (ph = .exec → st.For c)

/-- A passage to another phase that writes no flag. -/
theorem Block.Dispatches.to {b b' : Block} {ph : DPhase} {st : DStep} {k : Nat}
    (hd : b'.disp = { b.disp with ph := ph, step := st, k := k }) (ho : ph.Open b.disp.cmd st)
    (hi : b'.sin <:+ b.sin) (hs : b.sout <+: b'.sout) (hr : b'.res = b.res) : b.Dispatches b' := by
  obtain ⟨h1, h2, h3⟩ := ho
  constructor
  case sin => exact hi
  case sout => exact hs
  case res => exact .inl hr
  all_goals rw [hd]
  case halted => exact fun e => absurd e h2
  case step => exact fun _ => h3
  case ph => exact h1
  all_goals exact .inl rfl

/-- A passage to a phase that calls an operation. -/
theorem dispatches_call {b : Block} {st : DStep} {e : Except Refusal Block} (ho : st.For b.disp.cmd)
    (he : StartEnds (·.lessFlashCall = (b.dispTo .exec st 0).lessFlashCall) e) : StartEnds b.Dispatches e := by
  refine he.mono fun b' h => ?_
  have hsin : b'.sin = b.sin := (congrArg Block.sin h :)
  have hsout : b'.sout = b.sout := (congrArg Block.sout h :)
  exact .to (congrArg Block.disp h :) ⟨nofun, nofun, fun _ => ho⟩ (hsin ▸ List.suffix_rfl) (hsout ▸ List.prefix_rfl)
    (congrArg Block.res h :)

section
variable {b : Block}

theorem dispTo_dispatches {ph : DPhase} {st : DStep} {k : Nat} (ho : ph.Open b.disp.cmd st) :
    b.Dispatches (b.dispTo ph st k) :=
  .to rfl ho List.suffix_rfl List.prefix_rfl rfl

theorem beginBusData_dispatches (peer : Option Role) : StartEnds b.Dispatches (b.beginBusData peer) :=
  dispatches_call (st := .transfer) trivial
    ((beginTransaction_lessTransaction rfl).mono fun _ e => (congrArg Block.lessFlashCall e :))

theorem beginBus_dispatches (peer : Option Role) (hc : b.disp.cmd = Config.letterR ∨ b.disp.cmd = Config.letterW) :
    StartEnds b.Dispatches (b.beginBus peer) := by
  unfold Block.beginBus
  split
  · exact dispatches_call (st := .setAddress) hc
      ((beginTransaction_lessTransaction rfl).mono fun _ e => (congrArg Block.lessFlashCall e :))
  · exact beginBusData_dispatches peer

theorem afterBody_dispatches (peer : Option Role) : StartEnds b.Dispatches (b.afterBody peer) := by
  unfold Block.afterBody
  split
  · next h => exact beginBus_dispatches peer (.inr h)
  · split
    · next h => exact dispatches_call (st := .flash) h (beginFlash_lessFlashCall rfl)
    · exact dispTo_dispatches ⟨nofun, nofun, nofun⟩

theorem beginCommand_dispatches (peer : Option Role) : StartEnds b.Dispatches (b.beginCommand peer) := by
  have body : b.Dispatches b.beginBody := dispTo_dispatches ⟨nofun, nofun, nofun⟩
  have unknown : b.Dispatches b.beginUnrecognized := dispTo_dispatches ⟨nofun, nofun, nofun⟩
  unfold Block.beginCommand
  split
  · next h => exact dispTo_dispatches ⟨nofun, nofun, fun _ => h⟩
  split
  · exact dispTo_dispatches ⟨nofun, nofun, fun _ => trivial⟩
  split
  · show b.Dispatches b.beginC
    unfold Block.beginC
    split
    · exact dispTo_dispatches ⟨nofun, nofun, nofun⟩
    · exact unknown
  split
  · exact body
  split
  · exact body
  split
  · next h => exact beginBus_dispatches peer (.inl h)
  split
  · exact body
  · exact unknown

theorem bodyTick_dispatches (p : Peer) (n : Nat) : (bodyTick p n b).Ends b.Dispatches := by
  unfold bodyTick
  split
  · split
    · trivial
    · next x rest hs =>
      split
      · trivial
      · next b' hw =>
        rcases bufWrite_some hw with ⟨-, rfl⟩ | ⟨h, -⟩ | ⟨h, -⟩
        · exact .to rfl ⟨nofun, nofun, nofun⟩ (hs ▸ List.suffix_cons x rest) List.prefix_rfl rfl
        · cases h
        · cases h
  · exact (afterBody_dispatches _).ofBegin n

theorem fillTick_dispatches (n : Nat) : (fillTick n b).Ends b.Dispatches := by
  unfold fillTick
  split
  · trivial
  · next b' hw =>
    rcases bufWrite_some hw with ⟨-, rfl⟩ | ⟨h, -⟩ | ⟨h, -⟩
    · split
      · exact .to rfl ⟨nofun, nofun, fun _ => trivial⟩ List.suffix_rfl List.prefix_rfl rfl
      · exact .to rfl ⟨nofun, nofun, nofun⟩ List.suffix_rfl List.prefix_rfl rfl
    · cases h
    · cases h

/-- The abort after a negative result, or the next phase. -/
theorem afterCall_dispatches {b' : Block} (h : b.Dispatches b') :
    b.Dispatches (if b.res < 0 then b.enterAbort b.res else b') := by
  split
  · exact .to rfl ⟨nofun, nofun, fun _ => trivial⟩ List.suffix_rfl List.prefix_rfl rfl
  · exact h

theorem execTick_dispatches (p : Peer) (n : Nat) (hp : b.disp.ph = .exec) : (execTick p n b).Ends b.Dispatches := by
  have respond : b.Dispatches (b.dispTo .respond .decode 0) := dispTo_dispatches ⟨nofun, nofun, nofun⟩
  unfold execTick
  cases hs : b.disp.step <;> dsimp only
  case lm1 | length | clearProg | cycle => trivial
  case decode => exact (beginCommand_dispatches _).ofBegin n
  case pendAddr => exact { step := fun h _ => (hs ▸ h hp : DStep.For _ .pendAddr), addr := .inr ⟨hp, hs⟩ }
  case pendValid => exact { step := fun _ => nofun, valid := .inr (.inl ⟨hp, hs⟩) }
  case fill => exact fillTick_dispatches n
  case setAddress =>
    exact afterCall_dispatches { step := fun _ _ => trivial, valid := .inr (.inr ⟨⟨hp, hs⟩, rfl⟩) }
  case sendData => exact (beginBusData_dispatches _).ofBegin n
  case transfer | flashTest => exact afterCall_dispatches respond
  case flash => exact { step := fun _ _ => trivial, prog := .inr ⟨⟨hp, hs⟩, rfl⟩ }
  case consoleReset => exact .to rfl ⟨nofun, nofun, nofun⟩ List.suffix_rfl List.prefix_rfl rfl
  case aborting r => exact { halted := fun _ => ⟨r, hp, hs⟩, step := fun _ => nofun, res := .inr ⟨r, hp, hs⟩ }

theorem respondTick_dispatches (n : Nat) : (respondTick n b).Ends b.Dispatches := by
  have sends : ∀ {ph : DPhase} {k : Nat} (x : Byte), ph ≠ .header1 → ph ≠ .halted → ph ≠ .exec →
      b.Dispatches (({ b with sout := b.sout ++ [x] } : Block).dispTo ph .decode k) := fun x h1 h2 h3 =>
    .to rfl ⟨h1, h2, fun e => absurd e h3⟩ List.suffix_rfl (List.prefix_append ..) rfl
  unfold respondTick
  split
  · split
    · exact sends _ nofun nofun nofun
    · exact .to rfl ⟨nofun, nofun, fun _ => trivial⟩ List.suffix_rfl List.prefix_rfl rfl
  split
  · exact sends _ nofun nofun nofun
  split
  · split
    · trivial
    · exact sends _ nofun nofun nofun
  · exact dispTo_dispatches ⟨nofun, nofun, nofun⟩

theorem consoleTick_dispatches (p : Peer) (n : Nat) : (consoleTick p n b).Ends b.Dispatches := by
  unfold consoleTick
  split
  · refine StartEnds.ofBegin n (peripheralGuard_ends ?_)
    exact .to rfl ⟨nofun, nofun, nofun⟩ List.suffix_rfl List.prefix_rfl rfl
  · show b.Dispatches _
    split
    · exact .to rfl ⟨nofun, nofun, nofun⟩ List.suffix_rfl (List.prefix_append ..) rfl
    · exact dispTo_dispatches ⟨nofun, nofun, nofun⟩

theorem dispTick_dispatches (p : Peer) (n : Nat) (h0 : b.disp.ph ≠ .header0) (h1 : b.disp.ph ≠ .header1) :
    (dispTick p n b).Ends b.Dispatches := by
  unfold dispTick
  cases hp : b.disp.ph <;> dsimp only
  case header0 => exact absurd hp h0
  case header1 => exact absurd hp h1
  case body => exact bodyTick_dispatches p n
  case exec => exact execTick_dispatches p n hp
  case respond => exact respondTick_dispatches n
  case console => exact consoleTick_dispatches p n
  case halted => trivial

end

/-- What a step of a running block is: a step below the dispatcher, or one of the dispatcher's own. -/
theorem tick_cases {b b' : Block} {p : Peer} {n m : Nat} (ha : b.atRest = false) (h1 : b.disp.ph ≠ .header1)
    (hb : b.tick p n = .moved b' m) : (b'.top = b.top ∧ (0 ≤ b.res → 0 ≤ b'.res)) ∨ b.Dispatches b' := by
  cases hi : b.idleBelow with
  | false => exact .inl (tick_below hi hb)
  | true =>
    have h0 : b.disp.ph ≠ .header0 := fun e => by simp [Block.atRest, hi, e] at ha
    rw [Block.tick_disp p n hi] at hb
    exact .inr ((dispTick_dispatches p n h0 h1).moved hb)

/-! ### The serial streams (R34, R217) -/

/-- `SIN` has lost bytes only at its head and `SOUT` has grown only at its end, and no header is being read. -/
structure Block.StreamsFrom (q b : Block) : Prop where
  ph : b.disp.ph ≠ .header1
  sin : b.sin <:+ q.sin
  sout : q.sout <+: b.sout

theorem tick_streamsFrom {q b b' : Block} {p : Peer} {n m : Nat} (h : q.StreamsFrom b) (ha : b.atRest = false)
    (hb : b.tick p n = .moved b' m) : q.StreamsFrom b' := by
  rcases tick_cases ha h.ph hb with ⟨e, -⟩ | d
  · have hd : b'.disp = b.disp := (congrArg Block.disp e :)
    have hi : b'.sin = b.sin := (congrArg Block.sin e :)
    have ho : b'.sout = b.sout := (congrArg Block.sout e :)
    exact ⟨hd ▸ h.ph, hi ▸ h.sin, ho ▸ h.sout⟩
  · exact ⟨d.ph, d.sin.trans h.sin, h.sout.trans d.sout⟩

theorem start_streamsFrom {b b' : Block} {peer : Option Role} {i : Instr} (h0 : b.disp.ph = .header0)
    (hb : b.start peer i = .ok b') : b.StreamsFrom b' := by
  rcases start_cases hb with ⟨c, x, -, rfl⟩ | ⟨r, -, rfl⟩ | ⟨-, -, e⟩
  · exact ⟨nofun, List.suffix_rfl, List.prefix_rfl⟩
  · exact ⟨nofun, List.suffix_rfl, List.prefix_rfl⟩
  · have hd : b'.disp = b.disp := (congrArg Block.disp e :)
    have hi : b'.sin = b.sin := (congrArg Block.sin e :)
    have ho : b'.sout = b.sout := (congrArg Block.sout e :)
    exact ⟨by rw [hd, h0]; nofun, hi ▸ List.suffix_rfl, ho ▸ List.prefix_rfl⟩

/-- Settles O55: the start of an operation and every step of a running block keep the order of the streams. -/
theorem serialStreams : Obligations.SerialStreams := by
  intro s t i hs he
  rw [exec_eq] at he
  have h := farOnly_launch (fun _ _ _ _ _ => tick_streamsFrom) hs (fun _ h0 b' => start_streamsFrom h0) he
  exact ⟨h.sin, h.sout⟩

/-! ### The session flags (R32, R204) -/

/-- The dispatcher is in the command `c`, past its header, and the session flags are those of `q` but for what `c` writes. -/
structure Block.FlagsFrom (q : Block) (c : Byte) (b : Block) : Prop where
  cmd : b.disp.cmd = c
  ph : b.disp.ph ≠ .header1
  step : b.disp.ph = .exec → b.disp.step.For c
  prog : b.disp.progActive = progAfterHeader c q.disp.progActive ∨ c = Config.letterP ∧ b.disp.progActive = true
  addr : b.disp.pendAddr = q.disp.pendAddr ∨ c = Config.letterA
  valid : b.disp.pendValid = q.disp.pendValid ∨ c = Config.letterA ∨
    (c = Config.letterR ∨ c = Config.letterW) ∧ b.disp.pendValid = false

theorem tick_flagsFrom {q b b' : Block} {c : Byte} {p : Peer} {n m : Nat} (h : q.FlagsFrom c b) (ha : b.atRest = false)
    (hb : b.tick p n = .moved b' m) : q.FlagsFrom c b' := by
  rcases tick_cases ha h.ph hb with ⟨e, -⟩ | d
  · have hd : b'.disp = b.disp := (congrArg Block.disp e :)
    exact ⟨hd ▸ h.cmd, hd ▸ h.ph, hd ▸ h.step, hd ▸ h.prog, hd ▸ h.addr, hd ▸ h.valid⟩
  · have writes : ∀ {st : DStep}, b.disp.At st → st.For c := fun hw => hw.2 ▸ h.step hw.1
    refine ⟨d.cmd.trans h.cmd, d.ph, h.cmd ▸ d.step (h.cmd.symm ▸ h.step), ?_, ?_, ?_⟩
    · rcases d.prog with e | ⟨hw, e⟩
      · exact e ▸ h.prog
      · exact .inr ⟨writes hw, e⟩
    · rcases d.addr with e | hw
      · exact e ▸ h.addr
      · exact .inr (writes hw)
    · rcases d.valid with e | hw | ⟨hw, e⟩
      · exact e ▸ h.valid
      · exact .inr (.inl (writes hw))
      · exact .inr (.inr ⟨writes hw, e⟩)

theorem header_flagsFrom (c x : Byte) (b : Block) : b.FlagsFrom c (b.header c x) :=
  ⟨rfl, nofun, fun _ => trivial, .inl rfl, .inl rfl, .inl rfl⟩

theorem command_flagsFrom {s t : State} {i : Instr} {c x : Byte} (hs : s.FarOnly) (hi : Instr.header i = some (c, x))
    (he : exec i s = .next t) : s.near.FlagsFrom c t.near := by
  rw [exec_eq, start_header hi] at he
  exact farOnly_launch (fun _ _ _ _ _ => tick_flagsFrom) hs
    (fun _ _ b' e => Except.ok.inj e ▸ header_flagsFrom c x s.near) he

/-- The session flags of `b` are those of `q`. -/
def Block.SameFlags (q b : Block) : Prop :=
  b.disp.progActive = q.disp.progActive ∧ b.disp.pendAddr = q.disp.pendAddr ∧ b.disp.pendValid = q.disp.pendValid

/-- What an operation that is no command leaves of the dispatcher: the top of the loop, or an abort on its way. -/
structure Block.OutsideCommand (q b : Block) : Prop where
  ph : b.disp.ph = .header0 ∨ (∃ r, b.disp.At (.aborting r)) ∨ b.disp.ph = .halted
  flags : q.SameFlags b

theorem tick_outsideCommand {q b b' : Block} {p : Peer} {n m : Nat} (h : q.OutsideCommand b) (ha : b.atRest = false)
    (hb : b.tick p n = .moved b' m) : q.OutsideCommand b' := by
  cases hi : b.idleBelow with
  | false =>
    have hd : b'.disp = b.disp := (congrArg Block.disp (tick_below hi hb).1 :)
    exact ⟨hd ▸ h.ph, by rw [Block.SameFlags, hd]; exact h.flags⟩
  | true =>
    rcases h.ph with e | ⟨r, hp, hst⟩ | e
    · simp [Block.atRest, hi, e] at ha
    · rw [Block.tick_disp p n hi, dispTick, hp] at hb
      simp only [execTick, hst, Tick.moved.injEq] at hb
      obtain ⟨rfl, -⟩ := hb
      exact ⟨.inr (.inr rfl), h.flags⟩
    · simp [Block.atRest, hi, e] at ha

theorem start_outsideCommand {b b' : Block} {peer : Option Role} {i : Instr} (hc : Instr.header i = none)
    (h0 : b.disp.ph = .header0) (hb : b.start peer i = .ok b') : b.OutsideCommand b' := by
  rcases start_cases hb with ⟨c, x, hi, -⟩ | ⟨r, -, rfl⟩ | ⟨-, -, e⟩
  · rw [hc] at hi
    cases hi
  · exact ⟨.inr (.inl ⟨r, rfl, rfl⟩), rfl, rfl, rfl⟩
  · have hd : b'.disp = b.disp := (congrArg Block.disp e :)
    exact ⟨.inl (hd ▸ h0), by rw [Block.SameFlags, hd]; exact ⟨rfl, rfl, rfl⟩⟩

theorem outsideCommand_flags {s t : State} {i : Instr} (hs : s.FarOnly) (hi : Instr.header i = none)
    (he : exec i s = .next t) : s.near.SameFlags t.near := by
  rw [exec_eq] at he
  exact (farOnly_launch (fun _ _ _ _ _ => tick_outsideCommand) hs (fun _ h0 _ => start_outsideCommand hi h0) he).flags

/-- The states of 'A' from its header to its end (R203). -/
def Block.pathA (a : Byte) (b : Block) : List Block :=
  [b.header Config.letterA a, (b.header Config.letterA a).beginA,
    (b.header Config.letterA a).setPendAddr.dispTo .exec .pendValid 0,
    (b.header Config.letterA a).setPendAddr.setPendValid.endCommand]

theorem tick_pathA {q b b' : Block} {a : Byte} {p : Peer} {n m : Nat} (hi : q.idleBelow = true) (h : b ∈ q.pathA a)
    (ha : b.atRest = false) (hb : b.tick p n = .moved b' m) : b' ∈ q.pathA a := by
  have next : ∀ {b1 b2 : Block}, b1.idleBelow = true → dispTick p n b1 = .moved b2 n → b1.tick p n = .moved b' m →
      b' = b2 := by
    intro b1 b2 hi1 h12 hb1
    rw [Block.tick_disp p n hi1, h12] at hb1
    exact (Tick.moved.inj hb1).1.symm
  simp only [Block.pathA, List.mem_cons, List.not_mem_nil, or_false] at h ⊢
  rcases h with rfl | rfl | rfl | rfl
  · exact .inr (.inl (next (by exact hi) rfl hb))
  · exact .inr (.inr (.inl (next (by exact hi) rfl hb)))
  · exact .inr (.inr (.inr (next (by exact hi) rfl hb)))
  · have hr : (q.header Config.letterA a).setPendAddr.setPendValid.endCommand.atRest = true := by
      rw [Block.atRest_iff]
      exact ⟨hi, .inl rfl⟩
    rw [hr] at ha
    cases ha

theorem cmdA_path {s t : State} {a : Byte} (hs : s.FarOnly) (he : exec (.cmdA a) s = .next t) :
    t.near ∈ s.near.pathA a := by
  rw [exec_eq] at he
  have hi := (s.near.atRest_iff.mp (State.launch_next he).1).1
  exact farOnly_launch (fun _ _ _ _ _ => tick_pathA hi) hs
    (fun _ _ b' e => Except.ok.inj e ▸ List.mem_cons_self) he

/-- What 'A' has done to the session flags wherever it stands. -/
theorem pathA_flags {q b : Block} {a : Byte} (h : b ∈ q.pathA a) :
    b.disp.progActive = false ∧ (b.disp.pendAddr = q.disp.pendAddr ∨ b.disp.pendAddr = a) ∧
      (b.disp.pendValid = q.disp.pendValid ∨ b.disp.pendValid = true) ∧
      (b.atRest = true → b.disp.pendValid = true ∧ b.disp.pendAddr = a) := by
  have exec : ∀ {b1 : Block}, b1.disp.ph = .exec → b1.atRest = true → b1.disp.pendValid = true ∧ b1.disp.pendAddr = a :=
    fun hp hr => by rw [Block.not_atRest_of_disp (by rw [hp]; nofun) (by rw [hp]; nofun)] at hr; cases hr
  simp only [Block.pathA, List.mem_cons, List.not_mem_nil, or_false] at h
  rcases h with rfl | rfl | rfl | rfl
  · exact ⟨rfl, .inl rfl, .inl rfl, exec rfl⟩
  · exact ⟨rfl, .inl rfl, .inl rfl, exec rfl⟩
  · exact ⟨rfl, .inr rfl, .inl rfl, exec rfl⟩
  · exact ⟨rfl, .inr rfl, .inr rfl, fun _ => ⟨rfl, rfl⟩⟩

/-- Every command but 'P' has cleared the program flag (R204). -/
theorem Block.FlagsFrom.prog_false {q b : Block} {c : Byte} (h : q.FlagsFrom c b) (hc : c ≠ Config.letterP) :
    b.disp.progActive = false := by
  rcases h.prog with e | ⟨e, -⟩
  · rw [e, progAfterHeader, if_neg hc]
  · exact absurd e hc

/-- A command that is neither 'A' nor 'R' nor 'W' leaves the pending address alone. -/
theorem Block.FlagsFrom.pending {q b : Block} {c : Byte} (h : q.FlagsFrom c b) (hA : c ≠ Config.letterA)
    (hR : c ≠ Config.letterR) (hW : c ≠ Config.letterW) :
    b.disp.pendAddr = q.disp.pendAddr ∧ b.disp.pendValid = q.disp.pendValid := by
  refine ⟨h.addr.resolve_right hA, ?_⟩
  rcases h.valid with e | e | ⟨e | e, -⟩
  · exact e
  · exact absurd e hA
  · exact absurd e hR
  · exact absurd e hW

/-- A command but 'A' at most clears the flag of the pending address. -/
theorem Block.FlagsFrom.pending_cleared {q b : Block} {c : Byte} (h : q.FlagsFrom c b) (hA : c ≠ Config.letterA) :
    b.disp.pendAddr = q.disp.pendAddr ∧ (b.disp.pendValid = q.disp.pendValid ∨ b.disp.pendValid = false) := by
  refine ⟨h.addr.resolve_right hA, ?_⟩
  rcases h.valid with e | e | ⟨-, e⟩
  · exact .inl e
  · exact absurd e hA
  · exact .inr e

/-- Settles O43: 'A' by its four states, the other commands by the steps that write a flag, every other operation because
nothing below the dispatcher writes one. -/
theorem flagWriters : Obligations.FlagWriters := by
  intro s t i hs he
  have cmd : ∀ {c x : Byte}, Instr.header i = some (c, x) → s.near.FlagsFrom c t.near := fun h =>
    command_flagsFrom hs h he
  have other : Instr.header i = none → s.near.SameFlags t.near := fun h => outsideCommand_flags hs h he
  cases i with
  | cmdA a =>
    obtain ⟨hp, ha, hv, hr⟩ := pathA_flags (cmdA_path hs he)
    exact ⟨hp, ha, hv, hr⟩
  | cmdB x | cmdC x | cmdE x =>
    exact ⟨(cmd rfl).prog_false (by decide), (cmd rfl).pending (by decide) (by decide) (by decide)⟩
  | cmdR x | cmdW x => exact ⟨(cmd rfl).prog_false (by decide), (cmd rfl).pending_cleared (by decide)⟩
  | cmdP x => exact ⟨(cmd rfl).prog.imp id And.right, (cmd rfl).pending (by decide) (by decide) (by decide)⟩
  | unrecognized c x =>
    refine ⟨fun hc => (cmd rfl).prog_false hc, fun hw => ?_⟩
    have hn : ∀ c', WellFormed.isCommandCode s.near.par.board c' = true → c ≠ c' := by
      rintro c' h rfl
      simp [wellFormed, h] at hw
    exact (cmd rfl).pending (hn _ rfl) (hn _ (by simp [WellFormed.isCommandCode]))
      (hn _ (by simp [WellFormed.isCommandCode]))
  | _ => exact other rfl

end Sys2Proof.Machine
end

section
/-! The lines between operations (R40): a running block stays settled and without a failure, so it ends at the idle lines of
its role and not at `D_HALTED`. -/

namespace Sys2Proof.Machine

/-- A settled block with no failure pending, past its header. -/
structure Block.Sound (b : Block) : Prop where
  settled : b.Settled
  res : 0 ≤ b.res
  ph : b.disp.ph ≠ .header1
  live : b.disp.ph ≠ .halted

theorem Block.Settled.not_aborting {b : Block} (h : b.Settled) : ¬ ∃ r, b.disp.At (.aborting r) :=
  fun ⟨r, hp, hs⟩ => h.2.2.2.1 r hs hp

theorem tick_sound {b b' : Block} {p : Peer} {n m : Nat} (h : b.Sound) (ha : b.atRest = false)
    (hb : b.tick p n = .moved b' m) : b'.Sound := by
  have hs := tick_settled h.settled h.res ha hb
  rcases tick_cases ha h.ph hb with ⟨e, hr⟩ | d
  · have hd : b'.disp = b.disp := (congrArg Block.disp e :)
    exact ⟨hs, hr h.res, hd ▸ h.ph, hd ▸ h.live⟩
  · have hn := h.settled.not_aborting
    exact ⟨hs, (d.res.resolve_right hn).symm ▸ h.res, d.ph, fun e => hn (d.halted e)⟩

/-- A block at rest with its lines idle for its role (R40, R72). -/
theorem quiet_of_atRest {b : Block} (ha : b.atRest = true) (hl : b.lines = .idleOf b.role) : b.Quiet := by
  obtain ⟨hi, hp⟩ := b.atRest_iff.mp ha
  obtain ⟨ht, hr, hh, hpe, -, -⟩ := b.idleBelow_iff.mp hi
  refine ⟨ht, hr, hh, hpe, hl, fun _ _ e => ?_⟩
  rcases hp with hp | hp <;> rw [hp] at e <;> cases e

theorem not_hiZ {i : Instr} (hz : i ≠ .portHiZ) (ha : ∀ r, i ≠ .abort r) : Instr.hiZ i = false := by
  cases i with
  | portHiZ => exact absurd rfl hz
  | abort r => exact absurd rfl (ha r)
  | _ => rfl

/-- An operation that does not force the port to high-impedance starts sound at an idle end. -/
theorem start_sound {b b' : Block} {peer : Option Role} {i : Instr} (hq : b.Quiet) (hres : 0 ≤ b.res)
    (h0 : b.disp.ph = .header0) (hz : i ≠ .portHiZ) (ha : ∀ r, i ≠ .abort r) (hb : b.start peer i = .ok b') :
    b'.Sound := by
  have hs := start_settled hq (not_hiZ hz ha) hb
  rcases start_cases hb with ⟨c, x, -, rfl⟩ | ⟨r, e, -⟩ | ⟨-, -, e⟩
  · exact ⟨hs, hres, nofun, nofun⟩
  · exact absurd e (ha r)
  · have hd : b'.disp = b.disp := (congrArg Block.disp e :)
    have hr : b'.res = b.res := (congrArg Block.res e :)
    exact ⟨hs, hr ▸ hres, by rw [hd, h0]; nofun, by rw [hd, h0]; nofun⟩

/-- At the end of an operation the lines are idle again and the dispatcher is at the top of its loop. -/
theorem Block.Sound.atRest {b : Block} (h : b.Sound) (ha : b.atRest = true) :
    b.lines = .idleOf b.role ∧ 0 ≤ b.res ∧ b.disp.ph = .header0 := by
  obtain ⟨hi, hp⟩ := b.atRest_iff.mp ha
  obtain ⟨ht, hr, hh, hpe, -, -⟩ := b.idleBelow_iff.mp hi
  exact ⟨h.settled.idle ht hh hpe hr, h.res, hp.resolve_right h.live⟩

/-- The step of a settled block at rest with no request pending: it reads byte 0 of a header, or has no step. -/
theorem tick_atRest_settled {b b' : Block} {p : Peer} {n m : Nat} (h : b.Settled) (ha : b.atRest = true)
    (hc : b.calls = []) (hb : b.tick p n = .moved b' m) : b'.Settled := by
  obtain ⟨hi, hp⟩ := b.atRest_iff.mp ha
  obtain ⟨ht, hr, hh, hpe, -, -⟩ := b.idleBelow_iff.mp hi
  rw [Block.tick_disp p n hi, dispTick] at hb
  rcases hp with hp | hp <;> simp only [hp, hc] at hb
  · split at hb
    · cases hb
    · obtain ⟨rfl, -⟩ := Tick.moved.inj hb
      exact Block.settled_idle ht hr hh hpe nofun (h.idle ht hh hpe hr)
  · cases hb

/-- Settles O59: every step and every start keeps a block settled; along a run it also stays free of failure. -/
theorem idleLinesBetweenOperations : Obligations.IdleLinesBetweenOperations := by
  refine ⟨fun b b' p n n' h hres hc hb => ?_, fun b b' r i ha hl hz hab hb => ?_, fun b n => blockReset_settled n b,
    (quiet_of_atRest rfl rfl).settled, fun s t i hs hi hl hres hz hab he hr => ?_⟩
  · cases ha : b.atRest with
    | false => exact tick_settled h hres ha hb
    | true => exact tick_atRest_settled h ha (hc.resolve_left (by simp [ha])) hb
  · exact start_settled (quiet_of_atRest ha hl) (not_hiZ hz hab) hb
  · rw [exec_eq] at he
    have h : t.near.Sound := farOnly_launch (fun _ _ _ _ _ => tick_sound) hs
      (fun ha h0 b' => start_sound (quiet_of_atRest ha hl) hres h0 hz hab) he
    exact h.atRest hr

end Sys2Proof.Machine
end

section
/-! What an operation below the dispatcher leaves unchanged, whatever the far party does (R25, R27, R29, R32): the peripheral
cycle, the transfers, the SPI layer and the flash sequencer. -/

namespace Sys2Proof.Machine

/-- A block that is not at rest, with the dispatcher where it was at rest, has something running below it. -/
theorem runs_below {q b : Block} (hq : q.atRest = true) (ha : b.atRest = false) (hr : b.rph = q.rph)
    (hd : b.disp = q.disp) :
    ¬(b.todo = [] ∧ b.host.ph = .idle ∧ b.per.ph = .idle ∧ b.spi.ph = .idle ∧ b.flash.ph = .idle) := by
  rintro ⟨ht, hh, hp, hs, hf⟩
  obtain ⟨hi, hph⟩ := q.atRest_iff.mp hq
  have h : b.atRest = true := by
    rw [Block.atRest_iff, Block.idleBelow_iff, hr, hd]
    exact ⟨⟨ht, (q.idleBelow_iff.mp hi).2.1, hh, hp, hs, hf⟩, hph⟩
  rw [h] at ha
  cases ha

/-! ### The peripheral cycle (R27, R153) -/

/-- A primitive that neither stores into a buffer nor changes the role. -/
def Prim.isPeripheral : Prim → Bool
  | .storeHost => false
  | .setRole _ => false
  | _ => true

/-- Nothing but a peripheral cycle has run at the end since `q`. -/
structure Block.ServesFrom (q b : Block) : Prop where
  same : b.lessPeripheral = q.lessPeripheral
  todo : ∀ x ∈ b.todo, x.isPeripheral = true

theorem Prim.run_peripheral {x : Prim} (hx : x.isPeripheral = true) {p : Peer} {n : Nat} {b : Block} :
    (x.run p n b).Ends fun b' => b'.lessPeripheral = b.lessPeripheral ∧ b'.todo = b.todo := by
  cases x with
  | storeHost | setRole _ => cases hx
  | setDir _ _ | setLvl _ _ | delay _ | get _ | storeSlot | senseWrsel | senseAstb => exact ⟨rfl, rfl⟩

theorem drivePrims_isPeripheral (rd : Bool) (x : Byte) : ∀ y ∈ drivePrims rd x, y.isPeripheral = true := by
  intro y hy
  have h := drive_isLine rd x y hy
  cases y with
  | storeHost | setRole _ => cases h
  | _ => rfl

theorem takePrims_isPeripheral (rd : Bool) : ∀ y ∈ takePrims rd, y.isPeripheral = true :=
  List.all_eq_true.mp (by cases rd <;> rfl)

theorem peripheralTick_todo {p : Peer} {n : Nat} {b : Block} :
    (peripheralTick p n b).Ends fun b' => ∀ x ∈ b'.todo, x.isPeripheral = true := by
  unfold peripheralTick
  cases b.per.ph <;> dsimp only
  case idle => trivial
  case check => split <;> exact fun _ h => nomatch h
  case strobeWait =>
    split
    · exact List.all_eq_true.mp rfl
    · trivial
  case decode => exact drivePrims_isPeripheral _ _
  case drive | take => exact List.all_eq_true.mp rfl
  case ack | done => exact fun _ h => nomatch h
  case releaseWait =>
    split
    · exact takePrims_isPeripheral _
    · trivial

theorem tick_servesFrom {q b b' : Block} {p : Peer} {n m : Nat} (hq : q.atRest = true) (h : q.ServesFrom b)
    (ha : b.atRest = false) (hb : b.tick p n = .moved b' m) : q.ServesFrom b' := by
  obtain ⟨-, hr, hh, -, hs, hf⟩ := q.idleBelow_iff.mp (q.atRest_iff.mp hq).1
  have er : b.rph = q.rph := (congrArg Block.rph h.same :)
  have eh : b.host = q.host := (congrArg Block.host h.same :)
  have es : b.spi = q.spi := (congrArg Block.spi h.same :)
  have ef : b.flash = q.flash := (congrArg Block.flash h.same :)
  have hrun := runs_below hq ha er (congrArg Block.disp h.same :)
  replace hb := Block.advance_of_moved hb
  cases ht : b.todo with
  | cons x r =>
    rw [Block.advance_todo p n ht] at hb
    obtain ⟨hsame, htodo⟩ := (Prim.run_peripheral (h.todo x (by simp [ht]))).moved hb
    refine ⟨Eq.trans hsame h.same, fun y hy => h.todo y ?_⟩
    rw [htodo] at hy
    rw [ht]
    exact List.mem_cons_of_mem x hy
  | nil =>
    have hp : b.per.ph ≠ .idle := fun hp => hrun ⟨ht, eh ▸ hh, hp, es ▸ hs, ef ▸ hf⟩
    rw [Block.advance_per p n ht (er ▸ hr) (eh ▸ hh) hp] at hb
    exact ⟨(peripheralTick_lessPeripheral.moved hb).trans h.same, peripheralTick_todo.moved hb⟩

/-- The operations of the peripheral cycle at an end of role `r`. -/
def Instr.serves (r : Role) : Instr → Prop
  | .peripheralCycle _ => True
  | .cycleReserved _ => True
  | .noCycle _ => True
  | .cycleAddressWrite _ => r = .peripheral
  | .cycleAddressRead => r = .peripheral
  | .cycleDataWrite _ => r = .peripheral
  | .cycleDataRead => r = .peripheral
  | _ => False

theorem start_servesFrom {b : Block} {peer : Option Role} {i : Instr} (hi : Instr.serves b.role i) (ht : b.todo = []) :
    StartEnds b.ServesFrom (b.start peer i) := by
  have none : ∀ x ∈ b.todo, x.isPeripheral = true := fun x hx => by simp [ht] at hx
  have serve : ∀ rd ad, StartEnds b.ServesFrom ((b.peripheralGuard peer).map (Block.serveDecoded rd ad)) :=
    fun rd ad => peripheralGuard_ends ⟨rfl, drivePrims_isPeripheral rd b.per.slot⟩
  cases i with
  | peripheralCycle y =>
    exact peripheralGuard_ends (b := { b with per := { b.per with slot := y } }) ⟨rfl, fun _ h => nomatch h⟩
  | noCycle w => exact ⟨rfl, none⟩
  | cycleReserved w =>
    show StartEnds _ (b.callReserved peer w)
    unfold Block.callReserved
    split
    · trivial
    · exact serve _ _
  | cycleAddressWrite _ | cycleAddressRead | cycleDataWrite _ | cycleDataRead =>
    show StartEnds _ (b.callCycle peer _ _ _)
    have hr : b.role = .peripheral := hi
    unfold Block.callCycle
    rw [hr]
    exact serve _ _
  | _ => exact hi.elim

/-- Settles O48: an end that serves a cycle writes its lines and the registers of that cycle alone. -/
theorem peripheralFrame : Obligations.PeripheralFrame := by
  intro s t i hs hi he
  have hi : Instr.serves s.near.role i := by
    rcases hi with ⟨y, rfl⟩ | ⟨hr, ⟨y, rfl⟩ | rfl | ⟨y, rfl⟩ | rfl⟩ | ⟨w, rfl⟩ | ⟨w, rfl⟩ <;> trivial
  rw [exec_eq] at he
  have hq := (State.launch_next he).1
  have h : s.near.ServesFrom t.near := farOnly_launch (fun _ _ _ _ _ => tick_servesFrom hq) hs
    (fun _ _ b' => (start_servesFrom hi (s.near.idleBelow_iff.mp (s.near.atRest_iff.mp hq).1).1).ok) he
  have keeps : ∀ {α : Type} (f : Block → α), f t.near.lessPeripheral = f s.near.lessPeripheral := fun f =>
    congrArg f h.same
  exact ⟨keeps Block.par, keeps Block.role, fun a => keeps fun b => b.buf.read a, keeps Block.host, keeps Block.spi,
    keeps Block.flash, keeps Block.disp, keeps Block.sin, keeps Block.sout, keeps Block.calls, keeps Block.res,
    keeps Block.ubuf, keeps Block.bus⟩

end Sys2Proof.Machine
end

section
/-! The transfers, the SPI layer and the flash sequencer: which buffers a running transaction stores into (R24, R125), and
that nothing above it changes (R25, R29, R30, R32). -/

namespace Sys2Proof.Machine

/-! ### Which buffers are stored into -/

/-- The transaction that runs, or that the SPI layer is going to run, stores only into buffers and up to lengths that `ok`
allows; a byte is stored inside the length. -/
structure Block.Stores (ok : BufRef → Nat → Prop) (b : Block) : Prop where
  steps : ∀ x ∈ b.todo, b.Allows x
  first : b.host.ph = .setup → b.host.i = 0
  index : b.host.ph ≠ .idle → b.host.ph ≠ .setup → b.host.ph ≠ .finish → b.host.i < b.host.len
  engine : b.host.ph ≠ .idle → b.host.rd = true → ok b.host.ref b.host.len
  layer : b.spi.ph ≠ .idle → b.spi.kind = .transfer → b.spi.rd = true → ok b.spi.ref b.spi.len

/-- `b'` is `b` but for the working state of the engine and of the SPI layer, and a store that `ok` allows. -/
inductive Block.StoredFrom (ok : BufRef → Nat → Prop) (b b' : Block) : Prop
  | same (h : b'.lessSpi = b.lessSpi)
  | buf {len i : Nat} (v : Byte) (hok : ok .buf len) (hi : i < len)
      (h : b'.lessSpi = { b.lessSpi with buf := b.buf.write i v })
  | st {len i : Nat} (v : Byte) (hok : ok .st len) (hi : i < len)
      (h : b'.lessSpi = { b.lessSpi with flash := { b.flash with st := v } })
  | user {len i : Nat} (v : Byte) (hok : ok .user len) (hi : i < len)
      (h : b'.lessSpi = { b.lessSpi with ubuf := b.ubuf.set i v })

section
variable {ok : BufRef → Nat → Prop} {b : Block}

/-- A block with nothing running stores nothing. -/
theorem idle_stores (hi : b.idleBelow = true) : b.Stores ok := by
  obtain ⟨ht, -, hh, -, hs, -⟩ := b.idleBelow_iff.mp hi
  exact ⟨fun x hx => by simp [ht] at hx, fun e => by simp [hh] at e, fun e => absurd hh e, fun e => absurd hh e,
    fun e => absurd hs e⟩

theorem begin_stores {peer : Option Role} {ref : BufRef} {len : Nat} {rd ac : Bool}
    (hl : b.spi.ph ≠ .idle → b.spi.kind = .transfer → b.spi.rd = true → ok b.spi.ref b.spi.len)
    (hok : rd = true → ok ref len) : StartEnds (·.Stores ok) (b.beginTransaction peer ref len rd ac) := by
  have hline : ∀ x ∈ setupPrims rd, x.isLine = true := List.all_eq_true.mp (by cases rd <;> rfl)
  unfold Block.beginTransaction
  repeat' split
  · trivial
  · trivial
  · trivial
  · exact ⟨fun x hx => Block.allows_line (hline x hx), fun _ => rfl, fun _ e => absurd rfl e, fun _ => hok, hl⟩

/-- The next phase of a running transaction, with its steps. -/
theorem Block.Stores.hostTo {b1 : Block} {ph : HPhase} {steps : List Prim} (h : b.Stores ok) (hp : b.host.ph ≠ .idle)
    (hrd : b1.host.rd = b.host.rd) (href : b1.host.ref = b.host.ref) (hlen : b1.host.len = b.host.len)
    (hspi : b1.spi = b.spi) (hsteps : ∀ x ∈ steps, (b1.hostTo ph steps).Allows x) (hset : ph ≠ .setup)
    (hi : ph ≠ .idle → ph ≠ .finish → b1.host.i < b1.host.len) : (b1.hostTo ph steps).Stores ok where
  steps := hsteps
  first e := absurd e hset
  index e _ e' := hi e e'
  engine _ e := by
    simp only [Block.hostTo_host, hrd, href, hlen] at e ⊢
    exact h.engine hp e
  layer := by
    rw [Block.hostTo_spi, hspi]
    exact h.layer

theorem hostTick_stores {p : Peer} {n : Nat} (h : b.Stores ok) : (hostTick p n b).Ends (·.Stores ok) := by
  have none : ∀ b1 : Block, ∀ x ∈ ([] : List Prim), b1.Allows x := fun _ _ h => nomatch h
  have lines : ∀ {steps : List Prim}, (∀ x ∈ steps, x.isLine = true) → ∀ b1 : Block, ∀ x ∈ steps, b1.Allows x :=
    fun hl _ x hx => Block.allows_line (hl x hx)
  have finish := lines (steps := finishPrims b.host.rd) (List.all_eq_true.mp (by cases b.host.rd <;> rfl))
  have restore := lines (steps := if b.host.rd then [] else dataIdle) (List.all_eq_true.mp (by cases b.host.rd <;> rfl))
  have strobe := fun v => lines (steps := [.setLvl (strobeOf b.host.ac) v]) (List.all_eq_true.mp rfl)
  unfold hostTick
  cases hp : b.host.ph <;> dsimp only
  case idle => trivial
  case setup =>
    have hi := h.first hp
    split
    · next hl => exact h.hostTo (by simp [hp]) rfl rfl rfl rfl (none _) nofun fun _ _ => hi.symm ▸ hl
    · exact h.hostTo (by simp [hp]) rfl rfl rfl rfl (finish _) nofun fun _ e => absurd rfl e
  all_goals have hi := h.index (by simp [hp]) (by simp [hp])
  case preWait =>
    have hi := hi (by simp [hp])
    repeat' split
    · trivial
    · exact h.hostTo (by simp [hp]) rfl rfl rfl rfl (none _) nofun fun _ _ => hi
    · trivial
    · exact h.hostTo (b1 := { b with host := { b.host with byte := _ } }) (by simp [hp]) rfl rfl rfl rfl
        (lines (pull_isLine _) _) nofun fun _ _ => hi
  case ackWait =>
    have hi := hi (by simp [hp])
    split
    · trivial
    · refine h.hostTo (b1 := { b with smp := [] }) (by simp [hp]) rfl rfl rfl rfl ?_ nofun fun _ _ => hi
      split
      · next hrd =>
        intro x hx
        rcases List.mem_append.mp hx with hx | hx
        · simp only [dataSample, List.mem_map] at hx
          obtain ⟨l, -, rfl⟩ := hx
          trivial
        · rw [List.mem_singleton.mp hx]
          exact ⟨rfl, hrd⟩
      · exact none _
  case put => exact h.hostTo (by simp [hp]) rfl rfl rfl rfl (strobe _ _) nofun fun _ _ => hi (by simp [hp])
  case strobe => exact h.hostTo (by simp [hp]) rfl rfl rfl rfl (none _) nofun fun _ _ => hi (by simp [hp])
  case get =>
    exact h.hostTo (b1 := { b with bus := _ }) (by simp [hp]) rfl rfl rfl rfl (strobe _ _) nofun fun _ _ =>
      hi (by simp [hp])
  case release => exact h.hostTo (by simp [hp]) rfl rfl rfl rfl (restore _) nofun fun _ _ => hi (by simp [hp])
  case restore =>
    split
    · next hl =>
      exact h.hostTo (b1 := { b with host := { b.host with i := _ } }) (by simp [hp]) rfl rfl rfl rfl (none _) nofun
        fun _ _ => hl
    · exact h.hostTo (b1 := { b with host := { b.host with i := _ } }) (by simp [hp]) rfl rfl rfl rfl (finish _) nofun
        fun _ e => absurd rfl e
  case finish =>
    exact h.hostTo (b1 := { b with res := _ }) (by simp [hp]) rfl rfl rfl rfl (none _) nofun fun e => absurd rfl e

theorem spiCall_stores {peer : Option Role} {ph : SPhase} (h : b.Stores ok)
    (hl : b.spi.kind = .transfer → b.spi.rd = true → ok b.spi.ref b.spi.len) :
    StartEnds (·.Stores ok) (b.spiCall peer ph) := by
  have writes : ∀ ref len ac, StartEnds (·.Stores ok)
      (({ b with spi := { b.spi with ph := ph } } : Block).beginTransaction peer ref len false ac) := fun _ _ _ =>
    begin_stores (fun _ => hl) nofun
  unfold Block.spiCall Block.spiEngineCall
  cases ph with
  | idle => exact ⟨h.steps, h.first, h.index, h.engine, fun e => absurd rfl e⟩
  | s1 | s3 => exact writes ..
  | s2 => cases b.spi.kind <;> exact writes ..
  | s4 =>
    cases hk : b.spi.kind with
    | reset => exact writes ..
    | transfer => exact begin_stores (fun _ => hl) (hl hk)

theorem beginSpiReset_stores {peer : Option Role} {first last : SPhase} (h : b.Stores ok) :
    StartEnds (·.Stores ok) (b.beginSpiReset peer first last) :=
  spiCall_stores (b := { b with spi := { b.spi with kind := .reset, last := last } })
    ⟨h.steps, h.first, h.index, h.engine, fun _ => nofun⟩ nofun

theorem beginSpiTransaction_stores {peer : Option Role} {ref : BufRef} {len : Nat} {rd : Bool} {first last : SPhase}
    (h : b.Stores ok) (hok : rd = true → ok ref len) :
    StartEnds (·.Stores ok) (b.beginSpiTransaction peer ref len rd first last) := by
  unfold Block.beginSpiTransaction
  split
  · trivial
  · exact spiCall_stores (by exact ⟨h.steps, h.first, h.index, h.engine, fun e => absurd rfl e⟩) fun _ => hok

theorem spiTick_stores {p : Peer} {n : Nat} (h : b.Stores ok) (hs : b.spi.ph ≠ .idle) :
    (spiTick p n b).Ends (·.Stores ok) := by
  unfold spiTick
  split
  · exact ⟨h.steps, h.first, h.index, h.engine, fun e => absurd rfl e⟩
  · exact (spiCall_stores h (h.layer hs)).ofBegin n

/-- A primitive of a transaction: the one that stores a byte stores it where `ok` allows. -/
theorem prim_stores {x : Prim} {r : List Prim} {p : Peer} {n : Nat} (h : b.Stores ok) (hr : b.rph = .idle)
    (hp : b.per.ph = .idle) (ht : b.todo = x :: r) :
    (x.run p n { b with todo := r }).Ends fun b' => b'.Stores ok ∧ b.StoredFrom ok b' ∧ b'.spi = b.spi := by
  have hx : b.Allows x := h.steps x (by simp [ht])
  have hrest : ∀ y ∈ r, b.Allows y := fun y hy => h.steps y (by simp [ht, hy])
  cases x with
  | setDir _ _ | setLvl _ _ | delay _ | get _ =>
    exact ⟨⟨hrest, h.first, h.index, h.engine, h.layer⟩, .same rfl, rfl⟩
  | storeSlot => exact absurd (hp.symm.trans hx.1) nofun
  | senseWrsel | senseAstb => exact absurd (hp.symm.trans hx) nofun
  | setRole _ => exact absurd (hr.symm.trans hx) nofun
  | storeHost =>
    obtain ⟨hg, hrd⟩ : b.host.ph = .get ∧ b.host.rd = true := hx
    have hi : b.host.i < b.host.len := h.index (by simp [hg]) (by simp [hg]) (by simp [hg])
    have hok : ok b.host.ref b.host.len := h.engine (by simp [hg]) hrd
    unfold Prim.run
    dsimp only
    split
    · next hw =>
      rcases bufWrite_some hw with ⟨e, rfl⟩ | ⟨e, rfl⟩ | ⟨e, rfl⟩ <;>
        refine ⟨⟨hrest, h.first, h.index, h.engine, h.layer⟩, ?_, rfl⟩
      · exact .buf _ (e ▸ hok) hi rfl
      · exact .st _ (e ▸ hok) hi rfl
      · exact .user _ (e ▸ hok) hi rfl
    · trivial

/-- A step of the engine or of the SPI layer: the engine's own stores are those that `ok` allows. -/
theorem layers_tick {b' : Block} {p : Peer} {n m : Nat} (h : b.Stores ok) (hr : b.rph = .idle) (hp : b.per.ph = .idle)
    (hrun : ¬(b.todo = [] ∧ b.host.ph = .idle ∧ b.spi.ph = .idle)) (hb : b.tick p n = .moved b' m) :
    b'.Stores ok ∧ b.StoredFrom ok b' ∧ (b.spi.ph = .idle → b'.spi = b.spi) := by
  replace hb := Block.advance_of_moved hb
  cases ht : b.todo with
  | cons x r =>
    rw [Block.advance_todo p n ht] at hb
    obtain ⟨hs, hf, e⟩ := (prim_stores h hr hp ht).moved hb
    exact ⟨hs, hf, fun _ => e⟩
  | nil =>
    by_cases hh : b.host.ph = .idle
    · have hs : b.spi.ph ≠ .idle := fun e => hrun ⟨ht, hh, e⟩
      rw [Block.advance_spi p n ht hr hh hp hs] at hb
      exact ⟨(spiTick_stores h hs).moved hb, .same (congrArg Block.lessSpi (spiTick_lessSpiCall.moved hb) :),
        fun e => absurd e hs⟩
    · rw [Block.advance_host p n ht hr hh] at hb
      have e := (hostTick_lessEngine.moved hb).1
      exact ⟨(hostTick_stores h).moved hb, .same (congrArg Block.lessSpi e :), fun _ => (congrArg Block.spi e :)⟩

end

/-! ### Calls of the engine and of the SPI layer -/

/-- A caller's buffer, of which the first `n` bytes are stored into by a read. -/
def callerBuffer (rd : Bool) (n : Nat) (r : BufRef) (len : Nat) : Prop := rd = true ∧ r = .user ∧ len ≤ n

/-- Nothing but a call of the engine or of the SPI layer has run at the end since `q`, with the caller's buffer `buf`, of
which a read has written the first `n` bytes at most. -/
structure Block.CallFrom (q : Block) (buf : List Byte) (rd : Bool) (n : Nat) (b : Block) : Prop where
  stores : b.Stores (callerBuffer rd n)
  same : { b.lessSpi with ubuf := [] } = { q.lessSpi with ubuf := [] }
  length : b.ubuf.length = buf.length
  kept : ∀ a, rd = false ∨ n ≤ a → b.ubuf[a]? = buf[a]?

theorem Block.CallFrom.ubuf_of_write {q b : Block} {buf : List Byte} {n : Nat} (h : q.CallFrom buf false n b) :
    b.ubuf = buf := List.ext_getElem? fun a => h.kept a (.inl rfl)

theorem tick_callFrom {q b b' : Block} {buf : List Byte} {rd : Bool} {k : Nat} {p : Peer} {n m : Nat}
    (hq : q.atRest = true) (h : q.CallFrom buf rd k b) (ha : b.atRest = false) (hb : b.tick p n = .moved b' m) :
    q.CallFrom buf rd k b' ∧ (b.spi.ph = .idle → b'.spi = b.spi) := by
  obtain ⟨-, hr, -, hp, -, hf⟩ := q.idleBelow_iff.mp (q.atRest_iff.mp hq).1
  have er : b.rph = q.rph := (congrArg Block.rph h.same :)
  have ep : b.per.ph = .idle := (congrArg (·.per.ph) h.same :).trans hp
  have ef : b.flash.ph = .idle := (congrArg (·.flash.ph) h.same :).trans hf
  have hrun := runs_below hq ha er (congrArg Block.disp h.same :)
  obtain ⟨hs, hst, hspi⟩ := layers_tick h.stores (er.trans hr) ep (fun ⟨ht, hh, hs⟩ => hrun ⟨ht, hh, ep, hs, ef⟩) hb
  refine ⟨?_, hspi⟩
  cases hst with
  | same e =>
    have eu : b'.ubuf = b.ubuf := (congrArg Block.ubuf e :)
    exact ⟨hs, (congrArg (fun b : Block => { b with ubuf := [] }) e).trans h.same, eu ▸ h.length, eu ▸ h.kept⟩
  | buf v hok _ _ => exact absurd hok.2.1 nofun
  | st v hok _ _ => exact absurd hok.2.1 nofun
  | user v hok hi e =>
    have eu : b'.ubuf = b.ubuf.set _ v := (congrArg Block.ubuf e :)
    refine ⟨hs, (congrArg (fun b : Block => { b with ubuf := [] }) e).trans h.same, ?_, fun a hka => ?_⟩
    · rw [eu, List.length_set, h.length]
    · obtain ⟨hrd, -, hlen⟩ := hok
      have hka' : k ≤ a := hka.resolve_left (by simp [hrd])
      rw [eu, List.getElem?_set_ne (by omega), h.kept a hka]

/-- The arguments of a transfer over a caller's buffer: the buffer, whether it is read into, and up to which byte. A cycle at
a host is a transfer of one byte (R97, R100). -/
def Instr.transferArgs (r : Role) : Instr → Option (List Byte × Bool × Nat)
  | .write buf n => some (buf, false, n.toNat)
  | .setAddress buf n => some (buf, false, n.toNat)
  | .read buf n => some (buf, true, n.toNat)
  | .getAddress buf n => some (buf, true, n.toNat)
  | .transaction buf n rd _ => some (buf, rd, n.toNat)
  | .cycleAddressWrite y => if r = .host then some ([y], false, 1) else none
  | .cycleAddressRead => if r = .host then some ([Config.loneByte], true, 1) else none
  | .cycleDataWrite y => if r = .host then some ([y], false, 1) else none
  | .cycleDataRead => if r = .host then some ([Config.loneByte], true, 1) else none
  | _ => none

/-- A block that differs from `b` by a call of the SPI layer or the engine alone, over the caller's buffer `buf`. -/
theorem callFrom_of_start {b b' : Block} {buf : List Byte} {rd : Bool} {n : Nat}
    (hs : b'.Stores (callerBuffer rd n)) (h : b'.lessSpiCall = ({ b with ubuf := buf } : Block).lessSpiCall) :
    b.CallFrom buf rd n b' := by
  have eu : b'.ubuf = buf := (congrArg Block.ubuf h :)
  exact ⟨hs, (congrArg (fun b : Block => { b.lessSpi with ubuf := [] }) h :), by rw [eu], fun _ _ => by rw [eu]⟩

/-- A transaction over a caller's buffer starts as a call of the engine, and leaves the SPI layer as it is. -/
theorem begin_callFrom {b : Block} {peer : Option Role} {buf : List Byte} {len n : Nat} {rd ac : Bool}
    (hi : b.idleBelow = true) (hn : len ≤ n) :
    StartEnds (fun b' => b.CallFrom buf rd n b' ∧ b'.spi = b.spi)
      (({ b with ubuf := buf } : Block).beginTransaction peer .user len rd ac) := by
  have hl := (idle_stores (ok := callerBuffer rd n) hi).layer
  cases he : ({ b with ubuf := buf } : Block).beginTransaction peer .user len rd ac with
  | error r => trivial
  | ok b' =>
    have e := (beginTransaction_lessTransaction rfl).ok he
    exact ⟨callFrom_of_start ((begin_stores (by exact hl) fun hrd => ⟨hrd, rfl, hn⟩).ok he)
      (congrArg Block.lessSpiCall e :), (congrArg Block.spi e :)⟩

theorem start_transfer {b : Block} {peer : Option Role} {i : Instr} {buf : List Byte} {rd : Bool} {n : Nat}
    (hi : b.idleBelow = true) (ht : Instr.transferArgs b.role i = some (buf, rd, n)) :
    StartEnds (fun b' => b.CallFrom buf rd n b' ∧ b'.spi = b.spi) (b.start peer i) := by
  have call : ∀ (buf : List Byte) (k : Int) (rd ac : Bool),
      StartEnds (fun b' => b.CallFrom buf rd k.toNat b' ∧ b'.spi = b.spi) (b.callTransaction peer buf k rd ac) := by
    intro buf k rd ac
    unfold Block.callTransaction
    split
    · trivial
    · next hl => exact begin_callFrom hi (by have := (lengthArg_ok hl).2.2; omega)
  have cycle : ∀ (x : Byte) (rd ad : Bool), b.role = .host →
      StartEnds (fun b' => b.CallFrom [x] rd 1 b' ∧ b'.spi = b.spi) (b.callCycle peer rd ad x) := by
    intro x rd ad hr
    unfold Block.callCycle
    split
    · exact begin_callFrom hi (le_refl 1)
    · next h => exact absurd (hr.symm.trans h) nofun
  cases i with
  | write _ _ | setAddress _ _ | read _ _ | getAddress _ _ | transaction _ _ _ _ =>
    cases ht
    exact call ..
  | cycleAddressWrite _ | cycleAddressRead | cycleDataWrite _ | cycleDataRead =>
    simp only [Instr.transferArgs, Option.ite_none_right_eq_some] at ht
    obtain ⟨hr, ht⟩ := ht
    cases ht
    exact cycle _ _ _ hr
  | _ => cases ht

theorem exec_transfer {s t : State} {i : Instr} {buf : List Byte} {rd : Bool} {n : Nat} (hs : s.FarOnly)
    (hi : Instr.transferArgs s.near.role i = some (buf, rd, n)) (he : exec i s = .next t) :
    s.near.CallFrom buf rd n t.near ∧ t.near.spi = s.near.spi := by
  rw [exec_eq] at he
  have hq := (State.launch_next he).1
  have hb := (s.near.atRest_iff.mp hq).1
  refine farOnly_launch (P := fun b => s.near.CallFrom buf rd n b ∧ b.spi = s.near.spi) ?_ hs
    (fun _ _ b' => (start_transfer hb hi).ok) he
  intro p n m b b' h ha hm
  obtain ⟨hc, hspi⟩ := tick_callFrom hq h.1 ha hm
  exact ⟨hc, (hspi (by rw [h.2]; exact (s.near.idleBelow_iff.mp hb).2.2.2.2.1)).trans h.2⟩

/-- Settles O47: a transfer starts as a call of the engine, which writes only its own state, the lines, the result and, when
it reads, the first bytes of the caller's buffer. -/
theorem transferFrame : Obligations.TransferFrame := by
  intro s t i hs hi he
  have args : ∃ x, Instr.transferArgs s.near.role i = some x := by
    rcases hi with ⟨buf, n, rfl | rfl | rfl | rfl | ⟨rd, ac, rfl⟩⟩ | ⟨hr, ⟨y, rfl⟩ | rfl | ⟨y, rfl⟩ | rfl⟩
    · exact ⟨_, rfl⟩
    · exact ⟨_, rfl⟩
    · exact ⟨_, rfl⟩
    · exact ⟨_, rfl⟩
    · exact ⟨_, rfl⟩
    all_goals exact ⟨_, if_pos hr⟩
  have call : ∀ {buf rd n}, Instr.transferArgs s.near.role i = some (buf, rd, n) → s.near.CallFrom buf rd n t.near :=
    fun h => (exec_transfer hs h he).1
  obtain ⟨⟨buf, rd, n⟩, hx⟩ := args
  obtain ⟨hc, hspi⟩ := exec_transfer hs hx he
  have keeps : ∀ {α : Type} (f : Block → α),
      f { t.near.lessSpi with ubuf := [] } = f { s.near.lessSpi with ubuf := [] } := fun f => congrArg f hc.same
  refine ⟨keeps Block.par, keeps Block.role, fun a => keeps fun b => b.buf.read a, keeps Block.per, hspi,
    keeps Block.flash, keeps Block.disp, keeps Block.sin, keeps Block.sout, keeps Block.calls, ?_, ?_, ?_⟩
  · rintro buf n (rfl | rfl | ⟨ac, rfl⟩) <;> exact (call rfl).ubuf_of_write
  · rintro y (rfl | rfl) <;>
      exact (call (n := 1) (if_pos ((Option.ite_none_right_eq_some.mp hx).1))).ubuf_of_write
  · rintro buf n (rfl | rfl | ⟨ac, rfl⟩) <;> exact ⟨(call rfl).length, fun a ha => (call rfl).kept a (.inr ha)⟩

end Sys2Proof.Machine
end

section
/-! The SPI layer and the flash sequencer: what they leave unchanged, whatever the far party does (R29, R30, R32, R190). -/

namespace Sys2Proof.Machine

/-! ### The SPI layer and the pass-through shapes (R101, R171, R172) -/

/-- The arguments of an operation of the SPI layer at an end with the caller's buffer `u`: the buffer it leaves in place,
whether it is read into, and up to which byte. -/
def Instr.spiArgs (u : List Byte) : Instr → Option (List Byte × Bool × Nat)
  | .spiReset => some (u, false, 0)
  | .ptChipDisable => some (u, false, 0)
  | .ptDataClear => some (u, false, 0)
  | .ptChipEnable => some (u, false, 0)
  | .spiTransaction buf n rd => some (buf, rd, n.toNat)
  | .ptPayload buf n rd => some (buf, rd, n.toNat)
  | _ => none

theorem start_spi {b : Block} {peer : Option Role} {i : Instr} {buf : List Byte} {rd : Bool} {n : Nat}
    (hi : b.idleBelow = true) (ht : Instr.spiArgs b.ubuf i = some (buf, rd, n)) :
    StartEnds (b.CallFrom buf rd n) (b.start peer i) := by
  have idle : ∀ {ok u}, ({ b with ubuf := u } : Block).Stores ok := fun {_ _} => idle_stores hi
  have reset : ∀ first last, StartEnds (b.CallFrom b.ubuf false 0) (b.beginSpiReset peer first last) :=
    fun first last => ((beginSpiReset_stores idle).and (beginSpiReset_lessSpiCall rfl)).mono
      fun _ h => callFrom_of_start h.1 h.2
  have call : ∀ (buf : List Byte) (k : Int) (rd : Bool) first last,
      StartEnds (b.CallFrom buf rd k.toNat) (b.callSpiTransaction peer buf k rd first last) := by
    intro buf k rd first last
    unfold Block.callSpiTransaction
    split
    · trivial
    · next len hl =>
      have hk : len ≤ k.toNat := by have := (lengthArg_ok hl).2.2; omega
      exact ((beginSpiTransaction_stores idle fun hrd => ⟨hrd, rfl, hk⟩).and (beginSpiTransaction_lessSpiCall rfl)).mono
        fun _ h => callFrom_of_start h.1 h.2
  unfold Block.start
  cases i with
  | spiReset | ptChipDisable | ptDataClear =>
    cases ht
    exact reset ..
  | ptChipEnable =>
    cases ht
    exact ((beginSpiTransaction_stores idle nofun).and (beginSpiTransaction_lessSpiCall rfl)).mono
      fun _ h => callFrom_of_start h.1 h.2
  | spiTransaction _ _ _ | ptPayload _ _ _ =>
    cases ht
    exact call ..
  | _ => cases ht

theorem exec_spi {s t : State} {i : Instr} {buf : List Byte} {rd : Bool} {n : Nat} (hs : s.FarOnly)
    (hi : Instr.spiArgs s.near.ubuf i = some (buf, rd, n)) (he : exec i s = .next t) :
    s.near.CallFrom buf rd n t.near := by
  rw [exec_eq] at he
  have hq := (State.launch_next he).1
  exact farOnly_launch (fun _ _ _ _ _ h ha hm => (tick_callFrom hq h ha hm).1) hs
    (fun _ _ b' => (start_spi (s.near.atRest_iff.mp hq).1 hi).ok) he

/-! ### The flash sequencer (R181 to R186) -/

/-- Nothing but a call of the flash sequencer has run at the end since `q`; it stores where `ok` allows and keeps its
registers in `K`. -/
structure Block.FlashFrom (q : Block) (ok : BufRef → Nat → Prop) (K : FlashRegs → Prop) (b : Block) : Prop where
  stores : b.Stores ok
  same : b.lessFlash = q.lessFlash
  regs : K b.flash

/-- What makes `K` and `ok` hold along a run of the sequencer: stores go to `ST` alone, the status reply is among them, and
neither a store nor a step of the sequencer leaves `K`. -/
structure FlashRule (ok : BufRef → Nat → Prop) (K : FlashRegs → Prop) : Prop where
  status : ∀ r len, ok r len → r = .st
  reply : ∀ f, K f → f.ph = .pollCmd → ok .st 1
  store : ∀ f v len, ok .st len → K f → K { f with st := v }
  step : ∀ (p : Peer) (n : Nat) (b : Block), K b.flash → (flashTick p n b).Ends (K ·.flash)

theorem flashTick_stores {ok : BufRef → Nat → Prop} {p : Peer} {n : Nat} {b : Block} (h : b.Stores ok)
    (hreply : b.flash.ph = .pollCmd → ok .st 1) : (flashTick p n b).Ends (·.Stores ok) := by
  have any : ∀ f : FlashRegs, ({ b with flash := f } : Block).Stores ok := fun _ =>
    ⟨h.steps, h.first, h.index, h.engine, h.layer⟩
  have reset : ∀ f : FlashRegs, StartEnds (·.Stores ok) (({ b with flash := f } : Block).beginSpiReset p.role .s1 .s4) :=
    fun f => beginSpiReset_stores (any f)
  have send : ∀ (f : FlashRegs) ref len,
      StartEnds (·.Stores ok) (({ b with flash := f } : Block).beginSpiTransaction p.role ref len false .s1 .s4) :=
    fun f _ _ => beginSpiTransaction_stores (any f) nofun
  unfold flashTick
  cases hp : b.flash.ph <;> dsimp only
  case idle => trivial
  case test =>
    split
    · exact (reset _).ofBegin n
    · exact any _
  case deselect =>
    repeat' split
    · exact any _
    · trivial
    · exact (send _ _ _).ofBegin _
    · exact (send _ _ _).ofBegin _
  case seed | incr =>
    refine flashNext_ends (any _) ?_
    split
    · exact any _
    · exact reset _
  case pollDeselect => exact flashNext_ends (any _) (send _ _ _)
  case pollCmd => exact flashNext_ends (any _) (beginSpiTransaction_stores (any _) fun _ => hreply hp)
  case pollRead =>
    refine flashNext_ends (any _) ?_
    split <;> exact any _
  case pollTest =>
    split
    · exact (reset _).ofBegin n
    · exact any _
  case done => exact ⟨h.steps, h.first, h.index, h.engine, h.layer⟩

theorem tick_flashFrom {q b b' : Block} {ok : BufRef → Nat → Prop} {K : FlashRegs → Prop} {p : Peer} {n m : Nat}
    (hK : FlashRule ok K) (hq : q.atRest = true) (h : q.FlashFrom ok K b) (ha : b.atRest = false)
    (hb : b.tick p n = .moved b' m) : q.FlashFrom ok K b' := by
  obtain ⟨-, hr, -, hp, -, -⟩ := q.idleBelow_iff.mp (q.atRest_iff.mp hq).1
  have er : b.rph = q.rph := (congrArg Block.rph h.same :)
  have ep : b.per.ph = .idle := (congrArg (·.per.ph) h.same :).trans hp
  have hrun := runs_below hq ha er (congrArg Block.disp h.same :)
  by_cases hlow : b.todo = [] ∧ b.host.ph = .idle ∧ b.spi.ph = .idle
  · obtain ⟨ht, hh, hs⟩ := hlow
    replace hb := Block.advance_of_moved hb
    rw [Block.advance_flash p n ht (er.trans hr) hh ep hs (fun hf => hrun ⟨ht, hh, ep, hs, hf⟩)] at hb
    exact ⟨(flashTick_stores h.stores (hK.reply _ h.regs)).moved hb, (flashTick_lessFlash.moved hb).1.trans h.same,
      (hK.step p n b h.regs).moved hb⟩
  · obtain ⟨hs, hst, -⟩ := layers_tick h.stores (er.trans hr) ep hlow hb
    cases hst with
    | same e => exact ⟨hs, (congrArg Block.lessFlash e :).trans h.same, (congrArg Block.flash e :) ▸ h.regs⟩
    | buf v hok _ _ => exact absurd (hK.status _ _ hok) nofun
    | user v hok _ _ => exact absurd (hK.status _ _ hok) nofun
    | st v hok _ e =>
      have ef : b'.flash = { b.flash with st := v } := (congrArg Block.flash e :)
      exact ⟨hs, (congrArg Block.lessFlash e :).trans h.same, ef ▸ hK.store _ v _ hok h.regs⟩

/-- A flash command starts with a `SpiReset` (R181, R184), from any registers of the sequencer and any caller's buffer. -/
theorem reset_flashFrom {b : Block} {u : List Byte} {f : FlashRegs} {peer : Option Role} {ok : BufRef → Nat → Prop}
    {K : FlashRegs → Prop} (hi : b.idleBelow = true) (hK : K f) :
    StartEnds (({ b with ubuf := u } : Block).FlashFrom ok K)
      (({ b with ubuf := u, flash := f } : Block).beginSpiReset peer .s1 .s4) := by
  have h : ({ b with ubuf := u, flash := f } : Block).Stores ok := by
    have h := idle_stores (ok := ok) hi
    exact ⟨h.steps, h.first, h.index, h.engine, h.layer⟩
  refine ((beginSpiReset_stores h).and (beginSpiReset_lessSpiCall rfl)).mono fun b' e => ?_
  exact ⟨e.1, (congrArg Block.lessFlash e.2 :), (congrArg Block.flash e.2 :).symm ▸ hK⟩

theorem exec_flash {s t : State} {i : Instr} {u : List Byte} {ok : BufRef → Nat → Prop} {K : FlashRegs → Prop}
    (hs : s.FarOnly) (hK : FlashRule ok K)
    (hi : s.near.idleBelow = true → ∀ peer,
      StartEnds (({ s.near with ubuf := u } : Block).FlashFrom ok K) (s.near.start peer i))
    (he : exec i s = .next t) : ({ s.near with ubuf := u } : Block).FlashFrom ok K t.near := by
  rw [exec_eq] at he
  have hq := (State.launch_next he).1
  exact farOnly_launch (fun _ _ _ _ _ => tick_flashFrom hK (q := { s.near with ubuf := u }) hq) hs
    (fun _ _ b' => (hi (s.near.atRest_iff.mp hq).1 _).ok) he

/-- A transaction that reads stores into `ST` alone. -/
def statusByte (r : BufRef) (_ : Nat) : Prop := r = .st

/-- Nothing is stored. -/
def noStore (_ : BufRef) (_ : Nat) : Prop := False

theorem programRule : FlashRule statusByte fun _ => True where
  status _ _ h := h
  reply _ _ _ := rfl
  store _ _ _ _ h := h
  step p n b _ := by cases flashTick p n b <;> trivial

/-- The sequencer polls the status on its own (R184), with the flash command bytes `c` as they were. -/
def FlashRegs.PollsOnly (c : CmdBytes) (f : FlashRegs) : Prop :=
  f.op = .statusOnly ∧ (f.ph = .idle ∨ f.ph ∈ pollPhases) ∧ f.cmd = c

theorem pollsOnly_rule (c : CmdBytes) : FlashRule statusByte (FlashRegs.PollsOnly c) where
  status _ _ h := h
  reply _ _ _ := rfl
  store _ _ _ _ h := h
  step p n b h := by
    obtain ⟨hop, hph, hcmd⟩ := h
    have send : ∀ {ref len rd} {f : FlashRegs}, FlashRegs.PollsOnly c f → StartEnds (FlashRegs.PollsOnly c ·.flash)
        (({ b with flash := f } : Block).beginSpiTransaction p.role ref len rd .s1 .s4) := fun hf =>
      (beginSpiTransaction_lessSpiCall rfl).mono fun _ e => (congrArg Block.flash e :).symm ▸ hf
    have ends : FlashRegs.PollsOnly c (b.flashTo .idle).flash := ⟨hop, .inl rfl, hcmd⟩
    unfold flashTick
    simp only [pollPhases, List.mem_cons, List.not_mem_nil, or_false] at hph
    rcases hph with hph | hph | hph | hph <;> rw [hph] <;> dsimp only
    · trivial
    · exact flashNext_ends ends (send ⟨hop, .inr (by simp), hcmd⟩)
    · exact flashNext_ends ends (send ⟨hop, .inr (by simp), hcmd⟩)
    · refine flashNext_ends ends ?_
      rw [if_pos hop]
      exact ends

/-- The sequencer sends one pair on its own, as a seed or as an increment command (R182, R183), with the status byte `y` as
it was. -/
def FlashRegs.PairOnly (y : Byte) (f : FlashRegs) : Prop :=
  ((f.op = .seedOnly ∧ f.ph ∈ [.idle, .deselect, .seed] ∧ (f.ph = .deselect → f.init = false)) ∨
    (f.op = .incrOnly ∧ f.ph ∈ [.idle, .deselect, .incr] ∧ (f.ph = .deselect → f.init = true))) ∧ f.st = y

theorem pairOnly_rule (y : Byte) : FlashRule noStore (FlashRegs.PairOnly y) where
  status _ _ h := h.elim
  reply f h hp := by
    rcases h.1 with ⟨-, h, -⟩ | ⟨-, h, -⟩ <;> simp [hp] at h
  store _ _ _ h := h.elim
  step p n b h := by
    have send : ∀ {ref len rd} {f : FlashRegs}, FlashRegs.PairOnly y f → StartEnds (FlashRegs.PairOnly y ·.flash)
        (({ b with flash := f } : Block).beginSpiTransaction p.role ref len rd .s1 .s4) := fun hf =>
      (beginSpiTransaction_lessSpiCall rfl).mono fun _ e => (congrArg Block.flash e :).symm ▸ hf
    obtain ⟨hpair, hst⟩ := h
    have ends : ∀ init, FlashRegs.PairOnly y { b.flash with ph := .idle, init := init } := fun _ =>
      ⟨hpair.imp (fun h => ⟨h.1, by simp, nofun⟩) fun h => ⟨h.1, by simp, nofun⟩, hst⟩
    unfold flashTick
    simp only [List.mem_cons, List.not_mem_nil, or_false] at hpair
    rcases hpair with ⟨hop, hph | hph | hph, hinit⟩ | ⟨hop, hph | hph | hph, hinit⟩ <;> rw [hph] <;> dsimp only
    case inl.inl | inr.inl => trivial
    case inl.inr.inl =>
      repeat' split
      · exact ends _
      · trivial
      · next hi => rw [hinit hph] at hi; cases hi
      · exact (send (by exact ⟨.inl ⟨hop, by simp, nofun⟩, hst⟩)).ofBegin _
    case inr.inr.inl =>
      repeat' split
      · exact ends _
      · trivial
      · exact (send (by exact ⟨.inr ⟨hop, by simp, nofun⟩, hst⟩)).ofBegin _
      · next hi => exact absurd (hinit hph) hi
    case inl.inr.inr | inr.inr.inr =>
      refine flashNext_ends (ends _) ?_
      rw [if_pos hop]
      exact ends _

theorem exec_status {s t : State} (hs : s.FarOnly) (he : exec .flashReadStatus s = .next t) :
    s.near.FlashFrom statusByte (FlashRegs.PollsOnly s.near.flash.cmd) t.near :=
  exec_flash (u := s.near.ubuf) hs (pollsOnly_rule _)
    (fun hb _ => reset_flashFrom hb (by exact ⟨rfl, .inr (by simp), rfl⟩)) he

theorem exec_pair {s t : State} {i : Instr} {d e : Byte} (hs : s.FarOnly)
    (hi : i = .flashAaiSeed d e ∨ i = .flashAaiIncrement d e) (he : exec i s = .next t) :
    ({ s.near with ubuf := [d, e] } : Block).FlashFrom noStore (FlashRegs.PairOnly s.near.flash.st) t.near := by
  refine exec_flash hs (pairOnly_rule _) (fun hb _ => ?_) he
  rcases hi with rfl | rfl
  · exact reset_flashFrom hb (by exact ⟨.inl ⟨rfl, by simp, fun _ => rfl⟩, rfl⟩)
  · exact reset_flashFrom hb (by exact ⟨.inr ⟨rfl, by simp, fun _ => rfl⟩, rfl⟩)

theorem exec_program {s t : State} {buf : List Byte} {n : Int} {init : Bool} (hs : s.FarOnly)
    (he : exec (.flashProgram buf n init) s = .next t) :
    ({ s.near with ubuf := buf } : Block).FlashFrom statusByte (fun _ => True) t.near := by
  refine exec_flash hs programRule (fun hb _ => ?_) he
  show StartEnds _ (s.near.callFlashProgram buf n init)
  unfold Block.callFlashProgram
  split
  · trivial
  · unfold Block.beginFlash
    have h := idle_stores (ok := statusByte) hb
    repeat' split
    · trivial
    · trivial
    · exact ⟨⟨h.steps, h.first, h.index, h.engine, h.layer⟩, rfl, trivial⟩

/-- Settles O49: each operation starts as a call of the SPI layer or of the flash sequencer, whose steps write nothing above
it; what is stored into is the caller's buffer of a read, or `ST`. -/
theorem passThroughFrame : Obligations.PassThroughFrame := by
  intro s t i hs hi he
  have spi : ∀ {buf rd n}, Instr.spiArgs s.near.ubuf i = some (buf, rd, n) → s.near.CallFrom buf rd n t.near := fun h =>
    exec_spi hs h he
  have pair : ∀ {d e}, i = .flashAaiSeed d e ∨ i = .flashAaiIncrement d e → _ := fun h => exec_pair hs h he
  have ofSpi : ∀ {buf rd n}, s.near.CallFrom buf rd n t.near →
      ({ t.near.lessFlash with ubuf := [] } : Block) = { s.near.lessFlash with ubuf := [] } := fun h =>
    (congrArg (fun b : Block => { b.lessFlash with ubuf := [] }) h.same :)
  have ofFlash : ∀ {u ok K}, ({ s.near with ubuf := u } : Block).FlashFrom ok K t.near →
      ({ t.near.lessFlash with ubuf := [] } : Block) = { s.near.lessFlash with ubuf := [] } := fun h =>
    (congrArg (fun b : Block => { b with ubuf := [] }) h.same :)
  have frame : ({ t.near.lessFlash with ubuf := [] } : Block) = { s.near.lessFlash with ubuf := [] } := by
    rcases hi with rfl | rfl | rfl | rfl | rfl | ⟨d, e, h⟩ | ⟨buf, n, ⟨rd, rfl | rfl⟩ | ⟨init, rfl⟩⟩
    · exact ofSpi (spi rfl)
    · exact ofSpi (spi rfl)
    · exact ofSpi (spi rfl)
    · exact ofSpi (spi rfl)
    · exact ofFlash (u := s.near.ubuf) (exec_status hs he)
    · exact ofFlash (pair h)
    · exact ofSpi (spi rfl)
    · exact ofSpi (spi rfl)
    · exact ofFlash (exec_program hs he)
  have keeps : ∀ {α : Type} (f : Block → α),
      f { t.near.lessFlash with ubuf := [] } = f { s.near.lessFlash with ubuf := [] } := fun f => congrArg f frame
  have sequencer : ∀ {buf rd n}, s.near.CallFrom buf rd n t.near → t.near.flash = s.near.flash := fun h =>
    (congrArg Block.flash h.same :)
  refine ⟨keeps Block.par, keeps Block.role, fun a => keeps fun b => b.buf.read a, keeps Block.per, keeps Block.disp,
    keeps Block.sin, keeps Block.sout, keeps Block.calls, ?_, ?_, ?_, ?_, ?_⟩
  · rintro (rfl | rfl | rfl | rfl) <;> exact ⟨sequencer (spi rfl), (spi rfl).ubuf_of_write⟩
  · rintro buf n rd (rfl | rfl) <;> exact ⟨sequencer (spi rfl), (spi rfl).length, fun a ha => (spi rfl).kept a ha⟩
  · rintro rfl
    have h := exec_status hs he
    exact ⟨(congrArg Block.ubuf h.same :), h.regs.2.2⟩
  · intro d e h
    exact ⟨(congrArg Block.ubuf (pair h).same :), (pair h).regs.2⟩
  · rintro buf n init rfl
    exact (congrArg Block.ubuf (exec_program hs he).same :)

end Sys2Proof.Machine
end

section
/-! Operations that are refused by name (R72, R98, R241, R242, R248): what a launch answers while another operation runs, and
what the call of an engine operation answers against an end in the same role. -/

namespace Sys2Proof.Machine

/-- While an operation runs at the end, no other is launched there (R72, R248). -/
theorem exec_interleaved {s : State} (hd : s.near.disp.ph ≠ .halted) (hr : s.near.atRest = false) (i : Instr) :
    exec i s = .refused .interleaved := by
  simp [exec_eq, State.launch, hd, hr]

/-- At an idle end an operation whose start is refused is refused with the same name. -/
theorem exec_refused {s : State} {i : Instr} {r : Refusal} (hs : s.Idle) (h : s.near.start s.far.role i = .error r) :
    exec i s = .refused r := by
  rw [exec_eq, h, State.launch_error hs.1 hs.2]

theorem lengthArg_natCast {buf : List Byte} {n : Nat} (hn : n ≤ 128) (hb : n ≤ buf.length) :
    lengthArg buf (n : Int) = .ok n := by
  have h : ¬((n : Int) < 0 ∨ (Config.cap : Int) < n) := by
    show ¬((n : Int) < 0 ∨ (128 : Int) < n)
    omega
  rw [lengthArg, if_neg h, Int.toNat_natCast, if_neg (by omega)]

theorem beginTransaction_sameRole {b : Block} {ref : BufRef} {len : Nat} {rd ac : Bool} (hr : b.role = .host) :
    b.beginTransaction (some .host) ref len rd ac = .error .sameRole := by
  rw [Block.beginTransaction, if_neg (not_not_intro hr), if_pos rfl]

theorem beginTransaction_wrongRole {b : Block} {peer : Option Role} {ref : BufRef} {len : Nat} {rd ac : Bool}
    (hr : b.role = .peripheral) : b.beginTransaction peer ref len rd ac = .error .wrongRole := by
  rw [Block.beginTransaction, if_pos (by rw [hr]; decide)]

theorem beginPeripheralCycle_sameRole {b : Block} (hr : b.role = .peripheral) :
    b.beginPeripheralCycle (some .peripheral) = .error .sameRole := by
  rw [Block.beginPeripheralCycle, Block.peripheralGuard, if_neg (not_not_intro hr), if_pos rfl]
  rfl

theorem clashes_iff (b : Block) (p : Peer) : b.clashes p = true ↔
    (b.host.ph ≠ .idle ∧ p.role = some .host) ∨ (b.per.ph ≠ .idle ∧ p.role = some .peripheral) := by
  simp [Block.clashes]

/-- Settles O46: a launch and the calls of the two engines test for each arrangement, and every tick tests for the clash. -/
theorem exclusive : Obligations.Exclusive := by
  refine ⟨fun s i hd hr => exec_interleaved hd hr i, ?_, ?_, ?_, ?_⟩
  · intro s buf n rd ac hs hr hf hn hb
    refine exec_refused hs ?_
    show s.near.callTransaction s.far.role buf n rd ac = _
    rw [Block.callTransaction, lengthArg_natCast hn hb, hf]
    exact beginTransaction_sameRole (b := { s.near with ubuf := buf }) hr
  · intro s y hs hr hf
    refine exec_refused hs ?_
    show s.near.callPeripheralCycle s.far.role y = _
    rw [Block.callPeripheralCycle, hf]
    exact beginPeripheralCycle_sameRole (b := { s.near with per := { s.near.per with slot := y } }) hr
  · intro b p n h
    rw [Block.tick, if_pos ((clashes_iff b p).mpr h)]
  · intro s w hs hr
    refine exec_refused hs ?_
    show s.near.callReserved s.far.role w = _
    rw [Block.callReserved, hr]

end Sys2Proof.Machine
end

section
/-! What a turn does to the near block and to the script of the outside world, whatever agent moves (R6, R7, R34, R260). -/

namespace Sys2Proof.Machine

/-- What a move may do to the near block and to the script: it resets the block, or gives it serial bytes and requests and
changes nothing else of it; and it queues nothing but more of a far block's primitives. -/
structure Move.Does (m : Move) (s t : State) : Prop where
  near : (m = .resetNear ∧ t.near = s.near.blockReset s.drawn ∧ t.script = s.script) ∨
    ∃ x q, t.near = { s.near with sin := s.near.sin ++ x, calls := s.near.calls ++ q }
  script : ∀ e ∈ t.script, e ∈ s.script ∨ ∃ k, e.move = .far k

theorem Move.apply_does {m : Move} {s t : State} (h : m.apply s = .moved t) : m.Does s t := by
  have gives : ∀ {u : State} (x : List Byte) (q : List Request), u.script = s.script →
      u.near = { s.near with sin := s.near.sin ++ x, calls := s.near.calls ++ q } → Turn.moved u = .moved t → m.Does s t :=
    fun x q hs hn hu => Turn.moved.inj hu ▸ ⟨.inr ⟨x, q, hn⟩, fun e he => .inl (hs ▸ he)⟩
  have keeps : ∀ {u : State}, u.script = s.script → u.near = s.near → Turn.moved u = .moved t → m.Does s t :=
    fun hs hn => gives [] [] hs (by rw [hn, List.append_nil, List.append_nil])
  cases m with
  | lines ls =>
    simp only [Move.apply] at h
    split at h <;> exact keeps (by rfl) (by rfl) h
  | far k =>
    cases k with
    | zero => exact keeps rfl rfl h
    | succ k =>
      simp only [Move.apply, State.moveFar] at h
      split at h
      · exact keeps rfl rfl h
      · split at h
        · obtain rfl := Turn.moved.inj h
          refine ⟨.inr ⟨[], [], by rw [List.append_nil, List.append_nil]; rfl⟩, fun e he => ?_⟩
          rcases List.mem_cons.mp he with rfl | he
          · exact .inr ⟨k, rfl⟩
          · exact .inl he
        · exact keeps (by rfl) (by rfl) h
        · cases h
        · cases h
  | serial x => exact gives [x] [] (by rfl) (by rw [List.append_nil]) h
  | call q => exact gives [] [q] (by rfl) (by rw [List.append_nil]) h
  | resetNear =>
    obtain rfl := Turn.moved.inj h
    exact ⟨.inl ⟨rfl, rfl, rfl⟩, fun e he => .inl he⟩
  | farSerial _ | farCall _ | resetFar => exact keeps (by rfl) (by rfl) h

/-- A turn resets the near block, or is a step of its own, or gives it serial bytes and requests, if it does anything to it. -/
theorem State.turn_near_cases {s t : State} (h : s.turn = .moved t) :
    (∃ d n, s.script = ⟨d, .resetNear⟩ :: t.script ∧ t.near = s.near.blockReset n) ∨
      (∃ n, s.near.tick s.far.asPeer s.drawn = .moved t.near n) ∨
      ∃ x q, t.near = { s.near with sin := s.near.sin ++ x, calls := s.near.calls ++ q } := by
  rcases State.turn_moved h with hr | ⟨u, hu, e⟩ | ⟨⟨d, m⟩, rest, u, hs, hu, hm⟩
  · exact .inr (.inr ⟨[], [], by rw [List.append_nil, List.append_nil, (State.react_some hr).1]⟩)
  · obtain ⟨hn, -, -⟩ := State.tickNear_cases hu
    rcases e with rfl | ⟨k, m, rest, -, rfl⟩ <;> exact .inr (.inl hn)
  · have hu : u.near = s.near := hu.elim (congrArg State.near) fun hu => (State.tickNear_stuck hu).1
    rcases (Move.apply_does hm).near with ⟨rfl, hn, ht⟩ | hn
    · exact .inl ⟨d, u.drawn, by rw [hs, ht], hu ▸ hn⟩
    · exact .inr (.inr (hu ▸ hn))

/-- What is to come after a turn was to come before it, but for more of a far block's primitives. -/
theorem State.turn_script {s t : State} (h : s.turn = .moved t) :
    ∀ e ∈ t.script, (∃ e' ∈ s.script, e'.move = e.move) ∨ ∃ k, e.move = .far k := by
  have keeps : ∀ {u : State}, u.script = s.script → ∀ e ∈ u.script, (∃ e' ∈ s.script, e'.move = e.move) ∨
      ∃ k, e.move = .far k := fun hs e he => .inl ⟨e, hs ▸ he, rfl⟩
  rcases State.turn_moved h with hr | ⟨u, hu, e⟩ | ⟨a, rest, u, hs, -, hm⟩
  · exact keeps (State.react_some hr).2.1
  · obtain ⟨-, hsu, -⟩ := State.tickNear_cases hu
    rcases e with rfl | ⟨k, m, rest, hs, rfl⟩
    · exact keeps hsu
    · intro e he
      rcases List.mem_cons.mp he with rfl | he
      · exact .inl ⟨⟨.after (k + 1), m⟩, by rw [hs]; exact List.mem_cons_self .., rfl⟩
      · exact .inl ⟨e, by rw [hs]; exact List.mem_cons_of_mem _ he, rfl⟩
  · intro e he
    rcases (Move.apply_does hm).script e he with he | hk
    · exact .inl ⟨e, by rw [hs]; exact List.mem_cons_of_mem _ he, rfl⟩
    · exact .inr hk

end Sys2Proof.Machine
end

section
/-! The 'C' sub-loop as a one-way door (R206, R275): nothing that runs at an end in the peripheral role writes the role, since
only a `Reset` does and none starts there; so an end in the sub-loop stays in it until its external reset. -/

namespace Sys2Proof.Machine

/-! ### The role of a peripheral end -/

/-- The end is a peripheral, with no `ROLE` write to come. -/
def Block.StaysPeripheral (b : Block) : Prop := b.role = .peripheral ∧ ∀ r, Prim.setRole r ∉ b.todo

theorem Tick.Ends.and {P Q : Block → Prop} {t : Tick} (h : t.Ends P) (h' : t.Ends Q) : t.Ends fun b => P b ∧ Q b := by
  cases t with
  | moved b n => exact ⟨h, h'⟩
  | waiting _ | fault _ | refused _ => trivial

theorem setRole_not_mem_of_isLine {steps : List Prim} (h : ∀ x ∈ steps, x.isLine = true) (r : Role) :
    Prim.setRole r ∉ steps := fun hm => absurd (h _ hm) nofun

theorem setRole_not_mem_of_isPeripheral {steps : List Prim} (h : ∀ x ∈ steps, x.isPeripheral = true) (r : Role) :
    Prim.setRole r ∉ steps := fun hm => absurd (h _ hm) nofun

section
variable {b : Block}

theorem prim_staysPeripheral {x : Prim} {p : Peer} {n : Nat} (h : b.StaysPeripheral) (hx : ∀ r, x ≠ .setRole r) :
    (x.run p n b).Ends Block.StaysPeripheral := by
  cases x with
  | setRole r => exact absurd rfl (hx r)
  | storeHost =>
    unfold Prim.run
    dsimp only
    split
    · next hw => rcases bufWrite_some hw with ⟨-, rfl⟩ | ⟨-, rfl⟩ | ⟨-, rfl⟩ <;> exact h
    · trivial
  | setDir _ _ | setLvl _ _ | delay _ | get _ | storeSlot | senseWrsel | senseAstb => exact h

theorem hostTick_no_setRole {p : Peer} {n : Nat} : (hostTick p n b).Ends fun b' => ∀ r, Prim.setRole r ∉ b'.todo := by
  have finish : ∀ r, Prim.setRole r ∉ finishPrims b.host.rd :=
    setRole_not_mem_of_isLine (List.all_eq_true.mp (by cases b.host.rd <;> rfl))
  have restore : ∀ r, Prim.setRole r ∉ if b.host.rd then [] else dataIdle :=
    setRole_not_mem_of_isLine (List.all_eq_true.mp (by cases b.host.rd <;> rfl))
  have sample : ∀ r, Prim.setRole r ∉ if b.host.rd then dataSample ++ [.storeHost] else [] := by
    cases b.host.rd <;> simp [dataSample]
  have strobe : ∀ v r, Prim.setRole r ∉ [.setLvl (strobeOf b.host.ac) v] := fun v r => by simp
  unfold hostTick
  cases b.host.ph <;> dsimp only
  case idle => trivial
  case setup | restore =>
    split
    · exact fun _ => List.not_mem_nil
    · exact finish
  case preWait =>
    repeat' split
    · trivial
    · exact fun _ => List.not_mem_nil
    · trivial
    · exact setRole_not_mem_of_isLine (pull_isLine _)
  case ackWait =>
    split
    · trivial
    · exact sample
  case put | get => exact strobe _
  case strobe | finish => exact fun _ => List.not_mem_nil
  case release => exact restore

/-- No call of the SPI layer gets past its engine call at a peripheral (R242). -/
theorem spiCall_staysPeripheral {peer : Option Role} {ph : SPhase} (h : b.StaysPeripheral) :
    StartEnds Block.StaysPeripheral (b.spiCall peer ph) := by
  have refused : ∀ ref len rd ac, StartEnds Block.StaysPeripheral
      (({ b with spi := { b.spi with ph := ph } } : Block).beginTransaction peer ref len rd ac) := fun _ _ _ _ => by
    rw [beginTransaction_wrongRole (by exact h.1)]
    trivial
  unfold Block.spiCall Block.spiEngineCall
  cases ph with
  | idle => exact h
  | s1 | s3 => exact refused ..
  | s2 | s4 => cases b.spi.kind <;> exact refused ..

theorem beginSpiReset_staysPeripheral {peer : Option Role} {first last : SPhase} (h : b.StaysPeripheral) :
    StartEnds Block.StaysPeripheral (b.beginSpiReset peer first last) := spiCall_staysPeripheral h

theorem beginSpiTransaction_staysPeripheral {peer : Option Role} {ref : BufRef} {len : Nat} {rd : Bool}
    {first last : SPhase} (h : b.StaysPeripheral) :
    StartEnds Block.StaysPeripheral (b.beginSpiTransaction peer ref len rd first last) := by
  unfold Block.beginSpiTransaction
  split
  · trivial
  · exact spiCall_staysPeripheral h

theorem spiTick_staysPeripheral {p : Peer} {n : Nat} (h : b.StaysPeripheral) :
    (spiTick p n b).Ends Block.StaysPeripheral := by
  unfold spiTick
  split
  · exact h
  · exact (spiCall_staysPeripheral h).ofBegin n

theorem flashTick_staysPeripheral {p : Peer} {n : Nat} (h : b.StaysPeripheral) :
    (flashTick p n b).Ends Block.StaysPeripheral := by
  have poll : ∀ f, StartEnds Block.StaysPeripheral (({ b with flash := f } : Block).flashPoll p.role) := fun _ =>
    beginSpiReset_staysPeripheral h
  have send : ∀ f ref len rd, StartEnds Block.StaysPeripheral
      (({ b with flash := f } : Block).beginSpiTransaction p.role ref len rd .s1 .s4) := fun _ _ _ _ =>
    beginSpiTransaction_staysPeripheral h
  unfold flashTick
  cases b.flash.ph <;> dsimp only
  case idle => trivial
  case test =>
    split
    · exact StartEnds.ofBegin n (beginSpiReset_staysPeripheral h)
    · exact h
  case deselect =>
    repeat' split
    · exact h
    · trivial
    · exact (send ..).ofBegin _
    · exact (send ..).ofBegin _
  case seed | incr =>
    refine flashNext_ends h ?_
    split
    · exact h
    · exact poll _
  case pollDeselect | pollCmd => exact flashNext_ends h (send ..)
  case pollRead =>
    refine flashNext_ends h ?_
    split <;> exact h
  case pollTest =>
    split
    · exact (poll _).ofBegin n
    · exact h
  case done => exact h

/-- A step below the dispatcher leaves a peripheral end in its role (R121, R242). -/
theorem tick_staysPeripheral {b' : Block} {p : Peer} {n m : Nat} (h : b.StaysPeripheral) (hi : b.idleBelow = false)
    (hb : b.tick p n = .moved b' m) : b'.StaysPeripheral := by
  refine Tick.Ends.moved ?_ (Block.advance_of_moved hb)
  unfold Block.advance
  split
  · next x rest ht =>
    refine prim_staysPeripheral ⟨h.1, fun r hr => h.2 r ?_⟩ fun r e => h.2 r ?_
    · rw [ht]
      exact List.mem_cons_of_mem x hr
    · rw [ht, e]
      exact List.mem_cons_self ..
  · next ht =>
    split
    · exact h
    · split
      · exact (hostTick_lessEngine.and hostTick_no_setRole).mono fun _ ⟨e, ht⟩ =>
          ⟨(congrArg Block.role e.1 :).trans h.1, ht⟩
      · split
        · exact (peripheralTick_lessPeripheral.and peripheralTick_todo).mono fun _ ⟨e, ht⟩ =>
            ⟨(congrArg Block.role e :).trans h.1, setRole_not_mem_of_isPeripheral ht⟩
        · split
          · exact spiTick_staysPeripheral h
          · split
            · exact flashTick_staysPeripheral h
            · next hr hh hp hs hf =>
              have hr : b.rph = .idle := by cases e : b.rph <;> simp_all
              simp_all [Block.idleBelow]

end

/-! ### The sub-loop -/

/-- `b` is in the sub-loop, has read no header since `q`, and has lost no byte of `SIN`. -/
structure Block.ConsoleFrom (q b : Block) : Prop where
  console : b.InConsole
  sin : q.sin <+: b.sin
  cmd : b.disp.cmd = q.disp.cmd
  lm1 : b.disp.lm1 = q.disp.lm1

theorem consoleTick_consoleFrom {b : Block} {p : Peer} {n : Nat} (h : b.InConsole) :
    (consoleTick p n b).Ends b.ConsoleFrom := by
  obtain ⟨-, hrole, htodo⟩ := h
  unfold consoleTick
  split
  · refine StartEnds.ofBegin n (peripheralGuard_ends ?_)
    exact ⟨⟨rfl, hrole, fun _ => List.not_mem_nil⟩, List.prefix_rfl, rfl, rfl⟩
  · show b.ConsoleFrom _
    split <;> exact ⟨⟨rfl, hrole, htodo⟩, List.prefix_rfl, rfl, rfl⟩

theorem tick_consoleFrom {b b' : Block} {p : Peer} {n m : Nat} (h : b.InConsole) (hb : b.tick p n = .moved b' m) :
    b.ConsoleFrom b' := by
  cases hi : b.idleBelow with
  | false =>
    have htop := (tick_below hi hb).1
    have hd : b'.disp = b.disp := (congrArg Block.disp htop :)
    have hs : b'.sin = b.sin := (congrArg Block.sin htop :)
    exact ⟨⟨hd ▸ h.1, tick_staysPeripheral h.2 hi hb⟩, hs ▸ List.prefix_rfl, hd ▸ rfl, hd ▸ rfl⟩
  | true =>
    rw [Block.tick_disp p n hi, dispTick, h.1] at hb
    exact (consoleTick_consoleFrom h).moved hb

/-- Only the external reset of the end takes it out of the sub-loop (R206, R260, R275). -/
theorem turn_consoleFrom {s t : State} (h : s.near.InConsole) (ht : s.turn = .moved t) :
    s.near.ConsoleFrom t.near ∨ ∃ d, s.script = ⟨d, .resetNear⟩ :: t.script ∧ t.near.disp.ph = .header0 := by
  rcases State.turn_near_cases ht with ⟨d, n, hs, hn⟩ | ⟨n, hn⟩ | ⟨x, q, hn⟩
  · exact .inr ⟨d, hs, by rw [hn]; rfl⟩
  · exact .inl (tick_consoleFrom h hn)
  · rw [hn]
    exact .inl ⟨h, List.prefix_append .., rfl, rfl⟩

/-- No external reset of the near block is to come. -/
def State.NoReset (s : State) : Prop := ∀ e ∈ s.script, e.move ≠ .resetNear

theorem State.NoReset.turn {s t : State} (h : s.NoReset) (ht : s.turn = .moved t) : t.NoReset := by
  intro e he hm
  rcases State.turn_script ht e he with ⟨e', he', hm'⟩ | ⟨k, hk⟩
  · exact h e' he' (hm'.trans hm)
  · exact absurd (hk.symm.trans hm) nofun

/-- The end has not left the sub-loop since `q`, and no external reset is to come. -/
structure State.StaysInConsole (q : Block) (s : State) : Prop where
  console : s.near.InConsole
  sin : q.sin <+: s.near.sin
  noReset : s.NoReset

theorem State.StaysInConsole.turn {q : Block} {s t : State} (h : s.StaysInConsole q)
    (ht : s.turn = .moved t ∨ s.turn = .stuck t) : t.StaysInConsole q := by
  rcases ht with ht | ht
  · rcases turn_consoleFrom h.console ht with hc | ⟨d, hs, -⟩
    · exact ⟨hc.console, h.sin.trans hc.sin, h.noReset.turn ht⟩
    · exact absurd rfl (h.noReset ⟨d, .resetNear⟩ (by rw [hs]; exact List.mem_cons_self ..))
  · obtain ⟨hn, hs, -⟩ := State.tickNear_stuck (State.turn_stuck ht).2
    exact ⟨hn ▸ h.console, hn ▸ h.sin, fun e he => h.noReset e (hs ▸ he)⟩

theorem State.StaysInConsole.step {q : Block} {s t : State} (h : s.StaysInConsole q) (ht : step s = .next t) :
    t.StaysInConsole q := by
  rcases step_next ht with ⟨i, u, hf, -⟩ | hr | ht
  · have hbusy := fetch_command (State.fetch_instr hf).2.1 (.inl (by simp [h.console.1]))
    exact absurd (hf.symm.trans hbusy) nofun
  · exact run_keeps (P := (·.StaysInConsole q)) (fun _ _ hu _ hv => hu.turn (.inl hv))
      (fun _ _ hu _ hv => hu.turn (.inr hv)) _ s t h hr
  · exact h.turn ht

/-- Settles O40: a turn is a step of the console, or hands it bytes and requests, or is its reset; a step is such turns. -/
theorem consoleOneWay : Obligations.ConsoleOneWay := by
  refine ⟨fun s t h ht => ?_, fun s t h hs ht => ?_, fun s i h => ?_⟩
  · exact (turn_consoleFrom h ht).imp_left fun hc => ⟨hc.console, hc.sin, hc.cmd, hc.lm1⟩
  · have h' : t.StaysInConsole s.near := State.StaysInConsole.step ⟨h, List.prefix_rfl, hs⟩ ht
    exact ⟨h'.console, h'.sin⟩
  · have hh : s.near.disp.ph ≠ .halted := by rw [h.1]; nofun
    exact exec_interleaved hh (Block.not_atRest_of_disp (by rw [h.1]; nofun) hh) i

end Sys2Proof.Machine
end

section
/-! Encodings and operand arithmetic (R90 to R108): the header code by code, the flash payloads, the round trip of every
encoded instruction, and the assembled length. -/

namespace Sys2Proof

/-! ### Headers (R91, R95, R96) -/

/-- The command codes of a board (R95, R206). -/
theorem isCommandCode_iff {board : Role} {code : Byte} : WellFormed.isCommandCode board code = true ↔
    code = Config.letterA ∨ code = Config.letterB ∨ (code = Config.letterC ∧ board = .host) ∨ code = Config.letterE ∨
      code = Config.letterP ∨ code = Config.letterR ∨ code = Config.letterW := by
  simp only [WellFormed.isCommandCode, Bool.or_eq_true, Bool.and_eq_true, beq_iff_eq, or_assoc]

/-- A code that a board knows no command for is the unrecognized command with both bytes (R96). -/
theorem decodeHeader_unrecognized {board : Role} {code : Byte} (x : Byte)
    (h : WellFormed.isCommandCode board code = false) : decodeHeader board code x = .unrecognized code x := by
  rw [← Bool.not_eq_true, isCommandCode_iff] at h
  simp only [not_or, not_and] at h
  obtain ⟨hA, hB, hC, hE, hP, hR, hW⟩ := h
  simp only [decodeHeader, hA, hB, hE, hP, hR, hW, if_false]
  split
  · next e => exact if_neg (hC e)
  · rfl

/-- Every header decodes to a well-formed instruction whose encoding it is (R91, R108). -/
theorem encode_decodeHeader (board : Role) (b0 b1 : Byte) :
    wellFormed board (decodeHeader board b0 b1) = true ∧
      encode (decodeHeader board b0 b1) = some (.cmd [b0, b1]) := by
  cases hc : WellFormed.isCommandCode board b0 with
  | false =>
    rw [decodeHeader_unrecognized b1 hc]
    exact ⟨by rw [wellFormed, hc]; rfl, rfl⟩
  | true => obtain rfl | rfl | ⟨rfl, rfl⟩ | rfl | rfl | rfl | rfl := isCommandCode_iff.mp hc <;> exact ⟨rfl, rfl⟩

/-- Settles O1: the seven codes by computation, every other one and the way back by the two lemmas on headers. -/
theorem headerCodes : Obligations.HeaderCodes := by
  refine fun board b1 => ⟨rfl, rfl, rfl, rfl, rfl, rfl, rfl, rfl, fun b0 => ⟨fun h => ?_, encode_decodeHeader board b0 b1⟩⟩
  refine decodeHeader_unrecognized b1 (Bool.eq_false_iff.mpr fun hc => h ?_)
  obtain rfl | rfl | ⟨rfl, rfl⟩ | rfl | rfl | rfl | rfl := isCommandCode_iff.mp hc <;> decide

/-! ### The other formats (R97, R98, R100, R102) -/

/-- Settles O2: the table of R97, row by row. -/
theorem cycleTags : Obligations.CycleTags :=
  ⟨fun _ => ⟨rfl, rfl, rfl, rfl, fun w => by cases w <;> exact ⟨rfl, rfl⟩⟩, rfl, rfl, rfl, rfl⟩

/-- A payload that decodes has the shape of one of the three flash commands (R102). -/
theorem decodeSpi_ok {bytes : List Byte} {i : Instr} (h : decodeSpi bytes = .ok i) :
    bytes = [Config.rdsrOp] ∨ (∃ d e, bytes = [Config.aaiOp, d, e]) ∨
      ∃ d e, bytes = [Config.aaiOp, 0, 0, 0, d, e] := by
  unfold decodeSpi at h
  split at h
  · split at h
    · next op hop => exact .inl (by rw [hop])
    · cases h
  · split at h
    · next op d e hop => exact .inr (.inl ⟨d, e, by rw [hop]⟩)
    · cases h
  · split at h
    · next op a2 a1 a0 d e hop =>
      obtain ⟨rfl, rfl, rfl, rfl⟩ := hop
      exact .inr (.inr ⟨d, e, rfl⟩)
    · cases h
  · cases h

/-- Settles O3: the three payloads by computation, the converse by the shapes a payload can have. -/
theorem flashPayloads : Obligations.FlashPayloads :=
  ⟨fun _ _ => ⟨rfl, rfl⟩, rfl, fun _ _ => decodeSpi_ok⟩

/-- Settles O4: each word is one row of the opcode table. -/
theorem sampleWords : Obligations.SampleWords :=
  ⟨rfl, rfl, rfl, rfl, rfl, rfl, rfl, rfl, rfl, rfl⟩

/-- Settles O5: an unrecognized code is none of the board's commands, a 'C' is on a host board, the two tags whose `WRSEL`
is an operand are read at either level, and every other encoding decodes by computation. -/
theorem roundTrip : Obligations.RoundTrip := by
  intro board i c hw he
  cases i with
  | cmdC x =>
    obtain rfl : board = .host := by simpa [wellFormed] using hw
    obtain rfl := Option.some.inj he
    rfl
  | unrecognized code x =>
    have hc : WellFormed.isCommandCode board code = false := by simpa [wellFormed] using hw
    obtain rfl := Option.some.inj he
    exact congrArg Except.ok (decodeHeader_unrecognized x hc)
  | cycleReserved w => obtain rfl := Option.some.inj he; cases w <;> rfl
  | noCycle w => obtain rfl := Option.some.inj he; cases w <;> rfl
  | _ => cases he <;> rfl

end Sys2Proof

namespace Sys2Proof.Machine

/-! ### The assembled length and the status byte (R93, R94, R103) -/

theorem clampedLength_bounds (lm1 : Byte) : 1 ≤ clampedLength lm1 ∧ clampedLength lm1 ≤ 128 := by
  simp only [clampedLength, Config.cap]
  omega

theorem toNat_ackByte {n : Nat} (h : n ≤ 128) : (ackByte n).toNat = n - 1 := by
  simp only [ackByte, BitVec.toNat_ofNat]
  omega

/-- Settles O6: arithmetic on the byte as a number. -/
theorem clampedLength_rule : Obligations.ClampedLength := by
  refine ⟨fun lm1 => ?_, rfl, rfl, rfl, rfl, rfl⟩
  obtain ⟨h1, h128⟩ := clampedLength_bounds lm1
  have hack := toNat_ackByte h128
  refine ⟨rfl, h1, h128, hack, by omega, ?_⟩
  have hlen : clampedLength lm1 = min (lm1.toNat + 1) 128 := rfl
  rw [← BitVec.toNat_inj, hack]
  omega

theorem statusBusy_eq (st : Byte) : statusBusy st = st.getLsbD 0 := by
  rw [statusBusy, show (0x01 : Byte) = 1#8 from rfl, BitVec.and_one_eq_setWidth_ofBool_getLsbD]
  cases st.getLsbD 0 <;> rfl

/-- Settles O7: the busy test is bit 0, and it is all that the test phase looks at. -/
theorem busyBit : Obligations.BusyBit := by
  refine ⟨statusBusy_eq, fun b p n hp => ⟨fun h => ?_, fun h =>
    ⟨({ b with flash := { b.flash with i := b.flash.i + 2 } } : Block).flashTo .test, ?_, rfl, rfl⟩⟩⟩
  · simp only [flashTick, hp, statusBusy_eq, h, if_true]
  · simp only [flashTick, hp, statusBusy_eq, h, Bool.false_eq_true, if_false]

end Sys2Proof.Machine
end

section
/-! Operations of a ready host against a live external target (R97, R100 to R102, R125, R171, R172, R182 to R184): from the
start of the operation to the state in which it has ended, by the runs of the layers. -/

namespace Sys2Proof.Machine

/-! ### How an operation completes -/

/-- The machine once an operation started in `s` has ended with the near block `b` and the replies `rs` still to come. -/
abbrev State.ended (s : State) (b : Block) (rs : List Byte) : State := live b .targetReady rs s.drawn s.contention

/-- The operation `i`, started in `s`, ends with the near block `b`, which is ready again. -/
def State.Completes (s : State) (i : Instr) (b : Block) (rs : List Byte) : Prop :=
  exec i s = .next (s.ended b rs) ∧ (s.ended b rs).HostReady

theorem State.hostReady_iff {s : State} :
    s.HostReady ↔ s.near.Ready ∧ s.near.flash.ph = .idle ∧ s.near.disp.ph = .header0 := by
  constructor
  · rintro ⟨ha, hd, hrole, hl⟩
    obtain ⟨ht, hr, hh, hp, hs, hf⟩ := s.near.idleBelow_iff.mp (s.near.atRest_iff.mp ha).1
    exact ⟨⟨hr, hp, hh, hs, ht, hl, hrole⟩, hf, hd⟩
  · rintro ⟨hb, hf, hd⟩
    exact ⟨s.near.atRest_iff.mpr ⟨s.near.idleBelow_iff.mpr ⟨hb.todo, hb.rph, hb.host, hb.per, hb.spi, hf⟩, .inl hd⟩, hd,
      hb.role, hb.lines⟩

/-- A state with a live target is its near block, the draw counter and the contention flag. -/
theorem State.LiveTarget.ended_near {s : State} {rs : List Byte} (h : s.LiveTarget rs) (b : Block) :
    ({ s with near := b } : State) = s.ended b rs := by
  rw [State.ended, live, ← h.1, ← h.2]

theorem State.LiveTarget.role {s : State} {rs : List Byte} (h : s.LiveTarget rs) : s.far.role = none := by rw [h.1]; rfl

section Runs

variable {s u : State} {i : Instr} {b b' : Block} {k : Nat}

/-- An operation that starts and runs to a state at rest in time completes there. -/
theorem exec_of_reaches (ha : s.near.atRest = true) (hd : s.near.disp.ph = .header0)
    (h0 : s.near.start s.far.role i = .ok b) (hrun : ReachesWithin k { s with near := b } u) (hk : k ≤ Config.burst)
    (hu : u.near.atRest = true) : exec i s = .next u := by
  rw [exec_eq, h0, State.launch_ok ha hd]
  exact run_of_reaches hrun hk hu

/-- An operation passes through a state that it reaches in time. -/
theorem passes_of_reaches {P : State → Prop} (h0 : s.near.start s.far.role i = .ok b)
    (hrun : ReachesWithin k { s with near := b } u) (hk : k ≤ Config.burst) (hP : P u) : s.Passes i P := by
  obtain ⟨m, hm, hrun⟩ := hrun
  exact ⟨b, m, u, h0, le_trans hm hk, hrun 0, hP⟩

/-- The same against a live target. -/
theorem passes_of_run {P : State → Prop} {rs : List Byte} (hl : s.LiveTarget rs) (h0 : s.near.start none i = .ok b)
    (hrun : ReachesWithin k (s.ended b rs) u) (hk : k ≤ Config.burst) (hP : P u) : s.Passes i P := by
  rw [← hl.role] at h0
  exact passes_of_reaches h0 (hl.ended_near b ▸ hrun) hk hP

/-- An operation of a ready host that starts and runs to a ready block in time completes. -/
theorem completes_of_run {rs rs' : List Byte} (hr : s.HostReady) (hl : s.LiveTarget rs) (h0 : s.near.start none i = .ok b)
    (hrun : ReachesWithin k (s.ended b rs) (s.ended b' rs')) (hk : k ≤ Config.burst) (hb : b'.Ready)
    (hf : b'.flash.ph = .idle) (hd : b'.disp.ph = .header0) : s.Completes i b' rs' := by
  have hend : (s.ended b' rs').HostReady := State.hostReady_iff.mpr ⟨hb, hf, hd⟩
  rw [← hl.role] at h0
  exact ⟨exec_of_reaches hr.1 hr.2.1 h0 (hl.ended_near b ▸ hrun) hk hend.1, hend⟩

end Runs

/-! ### Transactions over a caller's buffer (R100, R124, R125) -/

theorem callTransaction_ok {b : Block} {buf : List Byte} {n : Nat} {rd ac : Bool} (h : b.role = .host) (hn : n ≤ 128)
    (hb : n ≤ buf.length) :
    b.callTransaction none buf n rd ac = .ok (({ b with ubuf := buf } : Block).begun .user n rd ac) := by
  rw [Block.callTransaction, lengthArg_natCast hn hb]
  exact Block.beginTransaction_ok h hn

/-- The caller's buffer holds the bytes that a write of `n` bytes takes from it. -/
theorem bufRead_user_take {b : Block} {n m j : Nat} (h : j < (b.ubuf.take n).length) :
    b.bufRead .user j m = some ((b.ubuf.take n)[j], m) := by
  have hj : j < b.ubuf.length := lt_of_lt_of_le h (List.length_take_le' ..)
  simp only [Block.bufRead, List.getElem?_eq_getElem hj, List.getElem_take, Option.map_some]

/-- A write of `n` bytes completes: they go out in order, one cycle each. -/
theorem transaction_writes {s : State} {rs buf : List Byte} {n : Nat} {ac : Bool} (hr : s.HostReady)
    (hl : s.LiveTarget rs) (hn : n ≤ 128) (hb : n ≤ buf.length) :
    s.Completes (.transaction buf n false ac) (({ s.near with ubuf := buf } : Block).wrote .user ac (buf.take n)) rs := by
  obtain ⟨hready, hf, hd⟩ := State.hostReady_iff.mp hr
  have hlen : (buf.take n).length = n := List.length_take_of_le hb
  have h0 : s.near.start none (.transaction buf n false ac) =
      .ok (({ s.near with ubuf := buf } : Block).begun .user (buf.take n).length false ac) := by
    rw [hlen]
    exact callTransaction_ok hready.role hn hb
  refine completes_of_run hr hl h0 (write_transaction (buf.take n) hready.rph hready.lines fun j hj => bufRead_user_take hj)
    ?_ ⟨hready.rph, hready.per, rfl, hready.spi, rfl, rfl, hready.role⟩ hf hd
  rw [hlen, Config.burst]
  omega

/-- A read of as many bytes as the target is given completes: they are stored in order, one cycle each. -/
theorem transaction_reads {s : State} {rs rest buf : List Byte} {ac : Bool} (hr : s.HostReady)
    (hl : s.LiveTarget (rs ++ rest)) (hn : rs.length ≤ 128) (hb : rs.length ≤ buf.length) :
    s.Completes (.transaction buf rs.length true ac) (({ s.near with ubuf := buf } : Block).gathered .user ac rs) rest := by
  obtain ⟨hready, hf, hd⟩ := State.hostReady_iff.mp hr
  refine completes_of_run hr hl (callTransaction_ok hready.role hn hb)
    (read_transaction rs hready.rph hready.lines fun j hj => .inr (.inr ⟨rfl, lt_of_lt_of_le hj hb⟩)) ?_
    ⟨hready.rph, hready.per, rfl, hready.spi, rfl, rfl, hready.role⟩ hf hd
  rw [Config.burst]
  omega

/-- Settles O16: the derived operations launch the same call, and the two kinds of transaction complete. -/
theorem derivedOperations : Obligations.DerivedOperations := by
  refine ⟨fun buf n s => ⟨rfl, rfl, rfl, rfl⟩, fun s rs buf i rd ac hr hl hn hb hi => ?_⟩
  have writes := fun ac => transaction_writes (ac := ac) hr hl hn hb
  have reads := fun ac => transaction_reads (ac := ac) (rest := []) hr (by rwa [List.append_nil]) hn hb
  have hlen : (buf.take rs.length).length = rs.length := List.length_take_of_le hb
  have kind : ∀ (xs : List Byte) (ac rd : Bool), ∀ c ∈ xs.map (fun x => (⟨ac, rd, x⟩ : Cycle)), c.addr = ac ∧ c.read = rd :=
    fun xs ac rd => List.forall_mem_map.mpr fun _ _ => ⟨rfl, rfl⟩
  simp only [List.mem_cons, Prod.mk.injEq, List.not_mem_nil, or_false] at hi
  rcases hi with ⟨rfl, rfl, rfl⟩ | ⟨rfl, rfl, rfl⟩ | ⟨rfl, rfl, rfl⟩ | ⟨rfl, rfl, rfl⟩
  · exact ⟨_, _, (writes false).1, rfl, by rw [List.length_map, hlen], kind _ _ _⟩
  · exact ⟨_, _, (reads false).1, rfl, List.length_map .., kind _ _ _⟩
  · exact ⟨_, _, (writes true).1, rfl, by rw [List.length_map, hlen], kind _ _ _⟩
  · exact ⟨_, _, (reads true).1, rfl, List.length_map .., kind _ _ _⟩

/-! ### One cycle of each kind (R97, R99, R125) -/

/-- At a host a cycle on its own is the transaction of one byte over a buffer of its own (R100). -/
theorem callCycle_host {b : Block} {rd ad : Bool} {y : Byte} (h : b.role = .host) :
    b.callCycle none rd ad y = .ok (({ b with ubuf := [y] } : Block).begun .user 1 rd ad) := by
  rw [Block.callCycle]
  split
  · exact Block.beginTransaction_ok h (by decide)
  · next hp => exact absurd (h.symm.trans hp) nofun

/-- A write that has been started reaches its strobe: the tag and the byte stand on the lines until the acknowledge. -/
theorem write_reaches_strobe {b : Block} {rs : List Byte} {n : Nat} {c : Bool} {ref : BufRef} {ac : Bool} {x : Byte}
    (hr : b.rph = .idle) (hl : b.lines = .idleHost) (hx : b.bufRead ref 0 n = some (x, n)) :
    ∃ u, ReachesWithin 23 (live (b.begun ref 1 false ac) .targetReady rs n c) u ∧
      u.HostStrobes (.hostWrite x (astbLevel ac) (dstbLevel ac)) := by
  let L := Lines.hostWrite x (astbLevel ac) (dstbLevel ac)
  let b0 := b.begun ref 1 false ac
  let b1 := b0.inCycle false (.hostWrite 0xFF .high .high) b.host.byte .setup []
  let b2 := b0.inCycle false (.hostWrite 0xFF .high .high) b.host.byte .preWait []
  let b3 := b0.inCycle false (.hostWrite 0xFF .high .high) x .put (dataPullLow x)
  let b4 := b0.inCycle false (.hostWrite x .high .high) x .put []
  let b5 := b0.inCycle false (.hostWrite x .high .high) x .strobe [.setLvl (strobeOf ac) .low]
  let b6 := b0.inCycle false L x .strobe []
  let b7 := b0.inCycle false L x .ackWait []
  obtain ⟨hq, hL, hlen⟩ := pull_quiet x
  obtain ⟨sq, sL⟩ := strobe_write_quiet ac x
  have s1 : ReachesWithin 9 (live b0 .targetReady rs n c) (live b1 .targetReady rs n c) :=
    live_todo_within b0 (by rw [show b0.lines = b.lines from rfl, hl]; rfl)
      (by rw [show b0.lines = b.lines from rfl, hl]; rfl) (show (setupPrims false).length ≤ 9 by decide)
  have s2 : Reaches 1 (live b1 .targetReady rs n c) (live b2 .targetReady rs n c) :=
    live_host rfl hr HPhase.noConfusion rfl rfl rfl
  have s3 : Reaches 1 (live b2 .targetReady rs n c) (live b3 .targetReady rs n c) := by
    refine live_host rfl hr HPhase.noConfusion rfl ?_ rfl
    have hx2 : b2.bufRead ref 0 n = some (x, n) := by rw [← hx]; cases ref <;> rfl
    have hg : getWire b2.lines Lines.targetReady .wait n = (.low, n) := rfl
    rw [hostTick]
    simp only [targetPeer, hg, hx2, b2, b0]
    rfl
  have s4 : ReachesWithin 8 (live b3 .targetReady rs n c) (live b4 .targetReady rs n c) := live_todo_within b3 hq hL hlen
  have s5 : Reaches 1 (live b4 .targetReady rs n c) (live b5 .targetReady rs n c) :=
    live_host rfl hr HPhase.noConfusion rfl rfl rfl
  have s6 : ReachesWithin 1 (live b5 .targetReady rs n c) (live b6 .targetReady rs n c) :=
    live_todo_within b5 sq sL (le_refl _)
  have s7 : Reaches 1 (live b6 .targetReady rs n c) (live b6 .targetAck rs n c) :=
    live_ack (Block.not_atRest_of_host HPhase.noConfusion) (by cases ac <;> rfl) rfl (by decide) (by cases ac <;> rfl)
  have s8 : Reaches 1 (live b6 .targetAck rs n c) (live b7 .targetAck rs n c) :=
    live_host rfl hr HPhase.noConfusion (by cases ac <;> rfl) rfl (by cases ac <;> rfl)
  exact ⟨_, s1.trans (s2.within.trans (s3.within.trans (s4.trans (s5.within.trans (s6.trans (s7.within.trans s8.within)))))),
    rfl, rfl, rfl⟩

/-- A read that has been started reaches its strobe: the tag stands on the lines, the data lines are released and carry the
reply of the target. -/
theorem read_reaches_strobe {b : Block} {rs : List Byte} {n : Nat} {c : Bool} {ref : BufRef} {ac : Bool} {y : Byte}
    (hr : b.rph = .idle) (hl : b.lines = .idleHost) :
    ∃ u, ReachesWithin 6 (live (b.begun ref 1 true ac) .targetReady (y :: rs) n c) u ∧
      u.HostStrobes (.hostRead (astbLevel ac) (dstbLevel ac)) ∧ u.far.lines = .targetReply y := by
  let L := Lines.hostRead (astbLevel ac) (dstbLevel ac)
  let b0 := b.begun ref 1 true ac
  let b1 := b0.inCycle true .idleHost b.host.byte .preWait []
  let b2 := b0.inCycle true .idleHost b.host.byte .put []
  let b3 := b0.inCycle true .idleHost b.host.byte .strobe [.setLvl (strobeOf ac) .low]
  let b4 := b0.inCycle true L b.host.byte .strobe []
  let b5 := b0.inCycle true L b.host.byte .ackWait []
  obtain ⟨sq, sL⟩ := strobe_read_quiet ac
  have s1 : Reaches 1 (live b0 .targetReady (y :: rs) n c) (live b1 .targetReady (y :: rs) n c) := by
    refine live_host rfl hr HPhase.noConfusion (by rw [show b0.lines = b.lines from rfl, hl]; rfl) ?_ rfl
    simp only [b1, ← hl]
    rfl
  have s2 : Reaches 1 (live b1 .targetReady (y :: rs) n c) (live b2 .targetReady (y :: rs) n c) :=
    live_host rfl hr HPhase.noConfusion rfl rfl rfl
  have s3 : Reaches 1 (live b2 .targetReady (y :: rs) n c) (live b3 .targetReady (y :: rs) n c) :=
    live_host rfl hr HPhase.noConfusion rfl rfl rfl
  have s4 : ReachesWithin 1 (live b3 .targetReady (y :: rs) n c) (live b4 .targetReady (y :: rs) n c) :=
    live_todo_within b3 sq sL (le_refl _)
  have s5 : Reaches 1 (live b4 .targetReady (y :: rs) n c) (live b4 (.targetReply y) rs n c) :=
    live_reply (Block.not_atRest_of_host HPhase.noConfusion) (by cases ac <;> rfl) (by cases ac <;> rfl) (by decide)
      (by cases ac <;> rfl)
  have s6 : Reaches 1 (live b4 (.targetReply y) rs n c) (live b5 (.targetReply y) rs n c) :=
    live_host rfl hr HPhase.noConfusion (by cases ac <;> rfl) rfl (by cases ac <;> rfl)
  exact ⟨_, s1.within.trans (s2.within.trans (s3.within.trans (s4.trans (s5.within.trans s6.within)))), ⟨rfl, rfl, rfl⟩, rfl⟩

section Cycles

variable {s : State} {x : Byte} {rs : List Byte} {i : Instr} {ac : Bool} (hr : s.HostReady) (hl : s.LiveTarget (x :: rs))
include hr hl

/-- A write cycle on its own: its tag and byte at the strobe, and its completion. -/
theorem cycle_writes {y : Byte} (h0 : s.near.start none i = s.near.callCycle none false ac y) :
    s.Passes i (State.HostStrobes (.hostWrite y (astbLevel ac) (dstbLevel ac))) ∧
      ∃ t, exec i s = .next t ∧ t.HostReady ∧ t.LiveTarget (x :: rs) ∧ t.near.res = 1 ∧
        t.near.bus = s.near.bus ++ [⟨ac, false, y⟩] ∧ t.contention = s.contention := by
  obtain ⟨hready, hf, hd⟩ := State.hostReady_iff.mp hr
  rw [callCycle_host hready.role] at h0
  obtain ⟨u, hu, hP⟩ := write_reaches_strobe (b := { s.near with ubuf := [y] }) (rs := x :: rs) (n := s.drawn)
    (c := s.contention) (ref := .user) (ac := ac) hready.rph hready.lines rfl
  obtain ⟨he, ht⟩ := completes_of_run hr hl h0 (write_transaction [y] hready.rph hready.lines (bufRead_one rfl))
    (show 52 ≤ Config.burst by decide)
    ⟨hready.rph, hready.per, rfl, hready.spi, rfl, rfl, hready.role⟩ hf hd
  exact ⟨passes_of_run hl h0 hu (by decide) hP, _, he, ht, ⟨rfl, rfl⟩, rfl, rfl, rfl⟩

/-- A read cycle on its own: its tag and the reply of the target at the strobe, and its completion. -/
theorem cycle_reads {y : Byte} (h0 : s.near.start none i = s.near.callCycle none true ac y) :
    s.Passes i (fun u => u.HostStrobes (.hostRead (astbLevel ac) (dstbLevel ac)) ∧ u.far.lines = .targetReply x) ∧
      ∃ t, exec i s = .next t ∧ t.HostReady ∧ t.LiveTarget rs ∧ t.near.res = 1 ∧ t.near.ubuf = [x] ∧
        t.near.bus = s.near.bus ++ [⟨ac, true, x⟩] ∧ t.contention = s.contention := by
  obtain ⟨hready, hf, hd⟩ := State.hostReady_iff.mp hr
  rw [callCycle_host hready.role] at h0
  obtain ⟨u, hu, hP⟩ := read_reaches_strobe (b := { s.near with ubuf := [y] }) (rs := rs) (n := s.drawn)
    (c := s.contention) (ref := .user) (ac := ac) (y := x) hready.rph hready.lines
  obtain ⟨he, ht⟩ := completes_of_run hr hl h0
    (read_transaction [x] hready.rph hready.lines fun j hj => .inr (.inr ⟨rfl, hj⟩))
    (show 52 ≤ Config.burst by decide)
    ⟨hready.rph, hready.per, rfl, hready.spi, rfl, rfl, hready.role⟩ hf hd
  exact ⟨passes_of_run hl h0 hu (by decide) hP, _, he, ht, ⟨rfl, rfl⟩, rfl, rfl, rfl, rfl⟩

end Cycles

/-- Settles O19: each kind is a write or a read cycle with its strobe. -/
theorem hostCycles : Obligations.HostCycles := fun _ _ _ hr hl =>
  ⟨fun _ => cycle_writes (ac := true) hr hl rfl, fun _ => cycle_writes (ac := false) hr hl rfl,
    cycle_reads (ac := true) hr hl rfl, cycle_reads (ac := false) hr hl rfl⟩

/-! ### The SPI layer (R101, R171, R172) -/

/-- Settles O26: each of the four runs of the SPI layer completes. -/
theorem spiResetCycles : Obligations.SpiResetCycles := by
  intro s rs hr hl
  obtain ⟨hready, hf, hd⟩ := State.hostReady_iff.mp hr
  obtain ⟨b1, h1, -, -, r1⟩ := spiReset_run (rs := rs) (n := s.drawn) (c := s.contention) hready.rph hready.per
    hready.lines hready.role
  obtain ⟨b2, h2, r2⟩ := disable_run (rs := rs) (n := s.drawn) (c := s.contention) hready.rph hready.per hready.lines
    hready.role
  obtain ⟨b3, h3, r3⟩ := clear_run (rs := rs) (n := s.drawn) (c := s.contention) hready.rph hready.per hready.lines
    hready.role
  obtain ⟨b4, h4, r4⟩ := enable_run (rs := rs) (n := s.drawn) (c := s.contention) hready.rph hready.per hready.lines
    hready.role
  have e1 := completes_of_run hr hl (i := .spiReset) h1 r1 (by decide)
    ⟨hready.rph, hready.per, rfl, rfl, rfl, rfl, hready.role⟩ hf hd
  have e2 := completes_of_run hr hl (i := .ptChipDisable) h2 r2 (by decide)
    ⟨hready.rph, hready.per, rfl, rfl, rfl, rfl, hready.role⟩ hf hd
  have e3 := completes_of_run hr hl (i := .ptDataClear) h3 r3 (by decide)
    ⟨hready.rph, hready.per, rfl, rfl, rfl, rfl, hready.role⟩ hf hd
  have e4 := completes_of_run hr hl (i := .ptChipEnable) h4 r4 (by decide)
    ⟨hready.rph, hready.per, rfl, rfl, rfl, rfl, hready.role⟩ hf hd
  exact ⟨⟨_, e1.1, e1.2, ⟨rfl, rfl⟩, rfl, rfl, rfl⟩, ⟨_, e2.1, e2.2, ⟨rfl, rfl⟩, rfl, rfl⟩,
    ⟨_, e3.1, e3.2, ⟨rfl, rfl⟩, rfl, rfl⟩, _, e4.1, e4.2, ⟨rfl, rfl⟩, rfl, rfl⟩

/-- Over a caller's buffer that is long enough the SPI layer is called with that buffer (R124). -/
theorem callSpiTransaction_eq {b : Block} {buf : List Byte} {n : Nat} {rd : Bool} {first last : SPhase} (hn : n ≤ 128)
    (hb : n ≤ buf.length) : b.callSpiTransaction none buf n rd first last =
      ({ b with ubuf := buf } : Block).beginSpiTransaction none .user n rd first last := by
  rw [Block.callSpiTransaction, lengthArg_natCast hn hb]

/-- Step 3 of `SpiTransaction` on its own, up to the start of its fourth (the payload shape of R101). -/
theorem payloadOpen_run {b : Block} {rs : List Byte} {n : Nat} {c : Bool} {ref : BufRef} {len : Nat} {rd : Bool}
    (hr : b.rph = .idle) (hp : b.per.ph = .idle) (hl : b.lines = .idleHost) (hrole : b.role = .host)
    (hlen : len ≤ Config.cap) :
    ∃ b0, b.beginSpiTransaction none ref len rd .s3 .s4 = .ok b0 ∧
      ReachesWithin 53 (live b0 .targetReady rs n c)
        (live (Block.begun { b.addressed with spi := spiRegs .s4 .s4 ref len rd } ref len rd false) .targetReady rs n c) := by
  let b3 : Block := { b with spi := spiRegs .s3 .s4 ref len rd }
  refine ⟨b3.begun .datAddr 1 false true, ?_, ?_⟩
  · rw [Block.beginSpiTransaction, if_neg (Nat.not_lt.mpr hlen)]
    exact Block.beginTransaction_ok hrole (by decide)
  · exact spi_step (b := b3) (x := b.par.datAddr) (ph := .s3) (last := .s4) hr hp hl rfl rfl (by decide) (by decide) rfl
      (Block.beginTransaction_ok hrole hlen) rfl

section Spi

variable {s : State} {rs rest buf : List Byte} (hr : s.HostReady) (hl : s.LiveTarget (rs ++ rest))
  (hn : rs.length ≤ 128) (hb : rs.length ≤ buf.length)
include hr hl hn hb

/-- `SpiTransaction` writing over the caller's buffer: the bracket, then the payload. -/
theorem spiTransaction_writes :
    s.Completes (.spiTransaction buf rs.length false)
      (({ s.near with ubuf := buf } : Block).spiWrote .user (buf.take rs.length)) (rs ++ rest) := by
  obtain ⟨hready, hf, hd⟩ := State.hostReady_iff.mp hr
  have hlen : (buf.take rs.length).length = rs.length := List.length_take_of_le hb
  obtain ⟨b0, h0, -, -, hrun⟩ := spiWrite_run (b := { s.near with ubuf := buf }) (rs := rs ++ rest) (n := s.drawn)
    (c := s.contention) (ref := .user) (buf.take rs.length) hready.rph hready.per hready.lines hready.role (hlen.trans_le hn)
    fun j hj => bufRead_user_take hj
  rw [hlen] at h0 hrun
  refine completes_of_run hr hl ((callSpiTransaction_eq hn hb).trans h0) hrun ?_
    ⟨hready.rph, hready.per, rfl, rfl, rfl, rfl, hready.role⟩ hf hd
  rw [Config.burst]
  omega

/-- `SpiTransaction` reading: the bracket, then the replies of the target. -/
theorem spiTransaction_reads :
    s.Completes (.spiTransaction buf rs.length true) (({ s.near with ubuf := buf } : Block).spiRead .user rs) rest := by
  obtain ⟨hready, hf, hd⟩ := State.hostReady_iff.mp hr
  obtain ⟨b0, h0, -, -, hrun⟩ := spiRead_run (b := { s.near with ubuf := buf }) (rs := rest) (n := s.drawn)
    (c := s.contention) (ref := .user) rs hready.rph hready.per hready.lines hready.role hn
    fun j hj => .inr (.inr ⟨rfl, lt_of_lt_of_le hj hb⟩)
  refine completes_of_run hr hl ((callSpiTransaction_eq hn hb).trans h0) hrun ?_
    ⟨hready.rph, hready.per, rfl, rfl, rfl, rfl, hready.role⟩ hf hd
  rw [Config.burst]
  omega

/-- The payload shape writing: the data-register address, then the payload. -/
theorem payload_writes : ∃ b', s.Completes (.ptPayload buf rs.length false) b' (rs ++ rest) ∧ b'.res = rs.length ∧
    b'.ubuf = buf ∧ b'.bus = s.near.bus ++ [⟨true, false, s.near.par.datAddr⟩] ++
      (buf.take rs.length).map (fun x => ⟨false, false, x⟩) := by
  obtain ⟨hready, hf, hd⟩ := State.hostReady_iff.mp hr
  have hlen : (buf.take rs.length).length = rs.length := List.length_take_of_le hb
  let b : Block := { s.near with ubuf := buf }
  obtain ⟨b0, h0, hopen⟩ := payloadOpen_run (b := b) (rs := rs ++ rest) (n := s.drawn) (c := s.contention) (ref := .user)
    (len := (buf.take rs.length).length) (rd := false) hready.rph hready.per hready.lines hready.role (hlen.trans_le hn)
  have hsend := spi_last_write (b := { b.addressed with spi := spiRegs .s4 .s4 .user (buf.take rs.length).length false })
    (rs := rs ++ rest) (n := s.drawn) (c := s.contention) (ref := .user) (ac := false) (buf.take rs.length) hready.rph
    hready.per rfl SPhase.noConfusion rfl fun j hj => bufRead_user_take hj
  rw [hlen] at h0
  refine ⟨_, completes_of_run hr hl ((callSpiTransaction_eq hn hb).trans h0) (hopen.trans hsend) ?_
    ⟨hready.rph, hready.per, rfl, rfl, rfl, rfl, hready.role⟩ hf hd, congrArg Nat.cast hlen, rfl, rfl⟩
  rw [hlen, Config.burst]
  omega

/-- The payload shape reading: the data-register address, then the replies of the target. -/
theorem payload_reads : ∃ b', s.Completes (.ptPayload buf rs.length true) b' rest ∧ b'.res = rs.length ∧
    b'.ubuf = rs ++ buf.drop rs.length ∧
    b'.bus = s.near.bus ++ [⟨true, false, s.near.par.datAddr⟩] ++ rs.map (fun x => ⟨false, true, x⟩) := by
  obtain ⟨hready, hf, hd⟩ := State.hostReady_iff.mp hr
  let b : Block := { s.near with ubuf := buf }
  obtain ⟨b0, h0, hopen⟩ := payloadOpen_run (b := b) (rs := rs ++ rest) (n := s.drawn) (c := s.contention) (ref := .user)
    (len := rs.length) (rd := true) hready.rph hready.per hready.lines hready.role hn
  have hread := spi_last_read (b := { b.addressed with spi := spiRegs .s4 .s4 .user rs.length true })
    (rs := rest) (n := s.drawn) (c := s.contention) (ref := .user) (ac := false) rs hready.rph
    hready.per rfl SPhase.noConfusion rfl fun j hj => .inr (.inr ⟨rfl, lt_of_lt_of_le hj hb⟩)
  refine ⟨_, completes_of_run hr hl ((callSpiTransaction_eq hn hb).trans h0) (hopen.trans hread) ?_
    ⟨hready.rph, hready.per, rfl, rfl, rfl, rfl, hready.role⟩ hf hd, rfl, setAll_zero buf rs hb, rfl⟩
  rw [Config.burst]
  omega

end Spi

/-- Settles O27: `SpiTransaction` and its payload shape, each writing and reading. -/
theorem spiTransactionCycles : Obligations.SpiTransactionCycles := by
  intro s rs rest buf hr hl hn hb
  have hlen : (buf.take rs.length).length = rs.length := List.length_take_of_le hb
  have w := spiTransaction_writes hr hl hn hb
  have r := spiTransaction_reads hr hl hn hb
  obtain ⟨b, pw, wres, wubuf, wbus⟩ := payload_writes hr hl hn hb
  obtain ⟨b', pr, rres, rubuf, rbus⟩ := payload_reads hr hl hn hb
  exact ⟨⟨_, w.1, w.2, ⟨rfl, rfl⟩, rfl, congrArg Nat.cast hlen, rfl, rfl⟩,
    ⟨_, r.1, r.2, ⟨rfl, rfl⟩, rfl, rfl, setAll_zero buf rs hb, rfl⟩,
    ⟨_, pw.1, pw.2, ⟨rfl, rfl⟩, rfl, wres, wubuf, wbus⟩, _, pr.1, pr.2, ⟨rfl, rfl⟩, rfl, rres, rubuf, rbus⟩

/-! ### The flash commands (R102, R182 to R184) -/

/-- The lone command for a pair: an increment command when `init`, else a seed command. -/
def pairOp (init : Bool) : FOp := if init then .incrOnly else .seedOnly

/-- The phase in which the command for a pair goes out. -/
def pairPhase (init : Bool) : FPhase := if init then .incr else .seed

/-- The command bytes for a pair (R182, R183). -/
def pairCmd (init : Bool) (c : CmdBytes) (d e : Byte) : CmdBytes := if init then incrCmd c d e else seedCmd d e

/-- A block that has been called for the lone command of a pair, before its deselect. -/
abbrev Block.withPair (init : Bool) (d e : Byte) (b : Block) : Block :=
  { b with ubuf := [d, e], flash := { b.flash with op := pairOp init, i := 0, len := 2, ref := .user, init := init } }

/-- The flash registers once the command of a pair has gone out. -/
abbrev Block.pairSent (init : Bool) (d e : Byte) (b : Block) : Block :=
  { (b.withPair init d e).spiResetDone.spiWrote .cmd (pairBytes init d e) with
    flash := { (b.withPair init d e).flash with cmd := pairCmd init b.flash.cmd d e, init := true, ph := .idle } }

/-- The bytes that go out for a pair are those of `CMD` (R102). -/
theorem bufRead_pairCmd {b : Block} {init : Bool} {c : CmdBytes} {d e : Byte} (hb : b.flash.cmd = pairCmd init c d e)
    {n j : Nat} (h : j < (pairBytes init d e).length) : b.bufRead .cmd j n = some ((pairBytes init d e)[j], n) := by
  rw [Block.bufRead, hb]
  cases init with
  | false =>
    have hj : j = 0 ∨ j = 1 ∨ j = 2 ∨ j = 3 ∨ j = 4 ∨ j = 5 := by simp [pairBytes] at h; omega
    rcases hj with rfl | rfl | rfl | rfl | rfl | rfl <;> rfl
  | true =>
    have hj : j = 0 ∨ j = 1 ∨ j = 2 := by simp [pairBytes] at h; omega
    rcases hj with rfl | rfl | rfl <;> rfl

/-- The lone command of a pair: a deselect, then the command as one `SpiTransaction` (R182, R183). -/
theorem pairCommand_run {b : Block} {rs : List Byte} {n : Nat} {c init : Bool} {d e : Byte} (hb : b.Ready) :
    ∃ b0, (b.withPair init d e).flashDeselect none = .ok b0 ∧
      ReachesWithin 700 (live b0 .targetReady rs n c) (live (b.pairSent init d e) .targetReady rs n c) := by
  let a0 := b.withPair init d e
  let a1 : Block := (a0.flashTo .deselect).spiResetDone
  let a2 : Block := { a1 with flash := { a0.flash with cmd := pairCmd init b.flash.cmd d e, ph := pairPhase init } }
  let a3 : Block := a2.spiWrote .cmd (pairBytes init d e)
  have hlen : (pairBytes init d e).length ≤ 6 := by cases init <;> simp [pairBytes]
  obtain ⟨b0, h0, -, -, r1⟩ := spiReset_run (b := a0.flashTo .deselect) (rs := rs) (n := n) (c := c) hb.rph hb.per
    hb.lines hb.role
  obtain ⟨b1, h1, hl1, -, r2⟩ := spiWrite_run (b := a2) (rs := rs) (n := n) (c := c) (ref := .cmd) (pairBytes init d e)
    hb.rph hb.per rfl hb.role (hlen.trans (by decide)) fun j hj => bufRead_pairCmd rfl hj
  have t1 : Reaches 1 (live a1 .targetReady rs n c) (live b1 .targetReady rs n c) := by
    refine live_flash rfl hb.rph rfl hb.per rfl FPhase.noConfusion rfl ?_ hl1
    have htick : flashTick (targetPeer .targetReady) n a1 =
        .ofBegin n (if init then a1.flashIncr none d e else a1.flashSeed none d e) := rfl
    have hcall : (if init then a1.flashIncr none d e else a1.flashSeed none d e) = .ok b1 := by cases init <;> exact h1
    rw [htick, hcall]
    rfl
  have t2 : Reaches 1 (live a3 .targetReady rs n c) (live (b.pairSent init d e) .targetReady rs n c) := by
    refine live_flash rfl hb.rph rfl hb.per rfl (by cases init <;> exact FPhase.noConfusion) rfl ?_ rfl
    cases init <;> rfl
  exact ⟨b0, h0, (r1.trans (t1.within.trans (r2.trans t2.within))).mono (by omega)⟩

/-- The block after the lone read-status command with the reply `y`. -/
abbrev Block.statusRead (y : Byte) (b : Block) : Block :=
  { (b.spiResetDone.spiWrote .st [Config.rdsrOp]).spiRead .st [y] with
    flash := { b.flash with op := .statusOnly, st := y, ph := .idle } }

/-- The lone read-status command (R184): a deselect, the command, and its reply with no deselect in between. -/
theorem status_run {b : Block} {y : Byte} {rs : List Byte} {n : Nat} {c : Bool} (hb : b.Ready) :
    ∃ b0, b.callStatus none = .ok b0 ∧
      ReachesWithin 700 (live b0 .targetReady (y :: rs) n c) (live (b.statusRead y) .targetReady rs n c) := by
  let a0 : Block := { b with flash := { b.flash with op := .statusOnly } }
  let a1 : Block := (a0.flashTo .pollDeselect).spiResetDone
  let a2 : Block := { a1 with flash := { a0.flash with st := Config.rdsrOp, ph := .pollCmd } }
  let a3 : Block := (a2.spiWrote .st [Config.rdsrOp]).flashTo .pollRead
  obtain ⟨b0, h0, -, -, r1⟩ := spiReset_run (b := a0.flashTo .pollDeselect) (rs := y :: rs) (n := n) (c := c) hb.rph
    hb.per hb.lines hb.role
  obtain ⟨b1, h1, hl1, -, r2⟩ := spiWrite_run (b := a2) (rs := y :: rs) (n := n) (c := c) (ref := .st) [Config.rdsrOp]
    hb.rph hb.per rfl hb.role (by decide) (bufRead_one rfl)
  obtain ⟨b2, h2, hl2, -, r3⟩ := spiRead_run (b := a3) (rs := rs) (n := n) (c := c) (ref := .st) [y] hb.rph hb.per rfl
    hb.role (show 1 ≤ Config.cap by decide) fun j h => .inr (.inl ⟨rfl, by simpa using h⟩)
  have t1 : Reaches 1 (live a1 .targetReady (y :: rs) n c) (live b1 .targetReady (y :: rs) n c) := by
    refine live_flash rfl hb.rph rfl hb.per rfl FPhase.noConfusion rfl ?_ hl1
    exact congrArg (Tick.ofBegin n) h1
  have t2 : Reaches 1 (live (a2.spiWrote .st [Config.rdsrOp]) .targetReady (y :: rs) n c)
      (live b2 .targetReady (y :: rs) n c) := by
    refine live_flash rfl hb.rph rfl hb.per rfl FPhase.noConfusion rfl ?_ hl2
    exact congrArg (Tick.ofBegin n) h2
  have t3 : Reaches 1 (live (a3.spiRead .st [y]) .targetReady rs n c) (live (b.statusRead y) .targetReady rs n c) :=
    live_flash rfl hb.rph rfl hb.per rfl FPhase.noConfusion rfl rfl rfl
  exact ⟨b0, h0, (r1.trans (t1.within.trans (r2.trans (t2.within.trans (r3.trans t3.within))))).mono (by simp)⟩

/-- Settles O28: the lone commands of a pair and the lone status command each run to their end. -/
theorem flashCommandCycles : Obligations.FlashCommandCycles := by
  intro s st rs hr hl
  obtain ⟨hready, hf, hd⟩ := State.hostReady_iff.mp hr
  have pair : ∀ (init : Bool) (d e : Byte) (i : Instr), s.near.start none i = (s.near.withPair init d e).flashDeselect none →
      s.Completes i (s.near.pairSent init d e) (st :: rs) := fun init d e i hi => by
    obtain ⟨b0, h0, hrun⟩ := pairCommand_run (init := init) (d := d) (e := e) (rs := st :: rs) (n := s.drawn)
      (c := s.contention) hready
    exact completes_of_run hr hl (hi.trans h0) hrun (by decide)
      ⟨hready.rph, hready.per, rfl, rfl, rfl, rfl, hready.role⟩ rfl hd
  obtain ⟨b0, h0, hrun⟩ := status_run (y := st) (rs := rs) (n := s.drawn) (c := s.contention) hready
  have status := completes_of_run hr hl (i := .flashReadStatus) h0 hrun (by decide)
    ⟨hready.rph, hready.per, rfl, rfl, rfl, rfl, hready.role⟩ rfl hd
  refine ⟨fun d e => ?_, fun d e => ?_, _, status.1, status.2, ⟨rfl, rfl⟩, rfl, rfl, rfl⟩
  · have h := pair false d e (.flashAaiSeed d e) rfl
    exact ⟨_, h.1, h.2, ⟨rfl, rfl⟩, rfl, rfl, rfl, rfl⟩
  · have h := pair true d e (.flashAaiIncrement d e) rfl
    exact ⟨_, h.1, h.2, ⟨rfl, rfl⟩, rfl, rfl, rfl⟩

end Sys2Proof.Machine
end

section
/-! Commands that use no line, with nothing else moving (R96, R104, R205, R207, R211): the header, the command's own loops,
and the end at the top of the dispatcher's loop. -/

namespace Sys2Proof.Machine

/-! ### From the header to the end -/

section Commands

variable {s : State} {c x : Byte} {b : Block}

theorem State.Idle.below (hi : s.Idle) : s.near.idleBelow = true := (s.near.atRest_iff.mp hi.1).1

/-- A block with nothing running below its dispatcher, which is at the top of its loop, is idle. -/
theorem State.idle_on {n : Nat} (hb : b.idleBelow = true) (hd : b.disp.ph = .header0) : (s.on b n).Idle :=
  ⟨b.atRest_iff.mpr ⟨hb, .inl hd⟩, hd⟩

/-- The first step of a command: `case c_cmd of` (R200). -/
theorem header_decodes (hi : s.Idle) (hc : s.Calm) (hb : (s.near.header c x).beginCommand s.far.role = .ok b)
    (hl : b.lines = s.near.lines) : Reaches 1 (s.on (s.near.header c x) s.drawn) (s.on b s.drawn) := by
  refine calm_disp hc rfl hi.below DPhase.noConfusion DPhase.noConfusion ?_ hl
  exact congrArg (Tick.ofBegin s.drawn) hb

end Commands

/-- Settles O20: the row starts nothing, so the block is at rest at once. -/
theorem noCycleInProgress : Obligations.NoCycleInProgress := by
  intro s w hi
  exact exec_of_reaches hi.1 hi.2 rfl (.refl s) (Nat.zero_le _) hi.1

/-! ### The unrecognized command (R96, R211) -/

theorem beginCommand_unrecognized {b : Block} {peer : Option Role}
    (h : WellFormed.isCommandCode b.par.board b.disp.cmd = false) : b.beginCommand peer = .ok b.endCommand := by
  rw [← Bool.not_eq_true, isCommandCode_iff] at h
  simp only [not_or, not_and] at h
  obtain ⟨hA, hB, hC, hE, hP, hR, hW⟩ := h
  simp only [Block.beginCommand, hA, hB, hE, hP, hR, hW, if_false]
  split
  · next e => rw [Block.beginC, if_neg (hC e), Block.beginUnrecognized]
  · rfl

theorem exec_unrecognized {s : State} {code x : Byte} (hi : s.Idle) (hc : s.Calm)
    (hw : WellFormed.isCommandCode s.near.par.board code = false) :
    exec (.unrecognized code x) s = .next { s with near := { s.near with disp := { s.near.disp with
      cmd := code, lm1 := x, len := clampedLength x, progActive := false, ph := .header0, step := .decode, k := 0 } } } := by
  have hP : code ≠ Config.letterP := fun e => by
    rw [isCommandCode_iff.mpr (by simp [e])] at hw
    exact Bool.noConfusion hw
  have hrun := header_decodes (c := code) (x := x) hi hc (beginCommand_unrecognized hw) rfl
  rw [exec_of_reaches hi.1 hi.2 (i := .unrecognized code x) rfl hrun.within (by decide)
    (State.idle_on (b := (s.near.header code x).endCommand) (n := s.drawn) hi.below rfl).1]
  simp only [State.on, Block.endCommand, Block.dispTo, Block.header, progAfterHeader, hP, if_false]

/-- Settles O32: the command alone, and the command fetched from `SIN`. -/
theorem unrecognizedCommand : Obligations.UnrecognizedCommand := by
  refine ⟨fun s code x hi hc hw => exec_unrecognized hi hc (by simpa [wellFormed] using hw),
    fun s code x rest hi hc hq hs hcode hC => ?_⟩
  have hw : WellFormed.isCommandCode s.near.par.board code = false := by
    refine Bool.eq_false_iff.mpr fun h => ?_
    rcases isCommandCode_iff.mp h with rfl | rfl | ⟨e, hb⟩ | rfl | rfl | rfl | rfl
    case inr.inr.inl => exact absurd (hb.symm.trans (hC e)) nofun
    all_goals exact hcode (by decide)
  have hf := fetch_header hi.below hi.2 hq hs (hc.clearFor 4)
  rw [decodeHeader_unrecognized x hw, State.fetched_nil hc.1] at hf
  rw [step_instr hf]
  exact exec_unrecognized hi hc hw

/-! ### Commands that answer with data (R104, R205, R207) -/

/-- The end of a command that has written the bytes `ys` to `BUF` and sent them (R104). -/
abbrev Block.answered (b : Block) (code lm1 : Byte) (sin ys : List Byte) : Block :=
  ({ b.header code lm1 with sin := sin, buf := b.buf.writeAll 0 ys, sout := b.sout ++ ys } : Block).endCommand

/-- The bytes 'B' answers with (R94, R205). -/
def sizeQueryBytes (n : Nat) : List Byte := 0x7F :: List.replicate (n - 1) 0x00

theorem sizeQueryBytes_length {n : Nat} (h : 1 ≤ n) : (sizeQueryBytes n).length = n := by
  rw [sizeQueryBytes, List.length_cons, List.length_replicate, Nat.sub_add_cancel h]

theorem sizeQueryBytes_getElem {n j : Nat} (h : j < (sizeQueryBytes n).length) :
    (sizeQueryBytes n)[j] = sizeQueryByte j := by
  cases j with
  | zero => rfl
  | succ j => simp [sizeQueryBytes, sizeQueryByte]

section Answers

variable {s : State} {lm1 : Byte} {ys : List Byte} (hi : s.Idle) (hc : s.Calm)
include hi hc

/-- The response of a command whose bytes `ys` stand at the start of `BUF` (R104). -/
theorem answer_run {code : Byte} {sin : List Byte} (hC : code ≠ Config.letterC) (hW : code ≠ Config.letterW)
    (hP : code ≠ Config.letterP) (hlen : ys.length = clampedLength lm1) :
    Reaches (ys.length + 1)
      (s.on (({ s.near.header code lm1 with sin := sin, buf := s.near.buf.writeAll 0 ys } : Block).dispTo .respond .decode 0)
        s.drawn)
      (s.on (s.near.answered code lm1 sin ys) s.drawn) :=
  respond_run hc ys _ rfl hi.below rfl rfl hC hW hP ((Nat.zero_add _).trans hlen) fun j hj => by
    show Block.bufRead _ .buf (0 + j) _ = _
    rw [Nat.zero_add]
    exact bufRead_writeAll rfl (hlen.trans_le (clampedLength_bounds lm1).2) hj

/-- 'B' fills `BUF` and sends what it filled in (R205). -/
theorem query_run : ReachesWithin 259 (s.on (s.near.header Config.letterB lm1) s.drawn)
    (s.on (s.near.answered Config.letterB lm1 s.near.sin (sizeQueryBytes (clampedLength lm1))) s.drawn) := by
  obtain ⟨h1, h128⟩ := clampedLength_bounds lm1
  have hlen := sizeQueryBytes_length h1
  let b1 := (s.near.header Config.letterB lm1).beginB
  have s1 := header_decodes (c := Config.letterB) (x := lm1) (b := b1) hi hc rfl rfl
  have s2 := fill_run (n := s.drawn) hc (sizeQueryBytes (clampedLength lm1)) b1 (List.cons_ne_nil _ _) rfl hi.below rfl rfl
    ((Nat.zero_add _).trans hlen) h128 fun j hj => by
      rw [sizeQueryBytes_getElem, show b1.disp.k + j = j from Nat.zero_add j]
  have s3 := answer_run (code := Config.letterB) (sin := s.near.sin) hi hc (by decide) (by decide) (by decide) hlen
  exact (s1.trans (s2.trans s3)).within.mono (by omega)

/-- 'E' reads its body and sends it back (R207). -/
theorem echo_run {rest : List Byte} (hlen : ys.length = clampedLength lm1) (hsin : s.near.sin = ys ++ rest) :
    ReachesWithin 259 (s.on (s.near.header Config.letterE lm1) s.drawn)
      (s.on (s.near.answered Config.letterE lm1 rest ys) s.drawn) := by
  obtain ⟨h1, h128⟩ := clampedLength_bounds lm1
  let b1 := (s.near.header Config.letterE lm1).beginBody
  have s1 := header_decodes (c := Config.letterE) (x := lm1) (b := b1) hi hc rfl rfl
  have s2 := body_run (n := s.drawn) hc rest ys b1 rfl hi.below rfl rfl hsin ((Nat.zero_add _).trans hlen) h128 rfl rfl
  have s3 := answer_run (code := Config.letterE) (sin := rest) hi hc (by decide) (by decide) (by decide) hlen
  exact (s1.trans (s2.trans s3)).within.mono (by omega)

end Answers

/-- A cell of `BUF` after an answer: a byte of the answer, or what it was. -/
theorem answered_read {b : Block} {code lm1 : Byte} {sin ys : List Byte} {a : Nat} :
    (b.answered code lm1 sin ys).buf.read a = if a < ys.length then ys[a]? else b.buf.read a := by
  show (b.buf.writeAll 0 ys).read a = _
  split
  · next h =>
    have := Memory.read_writeAll (m := b.buf) (a := 0) h
    rwa [Nat.zero_add] at this
  · next h => exact Memory.read_writeAll_other (.inr (by omega))

/-- Settles O33: 'B' runs to its end, and `BUF` then holds what was sent. -/
theorem bufferSizeQuery : Obligations.BufferSizeQuery := by
  intro s lm1 hi hc
  obtain ⟨h1, -⟩ := clampedLength_bounds lm1
  have hlen := sizeQueryBytes_length h1
  have hend := State.idle_on (s := s) (n := s.drawn)
    (b := s.near.answered Config.letterB lm1 s.near.sin (sizeQueryBytes (clampedLength lm1))) hi.below rfl
  have hread : ∀ a, (s.near.answered Config.letterB lm1 s.near.sin (sizeQueryBytes (clampedLength lm1))).buf.read a =
      if a < clampedLength lm1 then some (sizeQueryByte a) else s.near.buf.read a := fun a => by
    rw [answered_read, hlen]
    split
    · next h => rw [List.getElem?_eq_getElem (hlen.symm ▸ h), sizeQueryBytes_getElem]
    · rfl
  refine ⟨_, exec_of_reaches hi.1 hi.2 (i := .cmdB lm1) rfl (query_run hi hc) (by decide) hend.1, rfl, ?_,
    fun a h0 h => ?_, fun a h => ?_, rfl, rfl, rfl, rfl, rfl, rfl, hend⟩
  · exact (hread 0).trans (if_pos h1)
  · exact (hread a).trans ((if_pos h).trans (by rw [sizeQueryByte, if_neg (by omega)]))
  · exact (hread a).trans (if_neg (by omega))

/-- Settles O34: 'E' runs to its end, and `BUF` then holds the body. -/
theorem echoCommand : Obligations.EchoCommand := by
  intro s lm1 body rest hi hc hlen hsin
  have hend := State.idle_on (s := s) (n := s.drawn) (b := s.near.answered Config.letterE lm1 rest body) hi.below rfl
  refine ⟨_, exec_of_reaches hi.1 hi.2 (i := .cmdE lm1) rfl (echo_run hi hc hlen hsin) (by decide) hend.1, rfl, rfl,
    fun a h => ?_, fun a h => ?_, rfl, rfl, rfl, rfl, rfl, hend⟩
  · exact answered_read.trans (if_pos (by omega))
  · exact answered_read.trans (if_neg (by omega))

end Sys2Proof.Machine
end

section
/-! The peripheral cycle against an external host that asserts its tag and then releases it (R97 to R99, R150 to R153): from
the call to the tag, from the tag to the acknowledge, from the acknowledge to the end. -/

namespace Sys2Proof.Machine

/-! ### Runs against an external host -/

/-- The machine with an external host at the far end, its lines at `T`, which goes on to the lines `Ls` one by one, each time
the near block has no step. -/
def hosted (b : Block) (T : Lines) (Ls : List Lines) (n : Nat) (c : Bool) : State :=
  { near := b, far := .target ⟨T, false, []⟩, script := Ls.map fun L => ⟨.blocked, .lines L⟩, drawn := n, contention := c }

variable {b b' : Block} {T T' : Lines} {Ls : List Lines} {n n' : Nat} {c : Bool}

/-- A step of the near block. -/
theorem hosted_tick (hr : b.atRest = false) (ht : b.tick (targetPeer T) n = .moved b' n')
    (hc : contended b'.lines T = false) : Reaches 1 (hosted b T Ls n c) (hosted b' T Ls n' c) := by
  have hn : (hosted b T Ls n c).tickNear = .moved (hosted b' T Ls n' c) := by
    rw [State.tickNear_moved (b := b') (n := n') (by exact ht)]
    simp [hosted, hc]
  refine .of_turn hr ?_
  cases Ls with
  | nil => exact hn
  | cons L Ls =>
    simp only [State.turn, hn]
    rfl

/-- The host moves when the near block has no step. -/
theorem hosted_move (hr : b.atRest = false) (ht : b.tick (targetPeer T) n = .waiting n')
    (hc : contended b.lines T' = false) : Reaches 1 (hosted b T (T' :: Ls) n c) (hosted b T' Ls n' c) := by
  have hn : (hosted b T (T' :: Ls) n c).tickNear = .stuck (hosted b T (T' :: Ls) n' c) := by
    have ht : (hosted b T (T' :: Ls) n c).near.tick (hosted b T (T' :: Ls) n c).far.asPeer
        (hosted b T (T' :: Ls) n c).drawn = .waiting n' := ht
    rw [State.tickNear, ht]
    rfl
  refine .of_turn hr ?_
  simp only [State.turn, hn]
  simp [hosted, State.react, Party.react, Target.react, Move.apply, State.noteContention, hc]

/-- A primitive of the running phase. -/
theorem hosted_prim {x : Prim} {r : List Prim} (ht : b.todo = x :: r)
    (hm : x.run (targetPeer T) n { b with todo := r } = .moved b' n') (hc : contended b'.lines T = false) :
    Reaches 1 (hosted b T Ls n c) (hosted b' T Ls n' c) :=
  hosted_tick (Block.not_atRest_of_todo ht) (by rw [live_own, Block.advance_todo _ _ ht, hm]) hc

/-- A list of line primitives along which no wire is contended. -/
def clearAlong (T : Lines) : List Prim → Lines → Bool
  | [], _ => true
  | x :: r, L => x.isLine && !contended (x.onLines L) T && clearAlong T r (x.onLines L)

/-- The steps of a phase that only writes lines, all of them. -/
theorem hosted_todo {L : Lines} : ∀ (todo : List Prim) (b : Block), b.todo = todo → clearAlong T todo b.lines = true →
    linesAfter todo b.lines = L →
    Reaches todo.length (hosted b T Ls n c) (hosted { b with lines := L, todo := [] } T Ls n c) := by
  intro todo
  induction todo with
  | nil =>
    intro b h _ hL
    have e : ({ b with lines := L, todo := [] } : Block) = b := by
      subst hL
      exact congrArg (fun todo => ({ b with todo := todo } : Block)) h.symm
    rw [e]
    exact .refl _
  | cons x r ih =>
    intro b h hq hL
    simp only [clearAlong, Bool.and_eq_true, Bool.not_eq_true'] at hq
    obtain ⟨⟨hx, hc⟩, hq⟩ := hq
    have h1 : Reaches 1 (hosted b T Ls n c) (hosted { b with lines := x.onLines b.lines, todo := r } T Ls n c) :=
      hosted_prim h (Prim.run_line hx ..) hc
    have h2 := h1.trans (ih { b with lines := x.onLines b.lines, todo := r } rfl hq hL)
    rwa [Nat.add_comm] at h2

/-- The `Get`s of a `DataSample` read the byte the host drives (R63). -/
theorem hosted_sample {x : Byte} {r : List Prim}
    (hg : ∀ lv ∈ List.zip dataLines (byteLevels x), getWire b.lines T lv.1 n = (lv.2, n))
    (hc : contended b.lines T = false) :
    ∀ (ls : List (Line × Level)) (smp : List Level), (∀ lv ∈ ls, lv ∈ List.zip dataLines (byteLevels x)) →
      Reaches ls.length (hosted { b with smp := smp, todo := (ls.map fun lv => .get lv.1) ++ r } T Ls n c)
        (hosted { b with smp := smp ++ ls.map (·.2), todo := r } T Ls n c) := by
  intro ls
  induction ls with
  | nil =>
    intro smp _
    simp only [List.map_nil, List.append_nil, List.nil_append]
    exact .refl _
  | cons lv ls ih =>
    intro smp hm
    have h1 : Reaches 1 (hosted { b with smp := smp, todo := (((lv :: ls).map fun lv => .get lv.1) ++ r) } T Ls n c)
        (hosted { b with smp := smp ++ [lv.2], todo := (ls.map fun lv => .get lv.1) ++ r } T Ls n c) := by
      refine hosted_prim (x := .get lv.1) rfl ?_ hc
      simp only [Prim.run, targetPeer, hg lv (hm lv (List.mem_cons_self ..))]
      rfl
    have h2 := h1.trans (ih (smp ++ [lv.2]) fun z hz => hm z (List.mem_cons_of_mem _ hz))
    rw [Nat.add_comm, List.append_assoc] at h2
    exact h2

/-- One step of the peripheral engine between the steps of its phases. -/
theorem hosted_per (ht : b.todo = []) (hr : b.rph = .idle) (hh : b.host.ph = .idle) (hp : b.per.ph ≠ .idle)
    (hm : peripheralTick (targetPeer T) n b = .moved b' n') (hc : contended b'.lines T = false) :
    Reaches 1 (hosted b T Ls n c) (hosted b' T Ls n' c) :=
  hosted_tick (Block.not_atRest_of_per hp) (by rw [live_own, Block.advance_per _ _ ht hr hh hp, hm]) hc

/-- A wait of the peripheral engine: the host moves. -/
theorem hosted_wait (ht : b.todo = []) (hr : b.rph = .idle) (hh : b.host.ph = .idle) (hp : b.per.ph ≠ .idle)
    (hm : peripheralTick (targetPeer T) n b = .waiting n') (hc : contended b.lines T' = false) :
    Reaches 1 (hosted b T (T' :: Ls) n c) (hosted b T' Ls n' c) :=
  hosted_move (Block.not_atRest_of_per hp) (by rw [live_own, Block.advance_per _ _ ht hr hh hp, hm]) hc

/-! ### The cycle -/

/-- The lines of a host that reads, or that writes the byte `x`, with the levels `a` and `d` on its strobes. -/
def Lines.hostSide (rd : Bool) (x : Byte) (a d : Level) : Lines := if rd then .hostRead a d else .hostWrite x a d

/-- The slot after a cycle that began with the slot `y`: the byte `x` that the host wrote, or `y` that it read. -/
def slotAfter (rd : Bool) (x y : Byte) : Byte := if rd then y else x

/-- The samples that the block holds after a cycle: those of the written byte. -/
def samplesAfter (rd : Bool) (x : Byte) : List Level := if rd then [] else byteLevels x

/-- A block inside a peripheral cycle: its lines as its phase says (R151). -/
abbrev Block.inService (b : Block) (p : PerRegs) (todo : List Prim) : Block :=
  { b with lines := p.picture, per := p, todo := todo }

/-- `P_TAKE` (R151): the byte the host drives is taken into the slot, or the data lines are released. -/
theorem take_run {rd ad : Bool} {x : Byte} : ReachesWithin 16
    (hosted { b with
        lines := PerRegs.picture { b.per with rd := rd, ad := ad, ph := .releaseWait }, smp := [],
        per := { b.per with rd := rd, ad := ad, ph := .take }, todo := takePrims rd } (.hostSide rd x .high .high) Ls n c)
    (hosted (({ b with smp := samplesAfter rd x } : Block).inService
        { b.per with slot := slotAfter rd x b.per.slot, rd := rd, ad := ad, ph := .take } []) (.hostSide rd x .high .high) Ls
      n c) := by
  cases rd with
  | true =>
    refine Reaches.within (hosted_todo (takePrims true) _ rfl ?_ ?_) <;> rfl
  | false =>
    let b0 : Block := { b with
      lines := { Lines.idlePeripheral with wait := .drivenHigh }, per := { b.per with rd := false, ad := ad, ph := .take } }
    have hg : ∀ lv ∈ List.zip dataLines (byteLevels x), getWire b0.lines (.hostWrite x .high .high) lv.1 n = (lv.2, n) := by
      simp only [dataLines, byteLevels, List.zip, List.zipWith]
      repeat refine List.forall_mem_cons.mpr ⟨rfl, ?_⟩
      exact List.forall_mem_nil _
    have s1 := hosted_sample (Ls := Ls) (c := c) (r := [.storeSlot]) hg rfl (List.zip dataLines (byteLevels x)) []
      fun _ h => h
    have s2 : Reaches 1 (hosted { b0 with smp := byteLevels x, todo := [.storeSlot] } (.hostWrite x .high .high) Ls n c)
        (hosted { b0 with smp := byteLevels x, per := { b0.per with slot := x }, todo := [] } (.hostWrite x .high .high) Ls
          n c) := by
      refine hosted_prim (x := .storeSlot) rfl ?_ rfl
      simp only [Prim.run, byteOfLevels_byteLevels]
    exact (s1.trans s2).within.mono (by simp [dataLines, byteLevels])

section Service

variable {rd ad : Bool} {x : Byte} {a d : Level} (hr : b.rph = .idle) (hh : b.host.ph = .idle)
include hr hh

/-- From the call to the tag: the peripheral finds `RST` released, waits for a strobe, and senses the tag. -/
theorem call_reaches_tag (hl : b.lines = .idlePeripheral) :
    ReachesWithin 6
      (hosted (b.perTo .check []) .idleHost (.hostSide rd x (astbLevel ad) (dstbLevel ad) :: Ls) n c)
      (hosted (b.serveDecoded rd ad) (.hostSide rd x (astbLevel ad) (dstbLevel ad)) Ls n c) := by
  let T := Lines.hostSide rd x (astbLevel ad) (dstbLevel ad)
  let p : PerRegs := { b.per with ph := .decode }
  let b1 : Block := { b with lines := .idlePeripheral }
  let b2 : Block := { b1 with per := { p with rd := rd }, todo := [.senseAstb] }
  let b3 : Block := { b1 with per := { p with rd := rd, ad := ad }, todo := [] }
  have hb : b = b1 := by rw [show b1 = { b with lines := .idlePeripheral } from rfl, ← hl]
  rw [hb]
  have s1 : Reaches 1 (hosted (b1.perTo .check []) .idleHost (T :: Ls) n c)
      (hosted (b1.perTo .strobeWait []) .idleHost (T :: Ls) n c) :=
    hosted_per rfl hr hh PPhase.noConfusion rfl rfl
  have s2 : Reaches 1 (hosted (b1.perTo .strobeWait []) .idleHost (T :: Ls) n c)
      (hosted (b1.perTo .strobeWait []) T Ls n c) :=
    hosted_wait rfl hr hh PPhase.noConfusion rfl (by cases rd <;> cases ad <;> rfl)
  have s3 : Reaches 1 (hosted (b1.perTo .strobeWait []) T Ls n c)
      (hosted (b1.perTo .decode [.senseWrsel, .senseAstb]) T Ls n c) := by
    refine hosted_per rfl hr hh PPhase.noConfusion ?_ ?_ <;> cases rd <;> cases ad <;> rfl
  have s4 : Reaches 1 (hosted (b1.perTo .decode [.senseWrsel, .senseAstb]) T Ls n c) (hosted b2 T Ls n c) := by
    refine hosted_prim rfl ?_ ?_ <;> cases rd <;> cases ad <;> rfl
  have s5 : Reaches 1 (hosted b2 T Ls n c) (hosted b3 T Ls n c) := by
    refine hosted_prim rfl ?_ ?_ <;> cases rd <;> cases ad <;> rfl
  have s6 : Reaches 1 (hosted b3 T Ls n c) (hosted (b1.serveDecoded rd ad) T Ls n c) := by
    refine hosted_per rfl hr hh PPhase.noConfusion rfl ?_
    cases rd <;> cases ad <;> rfl
  exact (s1.trans (s2.trans (s3.trans (s4.trans (s5.trans s6))))).within

/-- From the tag to the acknowledge: the slot is put on the data lines if the host reads, and `WAIT` goes H. -/
theorem tag_reaches_ack (hl : b.lines = .idlePeripheral) :
    ReachesWithin 20 (hosted (b.serveDecoded rd ad) (.hostSide rd x a d) Ls n c)
      (hosted (b.inService { b.per with rd := rd, ad := ad, ph := .releaseWait } []) (.hostSide rd x a d) Ls n c) := by
  let T := Lines.hostSide rd x a d
  let p : PPhase → PerRegs := fun ph => { b.per with rd := rd, ad := ad, ph := ph }
  let b2 : Block := { b.inService (p .drive) [] with per := p .ack, todo := [.setLvl .wait .high] }
  have hlen : (drivePrims rd b.per.slot).length ≤ 16 := by cases rd <;> exact Nat.le_of_ble_eq_true rfl
  have s1 : Reaches (drivePrims rd b.per.slot).length (hosted (b.serveDecoded rd ad) T Ls n c)
      (hosted (b.inService (p .drive) []) T Ls n c) := by
    refine hosted_todo _ _ rfl ?_ ?_ <;> rw [Block.serveDecoded_lines, hl] <;> cases rd <;> rfl
  have s2 : Reaches 1 (hosted (b.inService (p .drive) []) T Ls n c) (hosted b2 T Ls n c) :=
    hosted_per rfl hr hh PPhase.noConfusion rfl (by cases rd <;> rfl)
  have s3 : Reaches 1 (hosted b2 T Ls n c) (hosted (b.inService (p .ack) []) T Ls n c) := by
    refine hosted_todo [.setLvl .wait .high] b2 rfl ?_ ?_ <;> cases rd <;> rfl
  have s4 : Reaches 1 (hosted (b.inService (p .ack) []) T Ls n c) (hosted (b.inService (p .releaseWait) []) T Ls n c) :=
    hosted_per rfl hr hh PPhase.noConfusion (by cases rd <;> rfl) (by cases rd <;> rfl)
  exact (s1.trans (s2.trans (s3.trans s4))).within.mono (by omega)

/-- From the acknowledge to the end: the host releases its strobe, and the byte is taken or the data lines are released. -/
theorem ack_reaches_end (hs : a = .low ∨ d = .low) :
    ReachesWithin 30
      (hosted (b.inService { b.per with rd := rd, ad := ad, ph := .releaseWait } []) (.hostSide rd x a d)
        [.hostSide rd x .high .high] n c)
      (hosted (({ b with smp := samplesAfter rd x } : Block).inService
        ⟨.idle, slotAfter rd x b.per.slot, rd, ad, true⟩ []) (.hostSide rd x .high .high) [] n c) := by
  let T := Lines.hostSide rd x a d
  let T' := Lines.hostSide rd x .high .high
  let p : PPhase → PerRegs := fun ph => { b.per with rd := rd, ad := ad, ph := ph }
  let q : PPhase → PerRegs := fun ph => { b.per with slot := slotAfter rd x b.per.slot, rd := rd, ad := ad, ph := ph }
  let b1 := b.inService (p .releaseWait) []
  let b2 : Block := { b1 with smp := [], per := p .take, todo := takePrims rd }
  let b3 := ({ b with smp := samplesAfter rd x } : Block).inService (q .take) []
  let b4 : Block := { b3 with per := q .done, todo := [.setLvl .wait .low] }
  let b5 := ({ b with smp := samplesAfter rd x } : Block).inService (q .done) []
  have s1 : Reaches 1 (hosted b1 T [T'] n c) (hosted b1 T' [] n c) := by
    refine hosted_wait rfl hr hh PPhase.noConfusion ?_ ?_
    · rcases hs with rfl | rfl
      · cases rd <;> cases d <;> rfl
      · cases rd <;> cases a <;> rfl
    · cases rd <;> rfl
  have s2 : Reaches 1 (hosted b1 T' [] n c) (hosted b2 T' [] n c) := by
    refine hosted_per rfl hr hh PPhase.noConfusion ?_ ?_ <;> cases rd <;> rfl
  have s3 : ReachesWithin 16 (hosted b2 T' [] n c) (hosted b3 T' [] n c) := take_run
  have s4 : Reaches 1 (hosted b3 T' [] n c) (hosted b4 T' [] n c) := by
    refine hosted_per rfl hr hh PPhase.noConfusion ?_ ?_ <;> cases rd <;> rfl
  have s5 : Reaches 1 (hosted b4 T' [] n c) (hosted b5 T' [] n c) := by
    refine hosted_todo [.setLvl .wait .low] b4 rfl ?_ ?_ <;> cases rd <;> rfl
  have s6 : Reaches 1 (hosted b5 T' [] n c) (hosted (({ b with smp := samplesAfter rd x } : Block).inService
      ⟨.idle, slotAfter rd x b.per.slot, rd, ad, true⟩ []) T' [] n c) := by
    refine hosted_per rfl hr hh PPhase.noConfusion ?_ ?_ <;> cases rd <;> rfl
  exact (s1.within.trans (s2.within.trans (s3.trans (s4.within.trans (s5.within.trans s6.within))))).mono
    (show 1 + (1 + (16 + (1 + (1 + 1)))) ≤ 30 by decide)

end Service

/-! ### How a cycle completes -/

/-- A state with an external host at the far end is its near block, the draw counter and the contention flag. -/
theorem hosted_near {s : State} {T : Lines} {Ls : List Lines} (hf : s.far = .target ⟨T, false, []⟩)
    (hs : s.script = Ls.map fun L => ⟨.blocked, .lines L⟩) (b : Block) :
    ({ s with near := b } : State) = hosted b T Ls s.drawn s.contention := by
  rw [hosted, ← hf, ← hs]

/-- The block with the byte `y` in its slot. -/
abbrev Block.withSlot (y : Byte) (b : Block) : Block := { b with per := { b.per with slot := y } }

/-- The operation `i` passes through the acknowledge of a cycle, its slot at `y`, and completes it: the end is ready again,
nothing outside is still to come, and no wire was contended. -/
def State.Serves (s : State) (i : Instr) (rd ad : Bool) (x y : Byte) : Prop :=
  s.Passes i (State.PeripheralAcks (PerRegs.picture ⟨.releaseWait, y, rd, ad, s.near.per.ok⟩)) ∧
    ∃ t, exec i s = .next t ∧ t.PeripheralReady ∧ t.script = [] ∧ t.near.per = ⟨.idle, slotAfter rd x y, rd, ad, true⟩ ∧
      t.contention = s.contention

section Completion

variable {s : State} {i : Instr} {k : Nat} {rd ad : Bool} {x y : Byte} {a d : Level}

/-- An operation of a ready peripheral that comes to the tag of the host serves the cycle. -/
theorem serves_of_tag {b : Block} {T : Lines} {Ls : List Lines} (h : s.PeripheralReady) (hs : a = .low ∨ d = .low)
    (hf : s.far = .target ⟨T, false, []⟩) (hsc : s.script = Ls.map fun L => ⟨.blocked, .lines L⟩)
    (h0 : s.near.start none i = .ok b)
    (hrun : ReachesWithin k (hosted b T Ls s.drawn s.contention) (hosted ((s.near.withSlot y).serveDecoded rd ad)
      (.hostSide rd x a d) [.hostSide rd x .high .high] s.drawn s.contention)) (hk : k ≤ 6) :
    s.Serves i rd ad x y := by
  obtain ⟨ha, hd, hrole, hl⟩ := h
  obtain ⟨-, hr, hh, -, hspi, hflash⟩ := s.near.idleBelow_iff.mp (s.near.atRest_iff.mp ha).1
  have hack := hrun.trans (tag_reaches_ack (b := s.near.withSlot y) hr hh hl)
  have hend := hack.trans (ack_reaches_end (b := s.near.withSlot y) (x := x) hr hh hs)
  have hburst : k + 20 + 30 ≤ Config.burst := le_trans (show k + 20 + 30 ≤ 56 by omega) (by decide)
  rw [← hosted_near hf hsc] at hack hend
  have h0 : s.near.start s.far.role i = .ok b := by rw [hf]; exact h0
  have hrest : Block.atRest (({ s.near.withSlot y with smp := samplesAfter rd x } : Block).inService
      ⟨.idle, slotAfter rd x y, rd, ad, true⟩ []) = true :=
    (Block.atRest_iff _).mpr ⟨(Block.idleBelow_iff _).mpr ⟨rfl, hr, hh, rfl, hspi, hflash⟩, .inl hd⟩
  exact ⟨passes_of_reaches h0 hack (by omega) ⟨rfl, rfl, rfl⟩, _, exec_of_reaches ha hd h0 hend hburst hrest,
    ⟨hrest, hd, hrole, by cases rd <;> rfl⟩, rfl, rfl, rfl⟩

theorem peripheralGuard_ok {b : Block} (h : b.role = .peripheral) : b.peripheralGuard none = .ok b := by
  rw [Block.peripheralGuard, if_neg (not_not_intro h), if_neg (by decide)]

/-- The call with slot `y` serves the cycle of a host that asserts the strobe of `ad` and then releases it. -/
theorem call_serves (h : s.PeripheralReady) (hf : s.far = .target ⟨.idleHost, false, []⟩)
    (hsc : s.script = [⟨.blocked, .lines (.hostSide rd x (astbLevel ad) (dstbLevel ad))⟩,
      ⟨.blocked, .lines (.hostSide rd x .high .high)⟩]) : s.Serves (.peripheralCycle y) rd ad x y := by
  obtain ⟨-, hr, hh, -⟩ := s.near.idleBelow_iff.mp (s.near.atRest_iff.mp h.1).1
  obtain ⟨-, -, hrole, hl⟩ := id h
  refine serves_of_tag (Ls := [_, _]) h (by cases ad <;> decide) hf hsc ?_
    (call_reaches_tag (b := s.near.withSlot y) hr hh hl) (le_refl _)
  show Except.map _ ((s.near.withSlot y).peripheralGuard none) = _
  rw [peripheralGuard_ok (b := s.near.withSlot y) hrole]
  rfl

/-- An end that has decoded the tag `rd`, `ad` serves the cycle of a host that still asserts it and then releases it. -/
theorem tag_serves (h : s.PeripheralReady) (hs : a = .low ∨ d = .low)
    (hf : s.far = .target ⟨.hostSide rd x a d, false, []⟩)
    (hsc : s.script = [⟨.blocked, .lines (.hostSide rd x .high .high)⟩])
    (h0 : s.near.start none i = (s.near.peripheralGuard none).map (Block.serveDecoded rd ad)) :
    s.Serves i rd ad x s.near.per.slot := by
  rw [peripheralGuard_ok h.2.2.1] at h0
  exact serves_of_tag (Ls := [_]) h hs hf hsc h0 (.refl _) (Nat.zero_le _)

theorem callCycle_peripheral {b : Block} {rd ad : Bool} {y : Byte} (h : b.role = .peripheral) :
    b.callCycle none rd ad y = (b.peripheralGuard none).map (Block.serveDecoded rd ad) := by
  rw [Block.callCycle]
  split
  · next hp => exact absurd (h.symm.trans hp) nofun
  · rfl

theorem callReserved_peripheral {b : Block} {w : Level} (h : b.role = .peripheral) :
    b.callReserved none w = (b.peripheralGuard none).map (Block.serveDecoded (readOfWrsel w) true) := by
  rw [Block.callReserved]
  split
  · next hp => exact absurd (h.symm.trans hp) nofun
  · rfl

end Completion

/-- Settles O22: both directions are one served call. -/
theorem peripheralCycleServes : Obligations.PeripheralCycleServes :=
  fun _ x _ _ h => ⟨call_serves (rd := false) h, call_serves (rd := true) (x := x) h⟩

theorem State.Serves.ends {s : State} {i : Instr} {rd ad : Bool} {x y : Byte} (h : s.Serves i rd ad x y) :
    ∃ t, exec i s = .next t ∧ t.PeripheralReady ∧ t.near.per = ⟨.idle, slotAfter rd x y, rd, ad, true⟩ := by
  obtain ⟨-, t, he, ht, -, hp, -⟩ := h
  exact ⟨t, he, ht, hp⟩

/-- Settles O23: each row is a cycle served from its tag on. -/
theorem peripheralServesTag : Obligations.PeripheralServesTag := by
  intro s x h
  obtain ⟨-, -, hrole, -⟩ := id h
  refine ⟨fun hsc => ⟨fun hf => ?_, fun hf => ?_, fun hf => ?_⟩, fun hsc => ⟨fun hf => ?_, fun hf => ?_, fun hf => ?_⟩⟩
  · exact (tag_serves (i := .cycleAddressWrite x) (rd := false) h (.inl rfl) hf hsc (callCycle_peripheral hrole)).ends
  · exact (tag_serves (i := .cycleDataWrite x) (rd := false) h (.inr rfl) hf hsc (callCycle_peripheral hrole)).ends
  · exact (tag_serves (i := .cycleReserved .low) (rd := false) h (.inl rfl) hf hsc (callReserved_peripheral hrole)).ends
  · have hserve := tag_serves (i := .cycleAddressRead) (rd := true) (x := x) h (.inl rfl) hf hsc (callCycle_peripheral hrole)
    exact ⟨hserve.1, hserve.ends⟩
  · have hserve := tag_serves (i := .cycleDataRead) (rd := true) (x := x) h (.inr rfl) hf hsc (callCycle_peripheral hrole)
    exact ⟨hserve.1, hserve.ends⟩
  · have hserve := tag_serves (i := .cycleReserved .high) (rd := true) (x := x) h (.inl rfl) hf hsc
      (callReserved_peripheral hrole)
    exact ⟨hserve.1, hserve.ends⟩

end Sys2Proof.Machine
end

section
/-! `PortHiZ` and `Reset` as whole operations (R120 to R123): their completion at an idle end, the lines along a `Reset`, and,
with `abort` (R212, R235), what they leave unchanged whatever the far party does. -/

namespace Sys2Proof.Machine

/-! ### Completion with nothing moving outside -/

/-- The block with a line sequence put in place (R120, R121). -/
abbrev Block.sequenced (steps : List Prim) (b : Block) : Block := { b with todo := steps, rph := .running }

theorem portHiZPrims_isLine : ∀ x ∈ portHiZPrims, x.isLine = true := List.all_eq_true.mp rfl

theorem Prim.isPort_of_isLine {x : Prim} (h : x.isLine = true) : x.isPort = true := by
  cases x with
  | setDir _ _ | setLvl _ _ | delay _ => rfl
  | get _ | storeHost | storeSlot | senseWrsel | senseAstb | setRole _ => cases h

/-- An operation of an idle end that is one line sequence completes, and changes the lines and the role alone. -/
theorem exec_sequence {s : State} {i : Instr} {steps : List Prim} (hi : s.Idle) (ha : s.Alone)
    (h0 : s.near.start s.far.role i = .ok (s.near.sequenced steps)) (hx : ∀ x ∈ steps, x.isPort = true)
    (hlen : steps.length < Config.burst) : ∃ c, (s.contention = true → c = true) ∧
      exec i s = .next { s with
        near := { s.near with lines := linesAfter steps s.near.lines, role := roleAfter steps s.near.role },
        contention := c } := by
  obtain ⟨ht, hr, hh, hp, hs, hf⟩ := s.near.idleBelow_iff.mp hi.below
  obtain ⟨c, hc, hrun⟩ := alone_sequence (s := { s with near := s.near.sequenced steps }) ha hx rfl hh hp
  have hend : ({ (s.near.sequenced steps).afterTodo with rph := .idle } : Block) =
      { s.near with lines := linesAfter steps s.near.lines, role := roleAfter steps s.near.role } := by
    rw [Block.afterTodo, ← ht, ← hr]
  rw [hend] at hrun
  refine ⟨c, hc, exec_of_reaches hi.1 hi.2 h0 hrun.within hlen ?_⟩
  exact (Block.atRest_iff _).mpr ⟨(Block.idleBelow_iff _).mpr ⟨ht, hr, hh, hp, hs, hf⟩, .inl hi.2⟩

/-- Settles O13: the operation is the line sequence of its 26 primitives. -/
theorem portHiZEffect : Obligations.PortHiZEffect := by
  have hx : ∀ x ∈ portHiZPrims, x.isPort = true := fun x hx => Prim.isPort_of_isLine (portHiZPrims_isLine x hx)
  exact ⟨rfl, fun s hi ha => exec_sequence hi ha (i := .portHiZ) rfl hx (by decide)⟩

/-- Settles O14: the operation is the line sequence of its stages, which end in the idle lines of the role. -/
theorem resetEffect : Obligations.ResetEffect := by
  refine ⟨fun _ => rfl, fun _ => rfl, fun s r hi ha => ?_⟩
  have hlen : (resetPrims s.near.par.settleUs r).length < Config.burst :=
    lt_of_le_of_lt (resetPrims_length _ r) (by decide)
  have he := exec_sequence hi ha (i := .reset r) rfl (resetPrims_isPort _ r) hlen
  rwa [resetPrims_lines, resetPrims_role] at he

/-! ### The lines along a `Reset` -/

/-- Neither strobe nor `WRSEL` is driven L. -/
def Lines.strobesReleased (ls : Lines) : Bool :=
  !ls.astb.assertedLow && !ls.dstb.assertedLow && !ls.wrsel.assertedLow

theorem Lines.strobesReleased_iff (ls : Lines) : ls.strobesReleased = true ↔
    ls.astb.assertedLow = false ∧ ls.dstb.assertedLow = false ∧ ls.wrsel.assertedLow = false := by
  simp only [Lines.strobesReleased, Bool.and_eq_true, Bool.not_eq_true', and_assoc]

/-- No strobe is driven L before, between or after the steps `todo`. -/
def releasedAlong : List Prim → Lines → Bool
  | [], ls => ls.strobesReleased
  | x :: r, ls => ls.strobesReleased && releasedAlong r (x.onLines ls)

theorem releasedAlong_take {todo : List Prim} {ls : Lines} (h : releasedAlong todo ls = true) (k : Nat) :
    (linesAfter (todo.take k) ls).strobesReleased = true := by
  induction todo generalizing ls k with
  | nil =>
    rw [List.take_nil]
    exact h
  | cons x r ih =>
    obtain ⟨h0, hr⟩ := Bool.and_eq_true_iff.mp h
    cases k with
    | zero => exact h0
    | succ k => exact ih hr k

/-- The stages of `Reset` after its `PortHiZ` (R122, R123). -/
def resetTail (us : Nat) (r : Role) : List Prim :=
  controlStage r ++ dataIdle ++ resetPulse us r ++ [.setRole r]

theorem resetPrims_eq (us : Nat) (r : Role) : resetPrims us r = portHiZPrims ++ resetTail us r := by
  simp only [resetPrims, resetTail, List.append_assoc]

/-- From the released port on, each latch of a strobe is H before its line is turned to Out (R122). -/
theorem resetTail_released (us : Nat) (r : Role) : releasedAlong (resetTail us r) .hiZ = true := by
  cases r <;> rfl

/-- Settles O15: whatever the lines were, `PortHiZ` leaves all of them released, and no later step drives a strobe L. -/
theorem resetNeverStrobes : Obligations.ResetNeverStrobes := by
  intro us r ls k hk
  have htake : (resetPrims us r).take k = portHiZPrims ++ (resetTail us r).take (k - 26) := by
    rw [resetPrims_eq, List.take_append, List.take_of_length_le (show portHiZPrims.length ≤ k from hk)]
    rfl
  rw [← Lines.strobesReleased_iff, htake, linesAfter_append, portHiZPrims_lines]
  exact releasedAlong_take (resetTail_released us r) (k - 26)

/-! ### What a line sequence leaves unchanged -/

/-- The block without what a line sequence writes: the lines, the role and the steps still to be done. -/
def Block.lessPort (b : Block) : Block := { b with lines := .hiZ, role := .host, todo := [], rph := .idle }

/-- The block `q` with a line sequence under way or done, whose primitives lead from the roles `R` to no other role. -/
structure Block.InSequence (b q : Block) (R : Role → Prop) : Prop where
  same : b.lessPort = q.lessPort
  role : R b.role
  steps : ∀ x ∈ b.todo, x.isPort = true ∧ ∀ r, R r → R (x.onRole r)

/-- No layer between the port and the dispatcher runs. -/
def Block.layersIdle (b : Block) : Prop :=
  b.host.ph = .idle ∧ b.per.ph = .idle ∧ b.spi.ph = .idle ∧ b.flash.ph = .idle

theorem Block.layersIdle_of_idleBelow {b : Block} (h : b.idleBelow = true) : b.layersIdle := by
  obtain ⟨-, -, hl⟩ := b.idleBelow_iff.mp h
  exact hl

theorem Block.layersIdle_congr {q b : Block} (h : b.lessPort = q.lessPort) (hq : q.layersIdle) : b.layersIdle := by
  have hq : q.lessPort.layersIdle := hq
  rw [← h] at hq
  exact hq

/-- A step in a line sequence stays in it, or it is the dispatcher's, the sequence done. -/
theorem sequence_tick {q b b' : Block} {R : Role → Prop} {p : Peer} {n m : Nat} (hq : q.layersIdle)
    (h : b.InSequence q R) (ht : b.tick p n = .moved b' m) :
    b'.InSequence q R ∨ (b.idleBelow = true ∧ dispTick p n b = .moved b' m) := by
  obtain ⟨hh, hp, hs, hf⟩ := Block.layersIdle_congr h.same hq
  cases htodo : b.todo with
  | cons x r =>
    have hsteps := h.steps
    rw [htodo] at hsteps
    obtain ⟨hx, hR⟩ := hsteps x (List.mem_cons_self ..)
    rw [tick_port p n htodo hx hh hp] at ht
    obtain ⟨rfl, -⟩ := Tick.moved.inj ht
    exact .inl ⟨h.same, hR _ h.role, fun y hy => hsteps y (List.mem_cons_of_mem _ hy)⟩
  | nil =>
    cases hr : b.rph with
    | running =>
      rw [tick_rph p n htodo hr hh hp] at ht
      obtain ⟨rfl, -⟩ := Tick.moved.inj ht
      exact .inl ⟨h.same, h.role, h.steps⟩
    | idle =>
      have hi : b.idleBelow = true := b.idleBelow_iff.mpr ⟨htodo, hr, hh, hp, hs, hf⟩
      rw [Block.tick_disp p n hi] at ht
      exact .inr ⟨hi, ht⟩

/-- An operation that is one line sequence leaves all but the lines and the role unchanged, whatever the far party does. -/
theorem exec_lessPort {s t : State} {i : Instr} {steps : List Prim} {R : Role → Prop} (hs : s.FarOnly)
    (h0 : s.near.start s.far.role i = .ok (s.near.sequenced steps)) (hR : R s.near.role)
    (hx : ∀ x ∈ steps, x.isPort = true ∧ ∀ r, R r → R (x.onRole r)) (he : exec i s = .next t) :
    t.near.lessPort = s.near.lessPort ∧ R t.near.role := by
  rw [exec_eq, h0] at he
  obtain ⟨hrest, hd, -⟩ := State.launch_next he
  have hq := Block.layersIdle_of_idleBelow (s.near.atRest_iff.mp hrest).1
  have hend : t.near.InSequence s.near R := by
    refine farOnly_launch (P := (Block.InSequence · s.near R)) (fun p n m b b' h ha ht => ?_) hs (fun _ _ b' hb => ?_) he
    · rcases sequence_tick hq h ht with h' | ⟨hi, -⟩
      · exact h'
      · have hdb : b.disp = s.near.disp := (congrArg Block.disp h.same :)
        have : b.atRest = true := b.atRest_iff.mpr ⟨hi, .inl (by rw [hdb, hd])⟩
        exact absurd (this.symm.trans ha) nofun
    · obtain rfl := Except.ok.inj hb
      exact ⟨rfl, hR, hx⟩
  exact ⟨hend.same, hend.role⟩

theorem Prim.onRole_line {x : Prim} (h : x.isLine = true) (r : Role) : x.onRole r = r := by
  cases x with
  | setRole _ => cases h
  | _ => rfl

/-- The steps of `PortHiZ` lead from the role `r` to no other. -/
theorem portHiZPrims_steps (r : Role) : ∀ x ∈ portHiZPrims, x.isPort = true ∧ ∀ r', r' = r → x.onRole r' = r :=
  fun x hx => ⟨Prim.isPort_of_isLine (portHiZPrims_isLine x hx),
    fun r' h => (Prim.onRole_line (portHiZPrims_isLine x hx) r').trans h⟩

/-- The block without what an abort writes: what a line sequence writes, the result, and where the dispatcher is (R235). -/
def Block.lessAbort (b : Block) : Block :=
  { b.lessPort with res := 0, disp := { b.disp with ph := .header0, step := .decode, k := 0 } }

theorem Block.lessAbort_congr {q b : Block} (h : b.lessPort = q.lessPort) : b.lessAbort = q.lessAbort :=
  (congrArg Block.lessAbort h :)

/-- A block with an abort of `q` under way or done. -/
structure Block.Aborts (b q : Block) (r : Int) : Prop where
  same : b.lessAbort = q.lessAbort
  role : b.role = q.role
  stage : b.InSequence (q.enterAbort r) (· = q.role) ∨ b.atRest = true

theorem Block.InSequence.aborts {q b : Block} {r : Int} (h : b.InSequence (q.enterAbort r) (· = q.role)) :
    b.Aborts q r := ⟨(Block.lessAbort_congr h.same).trans rfl, h.role, .inl h⟩

theorem aborts_tick {q b b' : Block} {r : Int} {p : Peer} {n m : Nat} (hq : q.layersIdle) (h : b.Aborts q r)
    (ha : b.atRest = false) (ht : b.tick p n = .moved b' m) : b'.Aborts q r := by
  rcases h.stage with hseq | hrest
  · rcases sequence_tick (q := q.enterAbort r) hq hseq ht with h' | ⟨hi, htick⟩
    · exact h'.aborts
    · have hd : b.disp = (q.enterAbort r).disp := (congrArg Block.disp hseq.same :)
      have hend : dispTick p n b = .moved (({ b with res := r } : Block).dispTo .halted .decode 0) n := by
        simp only [dispTick, execTick, hd, Block.enterAbort]
      obtain ⟨rfl, -⟩ := Tick.moved.inj (hend.symm.trans htick)
      exact ⟨h.same, h.role, .inr ((Block.atRest_iff _).mpr ⟨hi, .inr rfl⟩)⟩
  · exact absurd (hrest.symm.trans ha) nofun

/-- An abort changes the lines, the result and where the dispatcher is, whatever the far party does (R235). -/
theorem exec_abort_lessAbort {s t : State} {r : Int} (hs : s.FarOnly) (he : exec (.abort r) s = .next t) :
    t.near.lessAbort = s.near.lessAbort ∧ t.near.role = s.near.role := by
  rw [exec_eq] at he
  obtain ⟨hrest, -⟩ := State.launch_next he
  have hq := Block.layersIdle_of_idleBelow (s.near.atRest_iff.mp hrest).1
  have hend : t.near.Aborts s.near r := by
    refine farOnly_launch (fun _ _ _ _ _ h ha ht => aborts_tick hq h ha ht) hs (fun _ _ b' hb => ?_) he
    obtain rfl : s.near.enterAbort r = b' := by
      change s.near.callAbort r = _ at hb
      rw [Block.callAbort] at hb
      split at hb
      · exact Except.ok.inj hb
      · cases hb
    exact Block.InSequence.aborts ⟨rfl, rfl, portHiZPrims_steps _⟩
  exact ⟨hend.same, hend.role⟩

/-- Settles O53: each of the three is a line sequence, which writes lines, and in a `Reset` the role; only `abort` goes on. -/
theorem portFrame : Obligations.PortFrame := by
  intro s t i hs hi he
  have hframe : t.near.lessAbort = s.near.lessAbort ∧
      ((¬∃ r, i = .abort r) → t.near.disp = s.near.disp ∧ t.near.res = s.near.res) ∧
      ((¬∃ r, i = .reset r) → t.near.role = s.near.role) := by
    rcases hi with rfl | ⟨r, rfl⟩ | ⟨r, rfl⟩
    · obtain ⟨hless, hrole⟩ := exec_lessPort (R := (· = s.near.role)) hs rfl rfl (portHiZPrims_steps _) he
      exact ⟨Block.lessAbort_congr hless,
        fun _ => ⟨(congrArg Block.disp hless :), (congrArg Block.res hless :)⟩, fun _ => hrole⟩
    · obtain ⟨hless, -⟩ := exec_lessPort (R := fun _ => True) hs rfl trivial
        (fun x hx => ⟨resetPrims_isPort _ r x hx, fun _ _ => trivial⟩) he
      exact ⟨Block.lessAbort_congr hless,
        fun _ => ⟨(congrArg Block.disp hless :), (congrArg Block.res hless :)⟩, fun h => absurd ⟨r, rfl⟩ h⟩
    · obtain ⟨hless, hrole⟩ := exec_abort_lessAbort hs he
      exact ⟨hless, fun h => absurd ⟨r, rfl⟩ h, fun _ => hrole⟩
  obtain ⟨hless, hrest⟩ := hframe
  have hdisp := congrArg Block.disp hless
  exact ⟨(congrArg Block.par hless :), (congrArg Block.buf hless :), (congrArg Block.host hless :),
    (congrArg Block.per hless :), (congrArg Block.spi hless :), (congrArg Block.flash hless :),
    (congrArg Block.sin hless :), (congrArg Block.sout hless :), (congrArg Block.ubuf hless :),
    (congrArg Block.calls hless :), (congrArg Block.bus hless :), (congrArg DispRegs.pendAddr hdisp :),
    (congrArg DispRegs.pendValid hdisp :), (congrArg DispRegs.progActive hdisp :), (congrArg DispRegs.cmd hdisp :),
    (congrArg DispRegs.lm1 hdisp :), (congrArg DispRegs.len hdisp :), hrest⟩

end Sys2Proof.Machine
end

section
/-! Whole transactions of a ready host against a live external target (R124, R125, R128 to R133): what is sent or stored, and
what stays. -/

namespace Sys2Proof.Machine

/-- Settles O17: the write completes, and the derived operation launches the same call. -/
theorem writeTransactions : Obligations.WriteTransactions := by
  intro s rs buf n ac hr hl hn hb
  obtain ⟨he, hready⟩ := transaction_writes (ac := ac) hr hl hn hb
  have hres : (((buf.take n).length : Nat) : Int) = n := by rw [List.length_take_of_le hb]
  refine ⟨_, he, ?_, hready, ⟨rfl, rfl⟩, rfl, hres, rfl, rfl, rfl, rfl, rfl, rfl⟩
  cases ac <;> exact he

/-- Settles O18: the read completes with the target's bytes at the start of the buffer. -/
theorem readTransactions : Obligations.ReadTransactions := by
  intro s rs rest buf ac hr hl hn hb
  obtain ⟨he, hready⟩ := transaction_reads (ac := ac) hr hl hn hb
  refine ⟨_, he, ?_, hready, ⟨rfl, rfl⟩, rfl, rfl, setAll_zero buf rs hb, rfl, rfl, rfl, rfl, rfl⟩
  cases ac <;> exact he

end Sys2Proof.Machine
end

section
/-! Operations refused for their role or for their length (R124, R150, R187, R242): at the call of the layer that tests it,
and for the bus commands where the command reaches that call. -/

namespace Sys2Proof.Machine

/-! ### The calls of the layers -/

/-- A length outside 0 to `CAP`, or beyond the caller's buffer, is refused by its name (R124, R187). -/
theorem lengthArg_error {buf : List Byte} {n : Int} {r : Refusal}
    (h : (n < 0 ∨ 128 < n) ∧ r = .badLength ∨ (0 ≤ n ∧ n ≤ 128 ∧ buf.length < n.toNat) ∧ r = .shortBuffer) :
    lengthArg buf n = .error r := by
  rcases h with ⟨hn, rfl⟩ | ⟨⟨h0, h128, hshort⟩, rfl⟩
  · exact if_pos hn
  · have hn : ¬(n < 0 ∨ (Config.cap : Int) < n) := not_or.mpr ⟨not_lt.mpr h0, not_lt.mpr h128⟩
    rw [lengthArg, if_neg hn, if_pos hshort]

section BadLength

variable {b : Block} {peer : Option Role} {buf : List Byte} {n : Int} {r : Refusal}

theorem callTransaction_badLength (h : lengthArg buf n = .error r) (rd ac : Bool) :
    b.callTransaction peer buf n rd ac = .error r := by
  rw [Block.callTransaction, h]

theorem callSpiTransaction_badLength (h : lengthArg buf n = .error r) (rd : Bool) (first last : SPhase) :
    b.callSpiTransaction peer buf n rd first last = .error r := by
  rw [Block.callSpiTransaction, h]

theorem callFlashProgram_badLength (h : lengthArg buf n = .error r) (init : Bool) :
    b.callFlashProgram buf n init = .error r := by
  rw [Block.callFlashProgram, h]

end BadLength

section WrongRole

variable {b : Block} {peer : Option Role} {buf : List Byte} {n : Nat}

theorem spiCall_wrongRole (h : b.role = .peripheral) {ph : SPhase} (hph : ph ≠ .idle) :
    b.spiCall peer ph = .error .wrongRole := by
  have begins : ∀ ref len rd ac, ({ b with spi := { b.spi with ph := ph } } : Block).beginTransaction peer ref len rd ac =
      .error .wrongRole := fun _ _ _ _ => beginTransaction_wrongRole h
  unfold Block.spiCall Block.spiEngineCall
  cases ph with
  | idle => exact absurd rfl hph
  | s1 | s3 => exact begins ..
  | s2 | s4 => cases b.spi.kind <;> exact begins ..

theorem beginSpiReset_wrongRole (h : b.role = .peripheral) {first : SPhase} (hf : first ≠ .idle) (last : SPhase) :
    b.beginSpiReset peer first last = .error .wrongRole :=
  spiCall_wrongRole (b := { b with spi := { b.spi with kind := .reset, last := last } }) h hf

theorem beginSpiTransaction_wrongRole (h : b.role = .peripheral) (hn : n ≤ 128) {first : SPhase} (hf : first ≠ .idle)
    (ref : BufRef) (rd : Bool) (last : SPhase) : b.beginSpiTransaction peer ref n rd first last = .error .wrongRole := by
  rw [Block.beginSpiTransaction, if_neg (show ¬Config.cap < n from not_lt.mpr hn)]
  exact spiCall_wrongRole (b := { b with spi := ⟨.idle, .transfer, last, ref, n, rd⟩ }) h hf

theorem beginFlash_wrongRole (h : b.role = .peripheral) (ref : BufRef) (init : Bool) :
    b.beginFlash ref n init = .error .wrongRole :=
  if_pos (by rw [h]; decide)

theorem flashDeselect_wrongRole (h : b.role = .peripheral) : b.flashDeselect peer = .error .wrongRole :=
  beginSpiReset_wrongRole (b := b.flashTo .deselect) h SPhase.noConfusion .s4

theorem flashPoll_wrongRole (h : b.role = .peripheral) : b.flashPoll peer = .error .wrongRole :=
  beginSpiReset_wrongRole (b := b.flashTo .pollDeselect) h SPhase.noConfusion .s4

theorem callTransaction_wrongRole (h : b.role = .peripheral) (hn : n ≤ 128) (hb : n ≤ buf.length) (rd ac : Bool) :
    b.callTransaction peer buf n rd ac = .error .wrongRole := by
  rw [Block.callTransaction, lengthArg_natCast hn hb]
  exact beginTransaction_wrongRole (b := { b with ubuf := buf }) h

theorem callSpiTransaction_wrongRole (h : b.role = .peripheral) (hn : n ≤ 128) (hb : n ≤ buf.length) (rd : Bool)
    {first : SPhase} (hf : first ≠ .idle) (last : SPhase) :
    b.callSpiTransaction peer buf n rd first last = .error .wrongRole := by
  rw [Block.callSpiTransaction, lengthArg_natCast hn hb]
  exact beginSpiTransaction_wrongRole (b := { b with ubuf := buf }) h hn hf .user rd last

theorem callFlashProgram_wrongRole (h : b.role = .peripheral) (hn : n ≤ 128) (hb : n ≤ buf.length) (init : Bool) :
    b.callFlashProgram buf n init = .error .wrongRole := by
  rw [Block.callFlashProgram, lengthArg_natCast hn hb]
  exact beginFlash_wrongRole (b := { b with ubuf := buf }) h .user init

theorem callPeripheralCycle_wrongRole (h : b.role = .host) (y : Byte) :
    b.callPeripheralCycle peer y = .error .wrongRole := by
  rw [Block.callPeripheralCycle, Block.beginPeripheralCycle, Block.peripheralGuard, if_pos (by rw [h]; decide)]
  rfl

/-- The bus activity of 'R' or 'W' begins with a transaction, of the pending address or of the data (R208, R209). -/
theorem beginBus_wrongRole (h : b.role = .peripheral) : b.beginBus peer = .error .wrongRole := by
  rw [Block.beginBus]
  split
  · exact beginTransaction_wrongRole (b := b.dispTo .exec .setAddress 0) h
  · exact beginTransaction_wrongRole (b := b.dispTo .exec .transfer 0) h

end WrongRole

/-! ### Bus commands, refused where they reach the bus (log entry 22) -/

section Commands

variable {s : State} {x : Byte} {b : Block} {n : Nat}

/-- An operation that runs to a step of the dispatcher that is refused is refused with the same name. -/
theorem exec_refused_later {i : Instr} {b0 : Block} {k : Nat} {r : Refusal} (hi : s.Idle) (hc : s.Calm)
    (h0 : s.near.start s.far.role i = .ok b0) (hrun : ReachesWithin k (s.on b0 s.drawn) (s.on b n)) (hk : k < Config.burst)
    (hl : b.lines = s.near.lines) (hb : b.idleBelow = true) (hh : b.disp.ph ≠ .header0) (hh' : b.disp.ph ≠ .halted)
    (ht : dispTick s.far.asPeer n b = .refused r) : exec i s = .refused r := by
  have hturn : (s.on b n).turn = .refused r := by
    have hreact : (s.on b n).far.react (s.on b n).near.lines (s.on b n).drawn = none := by
      show s.far.react b.lines n = none
      rw [hl]
      exact hc.2.1 n
    rw [State.turn_near (s := s.on b n) hc.1 hreact, State.tickNear]
    simp only [State.on, Block.tick_disp _ _ hb, ht]
  rw [exec_eq, h0, State.launch_ok hi.1 hi.2]
  exact run_of_refused hrun hk (Block.not_atRest_of_disp hh hh') hturn

/-- The block that has read the bytes `xs` of its body into `BUF`, the bytes `sin` left on the stream (R207). -/
abbrev Block.withBody (b : Block) (xs sin : List Byte) : Block :=
  { b with sin := sin, buf := b.buf.writeAll b.disp.k xs, disp := { b.disp with k := b.disp.k + xs.length } }

/-- The body bytes of a command go to `BUF`, one a turn, before the command goes on (R6, R207). -/
theorem body_reads (hc : s.Calm) (rest xs : List Byte) (hl : b.lines = s.near.lines) (hi : b.idleBelow = true)
    (hph : b.disp.ph = .body) (hst : b.disp.step = .decode) (hsin : b.sin = xs ++ rest)
    (hk : b.disp.k + xs.length ≤ b.disp.len) (hlen : b.disp.len ≤ Config.cap) :
    Reaches xs.length (s.on b n) (s.on (b.withBody xs rest) n) := by
  induction xs generalizing b with
  | nil =>
    have e : b.withBody [] rest = b := by
      obtain rfl : b.sin = rest := hsin
      rfl
    rw [e]
    exact .refl _
  | cons x xs ih =>
    rw [List.length_cons] at hk ⊢
    have hlt : b.disp.k < b.disp.len := by omega
    have hread : dispTick s.far.asPeer n b = .moved (b.withBody [x] (xs ++ rest)) n := by
      simp only [dispTick, hph, bodyTick, hlt, if_true, hsin, List.cons_append, Block.bufWrite, lt_of_lt_of_le hlt hlen,
        Block.dispTo, Block.withBody, Memory.writeAll, List.length_singleton, ← hst]
    have s1 := calm_disp hc hl hi (by simp [hph]) (by simp [hph]) hread rfl
    have s2 := ih (b := b.withBody [x] (xs ++ rest)) hl hi hph hst rfl
      (show b.disp.k + 1 + xs.length ≤ b.disp.len by omega) hlen
    have e : (b.withBody [x] (xs ++ rest)).withBody xs rest = b.withBody (x :: xs) rest := by
      simp only [Block.withBody, Memory.writeAll, List.length_cons, List.length_nil, Nat.zero_add, Nat.add_assoc,
        Nat.add_comm xs.length]
    rw [e] at s2
    have := s1.trans s2
    rwa [Nat.add_comm] at this

/-- 'R' is refused at its first operation (R242). -/
theorem exec_cmdR_wrongRole (hi : s.Idle) (hc : s.Calm) (hr : s.near.role = .peripheral) :
    exec (.cmdR x) s = .refused .wrongRole := by
  have hbus : (s.near.header Config.letterR x).beginCommand s.far.role = .error .wrongRole :=
    beginBus_wrongRole (b := s.near.header Config.letterR x) hr
  exact exec_refused_later hi hc (i := .cmdR x) rfl (.refl (s.on (s.near.header Config.letterR x) s.drawn)) (by decide) rfl
    hi.below DPhase.noConfusion DPhase.noConfusion (congrArg (Tick.ofBegin s.drawn) hbus)

/-- A command with a body is refused once the body is read, if what it goes on with is. -/
theorem exec_body_refused {i : Instr} {code : Byte} {body rest : List Byte} {r : Refusal} (hi : s.Idle) (hc : s.Calm)
    (h0 : s.near.start s.far.role i = .ok (s.near.header code x))
    (hbody : (s.near.header code x).beginCommand s.far.role = .ok (s.near.header code x).beginBody)
    (hlen : body.length = clampedLength x) (hsin : s.near.sin = body ++ rest)
    (hafter : ((s.near.header code x).beginBody.withBody body rest).afterBody s.far.role = .error r) :
    exec i s = .refused r := by
  obtain ⟨-, h128⟩ := clampedLength_bounds x
  have s1 := header_decodes hi hc hbody rfl
  have s2 := body_reads (b := (s.near.header code x).beginBody) (n := s.drawn) hc rest body rfl hi.below rfl rfl hsin
    ((Nat.zero_add _).trans hlen).le h128
  refine exec_refused_later hi hc h0 (s1.trans s2).within (lt_of_le_of_lt (show 1 + body.length ≤ 129 by omega) (by decide))
    rfl hi.below DPhase.noConfusion DPhase.noConfusion ?_
  have hend : ¬((s.near.header code x).beginBody.withBody body rest).disp.k <
      ((s.near.header code x).beginBody.withBody body rest).disp.len :=
    not_lt.mpr ((Nat.zero_add _).trans hlen).ge
  show bodyTick _ _ _ = _
  rw [bodyTick, if_neg hend]
  exact congrArg (Tick.ofBegin s.drawn) hafter

end Commands

/-- Settles O44: each operation begins with a call that tests the role; of the bus commands, 'R' at once, the others after
their body. -/
theorem wrongRole : Obligations.WrongRole := by
  refine ⟨fun s buf n hs hr hn hb => ?_, fun s y hs hr => exec_refused hs (callPeripheralCycle_wrongRole hr y)⟩
  refine ⟨fun rd ac => exec_refused hs (callTransaction_wrongRole hr hn hb rd ac), fun rd => ⟨?_, ?_⟩, ?_, ?_, ?_, ?_, ?_,
    fun d e => ⟨?_, ?_⟩, fun init => exec_refused hs (callFlashProgram_wrongRole hr hn hb init),
    fun hc x => exec_cmdR_wrongRole hs hc hr, fun hc x body rest hlen hsin => ⟨?_, ?_⟩⟩
  · exact exec_refused hs (callSpiTransaction_wrongRole hr hn hb rd SPhase.noConfusion .s4)
  · exact exec_refused hs (callSpiTransaction_wrongRole hr hn hb rd SPhase.noConfusion .s4)
  · exact exec_refused hs (beginSpiReset_wrongRole (first := .s1) hr SPhase.noConfusion .s4)
  · exact exec_refused hs (beginSpiReset_wrongRole (first := .s1) hr SPhase.noConfusion .s2)
  · exact exec_refused hs (beginSpiReset_wrongRole (first := .s3) hr SPhase.noConfusion .s4)
  · exact exec_refused hs (beginSpiTransaction_wrongRole (first := .s1) hr (Nat.zero_le _) SPhase.noConfusion .user false .s2)
  · exact exec_refused hs (flashPoll_wrongRole (by exact hr))
  · exact exec_refused hs (flashDeselect_wrongRole (by exact hr))
  · exact exec_refused hs (flashDeselect_wrongRole (by exact hr))
  · exact exec_body_refused (code := Config.letterW) hs hc rfl rfl hlen hsin
      (beginBus_wrongRole (by exact hr))
  · exact exec_body_refused (code := Config.letterP) hs hc rfl rfl hlen hsin
      (beginFlash_wrongRole (by exact hr) .buf _)

/-- Settles O45: every operation with a caller's buffer tests the length argument before anything else. -/
theorem badLengths : Obligations.BadLengths := by
  intro s buf n r hs h
  have hlen := lengthArg_error h
  have transfer : ∀ rd ac, s.near.callTransaction s.far.role buf n rd ac = .error r := callTransaction_badLength hlen
  have spi : ∀ rd first last, s.near.callSpiTransaction s.far.role buf n rd first last = .error r :=
    callSpiTransaction_badLength hlen
  exact ⟨fun rd ac => exec_refused hs (transfer rd ac), exec_refused hs (transfer false false),
    exec_refused hs (transfer true false), exec_refused hs (transfer false true), exec_refused hs (transfer true true),
    fun rd => ⟨exec_refused hs (spi rd .s1 .s4), exec_refused hs (spi rd .s3 .s4)⟩,
    fun init => exec_refused hs (callFlashProgram_badLength hlen init)⟩

end Sys2Proof.Machine
end

section
/-! The waits of the engine (R125, R127, R151, R155, R238): a step on the level waited for, and none on the other. -/

namespace Sys2Proof.Machine

/-! ### The host: `H_PREWAIT` and `H_ACKWAIT` -/

section HostWaits

variable {b : Block} {p : Peer} {n : Nat}

theorem tick_host (hc : b.clashes p = false) (ht : b.todo = []) (hr : b.rph = .idle) (hh : b.host.ph ≠ .idle) :
    b.tick p n = hostTick p n b := by
  rw [Block.tick_advance hc, Block.advance_host p n ht hr hh]

theorem hostTick_preWait_high {m : Nat} (hph : b.host.ph = .preWait) (hg : getWire b.lines p.lines .wait n = (.high, m)) :
    hostTick p n b = .waiting m := by
  simp only [hostTick, hph, hg]

theorem hostTick_preWait_low {m : Nat} (hph : b.host.ph = .preWait) (hb : b.HostInBounds)
    (hg : getWire b.lines p.lines .wait n = (.low, m)) :
    ∃ b' k, hostTick p n b = .moved b' k ∧ b'.host.ph = .put ∧ b'.host.i = b.host.i := by
  obtain ⟨hfits, -, hindex, -⟩ := hb
  simp only [hostTick, hph, hg]
  cases b.host.rd with
  | true => exact ⟨_, _, rfl, rfl, rfl⟩
  | false =>
    have hi : b.host.i < b.host.len := hindex (by simp [hph]) (by simp [hph]) (by simp [hph])
    obtain ⟨x, k, hx⟩ := Block.bufRead_isSome m (hfits (by simp [hph])).2 hi
    simp only [hx]
    exact ⟨_, _, rfl, rfl, rfl⟩

theorem hostTick_ackWait_low {m : Nat} (hph : b.host.ph = .ackWait) (hg : getWire b.lines p.lines .wait n = (.low, m)) :
    hostTick p n b = .waiting m := by
  simp only [hostTick, hph, hg]

theorem hostTick_ackWait_high {m : Nat} (hph : b.host.ph = .ackWait) (hg : getWire b.lines p.lines .wait n = (.high, m)) :
    ∃ b', hostTick p n b = .moved b' m ∧ b'.host = { b.host with ph := .get } := by
  simp only [hostTick, hph, hg]
  exact ⟨_, rfl, rfl⟩

end HostWaits

/-- A near block without a step stays where it is when nothing moves outside (R127). -/
theorem step_waits {s : State} (ha : s.Alone) (hi : s.near.idleBelow = false)
    (ht : s.near.tick s.far.asPeer s.drawn = .waiting s.drawn) : step s = .next s := by
  have hturn : s.turn = .stuck s := by
    rw [State.turn_near ha.1 (ha.2 _ _), State.tickNear, ht]
  have hfetch : s.fetch = .busy := by
    rw [State.fetch, hi]
    rfl
  have hrest : s.near.atRest = false := by
    rw [Block.atRest, hi]
    rfl
  rw [step, hfetch]
  exact run_of_stuck (.refl s) (show 0 < Config.burst by decide) hrest hturn

/-! ### The peripheral: `P_STROBEWAIT` and `P_RELEASEWAIT` -/

section PeripheralWaits

variable {b : Block} {p : Peer} {n : Nat}

theorem tick_peripheral (hc : b.clashes p = false) (ht : b.todo = []) (hr : b.rph = .idle) (hh : b.host.ph = .idle)
    (hp : b.per.ph ≠ .idle) : b.tick p n = peripheralTick p n b := by
  rw [Block.tick_advance hc, Block.advance_per p n ht hr hh hp]

variable {a d : Level} (ha : getWire b.lines p.lines .astb n = (a, n)) (hd : getWire b.lines p.lines .dstb n = (d, n))
include ha hd

theorem peripheralTick_strobeWait (hph : b.per.ph = .strobeWait) :
    peripheralTick p n b = .waiting n ↔ a = .high ∧ d = .high := by
  simp only [peripheralTick, hph, ha, hd]
  cases a <;> cases d <;> simp

theorem peripheralTick_releaseWait (hph : b.per.ph = .releaseWait) :
    peripheralTick p n b = .waiting n ↔ a = .low ∨ d = .low := by
  simp only [peripheralTick, hph, ha, hd]
  cases a <;> cases d <;> simp

end PeripheralWaits

/-- Settles O21: each wait samples its wires and moves on the level it waits for alone. -/
theorem engineWaits : Obligations.EngineWaits := by
  refine ⟨fun b p n hc ht hr => ?_, fun s ha hc ht hr hph hin hout => ?_, fun b p n hc ht hr hh hpa hpd hba hbd => ?_⟩
  · have htick : b.host.ph ≠ .idle → b.tick p n = hostTick p n b := tick_host hc ht hr
    have sample : ∀ {v}, (getWire b.lines p.lines .wait n).1 = v → getWire b.lines p.lines .wait n = (v, _) :=
      fun h => Prod.ext h rfl
    refine ⟨fun hph hw => ?_, fun hph hw => ?_, fun hph hw => ?_, fun hph hb hw => ?_⟩ <;>
      rw [htick (by simp [hph])]
    · exact ⟨_, hostTick_preWait_high hph (sample hw)⟩
    · exact ⟨_, hostTick_ackWait_low hph (sample hw)⟩
    · obtain ⟨b', he⟩ := hostTick_ackWait_high hph (sample hw)
      exact ⟨b', _, he⟩
    · exact hostTick_preWait_low hph hb (sample hw)
  · have hne : s.near.host.ph ≠ .idle := by simp [hph]
    have hg : getWire s.near.lines s.far.asPeer.lines .wait s.drawn = (.low, s.drawn) :=
      (getWire_driven (l := .wait) s.drawn hin (congrArg LineState.dir hout)).trans (congrArg (·.lat, s.drawn) hout)
    have hi : s.near.idleBelow = false := by simp [Block.idleBelow, hne]
    exact step_waits ha hi ((tick_host hc ht hr hne).trans (hostTick_ackWait_low hph hg))
  · have hga := getWire_driven (l := .astb) n hba hpa
    have hgd := getWire_driven (l := .dstb) n hbd hpd
    refine ⟨fun hph => ?_, fun hph => ?_⟩ <;> rw [tick_peripheral hc ht hr hh (by simp [hph])]
    · exact peripheralTick_strobeWait hga hgd hph
    · exact peripheralTick_releaseWait hga hgd hph

end Sys2Proof.Machine
end

section
/-! The not-ready exit of `PeripheralCycle` (R154, R247): `P_CHECK` reads `RST` once, and on L the call returns false. -/

namespace Sys2Proof.Machine

/-- The call that has found `RST` at L: it is over, with the result false (R154). -/
abbrev Block.notReady (b : Block) : Block := ({ b with per := { b.per with ok := false } } : Block).perTo .idle []

theorem peripheralTick_check_low {b : Block} {p : Peer} {n m : Nat} (hph : b.per.ph = .check)
    (hg : getWire b.lines p.lines .rst n = (.low, m)) : peripheralTick p n b = .moved b.notReady m := by
  simp only [peripheralTick, hph, hg, Block.notReady, Block.perTo]

/-- A running peripheral cycle clashes only with a far end in the same role (R241). -/
theorem Block.clashes_per {b : Block} {p : Peer} (hh : b.host.ph = .idle) (hp : p.role ≠ some .peripheral) :
    b.clashes p = false := by
  refine Bool.eq_false_iff.mpr fun h => ?_
  rcases (clashes_iff b p).mp h with ⟨hb, -⟩ | ⟨-, hb⟩
  · exact hb hh
  · exact hp hb

/-- A called cycle whose `RST` is driven L ends in one turn. -/
theorem check_reaches_notReady {s : State} {b : Block} (hc : s.Calm) (hl : b.lines = s.near.lines) (ht : b.todo = [])
    (hr : b.rph = .idle) (hh : b.host.ph = .idle) (hph : b.per.ph = .check) (hp : s.far.role ≠ some .peripheral)
    (hin : b.lines.rst.dir = .input) (hlow : s.far.lines.rst = ⟨.output, .low⟩) :
    Reaches 1 (s.on b s.drawn) (s.on b.notReady s.drawn) := by
  have hne : b.per.ph ≠ .idle := by simp [hph]
  have hg : getWire b.lines s.far.asPeer.lines .rst s.drawn = (.low, s.drawn) :=
    (getWire_driven (l := .rst) s.drawn hin (congrArg LineState.dir hlow)).trans (congrArg (·.lat, s.drawn) hlow)
  refine calm_tick hc hl (Block.not_atRest_of_per hne) ?_ rfl
  rw [tick_peripheral (Block.clashes_per hh hp) ht hr hh hne, peripheralTick_check_low hph hg]

/-- At an idle end the whole call writes the slot and the result alone. -/
theorem Block.notReady_call {b : Block} (hi : b.idleBelow = true) (y : Byte) :
    ((b.withSlot y).perTo .check []).notReady = { b with per := { b.per with slot := y, ok := false } } := by
  obtain ⟨ht, -, -, hp, -⟩ := b.idleBelow_iff.mp hi
  simp only [Block.perTo, ← ht, ← hp]

/-- Settles O24: the call starts in `P_CHECK`, and one turn there ends it. -/
theorem notReadyExit : Obligations.NotReadyExit := by
  intro s y hi hrole hfar hc hin hlow
  obtain ⟨-, hr, hh, -⟩ := s.near.idleBelow_iff.mp hi.below
  have hrun := check_reaches_notReady (b := (s.near.withSlot y).perTo .check []) hc rfl rfl hr hh rfl hfar hin hlow
  rw [Block.notReady_call hi.below] at hrun
  exact exec_of_reaches hi.1 hi.2 (beginPeripheralCycle_ok (b := s.near.withSlot y) hrole hfar) hrun.within (by decide) hi.1

end Sys2Proof.Machine
end

section
/-! A negative result of a called operation (R173, R186, R212, R232): it ends the SPI layer and the flash sequencer with that
same result, and at the dispatcher it is the abort entry. -/

namespace Sys2Proof.Machine

section

variable {b : Block}

/-! ### The SPI layer -/

/-- The block with the SPI layer in step `ph`. -/
def Block.spiTo (ph : SPhase) (b : Block) : Block := { b with spi := { b.spi with ph := ph } }

@[simp] theorem Block.spiTo_spiTo (ph ph' : SPhase) (b : Block) : (b.spiTo ph').spiTo ph = b.spiTo ph := rfl

theorem spiTick_negative (p : Peer) (n : Nat) (h : b.res < 0) : spiTick p n b = .moved (b.spiTo .idle) n := by
  rw [spiTick, if_pos (.inl h), Block.spiTo]

/-- A failed operation has no step left in the engine, so the SPI layer moves, and ends. -/
theorem Block.SpiFailed.tick (h : b.SpiFailed) (p : Peer) (n : Nat) : b.tick p n = .moved (b.spiTo .idle) n := by
  obtain ⟨hs, hres, ht, hr, hh, hp⟩ := h
  rw [Block.tick_advance (Block.clashes_idle hh hp), Block.advance_spi p n ht hr hh hp hs, spiTick_negative p n hres]

theorem Block.SpiFailed.todo (h : b.SpiFailed) : b.todo = [] := by
  obtain ⟨-, -, ht, -⟩ := h
  exact ht

theorem Block.SpiFailed.host (h : b.SpiFailed) : b.host.ph = .idle := by
  obtain ⟨-, -, -, -, hh, -⟩ := h
  exact hh

theorem Block.SpiFailed.spiTo {ph : SPhase} (h : b.SpiFailed) (hph : ph ≠ .idle) : (b.spiTo ph).SpiFailed := ⟨hph, h.2⟩

theorem Block.SpiFailed.idleBelow_eq_false (h : b.SpiFailed) : b.idleBelow = false :=
  Bool.eq_false_iff.mpr fun hi => by
    obtain ⟨-, -, -, -, hs, -⟩ := b.idleBelow_iff.mp hi
    exact h.1 hs

/-- With nothing above the SPI layer running, the end is at rest once a failed operation has ended. -/
theorem Block.SpiFailed.atRest_ended (h : b.SpiFailed) (hf : b.flash.ph = .idle) (hd : b.disp.ph = .header0) :
    (b.spiTo .idle).atRest = true := by
  obtain ⟨-, -, ht, hr, hh, hp⟩ := h
  exact (Block.atRest_iff _).mpr ⟨(Block.idleBelow_iff _).mpr ⟨ht, hr, hh, hp, rfl, hf⟩, .inl hd⟩

/-- Whatever the far party does in a run from a failed operation, only the step of the SPI layer changes at the end. -/
theorem run_spiFailed {s t : State} {f : Nat} (hs : s.FarOnly) (h : s.near.SpiFailed) (hf : s.near.flash.ph = .idle)
    (hd : s.near.disp.ph = .header0) (hr : State.run f s = .next t) : ∃ ph, t.near = s.near.spiTo ph := by
  refine (farOnly_run (P := fun b => ∃ ph, b = s.near.spiTo ph) ?_ hs ⟨s.near.spi.ph, rfl⟩ hr).1
  rintro p n m _ b' ⟨ph, rfl⟩ hrest hb
  have hph : ph ≠ .idle := by
    rintro rfl
    simp [h.atRest_ended hf hd] at hrest
  rw [(h.spiTo hph).tick, Block.spiTo_spiTo, Tick.moved.injEq] at hb
  exact ⟨.idle, hb.1.symm⟩

/-! ### The flash sequencer and the dispatcher -/

theorem flashNext_negative (n : Nat) (next : Except Refusal Block) (h : b.res < 0) :
    flashNext n b next = .moved (b.flashTo .idle) n := if_pos h

/-- Every phase of the sequencer that has called the SPI layer tests the result before anything else (R186, D38). -/
theorem flashTick_negative (p : Peer) (n : Nat) (h : b.res < 0)
    (hph : b.flash.ph ∈ [.deselect, .seed, .incr, .pollDeselect, .pollCmd, .pollRead]) :
    flashTick p n b = .moved (b.flashTo .idle) n := by
  simp only [List.mem_cons, List.not_mem_nil, or_false] at hph
  rcases hph with hph | hph | hph | hph | hph | hph
  · simp only [flashTick, hph, h, if_true]
  all_goals simp only [flashTick, hph, flashNext_negative n _ h]

/-- The three steps of `D_EXEC` that test a result (R208 to R210, R212). -/
theorem execTick_negative (p : Peer) (n : Nat) (h : b.res < 0)
    (hst : b.disp.step ∈ [.setAddress, .transfer, .flashTest]) : execTick p n b = .moved (b.enterAbort b.res) n := by
  simp only [List.mem_cons, List.not_mem_nil, or_false] at hst
  rcases hst with hst | hst | hst <;> simp only [execTick, hst, h, if_true]

/-- After its `FlashProgram` 'P' sets the program flag, whatever the result, which the next step tests (R210, R216). -/
theorem execTick_flash (p : Peer) (n : Nat) (hst : b.disp.step = .flash) :
    execTick p n b = .moved (b.setProgActive.dispTo .exec .flashTest 0) n := by
  simp only [execTick, hst]

end

/-- Settles O25: the step of a failed operation is the one that ends it, and a step of the machine is a run of such steps. -/
theorem spiFailFast : Obligations.SpiFailFast := by
  refine ⟨fun b p n h => ⟨b.spiTo .idle, h.tick p n, rfl, rfl, rfl, h.host, h.todo⟩, fun s t hs h hf hd hstep => ?_⟩
  rw [step_busy (fetch_running h.idleBelow_eq_false)] at hstep
  obtain ⟨ph, hn⟩ := run_spiFailed hs h hf hd hstep
  rw [hn]
  exact ⟨rfl, rfl, h.host, h.todo⟩

/-- Settles O30: each layer's test of the result, and the step of 'P' before its test. -/
theorem negativeResultsPropagate : Obligations.NegativeResultsPropagate :=
  fun _ p n h => ⟨spiTick_negative p n h, flashTick_negative p n h, execTick_negative p n h, execTick_flash p n⟩

end Sys2Proof.Machine
end

section
/-! `FlashProgram` of a ready host against a live external target (R180 to R187), called over a caller's buffer and as the
command 'P' over its body (R188, R210). -/

namespace Sys2Proof.Machine

/-! ### The flash program over any buffer (R180, R181) -/

/-- A block in which `FlashProgram` has just been called (R180). -/
abbrev Block.programming (b : Block) (ref : BufRef) (len : Nat) (init : Bool) : Block :=
  { b with flash := { b.flash with ph := .test, op := .program, i := 0, len := len, ref := ref, init := init } }

theorem beginFlash_ok {b : Block} {ref : BufRef} {len : Nat} {init : Bool} (h : b.role = .host) (hlen : len ≤ 128) :
    b.beginFlash ref len init = .ok (b.programming ref len init) := by
  rw [Block.beginFlash, if_neg (not_not.mpr h), if_neg (show ¬Config.cap < len from not_lt.mpr hlen)]

theorem callFlashProgram_ok {b : Block} {buf : List Byte} {n : Nat} {init : Bool} (h : b.role = .host) (hn : n ≤ 128)
    (hb : n ≤ buf.length) :
    b.callFlashProgram buf n init = .ok (({ b with ubuf := buf } : Block).programming .user n init) := by
  rw [Block.callFlashProgram, lengthArg_natCast hn hb]
  exact beginFlash_ok h hn

/-- What `FlashProgram` of the bytes `xs`, with the polls `polls`, makes of `b` (R181, R187). -/
structure Block.Programmed (b : Block) (init : Bool) (xs : List Byte) (polls : List (List Byte × Byte)) (b' : Block) :
    Prop where
  ready : b'.Ready
  frame : b.FlashFrame b'
  idle : b'.flash.ph = .idle
  seeded : b'.flash.init = (init || decide (2 ≤ xs.length))
  bus : b'.bus = b.bus ++ b.par.programCycles init xs polls
  res : b'.res = 2 * (xs.length / 2 : Nat)

section Program

variable {polls : List (List Byte × Byte)}
  (hq : ∀ q ∈ polls, (∀ x ∈ q.1, x.getLsbD 0 = true) ∧ q.2.getLsbD 0 = false)
  (hbound : (pollReplies polls).length ≤ 1000)
include hq hbound

/-- From its call on `FlashProgram` runs to its end within one step of the model (log entry 5). -/
theorem flashProgram_run {b : Block} {rs xs : List Byte} {n : Nat} {c init : Bool} {ref : BufRef} (hb : b.Ready)
    (hlen : xs.length ≤ 128) (hpolls : polls.length = xs.length / 2) (href : ref = .buf ∨ ref = .user)
    (hx : ∀ j, (h : j < xs.length) → b.bufRead ref j n = some (xs[j], n)) :
    ∃ b', b.Programmed init xs polls b' ∧
      ReachesWithin 750000 (live (b.programming ref xs.length init) .targetReady (pollReplies polls ++ rs) n c)
        (live b' .targetReady rs n c) := by
  let b0 := b.programming ref xs.length init
  have hb0 : b0.Ready := ⟨hb.rph, hb.per, hb.host, hb.spi, hb.todo, hb.lines, hb.role⟩
  have hframe : b.FlashFrame b0 := ⟨rfl, rfl, rfl, rfl, rfl, rfl, rfl, rfl, rfl, rfl⟩
  obtain ⟨b', hrun, hready, hf, ⟨cmd, st, hflash⟩, hbus, hres⟩ := program_run (rs := rs) (n := n) (c := c)
    polls xs b0 hb0 rfl rfl (Nat.zero_add _).symm hpolls href
    (fun j hj => by rw [Block.bufRead_frame hframe href, Nat.zero_add, hx j hj])
    (by simpa only [statusBusy_eq] using hq)
  refine ⟨b', ⟨hready, hframe.trans hf, by rw [hflash], ?_, hbus, ?_⟩, hrun.mono (by omega)⟩
  · rw [hflash]
    rcases polls with _ | ⟨q, polls⟩
    · have : ¬2 ≤ xs.length := by rw [List.length_nil] at hpolls; omega
      simp [b0, this]
    · have : 2 ≤ xs.length := by rw [List.length_cons] at hpolls; omega
      simp [this]
  · rw [hres, hpolls, Nat.zero_add, Nat.cast_mul, Nat.cast_ofNat]

/-- `FlashProgram` over the caller's buffer completes (R180). -/
theorem flashProgram_completes {s : State} {buf rest : List Byte} {n : Nat} {init : Bool} (hr : s.HostReady)
    (hl : s.LiveTarget (pollReplies polls ++ rest)) (hn : n ≤ 128) (hb : n ≤ buf.length)
    (hpolls : polls.length = n / 2) :
    ∃ b', s.Completes (.flashProgram buf n init) b' rest ∧
      ({ s.near with ubuf := buf } : Block).Programmed init (buf.take n) polls b' := by
  obtain ⟨hready, -, hd⟩ := State.hostReady_iff.mp hr
  have hlen : (buf.take n).length = n := List.length_take_of_le hb
  obtain ⟨b', hprog, hrun⟩ := flashProgram_run (b := { s.near with ubuf := buf }) (rs := rest) (xs := buf.take n)
    (n := s.drawn) (c := s.contention) (init := init) (ref := .user) hq hbound
    ⟨hready.rph, hready.per, hready.host, hready.spi, hready.todo, hready.lines, hready.role⟩ (hlen.trans_le hn)
    (hpolls.trans (by rw [hlen])) (.inr rfl) fun j hj => bufRead_user_take hj
  rw [hlen] at hrun
  exact ⟨b', completes_of_run hr hl (callFlashProgram_ok hready.role hn hb) hrun (by decide) hprog.ready hprog.idle
    (by rw [hprog.frame.disp]; exact hd), hprog⟩

end Program

/-- Settles O29: the program completes over the caller's buffer, and `F_POLL_TEST` on a clear bit 0 goes to the next pair. -/
theorem flashProgramRuns : Obligations.FlashProgramRuns := by
  refine ⟨fun s buf rest n init polls hr hl hn hb hpolls hq hbound => ?_, fun b p n hp h => ?_⟩
  · obtain ⟨b', ⟨hexec, hend⟩, hprog⟩ := flashProgram_completes (init := init) hq hbound hr hl hn hb hpolls
    have hlen : (buf.take n).length = n := List.length_take_of_le hb
    have hres := hprog.res
    have hseeded := hprog.seeded
    rw [hlen] at hres hseeded
    exact ⟨_, hexec, hend, ⟨rfl, rfl⟩, rfl, hres, hseeded, hprog.frame.ubuf, hprog.bus, hprog.frame.disp⟩
  · simp only [flashTick, hp, statusBusy_eq, h, Bool.false_eq_true, if_false, Block.flashTo]

/-! ### The command 'P' (R188, R210) -/

/-- The end of 'P' once its `FlashProgram` has returned: the program flag is set and the acknowledge sent (R210). -/
abbrev Block.programAcked (b : Block) : Block :=
  ({ b.setProgActive with sout := b.sout ++ [ackByte b.disp.len] } : Block).endCommand

/-- 'P' after a `FlashProgram` that has not failed: the flag, the test of the result, the acknowledge, a step each. -/
theorem programAck_run {b : Block} {rs : List Byte} {n : Nat} {c : Bool} (hb : b.Ready) (hf : b.flash.ph = .idle)
    (hcmd : b.disp.cmd = Config.letterP) (hph : b.disp.ph = .exec) (hst : b.disp.step = .flash) (hres : 0 ≤ b.res) :
    Reaches 3 (live b .targetReady rs n c) (live b.programAcked .targetReady rs n c) := by
  let b1 := b.setProgActive.dispTo .exec .flashTest 0
  let b2 := b1.dispTo .respond .decode 0
  have hc : (live b .targetReady rs n c).Calm := calm_live hb.lines
  have hi : b.idleBelow = true := b.idleBelow_iff.mpr ⟨hb.todo, hb.rph, hb.host, hb.per, hb.spi, hf⟩
  have hflag : dispTick (targetPeer .targetReady) n b = .moved b1 n := by
    simp only [dispTick, hph]
    exact execTick_flash _ n hst
  have htest : dispTick (targetPeer .targetReady) n b1 = .moved b2 n := by
    show Tick.moved (if b.res < 0 then b1.enterAbort b.res else b2) n = _
    rw [if_neg (not_lt.mpr hres)]
  have hack : dispTick (targetPeer .targetReady) n b2 = .moved b.programAcked n := by
    have hcmd2 : b2.disp.cmd = Config.letterP := hcmd
    have hC : ¬Config.letterP = Config.letterC := by decide
    show respondTick n b2 = _
    simp only [respondTick, hcmd2, hC, if_false, or_true, if_true]
    rfl
  have s1 := calm_disp hc rfl hi (b := b) (by simp [hph]) (by simp [hph]) hflag rfl
  have s2 := calm_disp hc rfl hi (b := b1) DPhase.noConfusion DPhase.noConfusion htest rfl
  have s3 := calm_disp hc rfl hi (b := b2) DPhase.noConfusion DPhase.noConfusion hack rfl
  exact s1.trans (s2.trans s3)

/-- 'P' with its body in `BUF`, about to call `FlashProgram` (R210). -/
abbrev Block.programCommand (b : Block) (lm1 : Byte) (sin body : List Byte) : Block :=
  ({ b.header Config.letterP lm1 with sin := sin, buf := b.buf.writeAll 0 body } : Block).dispTo .exec .flash 0

/-- 'P' reads its body and calls `FlashProgram` over it, with the program flag as `initialized` (R188, R210). -/
theorem programBody_run {s : State} {lm1 : Byte} {body rest : List Byte} (hi : s.Idle) (hc : s.Calm)
    (hrole : s.near.role = .host) (hlen : body.length = clampedLength lm1) (hsin : s.near.sin = body ++ rest) :
    ReachesWithin 130 (s.on (s.near.header Config.letterP lm1) s.drawn)
      (s.on ((s.near.programCommand lm1 rest body).programming .buf body.length s.near.disp.progActive) s.drawn) := by
  obtain ⟨-, h128⟩ := clampedLength_bounds lm1
  rw [hlen]
  have s1 := header_decodes (c := Config.letterP) (x := lm1) (b := (s.near.header Config.letterP lm1).beginBody) hi hc
    rfl rfl
  have s2 := body_run (n := s.drawn) hc rest body (s.near.header Config.letterP lm1).beginBody rfl hi.below rfl rfl hsin
    ((Nat.zero_add _).trans hlen) h128 (beginFlash_ok (b := s.near.programCommand lm1 rest body) hrole h128) rfl
  exact (s1.trans s2).within.mono (by omega)

/-- A ready host before a live target is calm. -/
theorem State.LiveTarget.calm {s : State} {rs : List Byte} (hl : s.LiveTarget rs) (hr : s.HostReady) : s.Calm := by
  obtain ⟨hready, -, -⟩ := State.hostReady_iff.mp hr
  rw [show s = s.ended s.near rs from hl.ended_near s.near]
  exact calm_live hready.lines

section Command

variable {polls : List (List Byte × Byte)}
  (hq : ∀ q ∈ polls, (∀ x ∈ q.1, x.getLsbD 0 = true) ∧ q.2.getLsbD 0 = false)
  (hbound : (pollReplies polls).length ≤ 1000)
include hq hbound

/-- 'P' completes: the body, the flash program over it, the acknowledge, one run after the other (R210). -/
theorem programCommand_completes {s : State} {lm1 : Byte} {body rest tail : List Byte} (hr : s.HostReady)
    (hl : s.LiveTarget (pollReplies polls ++ tail)) (hlen : body.length = clampedLength lm1)
    (hsin : s.near.sin = body ++ rest) (hpolls : polls.length = clampedLength lm1 / 2) :
    ∃ b', s.Completes (.cmdP lm1) b'.programAcked tail ∧
      (s.near.programCommand lm1 rest body).Programmed s.near.disp.progActive body polls b' := by
  obtain ⟨hready, -, hd⟩ := State.hostReady_iff.mp hr
  obtain ⟨-, h128⟩ := clampedLength_bounds lm1
  have hbody := programBody_run ⟨hr.1, hd⟩ (hl.calm hr) hready.role hlen hsin
  rw [State.on, State.on, hl.ended_near, hl.ended_near] at hbody
  obtain ⟨b', hprog, hflash⟩ := flashProgram_run (b := s.near.programCommand lm1 rest body) (rs := tail) (xs := body)
    (n := s.drawn) (c := s.contention) (init := s.near.disp.progActive) (ref := .buf) hq hbound
    ⟨hready.rph, hready.per, hready.host, hready.spi, hready.todo, hready.lines, hready.role⟩ (hlen.trans_le h128)
    (hpolls.trans (by rw [hlen])) (.inl rfl) fun j hj => bufRead_writeAll rfl (hlen.trans_le h128) hj
  obtain ⟨hcmd, hph, hst⟩ : b'.disp.cmd = Config.letterP ∧ b'.disp.ph = .exec ∧ b'.disp.step = .flash := by
    rw [hprog.frame.disp]
    exact ⟨rfl, rfl, rfl⟩
  have hack := programAck_run (rs := tail) (n := s.drawn) (c := s.contention) hprog.ready hprog.idle hcmd hph hst
    (by rw [hprog.res]; omega)
  obtain ⟨hrph, hper, hhost, hspi, htodo, hlines, hrole⟩ := hprog.ready
  exact ⟨b', completes_of_run hr hl rfl (hbody.trans (hflash.trans hack.within)) (by decide)
    ⟨hrph, hper, hhost, hspi, htodo, hlines, hrole⟩ hprog.idle rfl, hprog⟩

end Command

/-- Settles O37: 'P' completes, and what `FlashProgram` left alone is as the body left it. -/
theorem programCommand : Obligations.ProgramCommand := by
  intro s lm1 body rest tail polls hr hl hlen hsin hpolls hq hbound
  obtain ⟨b', ⟨hexec, hend⟩, hprog⟩ := programCommand_completes hq hbound hr hl hlen hsin hpolls
  have hframe := hprog.frame
  have hbuf : b'.buf = s.near.buf.writeAll 0 body := hframe.buf
  refine ⟨_, hexec, hend, ⟨rfl, rfl⟩, rfl, ?_, hframe.sin, hprog.bus, fun a h => ?_, fun a h => ?_, rfl,
    (congrArg DispRegs.pendValid hframe.disp :), (congrArg DispRegs.pendAddr hframe.disp :)⟩
  · show b'.sout ++ [ackByte b'.disp.len] = _
    rw [hframe.sout, hframe.disp]
    rfl
  · have hread := Memory.read_writeAll (m := s.near.buf) (a := 0) (hlen.symm ▸ h)
    rwa [Nat.zero_add, ← hbuf] at hread
  · show b'.buf.read a = _
    rw [hbuf]
    exact Memory.read_writeAll_other (.inr (by omega))

end Sys2Proof.Machine
end

section
/-! Commands and calls that end at the dispatcher alone: the command 'A' (R203), `abort` (R212, R235), and an end that has
halted or whose run is over (R212, R236, R248). -/

namespace Sys2Proof.Machine

/-! ### The command 'A' (R203, R204) -/

/-- 'A' with nothing else moving: `case c_cmd of`, then its two register updates, a step each (R6, R203). -/
theorem cmdA_run {s : State} {a : Byte} (hi : s.Idle) (hc : s.Calm) :
    Reaches 3 (s.on (s.near.header Config.letterA a) s.drawn)
      (s.on (s.near.header Config.letterA a).setPendAddr.setPendValid.endCommand s.drawn) := by
  let b1 := (s.near.header Config.letterA a).beginA
  let b2 := b1.setPendAddr.dispTo .exec .pendValid 0
  have s1 := header_decodes (c := Config.letterA) (x := a) (b := b1) hi hc rfl rfl
  have s2 := calm_disp (n := s.drawn) (b := b1) (b' := b2) hc rfl hi.below DPhase.noConfusion DPhase.noConfusion rfl rfl
  have s3 := calm_disp (n := s.drawn) (b := b2) (b' := b2.setPendValid.endCommand) hc rfl hi.below DPhase.noConfusion
    DPhase.noConfusion rfl rfl
  exact s1.trans (s2.trans s3)

/-- Settles O31: 'A' runs through its three steps; the other commands write no flag of the pending address. -/
theorem addressPrefix : Obligations.AddressPrefix := by
  refine ⟨fun s a hi hc => ?_, fun s t i x y hs hi hw he => ?_⟩
  · exact exec_of_reaches hi.1 hi.2 (i := .cmdA a) rfl (cmdA_run hi hc).within (by decide)
      ((Block.atRest_iff _).mpr ⟨hi.below, .inl rfl⟩)
  · obtain ⟨-, hpend⟩ := flagWriters s t i hs he
    simp only [List.mem_cons, List.not_mem_nil, or_false] at hi
    rcases hi with rfl | rfl | rfl | rfl | rfl
    case inr.inr.inr.inr => exact (hpend (hw rfl)).symm
    all_goals exact hpend.symm

/-! ### The abort entry (R212, R235) -/

/-- An abort of an idle end with nothing moving outside: the port goes to high-impedance, then the dispatcher halts. -/
theorem abort_run {s : State} (r : Int) (hi : s.near.idleBelow = true) (ha : s.Alone) :
    ∃ c, (s.contention = true → c = true) ∧
      Reaches 28 { s with near := s.near.enterAbort r } { s with
        near := { s.near with lines := .hiZ, res := r, disp := { s.near.disp with ph := .halted, step := .decode, k := 0 } },
        contention := c } := by
  obtain ⟨ht, hr, hh, hp, hs, hf⟩ := s.near.idleBelow_iff.mp hi
  obtain ⟨c, hc, h1⟩ := alone_sequence (s := { s with near := s.near.enterAbort r }) ha
    (fun x hx => Prim.isPort_of_isLine (portHiZPrims_isLine x hx)) rfl hh hp
  let b : Block := { (s.near.enterAbort r).afterTodo with rph := .idle }
  have hb : b.idleBelow = true := b.idleBelow_iff.mpr ⟨rfl, rfl, hh, hp, hs, hf⟩
  have h2 := alone_tick (s := { s with near := b, contention := c }) ha
    (Block.not_atRest_of_disp DPhase.noConfusion DPhase.noConfusion) (Block.tick_disp _ _ hb)
  have hend : ({ b with res := r } : Block).dispTo .halted .decode 0 = { s.near with
      lines := .hiZ, res := r, disp := { s.near.disp with ph := .halted, step := .decode, k := 0 } } := by
    simp only [b, Block.afterTodo, Block.dispTo, Block.enterAbort, portHiZPrims_lines, ← ht, ← hr]
    rfl
  rw [← hend]
  exact ⟨_, fun h => by simp [hc h], h1.trans h2⟩

/-- Settles O41: the abort starts on a negative result and runs to `D_HALTED`. -/
theorem abortEntry : Obligations.AbortEntry := by
  intro s r hneg hi ha
  obtain ⟨c, hc, hrun⟩ := abort_run r hi.below ha
  have h0 : s.near.start s.far.role (.abort r) = .ok (s.near.enterAbort r) := if_pos hneg
  refine ⟨c, hc, exec_of_reaches hi.1 hi.2 h0 hrun.within (by decide) ?_⟩
  obtain ⟨ht, hr, hl⟩ := s.near.idleBelow_iff.mp hi.below
  exact (Block.atRest_iff _).mpr ⟨(Block.idleBelow_iff _).mpr ⟨ht, hr, hl⟩, .inr rfl⟩

/-! ### A halted end, and a run that is over (R212, R236, R248) -/

theorem clearFor_of_quiet {s : State} (hs : s.script = []) (hr : s.react = none) (k : Nat) : s.clearFor k = true := by
  simp only [State.clearFor, hs, hr, Option.isNone_none, Bool.and_self]

theorem step_halted {s : State} (hi : s.near.idleBelow = true) (hd : s.near.disp.ph = .halted) (hs : s.script = [])
    (hr : s.react = none) : step s = .fault .halted := by
  have hf : s.fetch = .halted := by
    simp only [State.fetch, hi, clearFor_of_quiet hs hr, hd, Bool.not_true, Bool.false_eq_true, if_false]
  simp only [step, hf, State.haltedTurn, hs, if_true]

/-- Only the external reset of a halted end changes more of it than its serial stream and its pending requests. -/
theorem turn_halted {s t : State} (hd : s.near.disp.ph = .halted) (hi : s.near.idleBelow = true)
    (ht : s.turn = .moved t) :
    (t.near.disp.ph = .halted ∧ t.near.idleBelow = true) ∨ ∃ d, s.script = ⟨d, .resetNear⟩ :: t.script := by
  rcases State.turn_near_cases ht with ⟨d, -, hs, -⟩ | ⟨n, hn⟩ | ⟨x, q, hn⟩
  · exact .inr ⟨d, hs⟩
  · rw [Block.tick_disp _ _ hi, dispTick, hd] at hn
    cases hn
  · rw [hn]
    exact .inl ⟨hd, hi⟩

theorem Block.over_iff (b : Block) : b.over = true ↔ b.disp.ph = .header0 ∧ b.sin = [] ∧ b.calls = [] ∧
    b.host.ph = .idle ∧ b.per.ph = .idle ∧ b.spi.ph = .idle ∧ b.flash.ph = .idle ∧ b.rph = .idle ∧ b.todo = [] := by
  simp only [Block.over, Bool.and_eq_true, b.idleBelow_iff, beq_iff_eq, List.isEmpty_iff]
  tauto

theorem State.over_near {s : State} (h : s.over = true) : s.near.over = true := (Bool.and_eq_true_iff.mp h).1

/-- A run that is over stays so: the dispatcher waits for a header or a request (R248). -/
theorem step_over {s : State} (h : s.over = true) (hs : s.script = []) (hr : s.react = none) : step s = .next s := by
  obtain ⟨hd, hsin, hcalls, hh, hp, hspi, hf, hrph, ht⟩ := s.near.over_iff.mp (State.over_near h)
  have hi : s.near.idleBelow = true := s.near.idleBelow_iff.mpr ⟨ht, hrph, hh, hp, hspi, hf⟩
  have hfetch : s.fetch = .idle := by
    simp only [State.fetch, hi, clearFor_of_quiet hs hr, hd, hsin, hcalls, Bool.not_true, Bool.false_eq_true, if_false]
  have htick : s.tickNear = .stuck s := by
    rw [State.tickNear, Block.tick_disp _ _ hi]
    simp only [dispTick, hd, hcalls, hsin]
  rw [step_idle hfetch, State.idleTurn, State.turn, hs, hr, htick]

/-- Settles O42: a halted dispatcher has no step, `over` is read off its definition, and an idle dispatcher waits. -/
theorem haltedForGood : Obligations.HaltedForGood := by
  refine ⟨fun s hd => ⟨fun i => ?_, fun hi hs hr => step_halted hi hd hs hr⟩, Block.over_iff, fun s b hf => ?_,
    fun s t hf => ?_, fun s hd => ?_, fun s => step_over, fun s t => turn_halted⟩
  · simp only [exec_eq, State.launch, hd, if_true]
  · rw [State.over, hf, Bool.and_eq_true]
  · rw [State.over, hf, Bool.and_true]
  · refine Bool.eq_false_iff.mpr fun h => ?_
    obtain ⟨h0, -⟩ := s.near.over_iff.mp (State.over_near h)
    rcases hd with hd | hd <;> exact absurd (h0.symm.trans hd) nofun

end Sys2Proof.Machine
end

section
/-! What the commands leave unchanged, whatever the far party does (R203 to R211, R217). 'B', 'E', 'R', 'W' and 'P' are followed
in one invariant: between their calls they write what the dispatcher owns, and below it they store into `BUF` inside `c_len`. -/

namespace Sys2Proof.Machine

/-! ### The steps of a command that call nothing -/

/-- The block without what a command writes by itself: the registers of the dispatcher, the serial streams and `BUF`. -/
def Block.lessCommand (b : Block) : Block := { b with buf := [], disp := .afterReset 0, sin := [], sout := [] }

/-- A step of a command that calls nothing: only a body byte comes from `SIN`, and `BUF` is written below `c_len`. -/
structure Block.OwnStep (b b' : Block) : Prop where
  same : b'.lessCommand = b.lessCommand
  cmd : b'.disp.cmd = b.disp.cmd
  len : b'.disp.len = b.disp.len
  sin : b'.sin = b.sin ∨ b.disp.ph = .body
  buf : ∀ a, b.disp.len ≤ a → b'.buf.read a = b.buf.read a

section
variable {b : Block}

theorem dispTo_own (ph : DPhase) (st : DStep) (k : Nat) : b.OwnStep (b.dispTo ph st k) :=
  ⟨rfl, rfl, rfl, .inl rfl, fun _ _ => rfl⟩

theorem bodyTick_own (p : Peer) (n : Nat) (hp : b.disp.ph = .body) (hk : b.disp.k < b.disp.len) :
    (bodyTick p n b).Ends fun b' => b.OwnStep b' ∧ b'.disp.ph = .body := by
  unfold bodyTick
  rw [if_pos hk]
  split
  · trivial
  · split
    · trivial
    · next hw =>
      rcases bufWrite_some hw with ⟨-, rfl⟩ | ⟨h, -⟩ | ⟨h, -⟩
      · exact ⟨⟨rfl, rfl, rfl, .inr hp, fun a ha => Memory.read_write_other _ _ _ _ (by omega)⟩, rfl⟩
      · cases h
      · cases h

theorem fillTick_own (n : Nat) (hk : b.disp.k < b.disp.len) : (fillTick n b).Ends fun b' =>
    b.OwnStep b' ∧ (b'.disp.At .fill ∧ b'.disp.k < b'.disp.len ∨ b'.disp.ph = .respond) := by
  unfold fillTick
  split
  · trivial
  · next b' hw =>
    rcases bufWrite_some hw with ⟨-, rfl⟩ | ⟨h, -⟩ | ⟨h, -⟩
    · have hbuf : ∀ a, b.disp.len ≤ a → (b.buf.write b.disp.k (sizeQueryByte b.disp.k)).read a = b.buf.read a :=
        fun a ha => Memory.read_write_other _ _ _ _ (by omega)
      split
      · next hk' => exact ⟨⟨rfl, rfl, rfl, .inl rfl, hbuf⟩, .inl ⟨⟨rfl, rfl⟩, hk'⟩⟩
      · exact ⟨⟨rfl, rfl, rfl, .inl rfl, hbuf⟩, .inr rfl⟩
    · cases h
    · cases h

theorem respondTick_own (n : Nat) (hC : b.disp.cmd ≠ Config.letterC) : (respondTick n b).Ends fun b' =>
    b.OwnStep b' ∧ (b'.disp.ph = .respond ∨ b'.disp.ph = .header0) := by
  unfold respondTick
  rw [if_neg hC]
  split
  · exact ⟨⟨rfl, rfl, rfl, .inl rfl, fun _ _ => rfl⟩, .inr rfl⟩
  · split
    · split
      · trivial
      · exact ⟨⟨rfl, rfl, rfl, .inl rfl, fun _ _ => rfl⟩, .inl rfl⟩
    · exact ⟨dispTo_own .., .inr rfl⟩

end

/-! ### Commands that answer (R104, R205, R207 to R210) -/

/-- The commands that send a response other than the banner. -/
def answerCommands : List Byte := [Config.letterB, Config.letterE, Config.letterP, Config.letterR, Config.letterW]

/-- Where the dispatcher may be in a command that answers. -/
def DispRegs.InAnswer (d : DispRegs) : Prop :=
  match d.ph with
  | .header0 => True
  | .header1 => False
  | .body => d.cmd ≠ Config.letterR
  | .exec =>
    match d.step with
    | .decode => True
    | .fill => d.k < d.len
    | .setAddress => d.cmd = Config.letterR ∨ d.cmd = Config.letterW
    | .sendData => d.cmd = Config.letterR ∨ d.cmd = Config.letterW
    | .transfer => d.cmd = Config.letterR ∨ d.cmd = Config.letterW
    | .flash => d.cmd = Config.letterP
    | .flashTest => d.cmd = Config.letterP
    | _ => False
  | .respond => True
  | .console => False
  | .halted => False

/-- Where the command `c` with the length `n` stores what it reads from the bus: in `BUF`, and 'P' also in `ST`. -/
def answerBuffer (c : Byte) (n : Nat) (r : BufRef) (len : Nat) : Prop :=
  r = .buf ∧ len ≤ n ∨ r = .st ∧ c = Config.letterP

/-- The block without what a bus command writes. -/
def Block.lessBus (b : Block) : Block :=
  { b.lessFlash with buf := [], disp := .afterReset 0, sin := [], sout := [], rph := .idle }

/-- What the command `c` with the length `n` leaves unchanged. -/
structure Block.AnswerFrame (q : Block) (c : Byte) (n : Nat) (b : Block) : Prop where
  same : b.lessBus = q.lessBus
  tail : ∀ a, n ≤ a → b.buf.read a = q.buf.read a
  layers : c ≠ Config.letterP → b.spi = q.spi ∧ b.flash = q.flash
  sin : c = Config.letterR → b.sin = q.sin

/-- The command `c` with the length `n` runs at the end since `q`, and has not failed. -/
structure Block.AnswersFrom (q : Block) (c : Byte) (n : Nat) (b : Block) : Prop extends q.AnswerFrame c n b where
  rph : b.rph = .idle
  cmd : b.disp.cmd = c
  len : b.disp.len = n
  stage : b.disp.InAnswer
  stores : b.Stores (answerBuffer c n)
  quiet : c = Config.letterB ∨ c = Config.letterE → b.lessCommand = q.lessCommand

/-- The command runs, or it has failed and the abort of it does; 'B' and 'E' do not fail. -/
def Block.AnswersOrAborts (q : Block) (c : Byte) (n : Nat) (b : Block) : Prop :=
  q.AnswersFrom c n b ∨ ¬(c = Config.letterB ∨ c = Config.letterE) ∧
    ∃ q' r, q.AnswersFrom c n q' ∧ q'.idleBelow = true ∧ b.Aborts q' r

theorem not_quiet_of_bus {c : Byte} (h : c = Config.letterR ∨ c = Config.letterW ∨ c = Config.letterP) :
    ¬(c = Config.letterB ∨ c = Config.letterE) := by
  rcases h with rfl | rfl | rfl <;> decide

section
variable {q b b' : Block} {c : Byte} {n : Nat}

/-- A step that calls nothing. -/
theorem Block.AnswersFrom.own (h : q.AnswersFrom c n b) (hi : b.idleBelow = true) (ho : b.OwnStep b')
    (hst : b'.disp.InAnswer) (hbody : b.disp.ph = .body → c ≠ Config.letterR) : q.AnswersFrom c n b' where
  same := (congrArg Block.lessBus ho.same :).trans h.same
  tail a ha := (ho.buf a (h.len.trans_le ha)).trans (h.tail a ha)
  layers hP := ⟨(congrArg Block.spi ho.same :).trans (h.layers hP).1, (congrArg Block.flash ho.same :).trans (h.layers hP).2⟩
  sin hR := (ho.sin.resolve_right fun hp => hbody hp hR).trans (h.sin hR)
  rph := (congrArg Block.rph ho.same :).trans h.rph
  cmd := ho.cmd.trans h.cmd
  len := ho.len.trans h.len
  stage := hst
  stores := idle_stores ((congrArg Block.idleBelow ho.same :).trans hi)
  quiet hq := ho.same.trans (h.quiet hq)

/-- A step that calls the engine or the flash sequencer. -/
theorem Block.AnswersFrom.call {st : DStep} (h : q.AnswersFrom c n b)
    (hc : c = Config.letterR ∨ c = Config.letterW ∨ c = Config.letterP) (hst : (b.dispTo .exec st 0).disp.InAnswer)
    (hs : b'.Stores (answerBuffer c n)) (he : b'.lessFlashCall = (b.dispTo .exec st 0).lessFlashCall)
    (hl : c ≠ Config.letterP → b'.spi = b.spi ∧ b'.flash = b.flash) : q.AnswersFrom c n b' := by
  have hd : b'.disp = (b.dispTo .exec st 0).disp := (congrArg Block.disp he :)
  have hbuf : b'.buf = b.buf := (congrArg Block.buf he :)
  have hframe : q.AnswerFrame c n b' :=
    ⟨(congrArg Block.lessBus he :).trans h.same, hbuf ▸ h.tail,
      fun hP => ⟨(hl hP).1.trans (h.layers hP).1, (hl hP).2.trans (h.layers hP).2⟩,
      fun hR => (congrArg Block.sin he :).trans (h.sin hR)⟩
  exact ⟨hframe, (congrArg Block.rph he :).trans h.rph, (congrArg DispRegs.cmd hd :).trans h.cmd,
    (congrArg DispRegs.len hd :).trans h.len, hd ▸ hst, hs, fun hq => absurd hq (not_quiet_of_bus hc)⟩

/-- The call of a transaction, which reads into `BUF` alone. -/
theorem Block.AnswersFrom.transaction {st : DStep} {peer : Option Role} {ref : BufRef} {len : Nat} {rd ac : Bool}
    (h : q.AnswersFrom c n b) (hi : b.idleBelow = true) (hc : c = Config.letterR ∨ c = Config.letterW)
    (hst : (b.dispTo .exec st 0).disp.InAnswer) (hok : rd = true → answerBuffer c n ref len) :
    StartEnds (q.AnswersFrom c n) ((b.dispTo .exec st 0).beginTransaction peer ref len rd ac) := by
  have hidle := (idle_stores (ok := answerBuffer c n) hi).layer
  refine ((begin_stores (b := b.dispTo .exec st 0) hidle hok).and (beginTransaction_lessTransaction rfl)).mono
    fun b' ⟨hs, he⟩ => ?_
  exact h.call (hc.imp_right .inl) hst hs (congrArg Block.lessFlashCall he :)
    fun _ => ⟨(congrArg Block.spi he :), (congrArg Block.flash he :)⟩

theorem beginBusData_answersFrom (peer : Option Role) (h : q.AnswersFrom c n b) (hi : b.idleBelow = true)
    (hc : c = Config.letterR ∨ c = Config.letterW) : StartEnds (q.AnswersFrom c n) (b.beginBusData peer) :=
  h.transaction (st := .transfer) hi hc (h.cmd.symm ▸ hc : b.disp.cmd = _ ∨ b.disp.cmd = _) fun _ => .inl ⟨rfl, h.len.le⟩

theorem beginBus_answersFrom (peer : Option Role) (h : q.AnswersFrom c n b) (hi : b.idleBelow = true)
    (hc : c = Config.letterR ∨ c = Config.letterW) : StartEnds (q.AnswersFrom c n) (b.beginBus peer) := by
  unfold Block.beginBus
  split
  · exact h.transaction (st := .setAddress) hi hc (h.cmd.symm ▸ hc : b.disp.cmd = _ ∨ b.disp.cmd = _) nofun
  · exact beginBusData_answersFrom peer h hi hc

theorem beginProgram_answersFrom (h : q.AnswersFrom c n b) (hi : b.idleBelow = true) (hc : c = Config.letterP) :
    StartEnds (q.AnswersFrom c n) b.beginProgram := by
  unfold Block.beginProgram Block.beginFlash
  repeat' split
  · trivial
  · trivial
  · obtain ⟨hsteps, hfirst, hindex, hengine, hlayer⟩ := idle_stores (ok := answerBuffer c n) hi
    exact h.call (st := .flash) (.inr (.inr hc)) (h.cmd.trans hc) ⟨hsteps, hfirst, hindex, hengine, hlayer⟩ rfl
      fun hP => absurd hc hP

/-- A step that goes on to a phase of the command. -/
theorem Block.AnswersFrom.to {ph : DPhase} {st : DStep} {k : Nat} (h : q.AnswersFrom c n b) (hi : b.idleBelow = true)
    (hst : (b.dispTo ph st k).disp.InAnswer) (hbody : b.disp.ph = .body → c ≠ Config.letterR) :
    q.AnswersFrom c n (b.dispTo ph st k) :=
  h.own hi (dispTo_own ..) hst hbody

theorem afterBody_answersFrom (peer : Option Role) (h : q.AnswersFrom c n b) (hi : b.idleBelow = true)
    (hR : c ≠ Config.letterR) : StartEnds (q.AnswersFrom c n) (b.afterBody peer) := by
  have hcmd := h.cmd
  unfold Block.afterBody
  split
  · next e => exact beginBus_answersFrom peer h hi (.inr (hcmd.symm.trans e))
  split
  · next e => exact beginProgram_answersFrom h hi (hcmd.symm.trans e)
  · exact h.to hi trivial fun _ => hR

theorem beginCommand_answersFrom (peer : Option Role) (hc : c ∈ answerCommands) (h : q.AnswersFrom c n b)
    (hi : b.idleBelow = true) (hp : b.disp.ph = .exec) (hn : 0 < n) :
    StartEnds (q.AnswersFrom c n) (b.beginCommand peer) := by
  have hcmd := h.cmd
  have body (hR : c ≠ Config.letterR) : q.AnswersFrom c n b.beginBody :=
    h.to hi (hcmd.symm ▸ hR : b.disp.cmd ≠ _) fun hb => absurd (hp.symm.trans hb) nofun
  simp only [answerCommands, List.mem_cons, List.not_mem_nil, or_false] at hc
  unfold Block.beginCommand
  rw [hcmd]
  rcases hc with rfl | rfl | rfl | rfl | rfl
  · exact h.to hi (hn.trans_eq h.len.symm) fun hb => absurd (hp.symm.trans hb) nofun
  · exact body (by decide)
  · exact body (by decide)
  · exact beginBus_answersFrom peer h hi (.inl rfl)
  · exact body (by decide)

theorem execTick_answersFrom {p : Peer} {m : Nat} (hc : c ∈ answerCommands) (hn : 0 < n) (h : q.AnswersFrom c n b)
    (hi : b.idleBelow = true) (hp : b.disp.ph = .exec) : (execTick p m b).Ends (q.AnswersOrAborts c n) := by
  have hbody : b.disp.ph = .body → c ≠ Config.letterR := fun hb => absurd (hp.symm.trans hb) nofun
  have runs : ∀ {e}, StartEnds (q.AnswersFrom c n) e → (Tick.ofBegin m e).Ends (q.AnswersOrAborts c n) := fun he =>
    (he.mono fun _ => .inl).ofBegin m
  have tests : ∀ {b1 : Block}, c = Config.letterR ∨ c = Config.letterW ∨ c = Config.letterP → q.AnswersFrom c n b1 →
      q.AnswersOrAborts c n (if b.res < 0 then b.enterAbort b.res else b1) := fun hc h1 => by
    split
    · exact .inr ⟨not_quiet_of_bus hc, b, b.res, h, hi, Block.InSequence.aborts ⟨rfl, rfl, portHiZPrims_steps _⟩⟩
    · exact .inl h1
  have hcmd := h.cmd
  have hst := h.stage
  simp only [DispRegs.InAnswer, hp, hcmd] at hst
  unfold execTick
  cases hs : b.disp.step <;> simp only [hs] at hst ⊢
  case decode => exact runs (beginCommand_answersFrom _ hc h hi hp hn)
  case fill =>
    refine (fillTick_own m hst).mono fun b' ⟨ho, hst'⟩ => .inl (h.own hi ho ?_ hbody)
    rcases hst' with ⟨⟨hp', hs'⟩, hk⟩ | hp'
    · simpa only [DispRegs.InAnswer, hp', hs'] using hk
    · simp only [DispRegs.InAnswer, hp']
  case setAddress =>
    refine tests (hst.imp_right .inl) (h.own hi (b' := b.clearPending.dispTo .exec .sendData 0)
      ⟨rfl, rfl, rfl, .inl rfl, fun _ _ => rfl⟩ ?_ hbody)
    exact (hcmd.symm ▸ hst : b.disp.cmd = _ ∨ b.disp.cmd = _)
  case sendData => exact runs (beginBusData_answersFrom _ h hi hst)
  case transfer => exact tests (hst.imp_right .inl) (h.to hi trivial hbody)
  case flash =>
    refine .inl (h.own hi (b' := b.setProgActive.dispTo .exec .flashTest 0) ⟨rfl, rfl, rfl, .inl rfl, fun _ _ => rfl⟩ ?_
      hbody)
    exact hcmd.trans hst
  case flashTest => exact tests (.inr (.inr hst)) (h.to hi trivial hbody)

theorem dispTick_answersFrom {p : Peer} {m : Nat} (hc : c ∈ answerCommands) (hn : 0 < n) (h : q.AnswersFrom c n b)
    (hi : b.idleBelow = true) (ha : b.atRest = false) : (dispTick p m b).Ends (q.AnswersOrAborts c n) := by
  have hst := h.stage
  unfold dispTick
  cases hp : b.disp.ph <;> simp only [DispRegs.InAnswer, hp] at hst ⊢
  case header0 => simp [Block.atRest, hi, hp] at ha
  case body =>
    have hR : c ≠ Config.letterR := h.cmd ▸ hst
    by_cases hk : b.disp.k < b.disp.len
    · refine (bodyTick_own p m hp hk).mono fun b' ⟨ho, hp'⟩ => .inl (h.own hi ho ?_ fun _ => hR)
      simpa only [DispRegs.InAnswer, hp', ho.cmd] using hst
    · rw [bodyTick, if_neg hk]
      exact ((afterBody_answersFrom _ h hi hR).mono fun _ => .inl).ofBegin m
  case exec => exact execTick_answersFrom hc hn h hi hp
  case respond =>
    have hC : b.disp.cmd ≠ Config.letterC := fun e => by
      rw [← h.cmd, e] at hc
      exact absurd hc (by decide)
    refine (respondTick_own m hC).mono fun b' ⟨ho, hp'⟩ => .inl (h.own hi ho ?_ fun hb => absurd (hp.symm.trans hb) nofun)
    rcases hp' with hp' | hp' <;> simp only [DispRegs.InAnswer, hp']

/-- A step below the dispatcher that stores into `BUF` below `n`, or in 'P' into the flash sequencer. -/
theorem Block.AnswersFrom.below (hq : q.idleBelow = true) (h : q.AnswersFrom c n b) (hi : b.idleBelow = false)
    (he : b'.lessFlash = { b.lessFlash with buf := b'.buf }) (htail : ∀ a, n ≤ a → b'.buf.read a = b.buf.read a)
    (hs : b'.Stores (answerBuffer c n)) (hl : c ≠ Config.letterP → b'.spi = b.spi ∧ b'.flash = b.flash) :
    q.AnswersFrom c n b' := by
  have hd : b'.disp = b.disp := (congrArg Block.disp he :)
  have hframe : q.AnswerFrame c n b' :=
    ⟨(congrArg Block.lessBus he :).trans h.same, fun a ha => (htail a ha).trans (h.tail a ha),
      fun hP => ⟨(hl hP).1.trans (h.layers hP).1, (hl hP).2.trans (h.layers hP).2⟩,
      fun hR => (congrArg Block.sin he :).trans (h.sin hR)⟩
  refine ⟨hframe, (congrArg Block.rph he :).trans h.rph, hd ▸ h.cmd, hd ▸ h.len, hd ▸ h.stage, hs, fun hc => ?_⟩
  have hb : b.idleBelow = q.idleBelow := (congrArg Block.idleBelow (h.quiet hc) :)
  exact absurd (hi.symm.trans (hb.trans hq)) nofun

theorem tick_below_answersFrom {p : Peer} {m m' : Nat} (hq : q.idleBelow = true) (h : q.AnswersFrom c n b)
    (hi : b.idleBelow = false) (hb : b.tick p m = .moved b' m') : q.AnswersFrom c n b' := by
  obtain ⟨-, -, -, hp, hsq, hfq⟩ := q.idleBelow_iff.mp hq
  have hp : b.per.ph = .idle := (congrArg (·.per.ph) h.same :).trans hp
  by_cases hlow : b.todo = [] ∧ b.host.ph = .idle ∧ b.spi.ph = .idle
  · obtain ⟨ht, hh, hs⟩ := hlow
    have hf : b.flash.ph ≠ .idle := fun hf =>
      absurd (hi.symm.trans (b.idleBelow_iff.mpr ⟨ht, h.rph, hh, hp, hs, hf⟩)) nofun
    have hP : c = Config.letterP := by_contra fun hP => hf ((h.layers hP).2 ▸ hfq)
    replace hb := Block.advance_of_moved hb
    rw [Block.advance_flash p m ht h.rph hh hp hs hf] at hb
    have he := (flashTick_lessFlash.moved hb).1
    have hbuf : b'.buf = b.buf := (congrArg Block.buf he :)
    exact h.below hq hi (he.trans (by rw [hbuf]; rfl)) (fun _ _ => by rw [hbuf])
      ((flashTick_stores h.stores fun _ => .inr ⟨rfl, hP⟩).moved hb) fun hne => absurd hP hne
  · obtain ⟨hs, hst, hspi⟩ := layers_tick h.stores h.rph hp hlow hb
    have hspi : c ≠ Config.letterP → b'.spi = b.spi := fun hP => hspi ((h.layers hP).1 ▸ hsq)
    cases hst with
    | same e =>
      have hbuf : b'.buf = b.buf := (congrArg Block.buf e :)
      exact h.below hq hi (by rw [hbuf]; exact (congrArg Block.lessFlash e :)) (fun _ _ => by rw [hbuf]) hs
        fun hP => ⟨hspi hP, (congrArg Block.flash e :)⟩
    | buf v hok hlt e =>
      have hbuf : b'.buf = b.buf.write _ v := (congrArg Block.buf e :)
      have hn := hok.resolve_right fun hst => absurd hst.1 nofun
      exact h.below hq hi (by rw [hbuf]; exact (congrArg Block.lessFlash e :))
        (fun a ha => by rw [hbuf]; exact Memory.read_write_other _ _ _ _ (by omega)) hs
        fun hP => ⟨hspi hP, (congrArg Block.flash e :)⟩
    | st v hok hlt e =>
      have hbuf : b'.buf = b.buf := (congrArg Block.buf e :)
      obtain ⟨-, hP⟩ := hok.resolve_left fun hst => absurd hst.1 nofun
      exact h.below hq hi (by rw [hbuf]; exact (congrArg Block.lessFlash e :)) (fun _ _ => by rw [hbuf]) hs
        fun hne => absurd hP hne
    | user v hok hlt e => rcases hok with hok | hok <;> exact absurd hok.1 nofun

theorem tick_answersOrAborts {p : Peer} {m m' : Nat} (hq : q.idleBelow = true) (hc : c ∈ answerCommands) (hn : 0 < n)
    (h : q.AnswersOrAborts c n b) (ha : b.atRest = false) (hb : b.tick p m = .moved b' m') : q.AnswersOrAborts c n b' := by
  rcases h with h | ⟨hquiet, q', r, h, hi, hab⟩
  · cases hi : b.idleBelow with
    | false => exact .inl (tick_below_answersFrom hq h hi hb)
    | true =>
      rw [Block.tick_disp p m hi] at hb
      exact (dispTick_answersFrom hc hn h hi ha).moved hb
  · exact .inr ⟨hquiet, q', r, h, hi, aborts_tick (Block.layersIdle_of_idleBelow hi) hab ha hb⟩

/-- An abort leaves unchanged what the command has left unchanged. -/
theorem Block.AnswersOrAborts.frame (h : q.AnswersOrAborts c n b) :
    q.AnswerFrame c n b ∧ (c = Config.letterB ∨ c = Config.letterE → b.lessCommand = q.lessCommand) := by
  rcases h with h | ⟨hquiet, q', r, h, -, hab⟩
  · exact ⟨h.toAnswerFrame, h.quiet⟩
  · have hbuf : b.buf = q'.buf := (congrArg Block.buf hab.same :)
    have hbus : b.lessBus = q'.lessBus :=
      calc b.lessBus = ({ b.lessAbort with role := b.role } : Block).lessBus := rfl
        _ = ({ q'.lessAbort with role := q'.role } : Block).lessBus := by rw [hab.same, hab.role]
        _ = q'.lessBus := rfl
    refine ⟨⟨hbus.trans h.same, hbuf ▸ h.tail, fun hP => ?_, fun hR => (congrArg Block.sin hab.same :).trans (h.sin hR)⟩,
      fun hc => absurd hc hquiet⟩
    obtain ⟨hspi, hflash⟩ := h.layers hP
    exact ⟨(congrArg Block.spi hab.same :).trans hspi, (congrArg Block.flash hab.same :).trans hflash⟩

theorem header_answersFrom {x : Byte} (hq : q.idleBelow = true) :
    q.AnswersFrom c (clampedLength x) (q.header c x) := by
  have hb : (q.header c x).idleBelow = true := hq
  exact ⟨⟨rfl, fun _ _ => rfl, fun _ => ⟨rfl, rfl⟩, fun _ => rfl⟩, (q.idleBelow_iff.mp hq).2.1, rfl, rfl, trivial,
    idle_stores hb, fun _ => rfl⟩

end

theorem exec_answers {s t : State} {i : Instr} {c x : Byte} (hs : s.FarOnly) (hi : Instr.header i = some (c, x))
    (hc : c ∈ answerCommands) (he : exec i s = .next t) : s.near.AnswerFrame c (clampedLength x) t.near ∧
      (c = Config.letterB ∨ c = Config.letterE → t.near.lessCommand = s.near.lessCommand) := by
  rw [exec_eq, start_header hi] at he
  have hq := (s.near.atRest_iff.mp (State.launch_next he).1).1
  have h : s.near.AnswersOrAborts c (clampedLength x) t.near :=
    farOnly_launch (fun _ _ _ _ _ => tick_answersOrAborts hq hc (clampedLength_bounds x).1) hs
      (fun _ _ b' e => Except.ok.inj e ▸ .inl (header_answersFrom hq)) he
  exact h.frame

/-! ### The commands that neither answer nor use the bus (R203, R211) -/

/-- The block without the registers of the dispatcher, which are all that 'A' and the unrecognized command write. -/
def Block.lessRegisters (b : Block) : Block := { b with disp := .afterReset 0 }

theorem pathA_lessRegisters {q b : Block} {a : Byte} (h : b ∈ q.pathA a) : b.lessRegisters = q.lessRegisters := by
  simp only [Block.pathA, List.mem_cons, List.not_mem_nil, or_false] at h
  rcases h with rfl | rfl | rfl | rfl <;> rfl

/-- The header of an unrecognized command is followed by its end (R211). -/
theorem tick_unrecognized {q b b' : Block} {c x : Byte} {p : Peer} {n m : Nat} (hi : q.idleBelow = true)
    (hw : WellFormed.isCommandCode q.par.board c = false) (h : b = q.header c x ∨ b = (q.header c x).endCommand)
    (ha : b.atRest = false) (hb : b.tick p n = .moved b' m) : b' = q.header c x ∨ b' = (q.header c x).endCommand := by
  have hidle : (q.header c x).idleBelow = true := hi
  rcases h with rfl | rfl
  · rw [Block.tick_disp p n hidle] at hb
    have hend : dispTick p n (q.header c x) = .moved (q.header c x).endCommand n :=
      congrArg (Tick.ofBegin n) (beginCommand_unrecognized (b := q.header c x) (peer := p.role) hw)
    exact .inr (Tick.moved.inj (hb.symm.trans hend)).1
  · have hrest : (q.header c x).endCommand.atRest = true := (Block.atRest_iff _).mpr ⟨hidle, .inl rfl⟩
    exact absurd (hrest.symm.trans ha) nofun

theorem exec_unrecognized_lessRegisters {s t : State} {c x : Byte} (hs : s.FarOnly)
    (hw : WellFormed.isCommandCode s.near.par.board c = false) (he : exec (.unrecognized c x) s = .next t) :
    t.near.lessRegisters = s.near.lessRegisters := by
  rw [exec_eq] at he
  have hq := (s.near.atRest_iff.mp (State.launch_next he).1).1
  have h : t.near = s.near.header c x ∨ t.near = (s.near.header c x).endCommand :=
    farOnly_launch (P := fun b => b = s.near.header c x ∨ b = (s.near.header c x).endCommand)
      (fun _ _ _ _ _ => tick_unrecognized hq hw) hs (fun _ _ b' e => .inl (Except.ok.inj e).symm) he
  rcases h with h | h <;> rw [h] <;> rfl

/-- Settles O50: 'A' and the unrecognized command by the states they pass, 'B' and 'E' as commands that answer. -/
theorem quietCommandFrame : Obligations.QuietCommandFrame := by
  intro s t i hs hi he
  have frame : t.near.lessCommand = s.near.lessCommand ∧
      (∀ x, i = .cmdB x ∨ i = .cmdE x → ∀ a, clampedLength x ≤ a → t.near.buf.read a = s.near.buf.read a) ∧
      ((∃ a, i = .cmdA a) ∨ (∃ c x, i = .unrecognized c x) → t.near.lessRegisters = s.near.lessRegisters) := by
    have registers : t.near.lessRegisters = s.near.lessRegisters → t.near.lessCommand = s.near.lessCommand := fun h =>
      (congrArg Block.lessCommand h :)
    rcases hi with ⟨a, rfl⟩ | ⟨c, x, rfl, hw⟩ | ⟨x, rfl⟩ | ⟨x, rfl⟩
    · have h := pathA_lessRegisters (cmdA_path hs he)
      exact ⟨registers h, by simp, fun _ => h⟩
    · have h := exec_unrecognized_lessRegisters hs (by simpa [wellFormed] using hw) he
      exact ⟨registers h, by simp, fun _ => h⟩
    · obtain ⟨hf, hq⟩ := exec_answers hs rfl (by decide) he
      exact ⟨hq (.inl rfl), by simpa using hf.tail, by simp⟩
    · obtain ⟨hf, hq⟩ := exec_answers hs rfl (by decide) he
      exact ⟨hq (.inr rfl), by simpa using hf.tail, by simp⟩
  obtain ⟨hsame, htail, hregs⟩ := frame
  have keeps : ∀ {α : Type} (f : Block → α), f t.near.lessCommand = f s.near.lessCommand := fun f => congrArg f hsame
  refine ⟨keeps Block.par, keeps Block.role, keeps Block.lines, keeps Block.host, keeps Block.per, keeps Block.spi,
    keeps Block.flash, keeps Block.res, keeps Block.ubuf, keeps Block.calls, keeps Block.bus, htail, fun h => ?_⟩
  have h := hregs h
  exact ⟨(congrArg Block.buf h :), (congrArg Block.sin h :), (congrArg Block.sout h :)⟩

/-- Settles O51: each of the three is a command that answers. -/
theorem busCommandFrame : Obligations.BusCommandFrame := by
  intro s t i x hs hi he
  have frame : ∃ c, s.near.AnswerFrame c (clampedLength x) t.near ∧ (i = .cmdR x ∨ i = .cmdW x → c ≠ Config.letterP) ∧
      (i = .cmdR x → c = Config.letterR) := by
    rcases hi with rfl | rfl | rfl
    · exact ⟨Config.letterR, (exec_answers hs rfl (by decide) he).1, fun _ => by decide, fun _ => rfl⟩
    · exact ⟨Config.letterW, (exec_answers hs rfl (by decide) he).1, fun _ => by decide, nofun⟩
    · exact ⟨Config.letterP, (exec_answers hs rfl (by decide) he).1, by simp, nofun⟩
  obtain ⟨c, ⟨hsame, htail, hlayers, hsin⟩, hP, hR⟩ := frame
  have keeps : ∀ {α : Type} (f : Block → α), f t.near.lessBus = f s.near.lessBus := fun f => congrArg f hsame
  exact ⟨keeps Block.par, keeps Block.role, keeps Block.per, keeps Block.ubuf, keeps Block.calls, htail,
    fun h => hlayers (hP h), fun h => hsin (hR h)⟩

end Sys2Proof.Machine
end

section
/-! The command 'C' (R206): what it leaves unchanged whatever the far party does, and its way into the console before a far end
that releases `RST` and its strobes. -/

namespace Sys2Proof.Machine

/-! ### What 'C' leaves unchanged -/

/-- The block without what 'C' writes: the registers of the dispatcher, `SOUT`, the role, its lines and the working state of a
peripheral cycle. -/
def Block.lessConsole (b : Block) : Block :=
  { b.lessPeripheral with role := .host, rph := .idle, disp := .afterReset 0, sout := [] }

/-- Where the dispatcher may be in 'C'. -/
def DispRegs.InC (d : DispRegs) : Prop :=
  d.ph ∈ [.header0, .respond, .console] ∨ d.At .decode ∨ d.At .consoleReset

/-- Nothing but 'C' has run at the end since `q`. -/
structure Block.EntersConsole (q b : Block) : Prop where
  same : b.lessConsole = q.lessConsole
  cmd : b.disp.cmd = Config.letterC
  stage : b.disp.InC
  todo : .storeHost ∉ b.todo

section
variable {q b b' : Block}

theorem Prim.run_lessConsole {x : Prim} (hx : x ≠ .storeHost) {p : Peer} {n : Nat} :
    (x.run p n b).Ends fun b' => b'.lessConsole = b.lessConsole ∧ b'.disp = b.disp ∧ b'.todo = b.todo := by
  cases x with
  | storeHost => exact absurd rfl hx
  | setRole _ | setDir _ _ | setLvl _ _ | delay _ | get _ | storeSlot | senseWrsel | senseAstb => exact ⟨rfl, rfl, rfl⟩

theorem respondTick_entersConsole {n : Nat} (h : q.EntersConsole b) : (respondTick n b).Ends q.EntersConsole := by
  have hreset : Prim.storeHost ∉ resetPrims b.par.settleUs .peripheral := fun hx =>
    absurd (resetPrims_isPort _ _ _ hx) nofun
  unfold respondTick
  rw [if_pos h.cmd]
  split
  · exact ⟨h.same, h.cmd, .inl (by simp), h.todo⟩
  · exact ⟨h.same, h.cmd, .inr (.inr ⟨rfl, rfl⟩), hreset⟩

theorem consoleTick_entersConsole {p : Peer} {n : Nat} (h : q.EntersConsole b) :
    (consoleTick p n b).Ends q.EntersConsole := by
  unfold consoleTick
  split
  · refine StartEnds.ofBegin n (peripheralGuard_ends ?_)
    exact ⟨h.same, h.cmd, .inl (by simp), List.not_mem_nil⟩
  · show q.EntersConsole _
    split <;> exact ⟨h.same, h.cmd, .inl (by simp), h.todo⟩

theorem execTick_entersConsole {p : Peer} {n : Nat} (h : q.EntersConsole b)
    (hst : b.disp.step = .decode ∨ b.disp.step = .consoleReset) : (execTick p n b).Ends q.EntersConsole := by
  unfold execTick
  rcases hst with hst | hst <;> rw [hst] <;> dsimp only
  · refine StartEnds.ofBegin n ?_
    have hC : b.beginCommand p.role = .ok b.beginC := by rw [Block.beginCommand, h.cmd]; rfl
    rw [hC]
    show q.EntersConsole b.beginC
    unfold Block.beginC
    split
    · exact ⟨h.same, h.cmd, .inl (by simp), h.todo⟩
    · exact ⟨h.same, h.cmd, .inl List.mem_cons_self, h.todo⟩
  · exact ⟨h.same, h.cmd, .inl (by simp), h.todo⟩

theorem dispTick_entersConsole {p : Peer} {n : Nat} (h : q.EntersConsole b) (h0 : b.disp.ph ≠ .header0) :
    (dispTick p n b).Ends q.EntersConsole := by
  obtain hp | ⟨hp, hst⟩ | ⟨hp, hst⟩ := h.stage
  · simp only [List.mem_cons, List.not_mem_nil, or_false] at hp
    obtain hp | hp | hp := hp
    · exact absurd hp h0
    · rw [dispTick, hp]
      exact respondTick_entersConsole h
    · rw [dispTick, hp]
      exact consoleTick_entersConsole h
  · rw [dispTick, hp]
    exact execTick_entersConsole h (.inl hst)
  · rw [dispTick, hp]
    exact execTick_entersConsole h (.inr hst)

theorem tick_entersConsole {p : Peer} {n m : Nat} (hq : q.idleBelow = true) (h : q.EntersConsole b)
    (ha : b.atRest = false) (hb : b.tick p n = .moved b' m) : q.EntersConsole b' := by
  obtain ⟨-, -, hh, -, hs, hf⟩ := q.idleBelow_iff.mp hq
  have hh : b.host.ph = .idle := (congrArg (·.host.ph) h.same :).trans hh
  have hs : b.spi.ph = .idle := (congrArg (·.spi.ph) h.same :).trans hs
  have hf : b.flash.ph = .idle := (congrArg (·.flash.ph) h.same :).trans hf
  cases ht : b.todo with
  | cons x r =>
    have htodo : Prim.storeHost ∉ x :: r := ht ▸ h.todo
    obtain ⟨hx, hr⟩ := not_or.mp (List.mem_cons.not.mp htodo)
    replace hb := Block.advance_of_moved hb
    rw [Block.advance_todo p n ht] at hb
    obtain ⟨hsame, hd, ht'⟩ := (Prim.run_lessConsole (Ne.symm hx)).moved hb
    exact ⟨Eq.trans hsame h.same, hd ▸ h.cmd, hd ▸ h.stage, ht' ▸ hr⟩
  | nil =>
    cases hr : b.rph with
    | running =>
      replace hb := Block.advance_of_moved hb
      rw [Block.advance_rph p n ht hr] at hb
      obtain ⟨rfl, -⟩ := Tick.moved.inj hb
      exact ⟨h.same, h.cmd, h.stage, h.todo⟩
    | idle =>
      by_cases hp : b.per.ph = .idle
      · have hi : b.idleBelow = true := b.idleBelow_iff.mpr ⟨ht, hr, hh, hp, hs, hf⟩
        have h0 : b.disp.ph ≠ .header0 := fun h0 =>
          absurd ((b.atRest_iff.mpr ⟨hi, .inl h0⟩).symm.trans ha) nofun
        rw [Block.tick_disp p n hi] at hb
        exact (dispTick_entersConsole h h0).moved hb
      · replace hb := Block.advance_of_moved hb
        rw [Block.advance_per p n ht hr hh hp] at hb
        have hsame := peripheralTick_lessPeripheral.moved hb
        have hd : b'.disp = b.disp := (congrArg Block.disp hsame :)
        exact ⟨(congrArg Block.lessConsole hsame :).trans h.same, hd ▸ h.cmd, hd ▸ h.stage,
          fun hx => absurd (peripheralTick_todo.moved hb _ hx) nofun⟩

end

/-- Settles O52: 'C' sends its banner, runs a `Reset` and then peripheral cycles, and writes nothing else. -/
theorem consoleFrame : Obligations.ConsoleFrame := by
  intro s t x hs he
  rw [exec_eq] at he
  have hq := (s.near.atRest_iff.mp (State.launch_next he).1).1
  have h : s.near.EntersConsole t.near := by
    refine farOnly_launch (fun _ _ _ _ _ => tick_entersConsole hq) hs (fun _ _ b' e => Except.ok.inj e ▸ ?_) he
    exact ⟨rfl, rfl, .inr (.inl ⟨rfl, rfl⟩), fun hx => by
      rw [Block.header_todo, (s.near.idleBelow_iff.mp hq).1] at hx
      cases hx⟩
  have keeps : ∀ {α : Type} (f : Block → α), f t.near.lessConsole = f s.near.lessConsole := fun f => congrArg f h.same
  exact ⟨keeps Block.par, keeps Block.host, keeps Block.spi, keeps Block.flash, fun a => keeps fun b => b.buf.read a,
    keeps Block.sin, keeps Block.res, keeps Block.ubuf, keeps Block.calls, keeps Block.bus⟩

/-! ### The way into the console (R206) -/

/-- A block that shows the idle lines of a host is calm before a far end that shows them too and does nothing. -/
theorem calm_hosted {b : Block} {n : Nat} {c : Bool} (hl : b.lines = .idleHost) :
    (hosted b .idleHost [] n c).Calm := by
  refine ⟨rfl, fun _ => rfl, ?_⟩
  show contended b.lines .idleHost = false
  rw [hl]
  rfl

/-- The banner goes out byte by byte (R206, R213). -/
theorem banner_run {s : State} {n : Nat} (hc : s.Calm) : ∀ (xs : List Byte) (b : Block), b.lines = s.near.lines →
    b.idleBelow = true → b.disp.ph = .respond → b.disp.step = .decode → b.disp.cmd = Config.letterC →
    b.par.banner.drop b.disp.k = xs →
    Reaches xs.length (s.on b n)
      (s.on (({ b with sout := b.sout ++ xs } : Block).dispTo .respond .decode (b.disp.k + xs.length)) n) := by
  intro xs
  induction xs with
  | nil =>
    intro b _ _ hph hst _ _
    have e : ({ b with sout := b.sout ++ [] } : Block).dispTo .respond .decode (b.disp.k + 0) = b := by
      simp only [List.append_nil, Block.dispTo, Nat.add_zero, ← hph, ← hst]
    rw [List.length_nil, e]
    exact .refl _
  | cons x xs ih =>
    intro b hb hi hph hst hcmd hx
    let b2 := ({ b with sout := b.sout ++ [x] } : Block).dispTo .respond .decode (b.disp.k + 1)
    have hget : b.par.banner[b.disp.k]? = some x := by
      rw [← Nat.add_zero b.disp.k, ← List.getElem?_drop, hx]
      rfl
    have s1 : Reaches 1 (s.on b n) (s.on b2 n) := by
      refine calm_disp hc hb hi (by simp [hph]) (by simp [hph]) ?_ rfl
      simp only [dispTick, hph, respondTick, hcmd, if_true, hget, b2]
    have s2 := ih b2 hb hi rfl rfl hcmd (by
      show b.par.banner.drop (b.disp.k + 1) = xs
      rw [← List.drop_drop, hx]
      rfl)
    have e : ({ b2 with sout := b2.sout ++ xs } : Block).dispTo .respond .decode (b2.disp.k + xs.length) =
        ({ b with sout := b.sout ++ x :: xs } : Block).dispTo .respond .decode (b.disp.k + (x :: xs).length) := by
      simp only [b2, Block.dispTo, List.append_assoc, List.cons_append, List.nil_append, List.length_cons,
        Nat.add_assoc, Nat.add_comm 1]
    rw [e] at s2
    have s := s1.trans s2
    rwa [Nat.add_comm] at s

/-- After the banner 'C' calls its `Reset` (R206). -/
theorem respondTick_banner_end {b : Block} {n : Nat} (hcmd : b.disp.cmd = Config.letterC)
    (h : b.par.banner[b.disp.k]? = none) :
    respondTick n b = .moved ((b.dispTo .exec .consoleReset 0).beginReset .peripheral) n := by
  simp only [respondTick, hcmd, if_true, h]

/-- A list of primitives of a line sequence along which no wire is contended with lines that stay at `T`. -/
def portClear (T : Lines) : List Prim → Lines → Bool
  | [], _ => true
  | x :: r, L => x.isPort && !contended (x.onLines L) T && portClear T r (x.onLines L)

/-- A line sequence before a far end that does nothing, to its last primitive. -/
theorem hosted_port {T : Lines} {n : Nat} {c : Bool} : ∀ (todo : List Prim) (b : Block), b.todo = todo →
    b.host.ph = .idle → b.per.ph = .idle → portClear T todo b.lines = true →
    Reaches todo.length (hosted b T [] n c) (hosted b.afterTodo T [] n c) := by
  intro todo
  induction todo with
  | nil =>
    intro b ht _ _ _
    rw [Block.afterTodo_nil ht]
    exact .refl _
  | cons x r ih =>
    intro b ht hh hp hq
    simp only [portClear, Bool.and_eq_true, Bool.not_eq_true'] at hq
    obtain ⟨⟨hx, hc⟩, hq⟩ := hq
    have s1 := hosted_tick (Ls := []) (c := c) (Block.not_atRest_of_todo ht)
      (tick_port (targetPeer T) n ht hx hh hp) hc
    have s2 := s1.trans (ih { b with lines := x.onLines b.lines, role := x.onRole b.role, todo := r } rfl hh hp hq)
    rw [← Block.afterTodo_cons ht] at s2
    rwa [Nat.add_comm] at s2

/-- The block once the `Reset` of 'C' is done and the first cycle of the console waits for a strobe, with the slot drawn at
`n`. -/
abbrev Block.consoleWaits (b : Block) (n : Nat) : Block :=
  { b with
    lines := .idlePeripheral, role := .peripheral, per := { b.per with slot := Config.byteDraw n, ph := .strobeWait },
    disp := { b.disp with ph := .console, step := .decode, k := 0 } }

/-- The `Reset` of 'C', its draw of the slot, and the call of the first cycle up to its wait for a strobe (R206, R151). -/
theorem console_run {b : Block} {n : Nat} {c : Bool} (hi : b.idleBelow = true) (hl : b.lines = .idleHost)
    (hd : b.disp.At .consoleReset) : ReachesWithin 51 (hosted (b.beginReset .peripheral) .idleHost [] n c)
      (hosted (b.consoleWaits n) .idleHost [] (n + 1) c) := by
  obtain ⟨ht, hr, hh, hp, hs, hf⟩ := b.idleBelow_iff.mp hi
  obtain ⟨hph, hst⟩ := hd
  let b1 : Block := { b with lines := .idlePeripheral, role := .peripheral, todo := [], rph := .running }
  let b2 : Block := { b1 with rph := .idle }
  let b3 := ({ b2 with per := { b.per with slot := Config.byteDraw n } } : Block).dispTo .console .cycle 0
  let b4 := (b3.dispTo .console .decode 0).perTo .check []
  have hidle : b2.idleBelow = true := b2.idleBelow_iff.mpr ⟨rfl, rfl, hh, hp, hs, hf⟩
  have s1 := hosted_port (T := .idleHost) (n := n) (c := c) _ (b.beginReset .peripheral) rfl hh hp (by
    show portClear _ _ b.lines = true
    rw [hl]
    rfl)
  rw [show (b.beginReset .peripheral).afterTodo = b1 by
    simp only [Block.afterTodo, Block.beginReset, resetPrims_lines, resetPrims_role, Lines.idleOf, b1]] at s1
  have s2 : Reaches 1 (hosted b1 .idleHost [] n c) (hosted b2 .idleHost [] n c) :=
    hosted_tick (Block.not_atRest_of_rph rfl) (tick_rph _ _ rfl rfl hh hp) rfl
  have s3 : Reaches 1 (hosted b2 .idleHost [] n c) (hosted b3 .idleHost [] (n + 1) c) := by
    refine hosted_tick (Block.not_atRest_of_disp ?_ ?_) ?_ rfl
    · exact fun h => absurd (hph.symm.trans h) nofun
    · exact fun h => absurd (hph.symm.trans h) nofun
    · rw [Block.tick_disp _ _ hidle]
      simp only [dispTick, b2, b1, hph, execTick, hst, b3]
  have s4 : Reaches 1 (hosted b3 .idleHost [] (n + 1) c) (hosted b4 .idleHost [] (n + 1) c) :=
    hosted_tick (Block.not_atRest_of_disp DPhase.noConfusion DPhase.noConfusion)
      (by rw [Block.tick_disp _ _ (show b3.idleBelow = true from hidle)]; rfl) rfl
  have s5 : Reaches 1 (hosted b4 .idleHost [] (n + 1) c) (hosted (b.consoleWaits n) .idleHost [] (n + 1) c) := by
    have e : b4.perTo .strobeWait [] = b.consoleWaits n := by
      simp only [b4, b3, b2, b1, Block.perTo, Block.dispTo, ← ht, ← hr]
    rw [← e]
    exact hosted_per rfl rfl hh PPhase.noConfusion rfl rfl
  exact (s1.trans (s2.trans (s3.trans (s4.trans s5)))).within.mono
    (Nat.add_le_add_right (resetPrims_length _ _) 4)

/-- The console waits for a strobe that the far end holds released. -/
theorem consoleWaits_stuck {b : Block} {n m : Nat} {c : Bool} (hi : b.idleBelow = true) :
    (hosted (b.consoleWaits n) .idleHost [] m c).turn = .stuck (hosted (b.consoleWaits n) .idleHost [] m c) := by
  obtain ⟨ht, hr, hh, -⟩ := b.idleBelow_iff.mp hi
  have htick : (b.consoleWaits n).tick (targetPeer .idleHost) m = .waiting m := by
    rw [live_own, Block.advance_per (b := b.consoleWaits n) _ _ ht hr hh PPhase.noConfusion]
    rfl
  have hturn : (hosted (b.consoleWaits n) .idleHost [] m c).turn =
      (hosted (b.consoleWaits n) .idleHost [] m c).tickNear := rfl
  have htick : (hosted (b.consoleWaits n) .idleHost [] m c).near.tick
      (hosted (b.consoleWaits n) .idleHost [] m c).far.asPeer (hosted (b.consoleWaits n) .idleHost [] m c).drawn =
      .waiting m := htick
  rw [hturn, State.tickNear, htick]
  rfl

/-- 'C' from its header to the wait of the first cycle of the console. -/
theorem cmdC_run {s : State} {x : Byte} (hr : s.HostReady) (hb : s.near.par.board = .host) (hs : s.script = [])
    (hf : s.far = .target ⟨.idleHost, false, []⟩) :
    ReachesWithin (s.near.par.banner.length + 53) { s with near := s.near.header Config.letterC x }
      (hosted (({ s.near.header Config.letterC x with sout := s.near.sout ++ s.near.par.banner } : Block).consoleWaits
        s.drawn) .idleHost [] (s.drawn + 1) s.contention) := by
  obtain ⟨hrest, hd, -, hl⟩ := hr
  have hi : s.Idle := ⟨hrest, hd⟩
  have hnear := hosted_near (s := s) (Ls := []) hf hs
  have hc : s.Calm := by
    rw [show s = hosted s.near .idleHost [] s.drawn s.contention from hnear s.near]
    exact calm_hosted hl
  let b1 := (s.near.header Config.letterC x).dispTo .respond .decode 0
  let b2 := ({ b1 with sout := s.near.sout ++ s.near.par.banner } : Block).dispTo .respond .decode
    (0 + s.near.par.banner.length)
  let b3 := b2.dispTo .exec .consoleReset 0
  have s1 := header_decodes (c := Config.letterC) (x := x) (b := b1) hi hc
    (congrArg Except.ok (if_pos hb : (s.near.header Config.letterC x).beginC = b1)) rfl
  have s2 := banner_run (n := s.drawn) hc s.near.par.banner b1 rfl hi.below rfl rfl rfl rfl
  have s3 : Reaches 1 (s.on b2 s.drawn) (s.on (b3.beginReset .peripheral) s.drawn) := by
    refine calm_disp hc rfl hi.below DPhase.noConfusion DPhase.noConfusion ?_ rfl
    have hend : b2.par.banner[b2.disp.k]? = none := by
      show s.near.par.banner[0 + s.near.par.banner.length]? = none
      exact List.getElem?_eq_none (by omega)
    exact respondTick_banner_end rfl hend
  have s4 := console_run (b := b3) (n := s.drawn) (c := s.contention) hi.below hl ⟨rfl, rfl⟩
  have hpre := (s1.trans (s2.trans s3)).within
  rw [State.on, State.on, hnear, hnear] at hpre
  rw [hnear]
  exact (hpre.trans s4).mono (by omega)

/-- Settles O38: the run into the console, which then has no step; on another board the unrecognized command. -/
theorem consoleCommand : Obligations.ConsoleCommand := by
  refine ⟨fun s x hr hb hs hf hlen => ?_, fun s x hi hc hb => ?_⟩
  · have hi := (s.near.atRest_iff.mp hr.1).1
    have hrun := cmdC_run (x := x) hr hb hs hf
    have hrest : Block.atRest (({ s.near.header Config.letterC x with
        sout := s.near.sout ++ s.near.par.banner } : Block).consoleWaits s.drawn) = false :=
      Block.not_atRest_of_per PPhase.noConfusion
    have hburst : s.near.par.banner.length + 53 < Config.burst := lt_of_le_of_lt (Nat.add_le_add_right hlen 53) (by decide)
    have hexec := run_of_stuck hrun hburst hrest (consoleWaits_stuck hi)
    rw [← State.launch_ok hr.1 hr.2.1, ← start_header (i := .cmdC x) rfl s.far.role, ← exec_eq] at hexec
    have htodo : ∀ r, Prim.setRole r ∉ s.near.todo := by
      rw [(s.near.idleBelow_iff.mp hi).1]
      exact fun _ => List.not_mem_nil
    exact ⟨_, hexec, rfl, ⟨rfl, rfl, htodo⟩, rfl, rfl, rfl, rfl, rfl, rfl, rfl, rfl⟩
  · have hw : WellFormed.isCommandCode s.near.par.board Config.letterC = false := by rw [hb]; rfl
    exact exec_unrecognized hi hc hw

end Sys2Proof.Machine
end

section
/-! The bus commands 'R' and 'W' of a ready host against a live external target (R208, R209, R216): the pending address, then the
data transfer, then the response. -/

namespace Sys2Proof.Machine

/-! ### The bus activity (R208, R209, R216) -/

/-- The cycle of the pending address, if there is one. -/
def Block.pendingCycle (b : Block) : List Cycle := if b.disp.pendValid then [⟨true, false, b.disp.pendAddr⟩] else []

/-- `b'` is `b` with its pending address sent, about to call the data transfer (R216). -/
structure Block.AddressSent (b b' : Block) : Prop where
  ready : b'.Ready
  same : b'.lessEngine = ({ b with disp := { b.disp with
    pendValid := false, ph := .exec, step := .transfer, k := 0 } } : Block).lessEngine
  bus : b'.bus = b.bus ++ b.pendingCycle

/-- A step of the dispatcher of a ready host before a live target. -/
theorem live_disp {b b' : Block} {rs : List Byte} {n : Nat} {c : Bool} (hb : b.Ready) (hf : b.flash.ph = .idle)
    (h0 : b.disp.ph ≠ .header0) (h1 : b.disp.ph ≠ .halted)
    (ht : dispTick (targetPeer .targetReady) n b = .moved b' n) (hl : b'.lines = b.lines) :
    Reaches 1 (live b .targetReady rs n c) (live b' .targetReady rs n c) :=
  calm_disp (calm_live (rs := rs) (n := n) (c := c) hb.lines) rfl
    (b.idleBelow_iff.mpr ⟨hb.todo, hb.rph, hb.host, hb.per, hb.spi, hf⟩) h0 h1 ht hl

theorem beginBusData_ok {b : Block} (h : b.role = .host) (hlen : b.disp.len ≤ 128) : b.beginBusData none =
    .ok ((b.dispTo .exec .transfer 0).begun .buf b.disp.len (b.disp.cmd == Config.letterR) false) :=
  Block.beginTransaction_ok (b := b.dispTo .exec .transfer 0) h hlen

/-- From the start of the bus activity to the data transfer: the pending address goes out first, if there is one. -/
theorem address_run {b : Block} {rs : List Byte} {n : Nat} {c : Bool} (hb : b.Ready) (hf : b.flash.ph = .idle)
    (hlen : b.disp.len ≤ 128) : ∃ b1 b', b.beginBus none = .ok b1 ∧ b1.lines = b.lines ∧ b.AddressSent b' ∧
      ReachesWithin 54 (live b1 .targetReady rs n c)
        (live (b'.begun .buf b.disp.len (b.disp.cmd == Config.letterR) false) .targetReady rs n c) := by
  obtain ⟨hrph, hper, hhost, hspi, htodo, hlines, hrole⟩ := hb
  unfold Block.beginBus
  cases hv : b.disp.pendValid with
  | false =>
    refine ⟨_, b.dispTo .exec .transfer 0, beginBusData_ok hrole hlen, rfl,
      ⟨⟨hrph, hper, hhost, hspi, htodo, hlines, hrole⟩, ?_, ?_⟩, (ReachesWithin.refl _).mono (Nat.zero_le _)⟩
    · simp only [Block.dispTo, ← hv]
    · simp [Block.pendingCycle, hv]
  | true =>
    let b0 := b.dispTo .exec .setAddress 0
    let b2 := b0.wrote .pendAddr true [b.disp.pendAddr]
    let b3 := b2.clearPending.dispTo .exec .sendData 0
    let b4 := b3.dispTo .exec .transfer 0
    have hready : b3.Ready := ⟨hrph, hper, rfl, hspi, rfl, rfl, hrole⟩
    have s1 := write_transaction (b := b0) (rs := rs) (n := n) (c := c) (ref := .pendAddr) (ac := true) [b.disp.pendAddr]
      hrph hlines fun j hj => by
        obtain rfl : j = 0 := Nat.lt_one_iff.mp hj
        rfl
    have s2 : Reaches 1 (live b2 .targetReady rs n c) (live b3 .targetReady rs n c) :=
      live_disp ⟨hrph, hper, rfl, hspi, rfl, rfl, hrole⟩ hf DPhase.noConfusion DPhase.noConfusion rfl rfl
    have s3 : Reaches 1 (live b3 .targetReady rs n c)
        (live (b4.begun .buf b.disp.len (b.disp.cmd == Config.letterR) false) .targetReady rs n c) :=
      live_disp hready hf DPhase.noConfusion DPhase.noConfusion
        (congrArg (Tick.ofBegin n) (beginBusData_ok (b := b3) hrole hlen)) rfl
    refine ⟨_, b4, Block.beginTransaction_ok (b := b0) hrole (by decide), rfl,
      ⟨⟨hrph, hper, rfl, hspi, rfl, rfl, hrole⟩, rfl, ?_⟩, s1.trans (s2.trans s3).within⟩
    simp [b4, b3, b2, b0, Block.pendingCycle, hv, Block.dispTo, Block.clearPending]

/-- `b'` is `b` with its pending address sent and the data transfer of the cycles `cycles` done (R208, R209). -/
structure Block.Transferred (b : Block) (cycles : List Cycle) (b' : Block) : Prop where
  ready : b'.Ready
  same : b'.lessEngine = ({ b with
    buf := b'.buf,
    disp := { b.disp with pendValid := false, ph := .exec, step := .transfer, k := 0 } } : Block).lessEngine
  bus : b'.bus = b.bus ++ b.pendingCycle ++ cycles
  res : 0 ≤ b'.res

theorem Block.AddressSent.transferred {b b2 b3 : Block} {cycles : List Cycle} (h : b.AddressSent b2) (hr : b3.Ready)
    (he : b3.lessEngine = ({ b2 with buf := b3.buf } : Block).lessEngine) (hb : b3.bus = b2.bus ++ cycles)
    (hres : 0 ≤ b3.res) : b.Transferred cycles b3 :=
  ⟨hr, he.trans (congrArg (fun x : Block => { x with buf := b3.buf }) h.same), by rw [hb, h.bus], hres⟩

section
variable {b b' : Block} {cycles : List Cycle}

theorem Block.Transferred.disp (h : b.Transferred cycles b') :
    b'.disp = { b.disp with pendValid := false, ph := .exec, step := .transfer, k := 0 } := (congrArg Block.disp h.same :)

theorem Block.Transferred.flash (h : b.Transferred cycles b') : b'.flash = b.flash := (congrArg Block.flash h.same :)

/-- The transfer has returned its count, which is not negative: the response follows (R208, R209). -/
theorem Block.Transferred.responds {rs : List Byte} {n : Nat} {c : Bool} (h : b.Transferred cycles b')
    (hf : b.flash.ph = .idle) :
    Reaches 1 (live b' .targetReady rs n c) (live (b'.dispTo .respond .decode 0) .targetReady rs n c) := by
  refine live_disp h.ready (h.flash ▸ hf) (by simp [h.disp]) (by simp [h.disp]) ?_ rfl
  simp only [dispTick, execTick, h.disp, not_lt.mpr h.res, if_false]

end

/-- What a bus command leaves of `b` when it has ended: the response `out` sent, no address pending, and the cycles of the pending
address and of the data on the bus. -/
structure Block.BusDone (b : Block) (sin out : List Byte) (buf : Memory) (cycles : List Cycle) (b' : Block) : Prop where
  ready : b'.Ready
  flash : b'.flash.ph = .idle
  ph : b'.disp.ph = .header0
  sin : b'.sin = sin
  sout : b'.sout = b.sout ++ out
  buf : b'.buf = buf
  bus : b'.bus = b.bus ++ b.pendingCycle ++ cycles
  valid : b'.disp.pendValid = false
  addr : b'.disp.pendAddr = b.disp.pendAddr
  prog : b'.disp.progActive = b.disp.progActive

/-- The response `out` is the last that a command of the bus does. -/
theorem Block.Transferred.done {b b' : Block} {cycles : List Cycle} {out : List Byte} {m : Memory}
    (h : b.Transferred cycles b') (hf : b.flash.ph = .idle) (hm : b'.buf = m) :
    b.BusDone b.sin out m cycles ({ b'.dispTo .respond .decode 0 with sout := b'.sout ++ out } : Block).endCommand := by
  obtain ⟨hrph, hper, hhost, hspi, htodo, hlines, hrole⟩ := h.ready
  exact ⟨⟨hrph, hper, hhost, hspi, htodo, hlines, hrole⟩, h.flash ▸ hf, rfl, (congrArg Block.sin h.same :),
    congrArg (· ++ out) (congrArg Block.sout h.same :), hm, h.bus, (congrArg DispRegs.pendValid h.disp :),
    (congrArg DispRegs.pendAddr h.disp :), (congrArg DispRegs.progActive h.disp :)⟩

/-! ### 'R' (R208) -/

/-- From the start of the bus activity of 'R' to its end. -/
theorem busRead_run {b : Block} {rs rest : List Byte} {n : Nat} {c : Bool} (hb : b.Ready) (hf : b.flash.ph = .idle)
    (hcmd : b.disp.cmd = Config.letterR) (hlen : rs.length = b.disp.len) (h128 : b.disp.len ≤ 128) :
    ∃ b1 b', b.beginBus none = .ok b1 ∧ b1.lines = b.lines ∧
      b.BusDone b.sin rs (b.buf.writeAll 0 rs) (rs.map fun x => ⟨false, true, x⟩) b' ∧
      ReachesWithin 5000 (live b1 .targetReady (rs ++ rest) n c) (live b' .targetReady rest n c) := by
  obtain ⟨b1, b2, h1, hl, hsent, s1⟩ := address_run (rs := rs ++ rest) (n := n) (c := c) hb hf h128
  obtain ⟨hrph, hper, -, hspi, -, hlines, hrole⟩ := hsent.ready
  let b3 := b2.gathered .buf false rs
  let b4 := b3.dispTo .respond .decode 0
  have hbuf : b3.buf = b.buf.writeAll 0 rs := congrArg (·.writeAll 0 rs) (congrArg Block.buf hsent.same :)
  have ht : b.Transferred (rs.map fun x => ⟨false, true, x⟩) b3 :=
    hsent.transferred ⟨hrph, hper, rfl, hspi, rfl, rfl, hrole⟩ rfl rfl (Int.natCast_nonneg _)
  have hlen4 : b4.disp.len = b.disp.len := (congrArg DispRegs.len ht.disp :)
  have hcmd4 : b4.disp.cmd = Config.letterR := (congrArg DispRegs.cmd ht.disp :).trans hcmd
  rw [hcmd, ← hlen] at s1
  have s2 := read_transaction (b := b2) (rs := rest) (n := n) (c := c) (ref := .buf) (ac := false) rs hrph hlines
    fun j hj => .inl ⟨rfl, show j < 128 by omega⟩
  have s3 := ht.responds (rs := rest) (n := n) (c := c) hf
  have s4 := respond_run (s := live b4 .targetReady rest n c) (n := n) (calm_live rfl) rs b4 rfl
    (b4.idleBelow_iff.mpr ⟨rfl, hrph, rfl, hper, hspi, ht.flash ▸ hf⟩) rfl rfl (by rw [hcmd4]; decide)
    (by rw [hcmd4]; decide) (by rw [hcmd4]; decide) ((Nat.zero_add _).trans (hlen.trans hlen4.symm)) fun j hj => by
      show b4.bufRead .buf (0 + j) n = _
      rw [Nat.zero_add]
      exact bufRead_writeAll hbuf (show rs.length ≤ 128 by omega) hj
  exact ⟨b1, _, h1, hl, ht.done hf hbuf, (s1.trans (s2.trans (s3.trans s4).within)).mono (by omega)⟩

/-- 'R' completes (R208). -/
theorem readCommand_completes {s : State} {lm1 : Byte} {rs rest : List Byte} (hr : s.HostReady)
    (hl : s.LiveTarget (rs ++ rest)) (hlen : rs.length = clampedLength lm1) :
    ∃ b', s.Completes (.cmdR lm1) b' rest ∧ (s.near.header Config.letterR lm1).BusDone s.near.sin rs
      (s.near.buf.writeAll 0 rs) (rs.map fun x => ⟨false, true, x⟩) b' := by
  obtain ⟨hready, hf, hd⟩ := State.hostReady_iff.mp hr
  have hheader : (s.near.header Config.letterR lm1).Ready :=
    ⟨hready.rph, hready.per, hready.host, hready.spi, hready.todo, hready.lines, hready.role⟩
  obtain ⟨b1, b', h1, hlines, hdone, hbus⟩ := busRead_run (rest := rest) (n := s.drawn) (c := s.contention) hheader hf rfl
    hlen (clampedLength_bounds lm1).2
  have hdecode := header_decodes (c := Config.letterR) (x := lm1) (b := b1) ⟨hr.1, hd⟩ (hl.calm hr)
    (by rw [hl.role]; exact h1) hlines
  rw [State.on, State.on, hl.ended_near, hl.ended_near] at hdecode
  exact ⟨b', completes_of_run hr hl rfl (hdecode.within.trans hbus) (by decide) hdone.ready hdone.flash hdone.ph, hdone⟩

/-- A cell of `BUF` after the bytes `xs` were written to its start. -/
theorem Memory.read_writeAll_zero (m : Memory) (xs : List Byte) :
    (∀ a, a < xs.length → (m.writeAll 0 xs).read a = xs[a]?) ∧
      ∀ a, xs.length ≤ a → (m.writeAll 0 xs).read a = m.read a := by
  refine ⟨fun a h => ?_, fun a h => Memory.read_writeAll_other (.inr (by omega))⟩
  have hread := Memory.read_writeAll (m := m) (a := 0) h
  rwa [Nat.zero_add] at hread

/-- Settles O35: 'R' completes, and `BUF` holds the replies. -/
theorem readCommand : Obligations.ReadCommand := by
  intro s lm1 rs rest hr hl hlen
  obtain ⟨b', ⟨hexec, hend⟩, hdone⟩ := readCommand_completes hr hl hlen
  obtain ⟨hin, hout⟩ := Memory.read_writeAll_zero s.near.buf rs
  rw [← hdone.buf, hlen] at hin hout
  exact ⟨_, hexec, hend, ⟨rfl, rfl⟩, rfl, hdone.sout, hdone.sin, hdone.bus, hin, hout, hdone.valid, hdone.addr, hdone.prog⟩

/-! ### 'W' (R209) -/

/-- From the start of the bus activity of 'W', its body in `BUF`, to its end. -/
theorem busWrite_run {b : Block} {m : Memory} {body rs : List Byte} {n : Nat} {c : Bool} (hb : b.Ready)
    (hf : b.flash.ph = .idle) (hcmd : b.disp.cmd = Config.letterW) (hlen : body.length = b.disp.len)
    (h128 : b.disp.len ≤ 128) (hbuf : b.buf = m.writeAll 0 body) :
    ∃ b1 b', b.beginBus none = .ok b1 ∧ b1.lines = b.lines ∧
      b.BusDone b.sin [ackByte b.disp.len] b.buf (body.map fun x => ⟨false, false, x⟩) b' ∧
      ReachesWithin 5000 (live b1 .targetReady rs n c) (live b' .targetReady rs n c) := by
  obtain ⟨b1, b2, h1, hl, hsent, s1⟩ := address_run (rs := rs) (n := n) (c := c) hb hf h128
  obtain ⟨hrph, hper, -, hspi, -, hlines, hrole⟩ := hsent.ready
  let b3 := b2.wrote .buf false body
  let b4 := b3.dispTo .respond .decode 0
  have hbuf2 : b2.buf = b.buf := (congrArg Block.buf hsent.same :)
  have ht : b.Transferred (body.map fun x => ⟨false, false, x⟩) b3 :=
    hsent.transferred ⟨hrph, hper, rfl, hspi, rfl, rfl, hrole⟩ rfl rfl (Int.natCast_nonneg _)
  have hlen4 : b4.disp.len = b.disp.len := (congrArg DispRegs.len ht.disp :)
  have hcmd4 : b4.disp.cmd = Config.letterW := (congrArg DispRegs.cmd ht.disp :).trans hcmd
  rw [hcmd, ← hlen] at s1
  have s2 := write_transaction (b := b2) (rs := rs) (n := n) (c := c) (ref := .buf) (ac := false) body hrph hlines
    fun j hj => bufRead_writeAll (hbuf2.trans hbuf) (show body.length ≤ 128 by omega) hj
  have s3 := ht.responds (rs := rs) (n := n) (c := c) hf
  have s4 : Reaches 1 (live b4 .targetReady rs n c)
      (live ({ b4 with sout := b4.sout ++ [ackByte b.disp.len] } : Block).endCommand .targetReady rs n c) := by
    refine live_disp ⟨hrph, hper, rfl, hspi, rfl, rfl, hrole⟩ (ht.flash ▸ hf) DPhase.noConfusion DPhase.noConfusion ?_ rfl
    have hC : ¬Config.letterW = Config.letterC := by decide
    show respondTick n b4 = _
    simp only [respondTick, hcmd4, hlen4, hC, if_false, true_or, if_true]
  exact ⟨b1, _, h1, hl, ht.done hf hbuf2, (s1.trans (s2.trans (s3.trans s4).within)).mono (by omega)⟩

/-- 'W' with its body in `BUF`, about to begin its bus activity (R209). -/
abbrev Block.writeCommand (b : Block) (lm1 : Byte) (sin body : List Byte) : Block :=
  { b.header Config.letterW lm1 with
    sin := sin, buf := b.buf.writeAll 0 body,
    disp := { (b.header Config.letterW lm1).disp with ph := .body, k := clampedLength lm1 } }

/-- 'W' completes: its body first, then the bus activity (R209). -/
theorem writeCommand_completes {s : State} {lm1 : Byte} {body rest rs : List Byte} (hr : s.HostReady)
    (hl : s.LiveTarget rs) (hlen : body.length = clampedLength lm1) (hsin : s.near.sin = body ++ rest) :
    ∃ b', s.Completes (.cmdW lm1) b' rs ∧ (s.near.writeCommand lm1 rest body).BusDone rest
      [ackByte (clampedLength lm1)] (s.near.buf.writeAll 0 body) (body.map fun x => ⟨false, false, x⟩) b' := by
  obtain ⟨hready, hf, hd⟩ := State.hostReady_iff.mp hr
  obtain ⟨-, h128⟩ := clampedLength_bounds lm1
  have hi : s.Idle := ⟨hr.1, hd⟩
  have hcalm := hl.calm hr
  have hbody : (s.near.writeCommand lm1 rest body).Ready :=
    ⟨hready.rph, hready.per, hready.host, hready.spi, hready.todo, hready.lines, hready.role⟩
  obtain ⟨b1, b', h1, hlines, hdone, hbus⟩ := busWrite_run (m := s.near.buf) (rs := rs) (n := s.drawn) (c := s.contention)
    hbody hf rfl hlen h128 rfl
  have s1 := header_decodes (c := Config.letterW) (x := lm1) (b := (s.near.header Config.letterW lm1).beginBody) hi hcalm
    rfl rfl
  have s2 := body_run (n := s.drawn) (b1 := b1) hcalm rest body (s.near.header Config.letterW lm1).beginBody rfl hi.below
    rfl rfl hsin ((Nat.zero_add _).trans hlen) h128 (by rw [hl.role]; exact h1) hlines
  have hbegin := (s1.trans s2).within
  rw [State.on, State.on, hl.ended_near, hl.ended_near] at hbegin
  refine ⟨b', completes_of_run hr hl rfl (hbegin.trans hbus) ?_ hdone.ready hdone.flash hdone.ph, hdone⟩
  exact le_trans (show 1 + (body.length + 1) + 5000 ≤ 5130 by omega) (by decide)

/-- Settles O36: 'W' completes, and `BUF` holds its body. -/
theorem writeCommand : Obligations.WriteCommand := by
  intro s lm1 body rest rs hr hl hlen hsin
  obtain ⟨b', ⟨hexec, hend⟩, hdone⟩ := writeCommand_completes hr hl hlen hsin
  obtain ⟨hin, hout⟩ := Memory.read_writeAll_zero s.near.buf body
  rw [← hdone.buf, hlen] at hin hout
  exact ⟨_, hexec, hend, ⟨rfl, rfl⟩, rfl, hdone.sout, hdone.sin, hdone.bus, hin, hout, hdone.valid, hdone.addr, hdone.prog⟩

end Sys2Proof.Machine
end
